-- ==== Sys2Proof/Word.lean ====
section
/-! DEFINITION. The words of the machine (R6, R19): a doubleword, a word, a half and a byte, and the
sparse tables that hold state keyed by a number. -/

namespace Sys2Proof

/-- A doubleword: the width of a scalar register and of a system register (R19, R27). -/
abbrev Word := BitVec 64

/-- A 32-bit word (R6). -/
abbrev W32 := BitVec 32

/-- A byte (R6). -/
abbrev Byte := BitVec 8

/-- A sparse table: pairs of a key and a value, keys strictly rising. What an unlisted key holds is
said where the table is used. -/
abbrev SMap (α : Type) := List (Nat × α)

end Sys2Proof
end

