-- ==== Sys2Proof/Config.lean ====
section
/-! DEFINITION. What an implementation chooses: the free values of R9 and R11, which nothing in Lean
can evaluate, and the fixed numbers of the module. -/

namespace Sys2Proof.Config

/-- The value that the module chooses at moment `t` for the thing that `what` names (R9, R11, R74,
R135, R253, R268, R270 and every other latitude). It has no body: a statement about it holds for every
value. Log entries 1 and 3. -/
opaque choose (t : Nat) (what : List Nat) : Nat

/-- The byte that the owner of host memory or of peer memory has put at physical address `pa` before
any access of the module (R288). It has no body. Log entry 5. -/
opaque ownerByte (pa : Nat) : Byte

/-- The SM3 digest of the ROM (index 1), of the Uzoduja firmware that runs before any module reset (2), and of the
base-die and walker firmware (3) (R373). It has no body. Log entry 5. -/
opaque measurement (index : Nat) : BitVec 256

/-- SM3 (R372, R373). It has no body. Log entry 103. -/
opaque sm3 (bytes : List Byte) : BitVec 256

/-- The SM2 check of a signature over a digest under a public key (R372). It has no body. Log entry 103. -/
opaque sm2Accepts (key : List Byte) (digest : BitVec 256) (signature : List Byte) : Bool

/-- The SM2 signature of the module's identity over a message (R373). It has no body. Log entry 103. -/
opaque sm2Sign (message : List Byte) : List Byte

/-- The certificate chain of slot 0 (R373). It has no body. Log entry 103. -/
opaque certificates : List Byte

/-- The hash of the public key that is fused into the module (R372). It has no body. Log entry 103. -/
opaque fusedKey : BitVec 256

/-- The fused minimum version of the firmware (R372). It has no body. Log entry 103. -/
opaque minVersion : Nat

/-- A byte of SM4-GCM ciphertext: under key `key`, write counter `ctr`, at host address `pa` (R374). It has no body.
Log entry 79. -/
opaque sm4Byte (key ctr pa : Nat) (b : Byte) : Byte

/-- The SM4-GCM tag of a line (R374). It has no body. Log entry 79. -/
opaque sm4Tag (key ctr line : Nat) (bytes : List Byte) : BitVec 128

/-- The key that an SM2 key exchange with these data agrees on (R373). It has no body. Log entry 103. -/
opaque sm2Agree (data : List Byte) : Nat

/-- The module's part of an SM2 key exchange (R373). It has no body. Log entry 103. -/
opaque sm2Share (data : List Byte) : List Byte

/-- An SPDM secured message: SM4-GCM of a plain one under a session key (R373). It has no body. Log entry 103. -/
opaque secured (key : Nat) (plain : List Byte) : List Byte

/-- The peer refuses an access to this address of its window: its pseudo-channel is mapped out there (R376). It has
no body. Log entry 27. -/
opaque peerRefuses (pa : Nat) : Bool

/-- Tillers of the module (R2). -/
def tillers : Nat := 65536

/-- Bytes of HBM, 1 TiB (R260). -/
def hbmSize : Nat := 0x10000000000

/-- Bytes of one HBM stack (R260). -/
def stackSize : Nat := 0x1000000000

/-- First address of the module registers (R260). -/
def regBase : Nat := 0x8000000000000

/-- Bytes of the module register range (R260). -/
def regSize : Nat := 0x100000000

/-- First address of host memory (R260). -/
def hostBase : Nat := 0xC000000000000

/-- First address of the window of peer link 0 (R260). -/
def peerBase : Nat := 0xD000000000000

/-- Bytes of one peer window (R260). -/
def peerSize : Nat := 0x100000000000

/-- First address after the last peer window (R260). -/
def peerEnd : Nat := 0xE000000000000

/-- Entries of a tiller's L1 TLB (R270). -/
def tlbEntries : Nat := 64

/-- Entries of a sheaf's TLB (R270). -/
def sheafTlbEntries : Nat := 2048

/-- Entries of the range scoreboard (R141). -/
def scoreboardEntries : Nat := 16

/-- Bundles that a chunk holds at most (R282). -/
def chunkBundles : Nat := 256

/-- Sectors that a chunk writes at most (R282). -/
def chunkSectors : Nat := 64

end Sys2Proof.Config
end

