-- ==== Sys2Proof/Syntax.lean ====
section
/-! DEFINITION. The steps of the machine: `Instr`, one constructor per row of the opcode table. The C
words come first, then the A words, then the steps that the module takes by itself or that reach it
from outside. -/

namespace Sys2Proof

/-- A scalar register s0 to s63 (R76). -/
abbrev Reg := BitVec 6
/-- A vector register v0 to v31, or one of s0 to s31 where Table 03.6 says so (R77). -/
abbrev VReg := BitVec 5
/-- A mask m0 to m7 (R77). -/
abbrev MReg := BitVec 3
/-- A transfer channel ch0 to ch7 (R26). -/
abbrev Chan := BitVec 3

/-- The conditions of BR, BRN and VCMP (R76, R169). -/
inductive Cond where
  | eq | ne | lt | ge
deriving DecidableEq, Repr

/-- The kinds of SHI (R95). -/
inductive ShKind where
  | sll | srl | sra
deriving DecidableEq, Repr

/-- The kinds of FCVT (Table 04.5). -/
inductive CvtKind where
  | f2i | f2n | i2f | n2f | rint | f2it | f2nt
deriving DecidableEq, Repr

/-- The kinds of FENCE (R107). -/
inductive FenceKind where
  | acq | rel | full
deriving DecidableEq, Repr

/-- The seven scopes (Table 00.4). -/
inductive Scope where
  | tiller | sheaf | block | die | module | host | system
deriving DecidableEq, Repr

/-- The cache policies (Table 09.6). -/
inductive Policy where
  | norm | strm | keep | nol1
deriving DecidableEq, Repr

/-- The element widths (R129). -/
inductive Width where
  | w8 | w16 | w32
deriving DecidableEq, Repr

/-- The modes of a pair (Table 01.5). -/
inductive PairMode where
  | cache | bed | index
deriving DecidableEq, Repr

/-- The index widths of an indexed vector memory instruction (R79). -/
inductive IdxW where
  | n16 | n32
deriving DecidableEq, Repr

/-- The operators of VRED and VSCAN (R176). -/
inductive RedOp where
  | add | min | max | or
deriving DecidableEq, Repr

/-- The operators of MLOG (R179). -/
inductive MaskOp where
  | and | or | xor | andn
deriving DecidableEq, Repr

/-- The format codes that WLD records (R191). -/
inductive LatchFmt where
  | e4m3 | e5m2 | i8 | i4
deriving DecidableEq, Repr

/-- A host access to module memory (R302, R371). -/
inductive HostReq where
  /-- A read of one line through CXL.cache. -/
  | cacheRead (pa n : Nat)
  /-- A write through CXL.cache. -/
  | cacheWrite (pa : Nat) (bytes : List Byte)
  /-- A read through CXL.mem. -/
  | memRead (pa n : Nat)
  /-- A write through CXL.mem. -/
  | memWrite (pa : Nat) (bytes : List Byte)
  /-- A read of 1, 2, 4 or 8 bytes of a module register through BAR0. -/
  | regRead (pa n : Nat)
  /-- A write narrower than a doubleword to a module register, which is dropped (R367). -/
  | regWriteNarrow (pa n : Nat)
  /-- The host rewrites its own memory, tag records included (R374). -/
  | ownMemory (pa : Nat) (bytes : List Byte)
  /-- The host reads its own memory, where the module's lines stand as ciphertext (R374). -/
  | ownRead (pa n : Nat)
  /-- The host refuses or drops the tag record of a line that the module wrote (R374). -/
  | tagRefused (line : Nat)
deriving DecidableEq, Repr

/-- An access that arrives over a peer link (R303, R376). -/
inductive PeerReq where
  | read (pa n : Nat)
  | write (pa : Nat) (bytes : List Byte)
  /-- A flit whose authentication fails at the receiving port (R375). -/
  | badWrite (pa : Nat)
  /-- The peer writes its own memory, seen through the link's window (R288). -/
  | ownWrite (pa : Nat) (bytes : List Byte)
  /-- A write of an operation of this module fails at the peer's port (R375). -/
  | failed (op : Nat)
  /-- The stream of the member with this ordinal, which runs on the peer, reaches a merge (R238, R376). -/
  | stream (merge ordinal : Nat) (pairs : List (Nat × Nat))
deriving DecidableEq, Repr

/-- A firmware image as the boot ROM finds it: bytes, version, public key and signature (R372). -/
structure Firmware where
  image : List Byte
  version : Nat
  key : List Byte
  signature : List Byte
deriving DecidableEq, Repr

/-- What a fatal error takes with it: poisoned sectors, pseudo-channels, and tillers whose stacked half is lost
(R379). -/
structure Loss where
  poisoned : List Nat := []
  parts : List Nat := []
  halves : List Nat := []
deriving DecidableEq, Repr

/-- An SPDM message to Uzoduja (R371, R373). -/
inductive SpdmMsg where
  /-- A key is installed in a slot; a peer key has no window (R374). -/
  | installKey (slot : Nat) (peer : Bool) (wbase tagb wsize : Nat)
  /-- A CXL.mem window of `size` bytes at `base` is opened. -/
  | openWindow (base size : Nat)
  /-- The window at `base` is closed. -/
  | closeWindow (base : Nat)
  /-- The fault log is read. -/
  | readFaultLog
  /-- A measurement is read. -/
  | getMeasurement (index : Nat)
  /-- IDE keys are established (IDE_KM). -/
  | ideKeys
  /-- IDE stops on the link (IDE_KM). -/
  | ideStop
  /-- A secured session is established by SM2 key exchange with the requester's data, and ends. -/
  | keyExchange (data : List Byte)
  | endSession
  /-- The certificate chain of a slot is read. -/
  | getCertificate (slot : Nat)
  /-- A challenge is signed. -/
  | challenge (nonce : List Byte)
deriving DecidableEq, Repr

/-- The steps of the machine, one constructor per row of spec/opcode_table.json. -/
inductive Instr where
  -- SYS (major 0x00, R112)
  | nop
  | trap (n : BitVec 8)
  | tret
  | yield
  | endUnit
  | dbg (n : BitVec 8)
  | waita (a b : Reg)
  | chend
  -- system registers (R118)
  | mfs (d : Reg) (i : BitVec 12)
  | mts (i : BitVec 12) (a : Reg)
  | tlbinv (a : Reg)
  | cxsave (a : Reg)
  | cxload (a : Reg)
  -- ALU (R92, R93)
  | add (d a b : Reg)
  | sub (d a b : Reg)
  | and (d a b : Reg)
  | or (d a b : Reg)
  | xor (d a b : Reg)
  | sll (d a b : Reg)
  | srl (d a b : Reg)
  | sra (d a b : Reg)
  | slt (d a b : Reg)
  | sltn (d a b : Reg)
  | min (d a b : Reg)
  | max (d a b : Reg)
  | minn (d a b : Reg)
  | maxn (d a b : Reg)
  | clz (d a : Reg)
  | ctz (d a : Reg)
  | popc (d a : Reg)
  | ext (d a b : Reg)
  -- MULDIV (R94)
  | mul (d a b : Reg)
  | mulh (d a b : Reg)
  | mulhn (d a b : Reg)
  | div (d a b : Reg)
  | divn (d a b : Reg)
  | rem (d a b : Reg)
  | remn (d a b : Reg)
  -- FALU (R97 to R99)
  | fadd (d a b : Reg)
  | fsub (d a b : Reg)
  | fmul (d a b : Reg)
  | fma (d a b : Reg)
  | fmin (d a b : Reg)
  | fmax (d a b : Reg)
  | fcmp (d a b : Reg)
  | fcvt (k : CvtKind) (d a : Reg)
  | fabs (d a : Reg)
  | fneg (d a : Reg)
  | fdiv (d a b : Reg)
  | fsqrt (d a : Reg)
  -- immediates and constants (R95, R96)
  | addi (d a : Reg) (i : BitVec 12)
  | andi (d a : Reg) (i : BitVec 12)
  | ori (d a : Reg) (i : BitVec 12)
  | xori (d a : Reg) (i : BitVec 12)
  | slti (d a : Reg) (i : BitVec 12)
  | sltin (d a : Reg) (i : BitVec 12)
  | shi (k : ShKind) (d a : Reg) (n : BitVec 6)
  | lis (d : Reg) (i : BitVec 18)
  | li (d : Reg) (lit : Word)
  -- scalar loads and stores (R100)
  | ldb (p : Policy) (d a : Reg) (o : BitVec 10)
  | ldbn (p : Policy) (d a : Reg) (o : BitVec 10)
  | ldh (p : Policy) (d a : Reg) (o : BitVec 10)
  | ldhn (p : Policy) (d a : Reg) (o : BitVec 10)
  | ldw (p : Policy) (d a : Reg) (o : BitVec 10)
  | ldwn (p : Policy) (d a : Reg) (o : BitVec 10)
  | ldd (p : Policy) (d a : Reg) (o : BitVec 10)
  | stb (p : Policy) (d a : Reg) (o : BitVec 10)
  | sth (p : Policy) (d a : Reg) (o : BitVec 10)
  | stw (p : Policy) (d a : Reg) (o : BitVec 10)
  | std (p : Policy) (d a : Reg) (o : BitVec 10)
  | ldbX (d a b : Reg)
  | ldbnX (d a b : Reg)
  | ldhX (d a b : Reg)
  | ldhnX (d a b : Reg)
  | ldwX (d a b : Reg)
  | ldwnX (d a b : Reg)
  | lddX (d a b : Reg)
  | stbX (d a b : Reg)
  | sthX (d a b : Reg)
  | stwX (d a b : Reg)
  | stdX (d a b : Reg)
  -- scalar atomics (R104)
  | ldl (d a : Reg)
  | stc (d a b : Reg)
  -- fences (R107)
  | fence (k : FenceKind) (s : Scope)
  -- control transfer (R109, R110)
  | br (c : Cond) (a b : Reg) (disp : BitVec 6) (slot : BitVec 4)
  | brn (c : Cond) (a b : Reg) (disp : BitVec 6) (slot : BitVec 4)
  | jmp (disp : BitVec 20) (slot : BitVec 4)
  | call (disp : BitVec 20) (slot : BitVec 4)
  | jr (d a : Reg)
  -- furrow (R207 to R211)
  | fid (d : Reg)
  | flen (d : Reg)
  | sende (a : Reg)
  | recvw (d : Reg)
  | voteAdd (d a : Reg)
  | voteMin (d a : Reg)
  | voteMax (d a : Reg)
  | voteOr (d a : Reg)
  | voteMinn (d a : Reg)
  | voteMaxn (d a : Reg)
  | voteFadd (d a : Reg)
  | voteFmin (d a : Reg)
  | voteFmax (d a : Reg)
  -- iteration ring (R212 to R217)
  | ipost (a : Reg)
  | iwait (a : Reg)
  | viwait (d a b : Reg)
  | irset
  -- vector configuration (R129, R152, R156)
  | setvl (w : Width) (d a : Reg)
  | wcfg (p0 p1 p2 p3 : PairMode)
  | accfg (g : BitVec 2)
  -- vector memory (R133)
  | vld (p : Policy) (v : VReg) (a : Reg) (m : MReg)
  | vlds (p : Policy) (v : VReg) (a b : Reg) (m : MReg)
  | vldx (p : Policy) (w : IdxW) (v : VReg) (a : Reg) (b : VReg) (m : MReg)
  | vldq (p : Policy) (q : BitVec 2) (a b : Reg) (m : MReg)
  | vst (p : Policy) (v : VReg) (a : Reg) (m : MReg)
  | vsts (p : Policy) (v : VReg) (a b : Reg) (m : MReg)
  | vstx (p : Policy) (w : IdxW) (v : VReg) (a : Reg) (b : VReg) (m : MReg)
  | vglk (p : Policy) (w : IdxW) (v : VReg) (a : Reg) (b : VReg) (m : MReg)
  | vstc (p : Policy) (w : IdxW) (v : VReg) (a : Reg) (b : VReg) (m : MReg)
  -- queues (R143)
  | qbind (q : BitVec 2) (base : VReg) (depth : BitVec 3)
  | qfree (q : BitVec 2)
  | qdrain (q : BitVec 2)
  | qstat (q : BitVec 2) (a : Reg)
  -- weight latch (R191)
  | wld (slot : BitVec 1) (f : LatchFmt) (a b : Reg)
  -- engines (R229 to R238)
  | copy (d a : Reg) (h : Chan)
  | rcpy (d a : Reg) (h : Chan)
  | rfil (d a : Reg) (h : Chan)
  | rand (d a : Reg) (h : Chan)
  | ror (d a : Reg) (h : Chan)
  | rxor (d a : Reg) (h : Chan)
  | rnot (d a : Reg) (h : Chan)
  | rmaj (d a : Reg) (h : Chan)
  | rdc (d a : Reg) (h : Chan)
  | spred (d a : Reg) (h : Chan)
  -- TXC (R226)
  | txwait (a : Reg) (h : Chan)
  | txread (d : Reg) (h : Chan)
  | txstat (d a : Reg) (h : Chan)
  -- root cores (R243, R246)
  | rstart (d a b : Reg) (h : Chan)
  | rgo (a : Reg)
  | bkld (n : BitVec 1) (a : Reg)
  | bkst (n : BitVec 1) (a : Reg)
  | bkseq (a b : Reg)
  | bkset (n : BitVec 1) (a b : Reg)
  -- work (R124 to R127)
  | launch (d a : Reg)
  | cancel (a b : Reg)
  | wstat (d a : Reg)
  -- cache maintenance (R121)
  | cflush (a b : Reg)
  | cinv (a b : Reg)
  | cpref (a b : Reg)
  -- A words (Table 03.6)
  | vnop
  | vadd (d a b : VReg) (s : Reg) (m : MReg)
  | vsub (d a b : VReg) (s : Reg) (m : MReg)
  | vmul (d a b : VReg) (s : Reg) (m : MReg)
  | vma (d a b : VReg) (s : Reg) (m : MReg)
  | vmin (d a b : VReg) (s : Reg) (m : MReg)
  | vmax (d a b : VReg) (s : Reg) (m : MReg)
  | vabs (d a : VReg) (s : Reg) (m : MReg)
  | vneg (d a : VReg) (s : Reg) (m : MReg)
  | vnot (d a : VReg) (s : Reg) (m : MReg)
  | vrcp (d a : VReg) (s : Reg) (m : MReg)
  | vdiv (d a b : VReg) (s : Reg) (m : MReg)
  | vsqrt (d a : VReg) (s : Reg) (m : MReg)
  | vcvt (d a : VReg) (s : Reg) (m : MReg)
  | vand (d a b : VReg) (s : Reg) (m : MReg)
  | vor (d a b : VReg) (s : Reg) (m : MReg)
  | vxor (d a b : VReg) (s : Reg) (m : MReg)
  | vshl (d a b : VReg) (s : Reg) (m : MReg)
  | vshr (d a b : VReg) (s : Reg) (m : MReg)
  | vcmp (c : Cond) (d : MReg) (a b : VReg) (s : Reg) (m : MReg)
  | vsel (d a b : VReg) (s : Reg) (m : MReg)
  | vadds (d a b : VReg) (s : Reg) (m : MReg)
  | vmuls (d a b : VReg) (s : Reg) (m : MReg)
  | vmas (d a b : VReg) (s : Reg) (m : MReg)
  | vsplat (d : VReg) (s : Reg) (m : MReg)
  | viota (d : VReg) (m : MReg)
  | vslup (d a b : VReg) (s : Reg) (m : MReg)
  | vsldn (d a b : VReg) (s : Reg) (m : MReg)
  | vperm (d a b : VReg) (s : Reg) (m : MReg)
  | vcomp (d a : VReg) (m : MReg)
  | vred (o : RedOp) (d a : VReg) (s : Reg) (m : MReg)
  | vscan (o : RedOp) (d a : VReg) (s : Reg) (m : MReg)
  | vget (d a : VReg) (s : Reg)
  | vput (d b : VReg) (s : Reg)
  | vconf (d : MReg) (a : VReg) (m : MReg)
  | mlog (o : MaskOp) (d a b : MReg)
  | mcntPop (d : VReg) (a : MReg)
  | mcntFirst (d : VReg) (a : MReg)
  | ixins (n : BitVec 2) (a b : VReg) (m : MReg)
  | ixfnd (n : BitVec 2) (d a : VReg) (m : MReg)
  | ixadd (n : BitVec 2) (a b : VReg) (s : Reg) (m : MReg)
  | ixout (n : BitVec 2) (d a : VReg) (s : Reg)
  | ixclr (n : BitVec 2)
  | mma (d : BitVec 2) (a : VReg) (slot : BitVec 1) (s : Reg)
  | mmag (d : BitVec 2) (a b : VReg) (slot : BitVec 1) (s : Reg)
  | aext (d : VReg) (a : BitVec 2) (s : Reg) (m : MReg)
  | azero (d : BitVec 2)
  | qpop (q : BitVec 2)
  -- steps of the module (95_what_each_step_holds.md)
  /-- Outstanding result `idx` of member `mem` of the current furrow arrives (R74). -/
  | asyncResultWrite (mem idx : Nat)
  /-- Request `req` of vector operation `op` of the current furrow is performed (R137). -/
  | vectorSectorRequest (op req : Nat)
  /-- Vector operation `op` of the current furrow retires (R140). -/
  | vectorMemoryRetire (op : Nat)
  /-- The data of VLDQ operation `op` reaches its entry (R145). -/
  | queueEntryArrival (op : Nat)
  /-- The open chunk of the current furrow is committed or squashed (R283). -/
  | chunkCommit
  /-- The current furrow takes the timer trap (R120). -/
  | timerTrap
  /-- The current furrow takes the cancel trap (R321). -/
  | cancelTrap
  /-- The walker requests pre-emption of furrow `hart` (R320). -/
  | preemptionRequest (hart : Nat)
  /-- The deferral of a pre-emption of furrow `hart` expires (R351). -/
  | lholdDeferralExpiry (hart : Nat)
  /-- A launch, or a saved unit when `saved`, is treated as one level higher (R319). -/
  | priorityAging (saved : Bool) (id : Nat)
  /-- The current furrow, parked in WAITA, is donated (R322). -/
  | furrowDonation
  /-- A write reached the watched sector of saved unit `id` (R322). -/
  | watchWake (id : Nat)
  /-- The parked WAITA of the current furrow reads again (R117). -/
  | waitaReread
  /-- Saved unit `id` resumes on the furrow whose first tiller is `tiller` (R344). -/
  | savedUnitResume (id tiller : Nat)
  /-- The next unit of a launch starts on the furrow at `tiller`, with a stack slot (R316). -/
  | unitStart (launch tiller slot : Nat)
  /-- Furrow `hart` completes its unit (R116). -/
  | unitCompletion (hart : Nat)
  /-- A launch whose predecessors are done is read and checked (R311). -/
  | launchReady (launch : Nat)
  /-- A launch whose counter is 0 ends (R311). -/
  | launchEnd (launch : Nat)
  /-- The next phase of a job starts (R312). -/
  | phaseStart (job : Nat)
  /-- A pending job starts (R312). -/
  | jobStart (job : Nat)
  /-- A job whose counter is 0 ends (R311). -/
  | jobEnd (job : Nat)
  /-- The thresher of a sheaf chooses and starts a command (R200). -/
  | thresherArbitration (sheaf : Nat)
  /-- The running thresher command of a sheaf finishes (R199). -/
  | thresherCommandComplete (sheaf : Nat)
  /-- The gather of the oldest ungathered MMAG of a tiller is performed (R198). -/
  | mmagGather (tiller : Nat)
  /-- The oldest load of a weight slot of a sheaf is performed (R192). -/
  | wldSlotLoad (sheaf slot : Nat)
  /-- One sector of COPY operation `op` is transferred (R230). -/
  | copyTransfer (op sector : Nat)
  /-- The next row-step of PLOW operation `op` (R232). -/
  | plowRowStep (op : Nat)
  /-- RDC operation `op` is performed (R237). -/
  | rdcReduction (op : Nat)
  /-- A merge whose members have all sent is written (R241). -/
  | spredMergeWrite (merge : Nat)
  /-- RSTART operation `op` checks, claims and starts (R359). -/
  | rstartOperation (op : Nat)
  /-- Engine operation `op` completes (R222). -/
  | engineOperationComplete (op : Nat)
  /-- The oldest undelivered iteration post of a ring is delivered (R214). -/
  | iterationPostDelivery (ring : Nat)
  /-- The next BKSEQ row-step of the current root core (R364). -/
  | bkseqRowStep
  /-- The window of the BKSEQ of the current root core ends (R365). -/
  | bkseqWindowEnd
  /-- The suspended BKSEQ of the current root core resumes (R365). -/
  | bkseqResume
  /-- The thread of the current root core moves to a tiller (R346). -/
  | returnTrap
  /-- The thread of the current root core moves with a trap pending (R347). -/
  | rootCoreTrapMigration
  /-- A lane group of a bed of a tiller is retired (R349). -/
  | laneRetirement (tiller bed : Nat)
  /-- Background copy of the current training-class context (R345). -/
  | trainingClassCopy
  /-- A refresh of a bank (R356). -/
  | dramRefresh (pc bank : Nat)
  /-- A doubleword write to a module register without a row of its own (R367). -/
  | moduleRegisterWrite (pa : Nat) (value : Word)
  /-- A write to the job port (R370). -/
  | jobp (value : Word)
  /-- A write to the host cancel register (R370). -/
  | jobc (value : Word)
  /-- A write to the start register of pseudo-channel `g` (R359). -/
  | start (g : Nat) (value : Word)
  /-- A write to the owner tag of a bank of pseudo-channel `g` (R362). -/
  | own (g bank : Nat) (value : Word)
  /-- A write to RMFRAC (R262). -/
  | rmfrac (value : Word)
  /-- A host access (R302). -/
  | hostAccess (r : HostReq)
  /-- A peer access over a link (R303). -/
  | peerAccess (link : Nat) (r : PeerReq)
  /-- An SPDM message (R373). -/
  | spdmMessage (m : SpdmMsg)
  /-- Module reset with the firmware image that is checked (R39, R372). -/
  | moduleReset (fw : Firmware)
  /-- Stage MEMORY: training result, mapped-out pseudo-channels, context store, event ring (R368). -/
  | stageMemory (trained : Bool) (pcmap : List Nat) (csbase cssize evbase evsize : Nat)
  /-- Stage COMPUTE: tiller codes and retired lane groups found by self-test (R368). -/
  | stageCompute (tmap lanes : List (Nat × Nat))
  /-- Stage LINKS: the links that trained (R368). -/
  | stageLinks (up : List Nat)
  /-- A peer link goes down (R376). -/
  | linkDown (link : Nat)
  /-- A fatal error, and what it takes with it (R379). -/
  | machineCheck (kind : Nat) (loss : Loss)
  /-- What the module would draw unthrottled, and the junction temperature (R378). -/
  | thermalThrottle (draw celsius : Nat)
  /-- The hourly wear figures: one word per die, and EOL days (R380). -/
  | wearUpdate (wear : List Word) (days : Nat)
deriving DecidableEq, Repr

end Sys2Proof
end

