-- ==== Sys2Proof/WellFormed.lean ====
section
/-! DEFINITION. Which steps are well formed: the checks of R81 that the operand types do not already
carry, and the ranges of the numbers in the module's own steps. -/

namespace Sys2Proof

/-- The register numbers that have a row of their own in the opcode table: TLBINV (R271), CXSAVE and
CXLOAD (R337). -/
def ownRowRegister (i : BitVec 12) : Bool :=
  i == 0x063#12 || i == 0x0A0#12 || i == 0x0A1#12

/-- The operand group s(A) to s(A+3) of a CE word exists: A ≤ 60 (R76, R81). -/
def groupFits (a : Reg) : Bool := a.toNat ≤ 60

/-- Well-formedness of a step (R81, and the ranges of R2, R4, R353, R367). -/
def Instr.wf : Instr → Bool
  | .mts i _ => !ownRowRegister i
  | .accfg g => g != 3#2
  | .vstc _ _ _ _ _ m => m != 0#3
  | .copy _ a _ | .rcpy _ a _ | .rfil _ a _ | .rand _ a _ | .ror _ a _ | .rxor _ a _
  | .rnot _ a _ | .rmaj _ a _ | .rdc _ a _ | .spred _ a _ => groupFits a
  | .vcmp _ d _ _ _ _ => d != 0#3
  | .vconf d _ _ => d != 0#3
  | .mlog _ d _ _ => d != 0#3
  | .mma _ a _ _ => a.toNat % 2 == 0
  | .savedUnitResume _ t => decide (t < Config.tillers)
  | .unitStart _ t _ => decide (t < Config.tillers)
  | .laneRetirement t b => decide (t < Config.tillers) && decide (b < 4)
  | .thresherArbitration n | .thresherCommandComplete n => decide (n < 8192)
  | .wldSlotLoad n k => decide (n < 8192) && decide (k < 2)
  | .mmagGather t => decide (t < Config.tillers)
  | .start g _ => decide (g < 1024)
  | .own g b _ => decide (g < 1024) && decide (b < 16)
  | .dramRefresh g b => decide (g < 1024) && decide (b < 16)
  | .moduleRegisterWrite pa _ =>
    decide (Config.regBase ≤ pa) && decide (pa < Config.regBase + Config.regSize) && decide (pa % 8 = 0)
  | .peerAccess l _ | .linkDown l => decide (l < 16)
  | .machineCheck k loss =>
    decide (1 ≤ k) && decide (k ≤ 6) && loss.parts.all (decide <| · < 1024) && loss.halves.all (decide <| · < Config.tillers)
  | .wearUpdate w _ => decide (w.length = 8)
  | _ => true

end Sys2Proof
end

