-- ==== Sys2Proof/Decode.lean ====
section
/-! DEFINITION. From slots to instructions and back: the formats of Tables 03.3 and 03.4, the opcode
maps of Tables 03.5 to 03.7, the encodings that are not instructions (R81), and the encoder written
from the same tables. -/

namespace Sys2Proof

/-- Why a slot is not an instruction (R81). -/
inductive DecodeError where
  /-- A reserved C or A major opcode. -/
  | reservedMajor
  /-- A reserved function value, modifier or code in a field. -/
  | reservedCode
  /-- A nonzero bit in a field that the tables mark zero or do not list. -/
  | nonzeroField
  /-- LONE = 1 with a nonzero A word. -/
  | loneWithAWord
  /-- m0 as the destination of VCMP, VCONF or MLOG, or as the M field of VSTC. -/
  | maskZeroDestination
  /-- An odd va in MMA. -/
  | oddTileRegister
  /-- A > 60 in a CE word. -/
  | groupBeyondRegisters
  /-- RGO in a bundle whose A word is not VNOP. -/
  | rgoWithAWord
deriving DecidableEq, Repr

/-- A decoded slot (R66, R71). -/
structure Bundle where
  /-- The bundle has no A word. -/
  lone : Bool
  /-- The switch marker. -/
  sw : Bool
  c : Instr
  a : Instr
deriving DecidableEq, Repr

namespace Decode

/-! ### Formats of the C word, bits [23:0] (Table 03.3) -/

/-- Format CR. -/
def packCR (d a b f : BitVec 6) : BitVec 24 := d ++ a ++ b ++ f
/-- Format CI. -/
def packCI (d a : BitVec 6) (i : BitVec 12) : BitVec 24 := d ++ a ++ i
/-- Format CL. -/
def packCL (d : BitVec 6) (i : BitVec 18) : BitVec 24 := d ++ i
/-- Format CM. -/
def packCM (d a : BitVec 6) (p : BitVec 2) (o : BitVec 10) : BitVec 24 := d ++ a ++ p ++ o
/-- Format CB. -/
def packCB (a b : BitVec 6) (c : BitVec 2) (disp : BitVec 6) (s : BitVec 4) : BitVec 24 :=
  a ++ b ++ c ++ disp ++ s
/-- Format CJ. -/
def packCJ (disp : BitVec 20) (s : BitVec 4) : BitVec 24 := disp ++ s
/-- Format CV. -/
def packCV (v : BitVec 5) (a b : BitVec 6) (m : BitVec 3) (p w : BitVec 2) : BitVec 24 :=
  v ++ a ++ b ++ m ++ p ++ w
/-- Format CS. -/
def packCS (a b : BitVec 6) (f : BitVec 12) : BitVec 24 := a ++ b ++ f
/-- Format CE. -/
def packCE (d a : BitVec 6) (h : BitVec 3) (f : BitVec 9) : BitVec 24 := d ++ a ++ h ++ f
/-- The A word (Table 03.4). -/
def packA (op : BitVec 6) (d a b : BitVec 5) (s : BitVec 6) (m : BitVec 3) (x : BitVec 2) : BitVec 32 :=
  op ++ d ++ a ++ b ++ s ++ m ++ x

/-- Bits [23:18]: D, or A in CB and CS. -/
def f23_18 (w : BitVec 24) : BitVec 6 := w.extractLsb' 18 6
/-- Bits [17:12]: A, or B in CB and CS. -/
def f17_12 (w : BitVec 24) : BitVec 6 := w.extractLsb' 12 6
/-- Bits [11:6]: B of CR. -/
def f11_6 (w : BitVec 24) : BitVec 6 := w.extractLsb' 6 6
/-- Bits [5:0]: F of CR. -/
def f5_0 (w : BitVec 24) : BitVec 6 := w.extractLsb' 0 6
/-- Bits [11:0]: I of CI, F12 of CS. -/
def f11_0 (w : BitVec 24) : BitVec 12 := w.extractLsb' 0 12
/-- Bits [17:0]: I18 of CL. -/
def f17_0 (w : BitVec 24) : BitVec 18 := w.extractLsb' 0 18
/-- Bits [11:10]: P of CM, C of CB. -/
def f11_10 (w : BitVec 24) : BitVec 2 := w.extractLsb' 10 2
/-- Bits [9:0]: O of CM. -/
def f9_0 (w : BitVec 24) : BitVec 10 := w.extractLsb' 0 10
/-- Bits [9:4]: line displacement of CB. -/
def f9_4 (w : BitVec 24) : BitVec 6 := w.extractLsb' 4 6
/-- Bits [3:0]: target slot of CB and CJ. -/
def f3_0 (w : BitVec 24) : BitVec 4 := w.extractLsb' 0 4
/-- Bits [23:4]: line displacement of CJ. -/
def f23_4 (w : BitVec 24) : BitVec 20 := w.extractLsb' 4 20
/-- Bits [23:19]: V of CV. -/
def f23_19 (w : BitVec 24) : BitVec 5 := w.extractLsb' 19 5
/-- Bits [18:13]: A of CV. -/
def f18_13 (w : BitVec 24) : BitVec 6 := w.extractLsb' 13 6
/-- Bits [12:7]: B of CV. -/
def f12_7 (w : BitVec 24) : BitVec 6 := w.extractLsb' 7 6
/-- Bits [6:4]: M of CV. -/
def f6_4 (w : BitVec 24) : BitVec 3 := w.extractLsb' 4 3
/-- Bits [3:2]: P of CV. -/
def f3_2 (w : BitVec 24) : BitVec 2 := w.extractLsb' 2 2
/-- Bits [1:0]: W of CV. -/
def f1_0 (w : BitVec 24) : BitVec 2 := w.extractLsb' 0 2
/-- Bits [11:9]: H of CE. -/
def f11_9 (w : BitVec 24) : BitVec 3 := w.extractLsb' 9 3
/-- Bits [8:0]: F9 of CE. -/
def f8_0 (w : BitVec 24) : BitVec 9 := w.extractLsb' 0 9

/-- OP of an A word. -/
def aOp (w : BitVec 32) : BitVec 6 := w.extractLsb' 26 6
/-- D of an A word. -/
def aD (w : BitVec 32) : BitVec 5 := w.extractLsb' 21 5
/-- A of an A word. -/
def aA (w : BitVec 32) : BitVec 5 := w.extractLsb' 16 5
/-- B of an A word. -/
def aB (w : BitVec 32) : BitVec 5 := w.extractLsb' 11 5
/-- S of an A word. -/
def aS (w : BitVec 32) : BitVec 6 := w.extractLsb' 5 6
/-- M of an A word. -/
def aM (w : BitVec 32) : BitVec 3 := w.extractLsb' 2 3
/-- X of an A word. -/
def aX (w : BitVec 32) : BitVec 2 := w.extractLsb' 0 2

/-! ### Codes of the fields -/

/-- Condition codes (R76). -/
def condCode : Cond → BitVec 2
  | .eq => 0 | .ne => 1 | .lt => 2 | .ge => 3
/-- The condition of a code. -/
def condOf (c : BitVec 2) : Cond :=
  if c = 0 then .eq else if c = 1 then .ne else if c = 2 then .lt else .ge
/-- Policy codes (Table 09.6). -/
def policyCode : Policy → BitVec 2
  | .norm => 0 | .strm => 1 | .keep => 2 | .nol1 => 3
/-- The policy of a code. -/
def policyOf (c : BitVec 2) : Policy :=
  if c = 0 then .norm else if c = 1 then .strm else if c = 2 then .keep else .nol1
/-- Scope codes (Table 00.4). -/
def scopeCode : Scope → BitVec 3
  | .tiller => 0 | .sheaf => 1 | .block => 2 | .die => 3 | .module => 4 | .host => 5 | .system => 6
/-- The scope of a code; code 7 is reserved. -/
def scopeOf (c : BitVec 3) : Option Scope :=
  if c = 0 then some .tiller else if c = 1 then some .sheaf else if c = 2 then some .block
  else if c = 3 then some .die else if c = 4 then some .module else if c = 5 then some .host
  else if c = 6 then some .system else none
/-- Width codes (R129). -/
def widthCode : Width → BitVec 2
  | .w8 => 0 | .w16 => 1 | .w32 => 2
/-- The width of a code; code 3 is reserved. -/
def widthOf (c : BitVec 2) : Option Width :=
  if c = 0 then some .w8 else if c = 1 then some .w16 else if c = 2 then some .w32 else none
/-- Pair-mode codes (Table 01.5). -/
def modeCode : PairMode → BitVec 2
  | .cache => 0 | .bed => 1 | .index => 2
/-- The mode of a code; code 3 is reserved. -/
def modeOf (c : BitVec 2) : Option PairMode :=
  if c = 0 then some .cache else if c = 1 then some .bed else if c = 2 then some .index else none
/-- Index-width codes (Table 03.3, CV). -/
def idxCode : IdxW → BitVec 2
  | .n16 => 1 | .n32 => 2
/-- The index width of a code; 0 and 3 name none. -/
def idxOf (c : BitVec 2) : Option IdxW :=
  if c = 1 then some .n16 else if c = 2 then some .n32 else none
/-- SHI kind codes (Table 03.5). -/
def shCode : ShKind → BitVec 2
  | .sll => 0 | .srl => 1 | .sra => 2
/-- The SHI kind of a code; code 3 is reserved. -/
def shOf (c : BitVec 2) : Option ShKind :=
  if c = 0 then some .sll else if c = 1 then some .srl else if c = 2 then some .sra else none
/-- FCVT kind codes (Table 04.5). -/
def cvtCode : CvtKind → BitVec 6
  | .f2i => 0 | .f2n => 1 | .i2f => 2 | .n2f => 3 | .rint => 4 | .f2it => 5 | .f2nt => 6
/-- The FCVT kind of a B value; others are illegal (R99). -/
def cvtOf (c : BitVec 6) : Option CvtKind :=
  if c = 0 then some .f2i else if c = 1 then some .f2n else if c = 2 then some .i2f
  else if c = 3 then some .n2f else if c = 4 then some .rint else if c = 5 then some .f2it
  else if c = 6 then some .f2nt else none
/-- FENCE kind codes (Table 03.5). -/
def fenceCode : FenceKind → BitVec 2
  | .acq => 1 | .rel => 2 | .full => 3
/-- The FENCE kind of a code; code 0 is reserved. -/
def fenceOf (c : BitVec 2) : Option FenceKind :=
  if c = 1 then some .acq else if c = 2 then some .rel else if c = 3 then some .full else none
/-- Format codes that WLD accepts (R191). -/
def latchCode : LatchFmt → BitVec 4
  | .e4m3 => 0xB | .e5m2 => 0xC | .i8 => 0x4 | .i4 => 0x6
/-- The WLD format of a code. -/
def latchOf (c : BitVec 4) : Option LatchFmt :=
  if c = 0xB then some .e4m3 else if c = 0xC then some .e5m2 else if c = 0x4 then some .i8
  else if c = 0x6 then some .i4 else none
/-- VRED and VSCAN modifiers (Table 03.6). -/
def redCode : RedOp → BitVec 2
  | .add => 0 | .min => 1 | .max => 2 | .or => 3
/-- The reduction of a modifier. -/
def redOf (c : BitVec 2) : RedOp :=
  if c = 0 then .add else if c = 1 then .min else if c = 2 then .max else .or
/-- MLOG modifiers (Table 03.6). -/
def maskCode : MaskOp → BitVec 2
  | .and => 0 | .or => 1 | .xor => 2 | .andn => 3
/-- The MLOG operator of a modifier. -/
def maskOf (c : BitVec 2) : MaskOp :=
  if c = 0 then .and else if c = 1 then .or else if c = 2 then .xor else .andn

/-- A decoded operand, or the reserved code that it holds. -/
def need {α β : Type} (x : Option α) (k : α → Except DecodeError β) : Except DecodeError β :=
  match x with
  | some v => k v
  | none => .error .reservedCode

/-- The instruction, provided the fields that must be zero are zero (R81). -/
def zero (z : Bool) (i : Instr) : Except DecodeError Instr :=
  if z then .ok i else .error .nonzeroField

/-! ### C words -/

/-- SYS, major 0x00: F12[3:0] selects, F12[11:4] is the call number or tag (Table 03.5). -/
def sys (w : BitVec 24) : Except DecodeError Instr :=
  let f := (f11_0 w).extractLsb' 0 4
  let n := (f11_0 w).extractLsb' 4 8
  let ab := f23_18 w == 0 && f17_12 w == 0
  if f = 0 then zero (ab && n == 0) .nop
  else if f = 1 then zero ab (.trap n)
  else if f = 2 then zero (ab && n == 0) .tret
  else if f = 3 then zero (ab && n == 0) .yield
  else if f = 4 then zero (ab && n == 0) .endUnit
  else if f = 5 then zero ab (.dbg n)
  else if f = 6 then zero (n == 0) (.waita (f23_18 w) (f17_12 w))
  else if f = 7 then zero (ab && n == 0) .chend
  else .error .reservedCode

/-- MTS, major 0x02; the numbers with a row of their own decode to it. -/
def mtsOf (w : BitVec 24) : Except DecodeError Instr :=
  let i := f11_0 w
  let a := f17_12 w
  zero (f23_18 w == 0)
    (if i = 0x063#12 then .tlbinv a else if i = 0x0A0#12 then .cxsave a
     else if i = 0x0A1#12 then .cxload a else .mts i a)

/-- ALU, major 0x03 (Table 04.2). -/
def alu (w : BitVec 24) : Except DecodeError Instr :=
  let d := f23_18 w
  let a := f17_12 w
  let b := f11_6 w
  match (f5_0 w).toNat with
  | 0x00 => .ok (.add d a b)
  | 0x01 => .ok (.sub d a b)
  | 0x02 => .ok (.and d a b)
  | 0x03 => .ok (.or d a b)
  | 0x04 => .ok (.xor d a b)
  | 0x05 => .ok (.sll d a b)
  | 0x06 => .ok (.srl d a b)
  | 0x07 => .ok (.sra d a b)
  | 0x08 => .ok (.slt d a b)
  | 0x09 => .ok (.sltn d a b)
  | 0x0A => .ok (.min d a b)
  | 0x0B => .ok (.max d a b)
  | 0x0C => .ok (.minn d a b)
  | 0x0D => .ok (.maxn d a b)
  | 0x0E => zero (b == 0) (.clz d a)
  | 0x0F => zero (b == 0) (.ctz d a)
  | 0x10 => zero (b == 0) (.popc d a)
  | 0x11 => .ok (.ext d a b)
  | _ => .error .reservedCode

/-- MULDIV, major 0x04 (Table 04.3). -/
def muldiv (w : BitVec 24) : Except DecodeError Instr :=
  let d := f23_18 w
  let a := f17_12 w
  let b := f11_6 w
  match (f5_0 w).toNat with
  | 0 => .ok (.mul d a b)
  | 1 => .ok (.mulh d a b)
  | 2 => .ok (.mulhn d a b)
  | 3 => .ok (.div d a b)
  | 4 => .ok (.divn d a b)
  | 5 => .ok (.rem d a b)
  | 6 => .ok (.remn d a b)
  | _ => .error .reservedCode

/-- FALU, major 0x05 (Table 04.4). -/
def falu (w : BitVec 24) : Except DecodeError Instr :=
  let d := f23_18 w
  let a := f17_12 w
  let b := f11_6 w
  match (f5_0 w).toNat with
  | 0x00 => .ok (.fadd d a b)
  | 0x01 => .ok (.fsub d a b)
  | 0x02 => .ok (.fmul d a b)
  | 0x03 => .ok (.fma d a b)
  | 0x04 => .ok (.fmin d a b)
  | 0x05 => .ok (.fmax d a b)
  | 0x06 => .ok (.fcmp d a b)
  | 0x07 => need (cvtOf b) fun k => .ok (.fcvt k d a)
  | 0x08 => zero (b == 0) (.fabs d a)
  | 0x09 => zero (b == 0) (.fneg d a)
  | 0x0A => .ok (.fdiv d a b)
  | 0x0B => zero (b == 0) (.fsqrt d a)
  | _ => .error .reservedCode

/-- SHI, major 0x0C: I[7:6] kind, I[5:0] count, I[11:8] zero. -/
def shiOf (w : BitVec 24) : Except DecodeError Instr :=
  let i := f11_0 w
  need (shOf (i.extractLsb' 6 2)) fun k =>
    zero (i.extractLsb' 8 4 == 0) (.shi k (f23_18 w) (f17_12 w) (i.extractLsb' 0 6))

/-- LDX, major 0x0F (Table 03.5). -/
def ldx (w : BitVec 24) : Except DecodeError Instr :=
  let d := f23_18 w
  let a := f17_12 w
  let b := f11_6 w
  match (f5_0 w).toNat with
  | 0x00 => .ok (.ldbX d a b)
  | 0x01 => .ok (.ldbnX d a b)
  | 0x02 => .ok (.ldhX d a b)
  | 0x03 => .ok (.ldhnX d a b)
  | 0x04 => .ok (.ldwX d a b)
  | 0x05 => .ok (.ldwnX d a b)
  | 0x06 => .ok (.lddX d a b)
  | 0x08 => .ok (.stbX d a b)
  | 0x09 => .ok (.sthX d a b)
  | 0x0A => .ok (.stwX d a b)
  | 0x0B => .ok (.stdX d a b)
  | _ => .error .reservedCode

/-- FENCE, major 0x1D (R107). -/
def fenceWord (w : BitVec 24) : Except DecodeError Instr :=
  let f := f11_0 w
  need (fenceOf (f.extractLsb' 0 2)) fun k =>
    need (scopeOf (f.extractLsb' 2 3)) fun s =>
      zero (f23_18 w == 0 && f17_12 w == 0 && f.extractLsb' 5 7 == 0) (.fence k s)

/-- The furrow instructions, major 0x23 (Table 07.4). -/
def fur (w : BitVec 24) : Except DecodeError Instr :=
  let d := f23_18 w
  let a := f17_12 w
  let b0 := f11_6 w == 0
  match (f5_0 w).toNat with
  | 0x00 => zero (a == 0 && b0) (.fid d)
  | 0x01 => zero (a == 0 && b0) (.flen d)
  | 0x02 => zero (d == 0 && b0) (.sende a)
  | 0x03 => zero (a == 0 && b0) (.recvw d)
  | 0x04 => zero b0 (.voteAdd d a)
  | 0x05 => zero b0 (.voteMin d a)
  | 0x06 => zero b0 (.voteMax d a)
  | 0x07 => zero b0 (.voteOr d a)
  | 0x08 => zero b0 (.voteMinn d a)
  | 0x09 => zero b0 (.voteMaxn d a)
  | 0x0A => zero b0 (.voteFadd d a)
  | 0x0B => zero b0 (.voteFmin d a)
  | 0x0C => zero b0 (.voteFmax d a)
  | _ => .error .reservedCode

/-- The iteration-ring instructions, major 0x24 (Table 07.4). -/
def itr (w : BitVec 24) : Except DecodeError Instr :=
  let d := f23_18 w
  let a := f17_12 w
  let b := f11_6 w
  match (f5_0 w).toNat with
  | 0 => zero (d == 0 && b == 0) (.ipost a)
  | 1 => zero (d == 0 && b == 0) (.iwait a)
  | 2 => .ok (.viwait d a b)
  | 3 => zero (d == 0 && a == 0 && b == 0) .irset
  | _ => .error .reservedCode

/-- SETVL, major 0x25 (R129). -/
def setvlOf (w : BitVec 24) : Except DecodeError Instr :=
  let i := f11_0 w
  need (widthOf (i.extractLsb' 0 2)) fun k =>
    zero (i.extractLsb' 2 10 == 0) (.setvl k (f23_18 w) (f17_12 w))

/-- WCFG, major 0x26 (R152). -/
def wcfgOf (w : BitVec 24) : Except DecodeError Instr :=
  let f := f11_0 w
  need (modeOf (f.extractLsb' 0 2)) fun p0 =>
    need (modeOf (f.extractLsb' 2 2)) fun p1 =>
      need (modeOf (f.extractLsb' 4 2)) fun p2 =>
        need (modeOf (f.extractLsb' 6 2)) fun p3 =>
          zero (f23_18 w == 0 && f17_12 w == 0 && f.extractLsb' 8 4 == 0) (.wcfg p0 p1 p2 p3)

/-- ACCFG, major 0x27 (R156). -/
def accfgOf (w : BitVec 24) : Except DecodeError Instr :=
  let f := f11_0 w
  let g := f.extractLsb' 0 2
  if g = 3 then .error .reservedCode
  else zero (f23_18 w == 0 && f17_12 w == 0 && f.extractLsb' 2 10 == 0) (.accfg g)

/-- VLD and VST: B and W are zero (Table 03.7). -/
def cvPlain (w : BitVec 24) (k : Policy → VReg → Reg → MReg → Instr) : Except DecodeError Instr :=
  if f1_0 w = 0 then
    zero (f12_7 w == 0) (k (policyOf (f3_2 w)) (f23_19 w) (f18_13 w) (f6_4 w))
  else .error .reservedCode

/-- VLDS and VSTS: B is the stride scalar, W is zero (Table 03.7). -/
def cvStride (w : BitVec 24) (k : Policy → VReg → Reg → Reg → MReg → Instr) :
    Except DecodeError Instr :=
  if f1_0 w = 0 then
    .ok (k (policyOf (f3_2 w)) (f23_19 w) (f18_13 w) (f12_7 w) (f6_4 w))
  else .error .reservedCode

/-- VLDQ: V[1:0] is the queue and V[4:2] is zero (Table 03.7). -/
def cvQueue (w : BitVec 24) : Except DecodeError Instr :=
  if f1_0 w = 0 then
    zero ((f23_19 w).extractLsb' 2 3 == 0)
      (.vldq (policyOf (f3_2 w)) ((f23_19 w).extractLsb' 0 2) (f18_13 w) (f12_7 w) (f6_4 w))
  else .error .reservedCode

/-- The indexed forms: B is the index vector in bits [11:7], bit 12 is zero (Table 03.7). -/
def cvIndexed (w : BitVec 24) (k : Policy → IdxW → VReg → Reg → VReg → MReg → Instr) :
    Except DecodeError Instr :=
  need (idxOf (f1_0 w)) fun x =>
    zero ((f12_7 w).extractLsb' 5 1 == 0)
      (k (policyOf (f3_2 w)) x (f23_19 w) (f18_13 w) ((f12_7 w).extractLsb' 0 5) (f6_4 w))

/-- QCTL, major 0x31 (R143). -/
def qctl (w : BitVec 24) : Except DecodeError Instr :=
  let f := f11_0 w
  let k := f.extractLsb' 0 2
  let q := f.extractLsb' 2 2
  let a := f23_18 w
  let b0 := f17_12 w == 0
  if k = 0 then zero (a == 0 && b0) (.qbind q (f.extractLsb' 4 5) (f.extractLsb' 9 3))
  else if k = 1 then zero (a == 0 && b0 && f.extractLsb' 4 8 == 0) (.qfree q)
  else if k = 2 then zero (a == 0 && b0 && f.extractLsb' 4 8 == 0) (.qdrain q)
  else zero (b0 && f.extractLsb' 4 8 == 0) (.qstat q a)

/-- WLD, major 0x32 (R191). -/
def wldOf (w : BitVec 24) : Except DecodeError Instr :=
  let f := f11_0 w
  need (latchOf (f.extractLsb' 1 4)) fun k =>
    zero (f.extractLsb' 5 7 == 0) (.wld (f.extractLsb' 0 1) k (f23_18 w) (f17_12 w))

/-- A CE word: A ≤ 60, and the F9 of the form (Table 03.5). -/
def ce (w : BitVec 24) (i : Reg → Reg → Chan → Instr) : Except DecodeError Instr :=
  if groupFits (f17_12 w) then .ok (i (f23_18 w) (f17_12 w) (f11_9 w)) else .error .groupBeyondRegisters

/-- PLOW, major 0x34 (R231). -/
def plow (w : BitVec 24) : Except DecodeError Instr :=
  let f := f8_0 w
  match (f.extractLsb' 0 3).toNat with
  | 0 => if f.extractLsb' 3 6 = 0 then ce w .rcpy else .error .nonzeroField
  | 1 => if f.extractLsb' 3 6 = 0 then ce w .rfil else .error .nonzeroField
  | 2 => if f.extractLsb' 3 6 = 0 then ce w .rand else .error .nonzeroField
  | 3 => if f.extractLsb' 3 6 = 0 then ce w .ror else .error .nonzeroField
  | 4 => if f.extractLsb' 3 6 = 0 then ce w .rxor else .error .nonzeroField
  | 5 => if f.extractLsb' 3 6 = 0 then ce w .rnot else .error .nonzeroField
  | 6 => if f.extractLsb' 3 6 = 0 then ce w .rmaj else .error .nonzeroField
  | _ => .error .reservedCode

/-- COPY, RDC and SPRED: F9 is zero. -/
def cePlain (w : BitVec 24) (i : Reg → Reg → Chan → Instr) : Except DecodeError Instr :=
  if f8_0 w = 0 then ce w i else .error .nonzeroField

/-- TXC, major 0x37 (R226). -/
def txc (w : BitVec 24) : Except DecodeError Instr :=
  let f := f5_0 w
  let h := f.extractLsb' 3 3
  let d := f23_18 w
  let a := f17_12 w
  let b0 := f11_6 w == 0
  match (f.extractLsb' 0 3).toNat with
  | 0 => zero (d == 0 && b0) (.txwait a h)
  | 1 => zero (a == 0 && b0) (.txread d h)
  | 2 => zero b0 (.txstat d a h)
  | _ => .error .reservedCode

/-- ROOT, major 0x38 (R243). -/
def rootOf (w : BitVec 24) : Except DecodeError Instr :=
  let f := f5_0 w
  let h := f.extractLsb' 3 3
  match (f.extractLsb' 0 3).toNat with
  | 0 => .ok (.rstart (f23_18 w) (f17_12 w) (f11_6 w) h)
  | 1 => zero (h == 0 && f23_18 w == 0 && f11_6 w == 0) (.rgo (f17_12 w))
  | _ => .error .reservedCode

/-- BANK, major 0x39 (R246). -/
def bank (w : BitVec 24) : Except DecodeError Instr :=
  let f := f5_0 w
  let n := f.extractLsb' 3 1
  let z := f.extractLsb' 4 2 == 0
  let d0 := f23_18 w == 0
  let a := f17_12 w
  let b := f11_6 w
  match (f.extractLsb' 0 3).toNat with
  | 0 => zero (z && d0 && b == 0) (.bkld n a)
  | 1 => zero (z && d0 && b == 0) (.bkst n a)
  | 2 => zero (z && d0 && n == 0) (.bkseq a b)
  | 3 => zero (z && d0) (.bkset n a b)
  | _ => .error .reservedCode

/-- WORK, major 0x3A (R124). -/
def work (w : BitVec 24) : Except DecodeError Instr :=
  let d := f23_18 w
  let a := f17_12 w
  let b := f11_6 w
  match (f5_0 w).toNat with
  | 0 => zero (b == 0) (.launch d a)
  | 1 => zero (d == 0) (.cancel a b)
  | 2 => zero (b == 0) (.wstat d a)
  | _ => .error .reservedCode

/-- CACHE, major 0x3B (R121). -/
def cache (w : BitVec 24) : Except DecodeError Instr :=
  let a := f17_12 w
  let b := f11_6 w
  match (f5_0 w).toNat with
  | 0 => zero (f23_18 w == 0) (.cflush a b)
  | 1 => zero (f23_18 w == 0) (.cinv a b)
  | 2 => zero (f23_18 w == 0) (.cpref a b)
  | _ => .error .reservedCode

/-- A CM load or store. -/
def cm (w : BitVec 24) (k : Policy → Reg → Reg → BitVec 10 → Instr) : Except DecodeError Instr :=
  .ok (k (policyOf (f11_10 w)) (f23_18 w) (f17_12 w) (f9_0 w))

/-- A CI instruction with D, A and I. -/
def ci (w : BitVec 24) (k : Reg → Reg → BitVec 12 → Instr) : Except DecodeError Instr :=
  .ok (k (f23_18 w) (f17_12 w) (f11_0 w))

/-- The C word with major `op` and body `w`; `lit` is the doubleword of the slot that follows
(Table 03.5). -/
def cWord (op : BitVec 6) (w : BitVec 24) (lit : Word) : Except DecodeError Instr :=
  match op.toNat with
  | 0x00 => sys w
  | 0x01 => zero (f17_12 w == 0) (.mfs (f23_18 w) (f11_0 w))
  | 0x02 => mtsOf w
  | 0x03 => alu w
  | 0x04 => muldiv w
  | 0x05 => falu w
  | 0x06 => ci w .addi
  | 0x07 => ci w .andi
  | 0x08 => ci w .ori
  | 0x09 => ci w .xori
  | 0x0A => ci w .slti
  | 0x0B => ci w .sltin
  | 0x0C => shiOf w
  | 0x0D => .ok (.lis (f23_18 w) (f17_0 w))
  | 0x0E => zero (f17_0 w == 0) (.li (f23_18 w) lit)
  | 0x0F => ldx w
  | 0x10 => cm w .ldb
  | 0x11 => cm w .ldbn
  | 0x12 => cm w .ldh
  | 0x13 => cm w .ldhn
  | 0x14 => cm w .ldw
  | 0x15 => cm w .ldwn
  | 0x16 => cm w .ldd
  | 0x17 => cm w .stb
  | 0x18 => cm w .sth
  | 0x19 => cm w .stw
  | 0x1A => cm w .std
  | 0x1B => zero (f11_6 w == 0 && f5_0 w == 0) (.ldl (f23_18 w) (f17_12 w))
  | 0x1C => zero (f5_0 w == 0) (.stc (f23_18 w) (f17_12 w) (f11_6 w))
  | 0x1D => fenceWord w
  | 0x1E => .ok (.br (condOf (f11_10 w)) (f23_18 w) (f17_12 w) (f9_4 w) (f3_0 w))
  | 0x1F => .ok (.brn (condOf (f11_10 w)) (f23_18 w) (f17_12 w) (f9_4 w) (f3_0 w))
  | 0x20 => .ok (.jmp (f23_4 w) (f3_0 w))
  | 0x21 => .ok (.call (f23_4 w) (f3_0 w))
  | 0x22 => zero (f11_6 w == 0 && f5_0 w == 0) (.jr (f23_18 w) (f17_12 w))
  | 0x23 => fur w
  | 0x24 => itr w
  | 0x25 => setvlOf w
  | 0x26 => wcfgOf w
  | 0x27 => accfgOf w
  | 0x28 => cvPlain w .vld
  | 0x29 => cvStride w .vlds
  | 0x2A => cvIndexed w .vldx
  | 0x2B => cvQueue w
  | 0x2C => cvPlain w .vst
  | 0x2D => cvStride w .vsts
  | 0x2E => cvIndexed w .vstx
  | 0x2F => cvIndexed w .vglk
  | 0x30 => if f6_4 w = 0 then .error .maskZeroDestination else cvIndexed w .vstc
  | 0x31 => qctl w
  | 0x32 => wldOf w
  | 0x33 => cePlain w .copy
  | 0x34 => plow w
  | 0x35 => cePlain w .rdc
  | 0x36 => cePlain w .spred
  | 0x37 => txc w
  | 0x38 => rootOf w
  | 0x39 => bank w
  | 0x3A => work w
  | 0x3B => cache w
  | _ => .error .reservedMajor

/-! ### A words -/

/-- A mask destination m1 to m7 in a 5-bit field (R77, R81). -/
def maskDest (d : BitVec 5) (k : MReg → Except DecodeError Instr) : Except DecodeError Instr :=
  if d.extractLsb' 3 2 ≠ 0 then .error .nonzeroField
  else if d.extractLsb' 0 3 = 0 then .error .maskZeroDestination
  else k (d.extractLsb' 0 3)

/-- A mask source in a 5-bit field (R77). -/
def maskSrc (d : BitVec 5) (k : MReg → Except DecodeError Instr) : Except DecodeError Instr :=
  if d.extractLsb' 3 2 ≠ 0 then .error .nonzeroField else k (d.extractLsb' 0 3)

/-- A field of two bits, an accumulator or a queue, in a 5-bit field (R77). -/
def two (d : BitVec 5) (k : BitVec 2 → Except DecodeError Instr) : Except DecodeError Instr :=
  if d.extractLsb' 2 3 ≠ 0 then .error .nonzeroField else k (d.extractLsb' 0 2)

/-- A weight slot in a 5-bit field (R77). -/
def oneBit (d : BitVec 5) (k : BitVec 1 → Except DecodeError Instr) : Except DecodeError Instr :=
  if d.extractLsb' 1 4 ≠ 0 then .error .nonzeroField else k (d.extractLsb' 0 1)

/-- A word whose only modifier is 0. -/
def x0 (w : BitVec 32) (r : Except DecodeError Instr) : Except DecodeError Instr :=
  if aX w = 0 then r else .error .nonzeroField

/-- Three vector fields, a format word and a mask. -/
def v3 (w : BitVec 32) (k : VReg → VReg → VReg → Reg → MReg → Instr) : Except DecodeError Instr :=
  x0 w (.ok (k (aD w) (aA w) (aB w) (aS w) (aM w)))

/-- Two vector fields, a format word and a mask; B is zero. -/
def v2 (w : BitVec 32) (k : VReg → VReg → Reg → MReg → Instr) : Except DecodeError Instr :=
  zero (aB w == 0) (k (aD w) (aA w) (aS w) (aM w))

/-- The A word (Table 03.6). -/
def aWord (w : BitVec 32) : Except DecodeError Instr :=
  match (aOp w).toNat with
  | 0x00 => zero (w == 0) .vnop
  | 0x01 => v3 w .vadd
  | 0x02 => v3 w .vsub
  | 0x03 => v3 w .vmul
  | 0x04 => v3 w .vma
  | 0x05 => v3 w .vmin
  | 0x06 => v3 w .vmax
  | 0x07 =>
    if aX w = 0 then v2 w .vabs else if aX w = 1 then v2 w .vneg
    else if aX w = 2 then v2 w .vnot else v2 w .vrcp
  | 0x08 => v3 w .vdiv
  | 0x09 => x0 w (v2 w .vsqrt)
  | 0x0A => x0 w (v2 w .vcvt)
  | 0x0B => v3 w .vand
  | 0x0C => v3 w .vor
  | 0x0D => v3 w .vxor
  | 0x0E => v3 w .vshl
  | 0x0F => v3 w .vshr
  | 0x10 => maskDest (aD w) fun d => .ok (.vcmp (condOf (aX w)) d (aA w) (aB w) (aS w) (aM w))
  | 0x11 => v3 w .vsel
  | 0x12 => v3 w .vadds
  | 0x13 => v3 w .vmuls
  | 0x14 => v3 w .vmas
  | 0x15 =>
    if aX w = 0 then zero (aA w == 0 && aB w == 0) (.vsplat (aD w) (aS w) (aM w))
    else if aX w = 1 then zero (aA w == 0 && aB w == 0 && aS w == 0) (.viota (aD w) (aM w))
    else .error .reservedCode
  | 0x16 => v3 w .vslup
  | 0x17 => v3 w .vsldn
  | 0x18 => v3 w .vperm
  | 0x19 => x0 w (zero (aB w == 0 && aS w == 0) (.vcomp (aD w) (aA w) (aM w)))
  | 0x1A => v2 w (.vred (redOf (aX w)))
  | 0x1B => v2 w (.vscan (redOf (aX w)))
  | 0x1C => x0 w (zero (aB w == 0 && aM w == 0) (.vget (aD w) (aA w) (aS w)))
  | 0x1D => x0 w (zero (aA w == 0 && aM w == 0) (.vput (aD w) (aB w) (aS w)))
  | 0x1E => x0 w (maskDest (aD w) fun d => zero (aB w == 0 && aS w == 0) (.vconf d (aA w) (aM w)))
  | 0x1F => maskDest (aD w) fun d => maskSrc (aA w) fun a => maskSrc (aB w) fun b =>
      zero (aS w == 0 && aM w == 0) (.mlog (maskOf (aX w)) d a b)
  | 0x20 => maskSrc (aA w) fun a =>
      if aX w = 0 then zero (aB w == 0 && aS w == 0 && aM w == 0) (.mcntPop (aD w) a)
      else if aX w = 1 then zero (aB w == 0 && aS w == 0 && aM w == 0) (.mcntFirst (aD w) a)
      else .error .reservedCode
  | 0x21 => zero (aD w == 0 && aS w == 0) (.ixins (aX w) (aA w) (aB w) (aM w))
  | 0x22 => zero (aB w == 0 && aS w == 0) (.ixfnd (aX w) (aD w) (aA w) (aM w))
  | 0x23 => zero (aD w == 0) (.ixadd (aX w) (aA w) (aB w) (aS w) (aM w))
  | 0x24 => zero (aB w == 0 && aM w == 0) (.ixout (aX w) (aD w) (aA w) (aS w))
  | 0x25 => zero (aD w == 0 && aA w == 0 && aB w == 0 && aS w == 0 && aM w == 0) (.ixclr (aX w))
  | 0x26 => x0 w (two (aD w) fun d => oneBit (aB w) fun b =>
      if (aA w).extractLsb' 0 1 = 1 then .error .oddTileRegister
      else zero (aM w == 0) (.mma d (aA w) b (aS w)))
  | 0x27 => two (aD w) fun d =>
      zero ((aX w).extractLsb' 1 1 == 0 && aM w == 0)
        (.mmag d (aA w) (aB w) ((aX w).extractLsb' 0 1) (aS w))
  | 0x28 => x0 w (two (aA w) fun a => zero (aB w == 0) (.aext (aD w) a (aS w) (aM w)))
  | 0x29 => x0 w (two (aD w) fun d =>
      zero (aA w == 0 && aB w == 0 && aS w == 0 && aM w == 0) (.azero d))
  | 0x2A => x0 w (two (aA w) fun q =>
      zero (aD w == 0 && aB w == 0 && aS w == 0 && aM w == 0) (.qpop q))
  | _ => .error .reservedMajor

/-! ### Slots -/

/-- A slot (R66, R71): the C word below, the A word above; `lit` is the slot that follows it. -/
def slot (s lit : Word) : Except DecodeError Bundle :=
  let cw := s.extractLsb' 0 32
  let aw : BitVec 32 := s.extractLsb' 32 32
  let lone := cw.extractLsb' 31 1 == 1#1
  if lone && aw != 0 then .error .loneWithAWord
  else
    match cWord (cw.extractLsb' 24 6) (cw.extractLsb' 0 24) lit with
    | .error e => .error e
    | .ok c =>
      match aWord aw with
      | .error e => .error e
      | .ok a =>
        match c with
        | .rgo _ => if a = .vnop then .ok ⟨lone, cw.extractLsb' 30 1 == 1#1, c, a⟩ else .error .rgoWithAWord
        | _ => .ok ⟨lone, cw.extractLsb' 30 1 == 1#1, c, a⟩

/-- The one instruction that a slot holds beside a NOP or a VNOP: the A word's where the C word is NOP. -/
def single (b : Bundle) : Instr :=
  if b.c = .nop ∧ b.a ≠ .vnop then b.a else b.c

end Decode

/-- The instruction that the decoder reads from a slot and, above it, the literal slot: bit 0 is the
least significant bit of the slot. -/
def decodeTableWord (nbits w : Nat) : Option Instr :=
  if nbits ≤ 128 then
    match Decode.slot (BitVec.ofNat 64 w) (BitVec.ofNat 64 (w / 2 ^ 64)) with
    | .ok b => some (Decode.single b)
    | .error _ => none
  else none

namespace Encode
open Decode

/-- The major opcode and the body of a C word; none for an A word or a step of the module
(Tables 03.3, 03.5, 03.7). -/
def cWord : Instr → Option (BitVec 6 × BitVec 24)
  | .nop => some (0x00, packCS 0 0 0)
  | .trap n => some (0x00, packCS 0 0 (n ++ 1#4))
  | .tret => some (0x00, packCS 0 0 2)
  | .yield => some (0x00, packCS 0 0 3)
  | .endUnit => some (0x00, packCS 0 0 4)
  | .dbg n => some (0x00, packCS 0 0 (n ++ 5#4))
  | .waita a b => some (0x00, packCS a b 6)
  | .chend => some (0x00, packCS 0 0 7)
  | .mfs d i => some (0x01, packCI d 0 i)
  | .mts i a => some (0x02, packCI 0 a i)
  | .tlbinv a => some (0x02, packCI 0 a 0x063)
  | .cxsave a => some (0x02, packCI 0 a 0x0A0)
  | .cxload a => some (0x02, packCI 0 a 0x0A1)
  | .add d a b => some (0x03, packCR d a b 0x00)
  | .sub d a b => some (0x03, packCR d a b 0x01)
  | .and d a b => some (0x03, packCR d a b 0x02)
  | .or d a b => some (0x03, packCR d a b 0x03)
  | .xor d a b => some (0x03, packCR d a b 0x04)
  | .sll d a b => some (0x03, packCR d a b 0x05)
  | .srl d a b => some (0x03, packCR d a b 0x06)
  | .sra d a b => some (0x03, packCR d a b 0x07)
  | .slt d a b => some (0x03, packCR d a b 0x08)
  | .sltn d a b => some (0x03, packCR d a b 0x09)
  | .min d a b => some (0x03, packCR d a b 0x0A)
  | .max d a b => some (0x03, packCR d a b 0x0B)
  | .minn d a b => some (0x03, packCR d a b 0x0C)
  | .maxn d a b => some (0x03, packCR d a b 0x0D)
  | .clz d a => some (0x03, packCR d a 0 0x0E)
  | .ctz d a => some (0x03, packCR d a 0 0x0F)
  | .popc d a => some (0x03, packCR d a 0 0x10)
  | .ext d a b => some (0x03, packCR d a b 0x11)
  | .mul d a b => some (0x04, packCR d a b 0)
  | .mulh d a b => some (0x04, packCR d a b 1)
  | .mulhn d a b => some (0x04, packCR d a b 2)
  | .div d a b => some (0x04, packCR d a b 3)
  | .divn d a b => some (0x04, packCR d a b 4)
  | .rem d a b => some (0x04, packCR d a b 5)
  | .remn d a b => some (0x04, packCR d a b 6)
  | .fadd d a b => some (0x05, packCR d a b 0x00)
  | .fsub d a b => some (0x05, packCR d a b 0x01)
  | .fmul d a b => some (0x05, packCR d a b 0x02)
  | .fma d a b => some (0x05, packCR d a b 0x03)
  | .fmin d a b => some (0x05, packCR d a b 0x04)
  | .fmax d a b => some (0x05, packCR d a b 0x05)
  | .fcmp d a b => some (0x05, packCR d a b 0x06)
  | .fcvt k d a => some (0x05, packCR d a (cvtCode k) 0x07)
  | .fabs d a => some (0x05, packCR d a 0 0x08)
  | .fneg d a => some (0x05, packCR d a 0 0x09)
  | .fdiv d a b => some (0x05, packCR d a b 0x0A)
  | .fsqrt d a => some (0x05, packCR d a 0 0x0B)
  | .addi d a i => some (0x06, packCI d a i)
  | .andi d a i => some (0x07, packCI d a i)
  | .ori d a i => some (0x08, packCI d a i)
  | .xori d a i => some (0x09, packCI d a i)
  | .slti d a i => some (0x0A, packCI d a i)
  | .sltin d a i => some (0x0B, packCI d a i)
  | .shi k d a n => some (0x0C, packCI d a (0#4 ++ shCode k ++ n))
  | .lis d i => some (0x0D, packCL d i)
  | .li d _ => some (0x0E, packCL d 0)
  | .ldb p d a o => some (0x10, packCM d a (policyCode p) o)
  | .ldbn p d a o => some (0x11, packCM d a (policyCode p) o)
  | .ldh p d a o => some (0x12, packCM d a (policyCode p) o)
  | .ldhn p d a o => some (0x13, packCM d a (policyCode p) o)
  | .ldw p d a o => some (0x14, packCM d a (policyCode p) o)
  | .ldwn p d a o => some (0x15, packCM d a (policyCode p) o)
  | .ldd p d a o => some (0x16, packCM d a (policyCode p) o)
  | .stb p d a o => some (0x17, packCM d a (policyCode p) o)
  | .sth p d a o => some (0x18, packCM d a (policyCode p) o)
  | .stw p d a o => some (0x19, packCM d a (policyCode p) o)
  | .std p d a o => some (0x1A, packCM d a (policyCode p) o)
  | .ldbX d a b => some (0x0F, packCR d a b 0x00)
  | .ldbnX d a b => some (0x0F, packCR d a b 0x01)
  | .ldhX d a b => some (0x0F, packCR d a b 0x02)
  | .ldhnX d a b => some (0x0F, packCR d a b 0x03)
  | .ldwX d a b => some (0x0F, packCR d a b 0x04)
  | .ldwnX d a b => some (0x0F, packCR d a b 0x05)
  | .lddX d a b => some (0x0F, packCR d a b 0x06)
  | .stbX d a b => some (0x0F, packCR d a b 0x08)
  | .sthX d a b => some (0x0F, packCR d a b 0x09)
  | .stwX d a b => some (0x0F, packCR d a b 0x0A)
  | .stdX d a b => some (0x0F, packCR d a b 0x0B)
  | .ldl d a => some (0x1B, packCR d a 0 0)
  | .stc d a b => some (0x1C, packCR d a b 0)
  | .fence k s => some (0x1D, packCS 0 0 (0#7 ++ scopeCode s ++ fenceCode k))
  | .br c a b disp s => some (0x1E, packCB a b (condCode c) disp s)
  | .brn c a b disp s => some (0x1F, packCB a b (condCode c) disp s)
  | .jmp disp s => some (0x20, packCJ disp s)
  | .call disp s => some (0x21, packCJ disp s)
  | .jr d a => some (0x22, packCR d a 0 0)
  | .fid d => some (0x23, packCR d 0 0 0x00)
  | .flen d => some (0x23, packCR d 0 0 0x01)
  | .sende a => some (0x23, packCR 0 a 0 0x02)
  | .recvw d => some (0x23, packCR d 0 0 0x03)
  | .voteAdd d a => some (0x23, packCR d a 0 0x04)
  | .voteMin d a => some (0x23, packCR d a 0 0x05)
  | .voteMax d a => some (0x23, packCR d a 0 0x06)
  | .voteOr d a => some (0x23, packCR d a 0 0x07)
  | .voteMinn d a => some (0x23, packCR d a 0 0x08)
  | .voteMaxn d a => some (0x23, packCR d a 0 0x09)
  | .voteFadd d a => some (0x23, packCR d a 0 0x0A)
  | .voteFmin d a => some (0x23, packCR d a 0 0x0B)
  | .voteFmax d a => some (0x23, packCR d a 0 0x0C)
  | .ipost a => some (0x24, packCR 0 a 0 0)
  | .iwait a => some (0x24, packCR 0 a 0 1)
  | .viwait d a b => some (0x24, packCR d a b 2)
  | .irset => some (0x24, packCR 0 0 0 3)
  | .setvl w d a => some (0x25, packCI d a (0#10 ++ widthCode w))
  | .wcfg p0 p1 p2 p3 =>
    some (0x26, packCS 0 0 (0#4 ++ modeCode p3 ++ modeCode p2 ++ modeCode p1 ++ modeCode p0))
  | .accfg g => some (0x27, packCS 0 0 (0#10 ++ g))
  | .vld p v a m => some (0x28, packCV v a 0 m (policyCode p) 0)
  | .vlds p v a b m => some (0x29, packCV v a b m (policyCode p) 0)
  | .vldx p w v a b m => some (0x2A, packCV v a (0#1 ++ b) m (policyCode p) (idxCode w))
  | .vldq p q a b m => some (0x2B, packCV (0#3 ++ q) a b m (policyCode p) 0)
  | .vst p v a m => some (0x2C, packCV v a 0 m (policyCode p) 0)
  | .vsts p v a b m => some (0x2D, packCV v a b m (policyCode p) 0)
  | .vstx p w v a b m => some (0x2E, packCV v a (0#1 ++ b) m (policyCode p) (idxCode w))
  | .vglk p w v a b m => some (0x2F, packCV v a (0#1 ++ b) m (policyCode p) (idxCode w))
  | .vstc p w v a b m => some (0x30, packCV v a (0#1 ++ b) m (policyCode p) (idxCode w))
  | .qbind q base depth => some (0x31, packCS 0 0 (depth ++ base ++ q ++ 0#2))
  | .qfree q => some (0x31, packCS 0 0 (0#8 ++ q ++ 1#2))
  | .qdrain q => some (0x31, packCS 0 0 (0#8 ++ q ++ 2#2))
  | .qstat q a => some (0x31, packCS a 0 (0#8 ++ q ++ 3#2))
  | .wld slot f a b => some (0x32, packCS a b (0#7 ++ latchCode f ++ slot))
  | .copy d a h => some (0x33, packCE d a h 0)
  | .rcpy d a h => some (0x34, packCE d a h 0)
  | .rfil d a h => some (0x34, packCE d a h 1)
  | .rand d a h => some (0x34, packCE d a h 2)
  | .ror d a h => some (0x34, packCE d a h 3)
  | .rxor d a h => some (0x34, packCE d a h 4)
  | .rnot d a h => some (0x34, packCE d a h 5)
  | .rmaj d a h => some (0x34, packCE d a h 6)
  | .rdc d a h => some (0x35, packCE d a h 0)
  | .spred d a h => some (0x36, packCE d a h 0)
  | .txwait a h => some (0x37, packCR 0 a 0 (h ++ 0#3))
  | .txread d h => some (0x37, packCR d 0 0 (h ++ 1#3))
  | .txstat d a h => some (0x37, packCR d a 0 (h ++ 2#3))
  | .rstart d a b h => some (0x38, packCR d a b (h ++ 0#3))
  | .rgo a => some (0x38, packCR 0 a 0 1)
  | .bkld n a => some (0x39, packCR 0 a 0 (0#2 ++ n ++ 0#3))
  | .bkst n a => some (0x39, packCR 0 a 0 (0#2 ++ n ++ 1#3))
  | .bkseq a b => some (0x39, packCR 0 a b 2)
  | .bkset n a b => some (0x39, packCR 0 a b (0#2 ++ n ++ 3#3))
  | .launch d a => some (0x3A, packCR d a 0 0)
  | .cancel a b => some (0x3A, packCR 0 a b 1)
  | .wstat d a => some (0x3A, packCR d a 0 2)
  | .cflush a b => some (0x3B, packCR 0 a b 0)
  | .cinv a b => some (0x3B, packCR 0 a b 1)
  | .cpref a b => some (0x3B, packCR 0 a b 2)
  | _ => none

/-- The A word; none for a C word or a step of the module (Table 03.6). -/
def aWord : Instr → Option (BitVec 32)
  | .vnop => some 0
  | .vadd d a b s m => some (packA 0x01 d a b s m 0)
  | .vsub d a b s m => some (packA 0x02 d a b s m 0)
  | .vmul d a b s m => some (packA 0x03 d a b s m 0)
  | .vma d a b s m => some (packA 0x04 d a b s m 0)
  | .vmin d a b s m => some (packA 0x05 d a b s m 0)
  | .vmax d a b s m => some (packA 0x06 d a b s m 0)
  | .vabs d a s m => some (packA 0x07 d a 0 s m 0)
  | .vneg d a s m => some (packA 0x07 d a 0 s m 1)
  | .vnot d a s m => some (packA 0x07 d a 0 s m 2)
  | .vrcp d a s m => some (packA 0x07 d a 0 s m 3)
  | .vdiv d a b s m => some (packA 0x08 d a b s m 0)
  | .vsqrt d a s m => some (packA 0x09 d a 0 s m 0)
  | .vcvt d a s m => some (packA 0x0A d a 0 s m 0)
  | .vand d a b s m => some (packA 0x0B d a b s m 0)
  | .vor d a b s m => some (packA 0x0C d a b s m 0)
  | .vxor d a b s m => some (packA 0x0D d a b s m 0)
  | .vshl d a b s m => some (packA 0x0E d a b s m 0)
  | .vshr d a b s m => some (packA 0x0F d a b s m 0)
  | .vcmp c d a b s m => some (packA 0x10 (0#2 ++ d) a b s m (condCode c))
  | .vsel d a b s m => some (packA 0x11 d a b s m 0)
  | .vadds d a b s m => some (packA 0x12 d a b s m 0)
  | .vmuls d a b s m => some (packA 0x13 d a b s m 0)
  | .vmas d a b s m => some (packA 0x14 d a b s m 0)
  | .vsplat d s m => some (packA 0x15 d 0 0 s m 0)
  | .viota d m => some (packA 0x15 d 0 0 0 m 1)
  | .vslup d a b s m => some (packA 0x16 d a b s m 0)
  | .vsldn d a b s m => some (packA 0x17 d a b s m 0)
  | .vperm d a b s m => some (packA 0x18 d a b s m 0)
  | .vcomp d a m => some (packA 0x19 d a 0 0 m 0)
  | .vred o d a s m => some (packA 0x1A d a 0 s m (redCode o))
  | .vscan o d a s m => some (packA 0x1B d a 0 s m (redCode o))
  | .vget d a s => some (packA 0x1C d a 0 s 0 0)
  | .vput d b s => some (packA 0x1D d 0 b s 0 0)
  | .vconf d a m => some (packA 0x1E (0#2 ++ d) a 0 0 m 0)
  | .mlog o d a b => some (packA 0x1F (0#2 ++ d) (0#2 ++ a) (0#2 ++ b) 0 0 (maskCode o))
  | .mcntPop d a => some (packA 0x20 d (0#2 ++ a) 0 0 0 0)
  | .mcntFirst d a => some (packA 0x20 d (0#2 ++ a) 0 0 0 1)
  | .ixins n a b m => some (packA 0x21 0 a b 0 m n)
  | .ixfnd n d a m => some (packA 0x22 d a 0 0 m n)
  | .ixadd n a b s m => some (packA 0x23 0 a b s m n)
  | .ixout n d a s => some (packA 0x24 d a 0 s 0 n)
  | .ixclr n => some (packA 0x25 0 0 0 0 0 n)
  | .mma d a slot s => some (packA 0x26 (0#3 ++ d) a (0#4 ++ slot) s 0 0)
  | .mmag d a b slot s => some (packA 0x27 (0#3 ++ d) a b s 0 (0#1 ++ slot))
  | .aext d a s m => some (packA 0x28 d (0#3 ++ a) 0 s m 0)
  | .azero d => some (packA 0x29 (0#3 ++ d) 0 0 0 0 0)
  | .qpop q => some (packA 0x2A 0 (0#3 ++ q) 0 0 0 0)
  | _ => none

/-- The 32-bit C word: LONE, SW, OP and body (R76). -/
def cBits (lone sw : Bool) (x : BitVec 6 × BitVec 24) : BitVec 32 :=
  BitVec.ofBool lone ++ BitVec.ofBool sw ++ x.1 ++ x.2

/-- The literal of an LI, 0 for every other instruction. -/
def literal : Instr → Word
  | .li _ lit => lit
  | _ => 0

/-- The slots of an instruction in a bundle of its own: a C word with LONE = 1, an LI with its
literal, an A word beside a NOP (R15, R71). The module's own steps have none. -/
def slots (i : Instr) : List Word :=
  match cWord i with
  | some x =>
    let s : Word := 0#32 ++ cBits true false x
    match i with
    | .li _ lit => [s, lit]
    | _ => [s]
  | none =>
    match aWord i with
    | some w => [w ++ 0#32]
    | none => []

end Encode

end Sys2Proof
end

