-- ==== Sys2Proof/Machine/State.lean ====
section
/-! DEFINITION. The state of the module as plain data, with the reasons a step can stop and the state
after module reset. Every field names the rule that gives it. -/

namespace Sys2Proof.Machine

/-- The reasons a step stops the model. -/
inductive Fault where
  /-- Raised by a step of the module, or by a choice of agent, that the agenda names and that cannot
  take place in this state. Safe: the step does not exist there. -/
  | notEnabled
deriving DecidableEq, Repr

/-- The reasons a step is refused. -/
inductive Refusal where
  /-- Raised by an arm of `exec` that has no meaning yet. Safe: nothing is concluded about it. -/
  | notModelled (mnemonic : String)
deriving DecidableEq, Repr

/-- What a trap reports (R38, Table 12.2). -/
structure TrapInfo where
  /-- TCAUSE.CODE. -/
  cause : Nat
  /-- TCAUSE.SUB. -/
  sub : Nat := 0
  /-- TVAL. -/
  val : Word := 0
  /-- TMEM.MEMBER. -/
  member : Nat := 0
  /-- TCAUSE.ESIDE. -/
  eside : Bool := false
deriving DecidableEq, Repr

/-- How the last word executed: it completed, it trapped, it waits, or it was undone: its chunk was squashed (R283), or the
module went back to the RECVW whose SENDE it contradicts (the model's own, log 7, log 8). -/
inductive Signal where
  | done
  | trapped (t : TrapInfo)
  | stalled
  | undone
deriving DecidableEq, Repr

/-- What a furrow or a root core waits for (R117, R206, R227, R125, R141, R249). -/
inductive Park where
  /-- WAITA, with the physical sector that it watches. -/
  | waita (sector : Nat)
  | iwait
  /-- VIWAIT, with the length of the prefix that it armed (R216). -/
  | viwait (c : Nat)
  | ipost
  | txwait
  | launch
  /-- A request that waits in the queue of a pseudo-channel where a row microprogram runs (R365). -/
  | bank
  /-- Every other wait: the range scoreboard, BKSEQ. -/
  | drain
deriving DecidableEq, Repr

/-- A sector-cached line of an L2 (R253 to R255, R275). Sector bits are two booleans. -/
structure CLine where
  /-- Physical address of the 64-byte line. -/
  pa : Nat
  way : Nat
  /-- COH of the page, R265. -/
  coh : Nat
  valid0 : Bool
  valid1 : Bool
  dirty0 : Bool
  dirty1 : Bool
  kept : Bool
  /-- Bytes that the home holds under the dirty sectors: (address, byte). -/
  home : List (Nat × Byte)
deriving DecidableEq, Repr

/-- A cached translation (R270): a leaf (`level` 0 or 1), a CONTIG group (`big`) or a pointer entry (`ptr`). -/
structure TlbEntry where
  ctx : Nat
  /-- Index of the entry's range: VA[55:16] of a level-0 leaf, VA[55:21] of a CONTIG group, VA[55:29] of a
  level-1 leaf or of a level-1 pointer, VA[55:42] of a level-2 pointer. -/
  tag : Nat
  level : Nat
  ptr : Bool
  /-- One 2 MiB entry for a CONTIG group (R268). -/
  big : Bool := false
  /-- The page-table entry; a group's first. -/
  pte : Word
  /-- Its physical address. -/
  addr : Nat
  /-- Pages of a group whose leaves had DIRTY = 1 (R269). -/
  dirtied : List Nat := []
deriving DecidableEq, Repr

/-- A translation: physical address, applied memory type, coherence scope, the leaf entry, its address,
and what the walk installs. -/
structure Xlat where
  pa : Nat
  mt : Nat
  coh : Nat
  pte : Word
  leaf : Nat
  /-- It came from a cached leaf. -/
  cached : Bool
  /-- Leaf entries in which ACC is set when it is installed. -/
  marks : List Nat
  path : List TlbEntry
deriving DecidableEq, Repr

/-- An access that one member makes: the member, its address, its translation. -/
structure MAcc where
  i : Nat
  ea : Word
  x : Xlat
deriving DecidableEq, Repr

/-- A bundle whose members make their scalar accesses apart, each as a chunk of its own (R281, log 93): its C word, the
accesses still to be made with the data to store, its switch marker, and whether it began in supervisor mode. -/
structure PartRun where
  word : Instr
  todo : List (MAcc × Word)
  sw : Bool
  began : Bool
deriving DecidableEq, Repr

/-- An index pair (R24, R181, R182): its valid entries in entry order, and its DROP bit. -/
structure IxPair where
  drop : Bool := false
  entries : List (W32 × W32) := []
deriving DecidableEq, Repr

/-- A thresher command in a tiller's queue (R189, R196 to R198). -/
structure ThCmd where
  id : Nat
  tile : Nat
  /-- ACCG.GEO at dispatch. -/
  geo : Nat
  slot : Nat
  /-- The format word. -/
  fw : Word
  /-- M_t at dispatch. -/
  mt : Nat
  /-- The A tile, row after row of 128 bytes; for MMAG once gathered. -/
  a : List Byte
  scales : List W32
  /-- MMAG: the physical address of each row's first and last byte's page runs, none for a zero row. -/
  rows : List (List (Nat × Nat))
  /-- The gather has completed, or none is needed. -/
  ready : Bool
  /-- MMAG: the commands (tiller, id) of all members, which start only when all are gathered (R198). -/
  group : List (Nat × Nat) := []
  /-- Its unit has ended and another runs on the tiller: it changes nothing of the new one (R318, Table 01.7). -/
  gone : Bool := false
  /-- MMAG: virtual range of its scoreboard entry. -/
  lo : Nat
  hi : Nat
deriving DecidableEq, Repr

/-- The state of one tiller acting as a member (Table 01.1), or of a root core's one member. -/
structure Member where
  /-- Tiller number; 65,536 + g for the root core of pseudo-channel g (R2, R342). -/
  tile : Nat
  /-- s1 to s63; unlisted 0 (R19, log 2). -/
  regs : SMap Word := []
  /-- Outstanding asynchronous results, oldest first (R73, R74). -/
  pend : List (Nat × Word) := []
  /-- Channel set number (R342). -/
  chset : Nat
  /-- PCX (R276). -/
  pcx : BitVec 32 := 0
  /-- WMODE (R29). -/
  wmode : BitVec 8 := 0
  /-- ACCG.GEO (R23). -/
  geo : BitVec 2 := 0
  /-- ACCG.LIVE (R23). -/
  live : BitVec 4 := 0
  /-- Accumulator area, key r × 256 + c; unlisted undefined (R23, log 3). -/
  acc : SMap W32 := []
  accEpoch : Nat := 0
  /-- Vector register bytes, key n × 2048 + p; unlisted undefined (R20, R190, log 3). -/
  vreg : SMap Byte := []
  /-- Mask bits, key k × 2048 + p; unlisted undefined (R21, log 3). -/
  mask : SMap Bool := []
  /-- Which free values unlisted bytes and bits hold; the model's own (log 3). -/
  vEpoch : Nat := 0
  /-- Index pairs in increasing pair order (R24, R182). -/
  ix : List IxPair := []
  /-- The scalar link: a physical sector (R104, R105). -/
  link : Option Nat := none
  /-- SENDE values held for this member's RECVW, oldest first (R209, R210). -/
  sende : List Word := []
  /-- LRET.EVENTS (R348). -/
  events : BitVec 32 := 0
  /-- LRET.G, the retired lane groups (R348). -/
  groups : BitVec 8 := 0
  /-- G as the last SETVL, WCFG or unit start took it (R36, R349). -/
  lanes : BitVec 8 := 0
  /-- Spare groups used in beds 0 to 3 (R349); unlisted 0. -/
  spares : SMap Nat := []
  /-- The thresher command queue (R196). -/
  tq : List ThCmd := []
  /-- L1 I-cache lines: physical line address and 128 bytes (R252). -/
  icache : SMap (List Byte) := []
  /-- Sectors in the L1 D-cache: the scalar-presence bits (R252, R255). -/
  l1d : List Nat := []
  /-- L2 lines (R253). -/
  lines : List CLine := []
  /-- The L1 TLB of a tiller; the translation cache of a root core (R270). -/
  tlb : List TlbEntry := []
deriving DecidableEq, Repr

/-- What a vector memory instruction does with its elements (R133). -/
inductive VKind where
  | load | store | glk | stc
  /-- VLDQ into the named queue. -/
  | ldq (q : Nat)
deriving DecidableEq, Repr

/-- An active element of a vector memory instruction: index, member, byte position in the member's
part, physical address, memory type, and its bytes. -/
structure VElem where
  i : Nat
  member : Nat
  pos : Nat
  pa : Nat
  uc : Bool
  coh : Nat
  /-- VSTC: the leaf entry whose DIRTY bit a success sets first (R269), if it is clear. -/
  leaf : Option Nat
  /-- The bytes to store; for a load as many zeros as it reads. -/
  data : List Byte
deriving DecidableEq, Repr

/-- A vector memory instruction in flight (R137, R140). -/
structure VOp where
  id : Nat
  kind : VKind
  /-- Destination or data register; the entry register of a VLDQ. -/
  reg : Nat
  /-- Mask written by VSTC. -/
  mask : Nat
  policy : Policy
  /-- Elements not yet performed, in element order. -/
  todo : List VElem
  /-- VLDQ: loaded elements that wait for the arrival. -/
  got : List VElem
  /-- VSTC: (member, position in its mask part, failed). -/
  fails : List (Nat × Nat × Bool)
  /-- Scoreboard entries: (member, lowest, highest byte address) (R141). -/
  ranges : List (Nat × Nat × Nat)
  /-- The data is discarded: a SETVL, WCFG or END came first (R132, R146). -/
  discard : Bool
deriving DecidableEq, Repr

/-- The open chunks of the members of a furrow, or of a root core (R281 to R283). Sets hold (member, sector). -/
structure Chunk where
  /-- Bundles in the chunk; 0 when no chunk is open. -/
  bundles : Nat := 0
  /-- Buffered bytes of each member, by physical address. -/
  wbuf : SMap (SMap Byte) := []
  rset : List (Nat × Nat) := []
  wset : List (Nat × Nat) := []
  /-- Leaf entries whose DIRTY bit the commit sets first: (member, sector written, entry) (R269). -/
  leaves : List (Nat × Nat × Nat) := []
  /-- A write of another agent reached one of its sectors. -/
  conflict : Bool := false
  /-- Times that it was squashed. -/
  squashes : Nat := 0
deriving DecidableEq, Repr

/-- The run state of a furrow or root core (R39, R116). -/
inductive Run where
  | idle
  | running
  /-- END has executed; the unit drains. -/
  | ending
deriving DecidableEq, Repr

/-- How the next bundle's line is entered (R68 to R70). -/
inductive Entry where
  /-- The header is in use. -/
  | inLine
  /-- Fall-through, and the start of a unit: the header check alone. -/
  | fall
  /-- A transfer whose checks are still to be made, with or without the TARGET check. -/
  | jump (target : Bool)
deriving DecidableEq, Repr

/-- The unit that a furrow runs (R310, R317). -/
structure UnitRef where
  launch : Nat
  ordinal : Nat
  slot : Option Nat
deriving DecidableEq, Repr

/-- A unit whose END has executed while its furrow already runs the next one (R318): its thresher commands and vector
memory instructions that were still in progress. -/
structure Prior where
  unit : UnitRef
  cmds : List Nat
  vops : List Nat
deriving DecidableEq, Repr

/-- What an A word and a trap need of the start of their bundle (R72, R82, R157): member 0's scalars and
outstanding results, and the 64-bit slot. -/
structure Snap where
  regs : SMap Word
  pend : List (Nat × Word)
  slot : Word
deriving DecidableEq, Repr

/-- A furrow, or a root core (R17, R28). -/
structure Hart where
  /-- The model's own identifier. -/
  id : Nat
  /-- The pseudo-channel, for a root core. -/
  root : Option Nat := none
  /-- Members from the west; FCFG.LEN is their number. -/
  members : List Member := []
  run : Run := .idle
  unit : Option UnitRef := none
  /-- Units that the E-side still finishes, oldest first (R318). -/
  prior : List Prior := []
  /-- Address of the current bundle's slot (R17, R66). -/
  pc : Word := 0
  /-- Address where execution continues (R69, R70). -/
  npc : Word := 0
  /-- The header of the line in use, and how the line of the next bundle is entered (R68 to R70). -/
  hdr : Word := 0
  entry : Entry := .fall
  /-- Member 0 and the slot as of the bundle's start (R72, R82, R157). -/
  snap : Option Snap := none
  /-- The trap that follows this bundle (R113). -/
  after : Option TrapInfo := none
  /-- STATUS (Table 01.3). -/
  status : Word := 1
  vec : Word := 0
  tcause : Word := 0
  tpc : Word := 0
  tval : Word := 0
  tmem : Word := 0
  ctx : Word := 0
  ptroot0 : Word := 0
  ptroot1 : Word := 0
  tmr : Word := 0
  prio : Word := 3
  /-- A supervisor wrote PRIO since the unit started or resumed: it decides the unit's priority (R313). -/
  prioSet : Bool := false
  vl : BitVec 19 := 0
  vw : BitVec 2 := 0
  /-- VMAX.BYTES. -/
  vmax : BitVec 19 := 0
  els : BitVec 19 := 0
  efr : W32 := 0
  qst : Word := 0
  /-- HWM0 to HWM31; unlisted 0 (R33). -/
  hwm : SMap (BitVec 19) := []
  /-- AXO (R201). -/
  axo : BitVec 13 := 0
  /-- LHOLD (R350). -/
  lhold : BitVec 8 := 0
  /-- FCFG.RINGF. -/
  ringf : Bool := false
  /-- share(m) in grains, by member (R37). -/
  shares : List Nat := []
  /-- The SENDE balance (R210). -/
  bal : Int := 0
  /-- ORIGIN (Table 12.3). -/
  origin : Word := 0
  /-- Launch of the RSTART of a root-core thread (R310). -/
  rlaunch : Option Nat := none
  /-- The tiller's own channel set while a moved thread runs there with its root core's (R346). -/
  ownSet : Option Nat := none
  /-- Root core: a trap was taken and its thread has not moved yet (R347). -/
  moving : Bool := false
  park : Option Park := none
  /-- A write reached the watched sector since the parked WAITA last read it (R322). -/
  woken : Bool := false
  /-- A cancel reached the unit (R321). -/
  cancel : Bool := false
  /-- The deferral of the pre-emption has expired (R351). -/
  expired : Bool := false
  /-- An MTS set STATUS.IE while a pre-emption request was pending: the next bundle takes it (R119, log 20). -/
  enabled : Bool := false
  /-- Iteration-ring wait entries (R213). -/
  waits : List Nat := []
  chunk : Chunk := {}
  /-- The bundle whose members' accesses are made apart (R281). -/
  parts : Option PartRun := none
  vops : List VOp := []
  /-- Values that a RECVW ahead of its SENDE received, by member, until the SENDE confirms them; what the
  SENDEs have delivered since; and what the module knows of them after it went back (R209, log 8). -/
  owed : List (Nat × Word) := []
  seen : List (Nat × Word) := []
  foreseen : List (Nat × Word) := []
deriving DecidableEq, Repr

/-- A row microprogram (Table 08.13): OPR, the FMT code, SCALE, XB, YB and the count of steps. -/
structure BkProg where
  opr : Nat
  fmt : Nat
  scale : W32
  xb : Word
  yb : Word
  n : Nat
deriving DecidableEq, Repr

/-- A root core's own registers and its register block (R28, R246, R358). -/
structure RootCore where
  mbox : SMap Word := []
  flaga : Word := 0
  hctx : Word := 0
  hpt0 : Word := 0
  hpt1 : Word := 0
  /-- RCST.REF, RCST.STATE, RCST.STARTS. -/
  ref : Bool := false
  state : BitVec 3 := 0
  starts : BitVec 32 := 0
  /-- OWN0 to OWN15; unlisted 0 (R362). -/
  own : SMap (BitVec 13) := []
  /-- Bank accumulators, key n × 1024 + byte; unlisted 0 (R246, log 2). -/
  ba : SMap Byte := []
  mpc : BitVec 16 := 0
  rwin : BitVec 8 := 4
  /-- Row-steps done in the current window (R365). -/
  steps : Nat := 0
  suspended : Bool := false
  /-- Requests that wait for the end of the window, each with the number of the furrow, operation, instruction or
  outside access that makes it and its physical address, and those that the suspended sequencer lets pass (R365). -/
  queue : List (Nat × Nat) := []
  serving : List (Nat × Nat) := []
  /-- The BKSEQ in progress. -/
  prog : Option BkProg := none
  /-- The RSTART operation that started it (R361). -/
  rstart : Option Nat := none
  /-- What stays in the root core while no thread runs on it (R346, R360). -/
  core : Option Hart := none
deriving DecidableEq, Repr

/-- A weight-latch slot (R25): bytes (unlisted undefined, log 3), format code and tile scales. -/
structure WSlot where
  bytes : SMap Byte := []
  fmt : Option LatchFmt := none
  /-- Tile scales of the two halves; none until a WLD (undefined, log 3). -/
  sw : Option (W32 × W32) := none
deriving DecidableEq, Repr

/-- A weight-latch load in a sheaf: its operations, its physical runs (address, length). -/
structure WLoad where
  id : Nat
  slot : Nat
  fmt : LatchFmt
  sw0 : W32
  sw1 : W32
  runs : List (Nat × Nat)
  ops : List Nat
deriving DecidableEq, Repr

/-- An entry of a sheaf's arrival order (R194). -/
inductive Arrival where
  | wld (w : WLoad)
  | cmd (tile id slot : Nat)
deriving DecidableEq, Repr

/-- Sheaf state (R17, R25, R194, R200). -/
structure Sheaf where
  wl0 : WSlot := {}
  wl1 : WSlot := {}
  thw : W32 := 0x11111111
  order : List Arrival := []
  /-- The sheaf's TLB (R270). -/
  tlb : List TlbEntry := []
  /-- Arbiter position, and credit: 0 also while the thresher stays idle (R200). -/
  k : Nat := 0
  credit : Nat := 0
  /-- The running command: (tiller, id). -/
  busy : Option (Nat × Nat) := none
deriving DecidableEq, Repr

/-- One channel (R26, R225). -/
structure Channel where
  txn : Word := 1
  txw : Word := 1
  /-- Completed identifiers above the watermark. -/
  done : List Nat := []
  /-- Status words of completed identifiers. -/
  stat : SMap Word := []
deriving DecidableEq, Repr

/-- A channel set (R342): channels by number; unlisted as after reset. -/
structure ChSet where
  ch : SMap Channel := []
deriving DecidableEq, Repr

/-- The engine commands (R220). -/
inductive EngKind where
  | copy
  /-- PLOW with its F9 code (R231). -/
  | plow (f : Nat)
  | rdc | spred | rstart | wld
deriving DecidableEq, Repr

/-- The outcome of an engine operation, the fields of Table 08.2. -/
structure EngStatus where
  code : Nat
  sub : Nat := 0
  opnd : Nat := 0
  detail : Nat := 0
deriving DecidableEq, Repr

/-- An engine operation in flight (R220 to R224). -/
structure EngOp where
  id : Nat
  kind : EngKind
  /-- Channel set, channel and identifier; WLD has none. -/
  chset : Nat
  chan : Nat
  ident : Nat
  /-- The launch that counts it (R310). -/
  launch : Option Nat
  /-- The issuing tiller or root core, and its translation state (R223). -/
  tile : Nat
  /-- The die of the engine that acts for it now, 8 for a port of the module (R4, R355, log 108). -/
  die : Nat
  ctx : Word
  pt0 : Word
  pt1 : Word
  priv : Bool
  args : List Word
  /-- COPY: destination sectors not yet written, by first byte offset. -/
  todo : List Nat
  /-- Progress of DETAIL. -/
  prog : Nat
  /-- PLOW: highest path code. -/
  path : Nat
  /-- RFIL: the pattern row once read. -/
  pattern : Option (List Byte)
  /-- The status, once the operation has ended and waits to complete. -/
  ended : Option EngStatus
  cancelled : Bool
  /-- Translations that it has used (R273). -/
  tlb : List TlbEntry := []
  /-- Scoreboard entry (Table 08.1): read range and write range, or none. -/
  entry : Bool
  rlo : Nat
  rhi : Nat
  wlo : Nat
  whi : Nat
deriving DecidableEq, Repr

/-- An open merge (R239): its record address and context, the record as its first SPRED read it, the operations by
ordinal, and the streams of members on other modules by ordinal (R238, R376). -/
structure Merge where
  id : Nat
  record : Word
  ctx : Word
  pt0 : Word
  raw : List Byte
  members : List (Nat × Nat)
  far : List (Nat × List (Nat × Nat)) := []
deriving DecidableEq, Repr

/-- STATE of Table 04.10, with the launch states of Table 11.5. -/
inductive WState where
  | waiting | ready | running | draining | cancelling | done | cancelled | rejected | faulted
deriving DecidableEq, Repr

/-- A job (R306, R312). -/
structure Job where
  id : Nat
  /-- Physical address of its record. -/
  record : Nat
  state : WState
  reason : Nat := 0
  /-- It faulted: the cause (R323). -/
  faulted : Bool := false
  ctx : Word := 0
  pt0 : Word := 0
  pt1 : Word := 0
  vec : Word := 0
  prio : Nat := 0
  nph : Nat := 0
  pht : Word := 0
  flag : Word := 0
  /-- Its record has been read, which happens once (R305), and the job has started (R312). -/
  taken : Bool := false
  started : Bool := false
  /-- The index of the next phase to start. -/
  phase : Nat := 0
deriving DecidableEq, Repr

/-- A phase (R307, R310). -/
structure Phase where
  id : Nat
  job : Nat
  index : Nat
  addr : Word
  state : WState
  reason : Nat := 0
  faulted : Bool := false
deriving DecidableEq, Repr

/-- A graph (R307). `addr` is 0 for one formed by LAUNCH, whose launch record is `lrec` (R125). -/
structure Graph where
  id : Nat
  phase : Nat
  job : Nat
  addr : Word
  lrec : Word := 0
  state : WState
  reason : Nat := 0
  faulted : Bool := false
deriving DecidableEq, Repr

/-- A launch (R308, R310, Table 11.5). -/
structure Launch where
  id : Nat
  graph : Nat
  job : Nat
  addr : Word
  /-- Launches that precede it. -/
  preds : List Nat
  state : WState
  reason : Nat := 0
  faulted : Bool := false
  /-- Made by LAUNCH (R125). -/
  child : Bool := false
  entry : Word := 0
  args : Word := 0
  bounds : List Nat := []
  ctl : Word := 0
  stkb : Word := 0
  stksz : Nat := 0
  nslot : Nat := 0
  flag : Word := 0
  /-- Completion counter, and the next ordinal to hand out. -/
  out : Nat := 0
  next : Nat := 0
  /-- Stack slots in use (R317). -/
  slots : List Nat := []
  /-- Its place in the queue of its priority: launches become READY in increasing rank (R319). -/
  rank : Nat := 0
  /-- Aging (R319): levels that it has risen. -/
  risen : Nat := 0
  /-- The die of a ring launch (R212). -/
  die : Option Nat := none
deriving DecidableEq, Repr

/-- A saved unit (R319, R322, R343, R346). -/
structure Saved where
  id : Nat
  /-- Frame address in the context store; unused for a moved thread. -/
  frame : Nat
  len : Nat
  /-- The thread of a root core that waits for a tiller (R346). -/
  thread : Option Hart
  /-- The tiller that mailbox doubleword 7 names. -/
  target : Option Nat
  job : Option Nat
  unit : Option UnitRef
  prio : Nat
  risen : Nat := 0
  /-- The watched sector of a donated unit (R322). -/
  watch : Option Nat
  ready : Bool
  /-- A cancel reached the unit and has not been taken (R321). -/
  cancel : Bool := false
deriving DecidableEq, Repr

/-- The posted map of an active ring launch (R213, R214). -/
structure Ring where
  launch : Nat
  low : Nat
  posted : List Nat
  /-- Posts not yet delivered, oldest first: the unit's ordinal and the iteration. -/
  posts : List (Nat × Nat)
deriving DecidableEq, Repr

/-- A fault-log entry (R379): sequence number, kind, and for kind 7 the line and the cause. -/
structure FaultEntry where
  seq : Nat
  kind : Nat
  line : Word := 0
  cause : Nat := 0
deriving DecidableEq, Repr

/-- What the module answers to the host, to a peer or to an SPDM message: bytes, whether the access or the message was
refused, and CXL poison (R371, R373, R376, R379). -/
structure Reply where
  bytes : List Byte := []
  refused : Bool := false
  poison : Bool := false
deriving DecidableEq, Repr

/-- What moves next (log 1). -/
inductive Act where
  /-- The next bundle of the current furrow or root core. -/
  | bundle
  /-- Another furrow or root core becomes the current one. -/
  | switch (id : Nat)
  /-- A step of the module or of its surroundings. -/
  | event (i : Instr)
deriving DecidableEq, Repr

/-- Everything that the module holds. -/
structure ModuleState where
  /-- The current furrow or root core, and the others that run. -/
  hart : Hart
  others : List Hart
  /-- Idle tillers, by number; unlisted as after reset (R39). -/
  idle : SMap Member
  roots : SMap RootCore
  sheaves : SMap Sheaf
  /-- The walk caches, by block (R270). -/
  walks : SMap (List TlbEntry)
  chsets : SMap ChSet
  /-- Next fresh channel-set number (R342). -/
  nextSet : Nat
  /-- Restart points of open chunks, by hart (R283). -/
  ckpts : SMap Hart
  /-- Physical memory; what an unlisted address reads as is `Memory.default` (R260, R288). -/
  mem : List Host.Cell
  /-- Vector links at the homes, oldest VGLK first: (tiller, sector) (R147, R150). -/
  vlinks : List (Nat × Nat)
  ops : List EngOp
  /-- Cached translations of the engines, by die; 8 for the ports (R4, R270, R355). -/
  etlb : List (Nat × TlbEntry)
  merges : List Merge
  jobs : List Job
  phases : List Phase
  graphs : List Graph
  launches : List Launch
  saved : List Saved
  /-- Passed-over launches that hold back new units on a die: (launch, die) (R319). -/
  holds : List (Nat × Nat)
  /-- Free tillers that a donation of the job gave up (R322). -/
  gifts : SMap Nat
  rings : List Ring
  /-- CYC (R29). -/
  cyc : Word
  /-- STAGE (R368). -/
  stage : BitVec 4
  err : BitVec 8
  linkup : BitVec 16
  /-- RMFRAC (R262). -/
  rmLock : Bool
  rmF : BitVec 4
  /-- JOBST (R370). -/
  accepted : BitVec 32
  rej : Bool
  csbase : Nat
  cssize : Nat
  /-- PCAP (R378). -/
  throt : Bool
  draw : BitVec 16
  limit : BitVec 16
  /-- MCSTAT (R379). -/
  mcValid : Bool
  mcKind : BitVec 8
  mcSeq : BitVec 48
  /-- Event ring: base, size in records, next position, sequence numbers by source (R377). -/
  evbase : Nat
  evsize : Nat
  evpos : Nat
  evseq : SMap Nat
  /-- WEAR0 to WEAR7 and EOL (R380). -/
  wear : SMap Word
  eol : W32
  /-- KSLOT0 to KSLOT3, two doublewords each (R374). -/
  kslots : SMap (Word × Word)
  /-- Pseudo-channels mapped out (R367). -/
  pcmap : List Nat
  /-- TMAP: the code of most tillers and the exceptions (R367). -/
  tmapDef : Nat
  tmap : SMap Nat
  /-- CXL IDE is active; open CXL.mem windows (base, size) (R371). -/
  ide : Bool
  windows : List (Nat × Nat)
  /-- The number of the key in each slot, the key under which each sector of host memory was last written, and the
  write counter of each line (R374). -/
  keys : SMap Nat
  sealed : SMap Nat
  counters : SMap Nat
  /-- Host memory as the host finds it (R374): the key of the ciphertext in each sector that the module has written, the
  line whose record each sector of a tag area holds, and the bytes there that the host has written since. -/
  cipher : SMap Nat
  tags : SMap Nat
  raw : SMap Bool
  /-- The number of the key of the secured SPDM session that is open (R373). -/
  session : Option Nat
  /-- The lane map that stage COMPUTE fixed: retired groups by tiller, unlisted 0 (R368, R373). -/
  laneMap : SMap Nat
  /-- The digest of the firmware that the last module reset checked (R372, R373). -/
  firmware : Option (BitVec 256)
  /-- The last answer to the outside. -/
  reply : Reply
  faultLog : List FaultEntry
  /-- Poisoned sectors (R379). -/
  poisoned : List Nat
  /-- Parts to be mapped out at the next stage MEMORY, and tillers without a stacked half from the next stage COMPUTE
  on (R379). -/
  nextOut : List Nat
  nextHalf : List Nat
  /-- CXL.io uncorrectable internal error messages sent (R379). -/
  messages : Nat
  /-- The model's own: identifiers, what the last word did, who moves next, the number of steps. -/
  nextId : Nat
  signal : Signal
  agenda : List Act
  tick : Nat
  /-- Accesses of the host and of the peers that wait at a pseudo-channel, with the number of each (R356, R365). -/
  waiting : List (Nat × Instr)
deriving DecidableEq, Repr

/-- The state of the module. -/
structure State extends ModuleState where
  /-- The module as it stood when a furrow executed a RECVW whose SENDE lies ahead; none while every value
  received is known (R205, R209, log 8). -/
  undo : Option ModuleState := none
deriving DecidableEq, Repr

/-- No furrow: what stands in `State.hart` when no agent runs. -/
def Hart.absent : Hart := { id := 0 }

/-- The module right after reset (R39, R368 and the Reset columns): stage SAFE, every tiller idle,
memory as its owners left it. -/
def State.reset : State where
  hart := Hart.absent
  others := []
  idle := []
  roots := []
  sheaves := []
  walks := []
  chsets := []
  nextSet := 66560
  ckpts := []
  mem := []
  vlinks := []
  ops := []
  etlb := []
  merges := []
  jobs := []
  phases := []
  graphs := []
  launches := []
  saved := []
  holds := []
  gifts := []
  rings := []
  cyc := 0
  stage := 1
  err := 0
  linkup := 0
  rmLock := false
  rmF := 0
  accepted := 0
  rej := false
  csbase := 0
  cssize := 0
  throt := false
  draw := 0
  limit := 3800
  mcValid := false
  mcKind := 0
  mcSeq := 0
  evbase := 0
  evsize := 0
  evpos := 0
  evseq := []
  wear := []
  eol := 0xFFFFFFFF
  kslots := []
  pcmap := []
  tmapDef := 0
  tmap := []
  ide := false
  windows := []
  keys := []
  sealed := []
  counters := []
  cipher := []
  tags := []
  raw := []
  session := none
  laneMap := []
  firmware := none
  reply := {}
  faultLog := []
  poisoned := []
  nextOut := []
  nextHalf := []
  messages := 0
  nextId := 1
  signal := .done
  agenda := []
  waiting := []
  tick := 0

end Sys2Proof.Machine
end

