-- ==== Sys2Proof/Machine/Maps.lean ====
section
/-! DEFINITION. Sparse tables, lists and byte order: the helpers that every later file uses. -/

namespace Sys2Proof.Machine

/-- What the table lists at key `k`. -/
def lookup {α : Type} : SMap α → Nat → Option α
  | [], _ => none
  | (j, v) :: m, k => if j = k then some v else if k < j then none else lookup m k

/-- The table with `v` at key `k`. -/
def insert {α : Type} : SMap α → Nat → α → SMap α
  | [], k, v => [(k, v)]
  | (j, w) :: m, k, v =>
    if k < j then (k, v) :: (j, w) :: m
    else if k = j then (k, v) :: m
    else (j, w) :: insert m k v

/-- The table without key `k`. -/
def erase {α : Type} : SMap α → Nat → SMap α
  | [], _ => []
  | (j, w) :: m, k => if j = k then m else if k < j then (j, w) :: m else (j, w) :: erase m k

/-- What the table lists at `k`, or `d`. -/
def lookupD {α : Type} (m : SMap α) (k : Nat) (d : α) : α :=
  match lookup m k with
  | some v => v
  | none => d

/-- The table without the keys from `lo` to `hi - 1`. -/
def eraseRange {α : Type} (m : SMap α) (lo hi : Nat) : SMap α :=
  m.filter fun x => decide (x.1 < lo) || decide (hi ≤ x.1)

/-- The keys of a table rise strictly. -/
def rising {α : Type} : SMap α → Bool
  | [] => true
  | (j, _) :: m =>
    (match m with
      | [] => true
      | (k, _) :: _ => decide (j < k)) && rising m

/-- The list with entry `n` replaced by its image. -/
def modifyAt {α : Type} : List α → Nat → (α → α) → List α
  | [], _, _ => []
  | x :: xs, 0, f => f x :: xs
  | x :: xs, n + 1, f => x :: modifyAt xs n f

/-- The list with `f n x` for entry `x` at position `n`. -/
def mapIdxFrom {α β : Type} (f : Nat → α → β) : Nat → List α → List β
  | _, [] => []
  | n, x :: xs => f n x :: mapIdxFrom f (n + 1) xs

/-- `mapIdxFrom` from 0. -/
def mapPos {α β : Type} (f : Nat → α → β) (l : List α) : List β := mapIdxFrom f 0 l

/-- The numbers `n`, …, `n + k - 1`. -/
def numsFrom : Nat → Nat → List Nat
  | _, 0 => []
  | n, k + 1 => n :: numsFrom (n + 1) k

/-- The first entry that satisfies `p`, with its position. -/
def findPos {α : Type} (p : α → Bool) : Nat → List α → Option (Nat × α)
  | _, [] => none
  | n, x :: xs => if p x then some (n, x) else findPos p (n + 1) xs

/-- The bytes of `x`, least significant first (R6). -/
def bytesOf : Nat → Nat → List Byte
  | 0, _ => []
  | n + 1, x => BitVec.ofNat 8 x :: bytesOf n (x / 256)

/-- The value of little-endian bytes (R6). -/
def ofBytes : List Byte → Nat
  | [] => 0
  | b :: bs => b.toNat + 256 * ofBytes bs

/-- Bits [h:l] of a doubleword. -/
def field (w : Word) (h l : Nat) : Nat := w.toNat / 2 ^ l % 2 ^ (h + 1 - l)

/-- Bit `n` of a doubleword. -/
def bit (w : Word) (n : Nat) : Bool := w.getLsbD n

/-- The doubleword with bits [h:l] replaced by `v`. -/
def setField (w : Word) (h l v : Nat) : Word :=
  let m := 2 ^ (h + 1 - l)
  BitVec.ofNat 64 (w.toNat - field w h l * 2 ^ l + v % m * 2 ^ l)

/-- The doubleword with bit `n` set to `b`. -/
def setBit (w : Word) (n : Nat) (b : Bool) : Word := setField w n n (if b then 1 else 0)

/-- 1 or 0. -/
def b2n (b : Bool) : Nat := if b then 1 else 0

/-- The low `n` bits of `x`, read as two's complement. -/
def signedOf (n x : Nat) : Int :=
  let y := x % 2 ^ n
  if 2 * y < 2 ^ n then (y : Int) else (y : Int) - (2 ^ n : Nat)

/-- `k` modulo 2^n. -/
def wrapNat (n : Nat) (k : Int) : Nat := (k % ((2 ^ n : Nat) : Int)).toNat

/-- The least number at or above `a / b`. -/
def ceilDiv (a b : Nat) : Nat := (a + b - 1) / b

/-- The insertion of `x` into a list kept in increasing order, without repeats. -/
def insertNat (x : Nat) : List Nat → List Nat
  | [] => [x]
  | y :: ys => if x < y then x :: y :: ys else if x = y then y :: ys else y :: insertNat x ys

/-- The distinct members of a list in increasing order. -/
def sortNat (l : List Nat) : List Nat := l.foldr insertNat []

/-- Members of a list between `lo` and `hi`, the least and the greatest; none for an empty list. -/
def span : List Nat → Option (Nat × Nat)
  | [] => none
  | x :: xs =>
    match span xs with
    | none => some (x, x)
    | some (lo, hi) => some (min x lo, max x hi)

end Sys2Proof.Machine
end

