-- ==== Sys2Proof/Machine/Numbers.lean ====
section
/-! DEFINITION. Number formats and arithmetic (02): exact values, the decoding of every format, the
rounding helper `rnd`, and the canonical tree. -/

namespace Sys2Proof.Machine

/-- The formats of Table 02.1. -/
inductive Fmt where
  | i32 | n32 | i16 | n16 | i8 | n8 | i4 | f32 | bf16 | f16 | e4m3 | e5m2
deriving DecidableEq, Repr

/-- The format of a code; reserved codes name none (R41). -/
def Fmt.ofCode : Nat → Option Fmt
  | 0 => some .i32 | 1 => some .n32 | 2 => some .i16 | 3 => some .n16 | 4 => some .i8 | 5 => some .n8
  | 6 => some .i4 | 8 => some .f32 | 9 => some .bf16 | 10 => some .f16 | 11 => some .e4m3
  | 12 => some .e5m2 | _ => none

/-- Width in bits. -/
def Fmt.width : Fmt → Nat
  | .i32 | .n32 | .f32 => 32
  | .i16 | .n16 | .bf16 | .f16 => 16
  | .i8 | .n8 | .e4m3 | .e5m2 => 8
  | .i4 => 4

/-- A signed integer format. -/
def Fmt.isSigned : Fmt → Bool
  | .i32 | .i16 | .i8 | .i4 => true
  | _ => false

/-- An integer code (R41). -/
def Fmt.isInt : Fmt → Bool
  | .i32 | .n32 | .i16 | .n16 | .i8 | .n8 | .i4 => true
  | _ => false

/-- A narrow floating-point format (R41). -/
def Fmt.isNarrow : Fmt → Bool
  | .bf16 | .f16 | .e4m3 | .e5m2 => true
  | _ => false

/-- Mantissa bits m (Table 02.2). -/
def Fmt.mant : Fmt → Nat
  | .f32 => 23 | .bf16 => 7 | .f16 => 10 | .e4m3 => 3 | .e5m2 => 2 | _ => 0

/-- Exponent bias (Table 02.2). -/
def Fmt.bias : Fmt → Nat
  | .f32 | .bf16 => 127 | .f16 | .e5m2 => 15 | .e4m3 => 7 | _ => 0

/-- An exact value: NaN, an infinity, or a signed rational whose zero keeps its sign (R49). -/
inductive Ex where
  | nan
  | inf (neg : Bool)
  | fin (neg : Bool) (num den : Nat)
deriving DecidableEq, Repr

namespace Ex

/-- An integer's exact value; 0 is +0 (R52). -/
def ofInt (k : Int) : Ex := .fin (decide (k < 0)) k.natAbs 1

/-- A magnitude of `k` units of 2^e. -/
def scaled (neg : Bool) (k : Nat) (e : Int) : Ex :=
  if 0 ≤ e then .fin neg (k * 2 ^ e.toNat) 1 else .fin neg k (2 ^ (-e).toNat)

/-- The sign; NaN has none. -/
def neg? : Ex → Bool
  | .nan => false
  | .inf s => s
  | .fin s _ _ => s

/-- Signed numerator of a finite value. -/
def snum (s : Bool) (n : Nat) : Int := if s then -(n : Int) else n

/-- −a (R162). -/
def negate : Ex → Ex
  | .nan => .nan
  | .inf s => .inf !s
  | .fin s n d => .fin (!s) n d

/-- |a|. -/
def abs : Ex → Ex
  | .nan => .nan
  | .inf _ => .inf false
  | .fin _ n d => .fin false n d

/-- Sum under rounding mode `rm`, which gives a zero its sign (R52). -/
def add (rm : Nat) : Ex → Ex → Ex
  | .nan, _ => .nan
  | _, .nan => .nan
  | .inf s, .inf t => if s = t then .inf s else .nan
  | .inf s, .fin .. => .inf s
  | .fin .., .inf t => .inf t
  | .fin s n d, .fin t m e =>
    let k := snum s n * e + snum t m * d
    if k = 0 then
      if n = 0 && m = 0 && s = t then .fin s 0 1 else .fin (rm == 2) 0 1
    else .fin (decide (k < 0)) k.natAbs (d * e)

/-- Product (R52). -/
def mul : Ex → Ex → Ex
  | .nan, _ => .nan
  | _, .nan => .nan
  | .inf s, .inf t => .inf (s != t)
  | .inf s, .fin t n _ => if n = 0 then .nan else .inf (s != t)
  | .fin s n _, .inf t => if n = 0 then .nan else .inf (s != t)
  | .fin s n d, .fin t m e => .fin (s != t) (n * m) (d * e)

/-- Quotient (R52, R163). -/
def div : Ex → Ex → Ex
  | .nan, _ => .nan
  | _, .nan => .nan
  | .inf _, .inf _ => .nan
  | .inf s, .fin t _ _ => .inf (s != t)
  | .fin s _ _, .inf t => .fin (s != t) 0 1
  | .fin s n d, .fin t m e =>
    if m = 0 then (if n = 0 then .nan else .inf (s != t))
    else .fin (s != t) (n * e) (d * m)

/-- The bits of floor(√n) below bit `b`, added to `r`. -/
def isqrtBits : Nat → Nat → Nat → Nat
  | 0, _, r => r
  | b + 1, n, r =>
    let c := r + 2 ^ b
    if c * c ≤ n then isqrtBits b n c else isqrtBits b n r

/-- floor(√n). -/
def isqrt (n : Nat) : Nat := isqrtBits (Nat.log2 n / 2 + 1) n 0

/-- Square root (R52). An irrational root is replaced by a rational that no representable value and no
midpoint of two separates from it. -/
def sqrt : Ex → Ex
  | .nan => .nan
  | .inf s => if s then .nan else .inf false
  | .fin s n d =>
    if n = 0 then .fin s 0 1
    else if s then .nan
    else
      let q := n * d * 4 ^ 200
      let r := isqrt q
      if r * r = q then .fin false r (d * 2 ^ 200) else .fin false (2 * r + 1) (d * 2 ^ 201)

/-- a < b on exact values; false with a NaN (R53). -/
def lt : Ex → Ex → Bool
  | .nan, _ => false
  | _, .nan => false
  | .inf s, .inf t => s && !t
  | .inf s, .fin .. => s
  | .fin .., .inf t => !t
  | .fin s n d, .fin t m e => decide (snum s n * e < snum t m * d)

/-- a = b on exact values; −0 equals +0, a NaN equals nothing (R53). -/
def eq : Ex → Ex → Bool
  | .nan, _ => false
  | _, .nan => false
  | .inf s, .inf t => s == t
  | .fin s n d, .fin t m e => decide (snum s n * e = snum t m * d)
  | _, _ => false

/-- a NaN. -/
def isNan : Ex → Bool
  | .nan => true
  | _ => false

/-- Minimum (R53). -/
def min (a b : Ex) : Ex :=
  if a.isNan then b else if b.isNan then a
  else if a.lt b then a else if b.lt a then b else if a.neg? then a else b

/-- Maximum (R53). -/
def max (a b : Ex) : Ex :=
  if a.isNan then b else if b.isNan then a
  else if a.lt b then b else if b.lt a then a else if a.neg? then b else a

/-- x / 2^k (R51). -/
def shiftDown (k : Nat) : Ex → Ex
  | .fin s n d => .fin s n (d * 2 ^ k)
  | x => x

end Ex

/-- floor(log2(n / d)) for positive n and d. -/
def floorLog2 (n d : Nat) : Int :=
  let e : Int := (Nat.log2 n : Int) - Nat.log2 d
  let fits : Bool := if 0 ≤ e then decide (d * 2 ^ e.toNat ≤ n) else decide (d ≤ n * 2 ^ (-e).toNat)
  if fits then e else e - 1

/-- The integer that mode `rm` selects for ±n/d: 0 RNE, 1 RTZ, 2 RDN, 3 RUP (Table 02.3). -/
def roundMag (rm : Nat) (neg : Bool) (n d : Nat) : Nat :=
  let q := n / d
  let r := n % d
  let up : Bool :=
    if r = 0 then false
    else match rm with
      | 0 => decide (d < 2 * r) || (decide (2 * r = d) && decide (q % 2 = 1))
      | 1 => false
      | 2 => neg
      | _ => !neg
  if up then q + 1 else q

/-- The signed integer nearest to ±n/d under `rm`. -/
def roundInt (rm : Nat) (neg : Bool) (n d : Nat) : Int := Ex.snum neg (roundMag rm neg n d)

/-- The largest finite magnitude of a floating-point format (Table 02.2). -/
def Fmt.maxFinite (f : Fmt) : Nat :=
  if f = .e4m3 then 448 else (2 ^ (f.mant + 1) - 1) * 2 ^ (f.bias - f.mant)

/-- Half a unit in the last place of the largest finite value. -/
def Fmt.halfUlp (f : Fmt) : Nat := if f = .e4m3 then 16 else 2 ^ (f.bias - f.mant - 1)

/-- The sign bit as a weight. -/
def Fmt.signBit (f : Fmt) (s : Bool) : Nat := if s then 2 ^ (f.width - 1) else 0

/-- The encoding of an infinity of a format that has one; e4m3 has none. -/
def Fmt.infBits (f : Fmt) (s : Bool) : Nat :=
  f.signBit s + (2 ^ (f.width - 1 - f.mant) - 1) * 2 ^ f.mant

/-- The canonical NaN (Table 02.2). -/
def Fmt.nanBits : Fmt → Nat
  | .f32 => 0x7FC00000 | .bf16 => 0x7FC0 | .f16 => 0x7E00 | .e4m3 => 0x7F | .e5m2 => 0x7E | _ => 0

/-- The encoding of the largest finite value. -/
def Fmt.maxBits (f : Fmt) (s : Bool) : Nat :=
  f.signBit s + (if f = .e4m3 then 0x7E else (2 ^ (f.width - 1 - f.mant) - 1) * 2 ^ f.mant - 1)

/-- An infinite result in format `f` (R50). -/
def infResult (f : Fmt) (sat s : Bool) : Nat :=
  if sat then f.maxBits s else if f = .e4m3 then f.nanBits else f.infBits s

/-- `rnd` to a floating-point format (R50). -/
def rndFloat (f : Fmt) (rm : Nat) (sat : Bool) : Ex → Nat
  | .nan => f.nanBits
  | .inf s => infResult f sat s
  | .fin s n d =>
    if n = 0 then f.signBit s
    else
      let ovf : Bool := match rm with
        | 0 => decide ((f.maxFinite + f.halfUlp) * d ≤ n)
        | 1 => false
        | 2 => s && decide (f.maxFinite * d < n)
        | _ => !s && decide (f.maxFinite * d < n)
      if ovf then infResult f sat s
      else if f.maxFinite * d < n then f.maxBits s
      else
        let emin : Int := 1 - (f.bias : Int)
        let e := Max.max (floorLog2 n d) emin
        let q := e - f.mant
        let k := if 0 ≤ q then roundMag rm s n (d * 2 ^ q.toNat)
          else roundMag rm s (n * 2 ^ (-q).toNat) d
        f.signBit s + (if k < 2 ^ f.mant then k else (e + f.bias - 1).toNat * 2 ^ f.mant + k)

/-- Least value of an integer format. -/
def Fmt.minInt (f : Fmt) : Int := if f.isSigned then -((2 ^ (f.width - 1) : Nat) : Int) else 0

/-- Greatest value of an integer format. -/
def Fmt.maxInt (f : Fmt) : Int :=
  if f.isSigned then (2 ^ (f.width - 1) : Nat) - 1 else (2 ^ f.width : Nat) - 1

/-- Nearest value in a range. -/
def clampInt (lo hi k : Int) : Int := if k < lo then lo else if hi < k then hi else k

/-- `rnd` to an integer format (R51). -/
def rndInt (f : Fmt) (rm : Nat) (sat : Bool) : Ex → Nat
  | .nan => 0
  | .inf s => wrapNat f.width (if s then f.minInt else f.maxInt)
  | .fin s n d =>
    let k := roundInt rm s n d
    wrapNat f.width (if sat then clampInt f.minInt f.maxInt k else k)

/-- `rnd(x, fmt, rm)` as a bit pattern of the format's width (R50, R51). -/
def rnd (f : Fmt) (rm : Nat) (sat : Bool) (x : Ex) : Nat :=
  if f.isInt then rndInt f rm sat x else rndFloat f rm sat x

/-- The exact value of a bit pattern (R43, R49). -/
def Fmt.decode (f : Fmt) (bits : Nat) : Ex :=
  let x := bits % 2 ^ f.width
  if f.isInt then .ofInt (if f.isSigned then signedOf f.width x else x)
  else
    let m := x % 2 ^ f.mant
    let top := 2 ^ (f.width - 1 - f.mant) - 1
    let e := x / 2 ^ f.mant % (top + 1)
    let s := decide (x / 2 ^ (f.width - 1) = 1)
    if f = .e4m3 && e = 15 && m = 7 then .nan
    else if f != .e4m3 && e = top then (if m = 0 then .inf s else .nan)
    else if e = 0 then .scaled s m (1 - (f.bias : Int) - f.mant)
    else .scaled s (2 ^ f.mant + m) ((e : Int) - f.bias - f.mant)

/-- A result widened to `w` bits: sign copies for i formats, zeros otherwise (R47). -/
def widen (f : Fmt) (w bits : Nat) : Nat :=
  if f.isSigned then wrapNat w (signedOf f.width bits) else bits % 2 ^ f.width

/-- `x` rounded to f32 under RNE with SAT off, as an exact value again (R54, R59). -/
def rnd32 (x : Ex) : Ex := Fmt.f32.decode (rnd .f32 0 false x)

/-- The approximation of 1 / x of R164, before its final rounding. -/
def recip : Ex → Ex
  | .nan => .nan
  | .inf s => .fin s 0 1
  | .fin s n d =>
    if n = 0 then .inf s
    else
      let e := floorLog2 n d
      -- mt = (n / d) / 2^e
      let n' := if 0 ≤ e then n else n * 2 ^ (-e).toNat
      let d' := if 0 ≤ e then d * 2 ^ e.toNat else d
      -- m8 = (2 floor(mt × 256) + 1) / 512, so 1 / m8 = 512 / u with 512 < u < 1024
      let u := 2 * (n' * 256 / d') + 1
      -- 12 significant bits of a value in (1/2, 1): a multiple of 2^−12
      let k := roundMag 0 false (512 * 4096) u
      Ex.mul (.scaled s k (-12)) (.scaled false 1 (-e))

/-- One level of the canonical tree: neighbours combine, a last odd entry passes up (R62). -/
def pairUp {α : Type} (node : α → α → α) : List α → List α
  | x :: y :: l => node x y :: pairUp node l
  | l => l

/-- Levels of the tree, at most `fuel`. -/
def treeLevels {α : Type} (node : α → α → α) (e : α) : Nat → List α → α
  | _, [] => e
  | _, [x] => x
  | 0, x :: _ => x
  | fuel + 1, l => treeLevels node e fuel (pairUp node l)

/-- `canon_sum(list)` with its node and its identity (R62, R63). -/
def canonSum {α : Type} (node : α → α → α) (e : α) (l : List α) : α :=
  treeLevels node e l.length l

/-- One log step of R65 at distance `d`: `y(i) := node(y(i), y(i − d))`. -/
def scanStep {α : Type} (node : α → α → α) (d : Nat) (l : List α) : List α :=
  l.take d ++ List.zipWith node (l.drop d) l

/-- The log steps at distances d, 2d, 4d, … while d < n (R65). -/
def scanSteps {α : Type} (node : α → α → α) : Nat → Nat → List α → List α
  | 0, _, l => l
  | fuel + 1, d, l => if d < l.length then scanSteps node fuel (2 * d) (scanStep node d l) else l

/-- The log-step scan of a list (R65). -/
def logScan {α : Type} (node : α → α → α) (l : List α) : List α := scanSteps node l.length 1 l

end Sys2Proof.Machine
end

