-- ==== Sys2Proof/Machine/Memory.lean ====
section
/-! DEFINITION. Physical memory: what an unlisted address reads as, the read and write of bytes in the
one canonical form, the physical address map (R260) and the row-mapped decomposition (R261). -/

namespace Sys2Proof.Machine

/-- What an unlisted physical address reads as: zero in HBM, the owner's byte elsewhere (R288). -/
def Memory.default (pa : Nat) : Byte := if pa < Config.hbmSize then 0 else Config.ownerByte pa

/-- The byte at a physical address. -/
def Memory.get (m : List Host.Cell) (pa : Nat) : Byte := lookupD m pa (Memory.default pa)

/-- Memory with byte `b` at a physical address, in canonical form. -/
def Memory.put (m : List Host.Cell) (pa : Nat) (b : Byte) : List Host.Cell :=
  if b = Memory.default pa then erase m pa else insert m pa b

/-- The canonical form: addresses rise strictly, no entry equals what an unlisted address reads as. -/
def Memory.wf (m : List Host.Cell) : Bool :=
  rising m && m.all fun x => decide (x.2 ≠ Memory.default x.1)

/-- `n` bytes from `pa` on. -/
def Memory.read (m : List Host.Cell) (pa : Nat) : Nat → List Byte
  | 0 => []
  | n + 1 => Memory.get m pa :: Memory.read m (pa + 1) n

/-- The bytes written from `pa` on. -/
def Memory.write (m : List Host.Cell) (pa : Nat) : List Byte → List Host.Cell
  | [] => m
  | b :: bs => Memory.write (Memory.put m pa b) (pa + 1) bs

/-- The doubleword at a physical address. -/
def Memory.dword (m : List Host.Cell) (pa : Nat) : Word := BitVec.ofNat 64 (ofBytes (Memory.read m pa 8))

/-- The 32-byte sector of a physical address (R137). -/
def sectorOf (pa : Nat) : Nat := pa / 32

/-! ### The physical address map (Table 09.2) -/

/-- HBM. -/
def inHbm (pa : Nat) : Bool := decide (pa < Config.hbmSize)
/-- Module registers. -/
def inRegs (pa : Nat) : Bool := decide (Config.regBase ≤ pa) && decide (pa < Config.regBase + Config.regSize)
/-- Host memory. -/
def inHost (pa : Nat) : Bool := decide (Config.hostBase ≤ pa) && decide (pa < Config.peerBase)
/-- A peer window. -/
def inPeer (pa : Nat) : Bool := decide (Config.peerBase ≤ pa) && decide (pa < Config.peerEnd)
/-- The link of a peer-window address. -/
def linkOf (pa : Nat) : Nat := (pa - Config.peerBase) / Config.peerSize

/-- The stack of an HBM address and its offset there. -/
def stackOf (pa : Nat) : Nat := pa / Config.stackSize
/-- Offset in the stack. -/
def stackOff (pa : Nat) : Nat := pa % Config.stackSize
/-- Bytes of the striped region of a stack: (8 − f) × 8 GiB (R261). -/
def stripedBytes (f : Nat) : Nat := (8 - f) * 0x200000000
/-- An HBM address lies in the row-mapped region (R261). -/
def rowMapped (f pa : Nat) : Bool := inHbm pa && decide (stripedBytes f ≤ stackOff pa)
/-- Bytes of one pseudo-channel's range in the row-mapped region: f × 128 MiB. -/
def rangeBytes (f : Nat) : Nat := f * 0x8000000

/-- The pseudo-channel that owns an HBM address, by its global number (R354). -/
def ownerPc (f pa : Nat) : Option Nat :=
  if inHbm pa then
    some (64 * stackOf pa +
      (if rowMapped f pa then (stackOff pa - stripedBytes f) / rangeBytes f else stackOff pa / 4096 % 64))
  else none

/-- Offset within a pseudo-channel's row-mapped range. -/
def rangeOff (f pa : Nat) : Nat := (stackOff pa - stripedBytes f) % rangeBytes f
/-- Bank of a row-mapped address (R261). -/
def bankOf (f pa : Nat) : Nat := rangeOff f pa / (1024 * (f * 8192))
/-- Row of a row-mapped address (R261). -/
def rowOf (f pa : Nat) : Nat := (8 - f) * 8192 + rangeOff f pa / 1024 % (f * 8192)
/-- Column byte of a row-mapped address (R261). -/
def columnOf (f pa : Nat) : Nat := rangeOff f pa % 1024
/-- Subarray of a row-mapped address (R261). -/
def subarrayOf (f pa : Nat) : Nat := rowOf f pa / 512

/-- The TMAP code of a tiller (R367). -/
def State.tmapOf (s : State) (t : Nat) : Nat := lookupD s.tmap t s.tmapDef

/-- Ranges of (first address, bytes) hold every byte of the sector around `a`. -/
def coversSector (l : List (Nat × Nat)) (a : Nat) : Bool :=
  (numsFrom (a / 32 * 32) 32).all fun j => l.any fun r => decide (r.1 ≤ j) && decide (j < r.1 + r.2)

/-- The address lies behind a link that is down: an access issued before it went down does not reach it (R376). -/
def State.lostAt (s : State) (pa : Nat) : Bool := inPeer pa && !s.linkup.getLsbD (linkOf pa)

/-- A reserved range: Table 09.2, a mapped-out pseudo-channel (R379), the window of a link that is not
up (R369), host memory while IDE is not active (R371). The context store is HBM like any other (R344, log 125). -/
def State.reserved (s : State) (pa : Nat) : Bool :=
  if inHbm pa then
    match ownerPc s.rmF.toNat pa with
    | some g => s.pcmap.contains g
    | none => false
  else if inRegs pa then false
  else if inHost pa then !s.ide
  else if inPeer pa then !s.linkup.getLsbD (linkOf pa)
  else true

/-- A byte as a read returns it: all ones in a poisoned sector (R379). -/
def State.peek (s : State) (pa : Nat) : Byte :=
  if s.poisoned.contains (sectorOf pa) then 0xFF else Memory.get s.mem pa

/-- `n` bytes as a read returns them. -/
def State.peekBytes (s : State) (pa : Nat) : Nat → List Byte
  | 0 => []
  | n + 1 => s.peek pa :: s.peekBytes (pa + 1) n

/-- The doubleword that a read returns. -/
def State.peekWord (s : State) (pa : Nat) : Word := BitVec.ofNat 64 (ofBytes (s.peekBytes pa 8))

/-- The owner tag of bank `b` of pseudo-channel `g` refuses context `c` (R362, R363). -/
def State.tagRefuses (s : State) (g b : Nat) (c : Word) : Bool :=
  match lookup s.roots g with
  | none => false
  | some r =>
    let t := lookupD r.own b 0
    t.getLsbD 12 && t.toNat % 4096 != c.toNat % 4096

/-- The owner tags refuse a sector access of context `c` (R363). -/
def State.ownerRefuses (s : State) (pa : Nat) (c : Word) : Bool :=
  let f := s.rmF.toNat
  match ownerPc f pa with
  | none => false
  | some g =>
    if rowMapped f pa then s.tagRefuses g (bankOf f pa) c
    else (numsFrom 0 16).any fun b => s.tagRefuses g b c

/-! ### Where an agent stands (R2, R4, R279) -/

/-- Mesh column. -/
def tileX (t : Nat) : Nat := t % 256
/-- Mesh row. -/
def tileY (t : Nat) : Nat := t / 256
/-- Die of a tiller, or of the root core that `t` − 65,536 names. -/
def dieOf (t : Nat) : Nat :=
  if t < Config.tillers then tileX t / 128 + 2 * (tileY t / 64) else (t - Config.tillers) / 128
/-- Sheaf of a tiller. -/
def sheafOf (t : Nat) : Nat := t / 8
/-- Block of a tiller. -/
def blockOf (t : Nat) : Nat := tileX t / 16 + 16 * (tileY t / 16)
/-- The scope with which agent `t` acts: for a root core, tiller, sheaf and block scope act as die scope (R279). -/
def scopeFor (t code : Nat) : Nat := if t < Config.tillers then code else max code 3
/-- Agent `u` lies in the instance of agent `t` at the scope with this code (Table 00.4, R279). -/
def sameInstance (code t u : Nat) : Bool :=
  if t = u then true
  else match scopeFor t code with
    | 0 => false
    | 1 => decide (u < Config.tillers) && sheafOf t == sheafOf u
    | 2 => decide (u < Config.tillers) && blockOf t == blockOf u
    | 3 => dieOf t == dieOf u
    | _ => true

end Sys2Proof.Machine
end

