-- ==== Sys2Proof/Machine/Translate.lean ====
section
/-! DEFINITION. Translation (R264 to R270): the page walk, permissions, CONTIG groups, memory types,
key slots, cached translations, and the ACC and DIRTY bits. -/

namespace Sys2Proof.Machine

/-- The kinds of an access; an atomic needs both RD and WR (R266), and CPREF checks no permission
(Table 04.8). -/
inductive AKind where
  | read | write | exec | atomRead | atomWrite | hint
  /-- The page that an execute access finds, whatever the page permits and wherever it lies (R244, R360). -/
  | look
deriving DecidableEq, Repr

/-- The page-fault cause of a kind (R264, R266). -/
def AKind.cause : AKind → Nat
  | .read | .atomRead | .hint => 5
  | .write | .atomWrite => 6
  | .exec | .look => 7

/-- The context in which an access translates (R223, R264). -/
structure TCtx where
  ctx : Word
  pt0 : Word
  pt1 : Word
  priv : Bool
  /-- Cached translations that the agent may use. -/
  cands : List TlbEntry
deriving DecidableEq, Repr

namespace Pte

/-- Valid entry, with RES0, MEMTYPE and COH in range (R264). -/
def wellFormed (e : Word) : Bool :=
  bit e 0 && field e 63 52 == 0 && decide (field e 10 8 ≤ 3) && decide (field e 13 11 ≤ 5)
/-- A pointer entry: RD = WR = EX = 0. -/
def isPtr (e : Word) : Bool := field e 3 1 == 0
/-- PFN. -/
def pfn (e : Word) : Nat := field e 51 16
/-- CONTIG. -/
def contig (e : Word) : Bool := bit e 7
/-- DIRTY. -/
def dirty (e : Word) : Bool := bit e 6
/-- ACC. -/
def acc (e : Word) : Bool := bit e 5
/-- MEMTYPE. -/
def memtype (e : Word) : Nat := field e 10 8
/-- COH. -/
def coh (e : Word) : Nat := field e 13 11
/-- KEY. -/
def key (e : Word) : Nat := field e 15 14
/-- The leaf permits the access (R266). -/
def permits (e : Word) (k : AKind) (priv : Bool) : Bool :=
  (k == .hint || k == .look || priv || !bit e 4) &&
    match k with
    | .read => bit e 1
    | .write => bit e 2
    | .exec => bit e 3
    | .atomRead | .atomWrite => bit e 1 && bit e 2
    | .hint | .look => true

/-- The kind writes. -/
def writes (k : AKind) : Bool := k == .write || k == .atomWrite
/-- Everything but PFN, ACC and DIRTY (R268). -/
def shape (e : Word) : Nat := field e 63 52 * 65536 + (field e 15 7 * 512 + field e 4 0)

end Pte

/-- Physical address of page `va` under a leaf of level 0 or 1. -/
def leafPa (lvl : Nat) (e va : Word) : Nat :=
  if lvl = 1 then Pte.pfn e * 65536 + field va 28 0 else Pte.pfn e * 65536 + field va 15 0

/-- Index of the node entry of `va` at a level. -/
def nodeIndex (lvl : Nat) (va : Word) : Nat := field va (16 + 13 * lvl + 12) (16 + 13 * lvl)

/-- The tag of a cached entry of a level (see `TlbEntry`). -/
def tagAt (lvl : Nat) (va : Word) : Nat := field va 55 (16 + 13 * lvl)

/-- A walk from a node (R264): the level, address and entry at which it ends, and the pointers passed; or a
page fault's subcause, SUB 3 for an entry outside HBM or in a mapped-out pseudo-channel (R263, R379, log 122). A level-0 entry is checked in `leafResult`, with its group. -/
def walkFrom (s : State) (c : Nat) (va : Word) :
    Nat → Nat → List TlbEntry → Except Nat (Nat × Nat × Word × List TlbEntry)
  | lvl, node, path =>
    let a := node + 8 * nodeIndex lvl va
    if !inHbm node || s.reserved a then .error 3
    else
      let e := s.peekWord a
      match lvl with
      | 0 => .ok (0, a, e, path)
      | l + 1 =>
        if !Pte.wellFormed e then .error 0
        else if Pte.isPtr e then
          if field e 15 4 != 0 then .error 0
          else walkFrom s c va l (Pte.pfn e * 65536)
            ({ ctx := c, tag := tagAt lvl va, level := lvl, ptr := true, pte := e, addr := a } :: path)
        else if l = 1 then .error 0
        else if Pte.pfn e % 8192 != 0 then .error 0
        else .ok (lvl, a, e, path)

/-- The memory type that the module applies (R267). -/
def applyType (f mt pa : Nat) : Nat :=
  if inRegs pa then 2
  else if inPeer pa then (if mt = 0 || mt = 3 then 1 else mt)
  else if mt = 3 && !rowMapped f pa then 0
  else mt

/-- A key slot holds a key of the module's own whose window contains the host address (Table 14.4). -/
def inWindow (w0 w1 : Word) (pa : Nat) : Bool :=
  let base := field w0 51 16 * 65536
  bit w0 0 && !bit w0 1 && decide (base ≤ pa) && decide (pa < base + field w1 15 0 * 2 ^ 30)

/-- The sector was last written under the key of the slot (R374). -/
def State.sealedBy (s : State) (key pa : Nat) : Bool :=
  match lookup s.keys key with
  | some n => lookup s.sealed (sectorOf pa) == some n
  | none => false

/-- The key slot that a page of host or peer memory selects accepts the address (R374, R375, R376). -/
def State.keyAccepts (s : State) (key pa : Nat) (reads : Bool) : Bool :=
  if inHost pa || inPeer pa then
    match lookup s.kslots key with
    | none => false
    | some (w0, w1) =>
      if inPeer pa then
        bit w0 0 && bit w0 1 && decide ((pa - Config.peerBase) % Config.peerSize < Config.hbmSize) &&
          !Config.peerRefuses pa
      else inWindow w0 w1 pa && (!reads || s.sealedBy key pa)
  else true

/-- The slot whose window contains the host address (log 79). -/
def State.slotAt (s : State) (pa : Nat) : Option Nat :=
  (s.kslots.find? fun k => inWindow k.2.1 k.2.2 pa).map (·.1)

/-- The sector in which a slot's tag area holds the record of a line (R374). -/
def recordSector (w : Word × Word) (line : Nat) : Nat := field w.2 51 16 * 2048 + (line - field w.1 51 16 * 1024)

/-- A sector of host memory that the module has written whole stands under its slot's key, as ciphertext beside its line's
record. The other sector of its line no longer passes a check where it stood under another key: a line has one tag
(R374, log 79). -/
def State.seal (s : State) (sec : Nat) : State :=
  match s.slotAt (32 * sec) with
  | none => s
  | some k =>
    let n := lookupD s.keys k 0
    let tag := recordSector (lookupD s.kslots k (0, 0)) (sec / 2)
    { s with
      sealed := insert (s.sealed.filter fun p => p.1 / 2 != sec / 2 || p.2 == n) sec n
      cipher := insert s.cipher sec n, tags := insert s.tags tag (sec / 2)
      raw := s.raw.filter fun p => sectorOf p.1 != sec && sectorOf p.1 != tag }

/-- The write counter of a sector's line moves on with a write of the module under its key (R374). -/
def State.countWrite (s : State) (sec : Nat) : State :=
  if (lookup s.sealed sec).isSome then
    { s with counters := insert s.counters (sec / 2) (lookupD s.counters (sec / 2) 0 + 1) }
  else s

/-- An access in flight does not get the bytes at an address: they lie behind a link that went down, or in a sector of host
memory that no longer passes its check (R375, R376, log 118). -/
def State.lost (s : State) (pa : Nat) : Bool :=
  s.lostAt pa || (inHost pa && !(s.slotAt pa).any fun k => s.sealedBy k pa)

/-- `n` bytes as an access in flight reads them at their home; free values where it does not get them. -/
def State.readHome (s : State) (pa n : Nat) : List Byte :=
  if s.lost pa then (numsFrom pa n).map fun a => BitVec.ofNat 8 (Config.choose s.tick [376, a]) else s.peekBytes pa n

/-- Lines fail their check from now on, until the module writes them again (R374). -/
def State.unseal (s : State) (lines : List Nat) : State :=
  { s with sealed := s.sealed.filter fun p => !lines.contains (p.1 / 2) }

/-- A write of part of the sector fails: the rest of the sector is read first, and its check fails (R254, R374,
R375). -/
def State.partFails (s : State) (x : Xlat) : Bool := inHost x.pa && !s.sealedBy (Pte.key x.pte) x.pa

/-- The last checks of a leaf: permission, reserved range, key slot (R266, R263, R375). -/
def finishXlat (s : State) (t : TCtx) (k : AKind) (x : Xlat) : Except (Nat × Nat) Xlat :=
  if k == .look then .ok { x with mt := applyType s.rmF.toNat x.mt x.pa }
  else if !Pte.permits x.pte k t.priv then .error (8, 0)
  else if s.reserved x.pa then .error (8, 2)
  else if !s.keyAccepts (Pte.key x.pte) x.pa (k != .write) then .error (8, 4)
  else .ok { x with mt := applyType s.rmF.toNat x.mt x.pa }

/-- The first address of the group of 32 level-0 entries around entry address `a`. -/
def groupBase (a : Nat) : Nat := a / 256 * 256

/-- The entries of the group of 32 level-0 leaves around entry address `a`. -/
def groupEntries (s : State) (a : Nat) : List Word :=
  (numsFrom 0 32).map fun j => s.peekWord (groupBase a + 8 * j)

/-- A valid entry of the group around `a` has V and CONTIG set; only its low byte is read. -/
def groupAsked (s : State) (a : Nat) : Bool :=
  (numsFrom 0 32).any fun j => (s.peek (groupBase a + 8 * j) &&& 0x81) == 0x81

/-- A level-0 leaf that asks for its group (R268). -/
def Pte.asks (e : Word) : Bool := Pte.wellFormed e && Pte.contig e && !Pte.isPtr e

/-- A CONTIG group keeps the duty of R268. -/
def groupKept (es : List Word) : Bool :=
  match es with
  | [] => true
  | e0 :: _ =>
    decide (Pte.pfn e0 % 32 = 0) &&
      (mapPos (fun j e => Pte.asks e && Pte.shape e == Pte.shape e0 &&
        decide (Pte.pfn e = Pte.pfn e0 + j)) es).all id

/-- The translation of a leaf. -/
def leafXlat (c lvl a : Nat) (e va : Word) (path : List TlbEntry) (cached : Bool) (marks : List Nat) :
    Xlat :=
  ⟨leafPa lvl e va, Pte.memtype e, Pte.coh e, e, a, cached, marks,
    { ctx := c, tag := tagAt lvl va, level := lvl, ptr := false, pte := e, addr := a } :: path⟩

/-- The page's own entry of a group whose first entry is `e0`: the same attributes, its own frame, and its own
DIRTY. -/
def pageOf (e0 : Word) (j : Nat) (dirty : Bool) : Word :=
  setField (setField e0 51 16 (Pte.pfn e0 + j)) 6 6 (b2n dirty)

/-- The 2 MiB entry of the group around `a` with entries `es` (R268). -/
def groupEntry (c a : Nat) (es : List Word) (va : Word) : TlbEntry :=
  { ctx := c, tag := field va 55 21, level := 0, ptr := false, big := true, pte := es.getD 0 0, addr := groupBase a
    dirtied := (numsFrom 0 32).filter fun j => Pte.dirty (es.getD j 0) }

/-- The translation of `va` through a 2 MiB entry. -/
def groupXlat (g : TlbEntry) (va : Word) (path : List TlbEntry) (cached : Bool) (marks : List Nat) : Xlat :=
  let j := field va 20 16
  let e := pageOf g.pte j (g.dirtied.contains j)
  ⟨leafPa 0 e va, Pte.memtype e, Pte.coh e, e, g.addr + 8 * j, cached, marks, g :: path⟩

/-- What an access to a page of a group that breaks the duty of R268 finds: the page fault, or the entry of some
page of the group that has CONTIG = 1 with its PFN moved. -/
def brokenGroup (s : State) (t : TCtx) (k : AKind) (va : Word) (a : Nat) (path : List TlbEntry) :
    Except (Nat × Nat) Xlat :=
  let es := groupEntries s a
  let js := (numsFrom 0 32).filter fun j => Pte.asks (es.getD j 0)
  match js[(Config.choose s.tick [268, va.toNat]) % (js.length + 1)]? with
  | none => .error (k.cause, 4)
  | some j =>
    let x := es.getD j 0
    let moved := setField x 51 16 (Pte.pfn x + a % 256 / 8 + 2 ^ 36 - j)
    let b := groupBase a + 8 * j
    finishXlat s t k (leafXlat t.ctx.toNat 0 b moved va path false [b])

/-- The end of a walk: a leaf, with the treatment of CONTIG groups (R264, R268). -/
def leafResult (s : State) (t : TCtx) (k : AKind) (va : Word)
    (w : Nat × Nat × Word × List TlbEntry) : Except (Nat × Nat) Xlat :=
  let (lvl, a, e, path) := w
  let c := t.ctx.toNat
  let plain := leafXlat c lvl a e va path false [a]
  if lvl = 0 && groupAsked s a && (groupEntries s a).any Pte.asks then
    let es := groupEntries s a
    if !groupKept es then brokenGroup s t k va a path
    else if Config.choose s.tick [268, va.toNat] % 2 = 0 then finishXlat s t k plain
    else finishXlat s t k
      (groupXlat (groupEntry c a es va) va path false ((numsFrom 0 32).map fun j => groupBase a + 8 * j))
  else if lvl = 0 && (!Pte.wellFormed e || Pte.isPtr e) then .error (k.cause, 0)
  else finishXlat s t k plain

/-- A walk from the root (R264). -/
def walk (s : State) (t : TCtx) (k : AKind) (va : Word) : Except (Nat × Nat) Xlat :=
  let root := if bit va 55 then t.pt1 else t.pt0
  if !bit root 0 then .error (k.cause, 1)
  else
    match walkFrom s t.ctx.toNat va 2 (Pte.pfn root * 65536) [] with
    | .error sub => .error (k.cause, sub)
    | .ok w => leafResult s t k va w

/-- The range of a cached entry contains `va` (R270). -/
def TlbEntry.covers (e : TlbEntry) (va : Word) : Bool :=
  e.tag == if e.big then field va 55 21 else tagAt e.level va

/-- The cached translation of a leaf or of a group. -/
def TlbEntry.xlat (e : TlbEntry) (va : Word) : Xlat :=
  if e.big then groupXlat e va [] true [] else leafXlat e.ctx e.level e.addr e.pte va [] true []

/-- What a cached entry gives for an access; none where it does not match or makes the module walk
again (R269, R270). -/
def cachedResult (s : State) (t : TCtx) (k : AKind) (va : Word) (e : TlbEntry) :
    Option (Except (Nat × Nat) Xlat) :=
  if e.ctx != t.ctx.toNat || !e.covers va then none
  else if e.ptr then
    match e.level with
    | 0 => none
    | l + 1 =>
      some (match walkFrom s t.ctx.toNat va l (Pte.pfn e.pte * 65536) [] with
        | .error sub => .error (k.cause, sub)
        | .ok w => leafResult s t k va w)
  else if Pte.writes k && !Pte.dirty (e.xlat va).pte then none
  else some (finishXlat s t k (e.xlat va))

/-- A cached translation acts as the walk does: the same page with the same attributes, and no ACC or DIRTY bit
that the walk would set (R269, R270). -/
def sameXlat (k : AKind) (r fresh : Except (Nat × Nat) Xlat) : Bool :=
  match r, fresh with
  | .ok x, .ok y =>
    x.pa == y.pa && x.mt == y.mt && x.coh == y.coh && Pte.key x.pte == Pte.key y.pte &&
      (Pte.acc y.pte || !Pte.acc x.pte) && (!Pte.writes k || Pte.dirty y.pte || !Pte.dirty x.pte)
  | .error x, .error y => x == y
  | _, _ => false

/-- Translation of one address: the fresh walk, or a cached translation where one differs (R270). After software
cleared ACC or DIRTY in an entry still cached, the cached one leaves the bit clear (R269, log 106). -/
def translate (s : State) (t : TCtx) (k : AKind) (va : Word) : Except (Nat × Nat) Xlat :=
  if field va 63 56 != 0 then .error (k.cause, 0)
  else
    let fresh := walk s t k va
    let olds := t.cands.filterMap fun e => cachedResult s t k va e
    let diff := olds.filter fun r => !sameXlat k r fresh
    if diff.isEmpty then fresh
    else
      match diff[Config.choose s.tick [270, va.toNat] % (diff.length + 1)]? with
      | some r => r
      | none => fresh

/-- Memory with ACC, and DIRTY when `dirty`, set in a page-table entry (R269). -/
def markPte (m : List Host.Cell) (a : Nat) (dirty : Bool) : List Host.Cell :=
  let b := Memory.get m a
  Memory.put m a (b ||| (if dirty then 0x60 else 0x20))

/-- An installed entry holds ACC as the module sets it, and DIRTY of the page that it is used to write
(R269). -/
def TlbEntry.installed (e : TlbEntry) (x : Xlat) (dirty : Bool) : TlbEntry :=
  if e.ptr then e
  else if e.big then { e with pte := setField e.pte 5 5 1, dirtied := if dirty then (x.leaf - e.addr) / 8 :: e.dirtied else e.dirtied }
  else { e with pte := setField (if dirty then setField e.pte 6 6 1 else e.pte) 5 5 1 }

/-- Offsets in a run of `n` bytes of one page at which an address may be reserved, or a line may fail its check, that
the run's first byte does not show: its 4 KiB blocks in HBM, its lines in host memory and in a peer window. -/
def runSteps (pa n : Nat) : List Nat :=
  let step := if inHbm pa then 4096 else 32
  (numsFrom 1 ((pa % step + n - 1) / step)).map fun k => k * step - pa % step

/-- The first byte after the first one of a run of `n` bytes of one page that lies in a reserved range, or that the
page's key slot refuses: its offset and the subcause (R263, R375, R379). -/
def State.runFault (s : State) (x : Xlat) (n : Nat) (reads : Bool) : Option (Nat × Nat) :=
  (runSteps x.pa n).findSome? fun o =>
    if s.reserved (x.pa + o) then some (o, 2)
    else if !s.keyAccepts (Pte.key x.pte) (x.pa + o) reads then some (o, 4)
    else none

/-- The entries that a use of the translation installs. -/
def Xlat.installs (x : Xlat) (dirty : Bool) : List TlbEntry := x.path.map fun e => e.installed x dirty

/-- The cached entries with others put in front of them. -/
def install (l old : List TlbEntry) : List TlbEntry :=
  l ++ old.filter fun e => !l.any fun n => n.ctx == e.ctx && n.tag == e.tag && n.level == e.level && n.ptr == e.ptr && n.big == e.big

/-- A failed translation as a trap at `va` (Table 12.2). -/
def xlatTrap (e : Nat × Nat) (va : Word) (mem : Nat) : TrapInfo :=
  { cause := e.1, sub := e.2, val := va, member := mem }

end Sys2Proof.Machine
end

