-- ==== Sys2Proof/Machine/Flags.lean ====
section
/-! DEFINITION. The fields of STATUS (Table 01.3), and the conditions that branches and compares test
(R76, R109, R169, R98). -/

namespace Sys2Proof.Machine

/-- STATUS.PRIV. -/
def Hart.priv (h : Hart) : Bool := bit h.status 0
/-- STATUS.IE. -/
def Hart.ie (h : Hart) : Bool := bit h.status 1
/-- STATUS.PIE. -/
def Hart.pie (h : Hart) : Bool := bit h.status 2
/-- STATUS.PPRIV. -/
def Hart.ppriv (h : Hart) : Bool := bit h.status 3
/-- STATUS.PREQ. -/
def Hart.preq (h : Hart) : Bool := bit h.status 4
/-- STATUS.CLASS. -/
def Hart.training (h : Hart) : Bool := bit h.status 8
/-- STATUS.STOPF. -/
def Hart.stopf (h : Hart) : Bool := bit h.status 9
/-- STATUS.RING. -/
def Hart.ring (h : Hart) : Bool := bit h.status 10
/-- STATUS.SSTEP. -/
def Hart.sstep (h : Hart) : Bool := bit h.status 11

/-- The bits of STATUS that an MTS writes: SSTEP, PPRIV, PIE, IE, PRIV (Table 01.3). -/
def statusWritable : Word := 0x80F

/-- STATUS as trap entry leaves it (R38). -/
def statusTrap (w : Word) : Word :=
  setBit (setBit (setBit (setBit w 3 (bit w 0)) 2 (bit w 1)) 0 true) 1 false

/-- STATUS as TRET leaves it (R114). -/
def statusReturn (w : Word) : Word := setBit (setBit w 0 (bit w 3)) 1 (bit w 2)

/-- A condition on two doublewords, signed or unsigned (R109). -/
def condHolds (c : Cond) (signed : Bool) (a b : Word) : Bool :=
  match c with
  | .eq => a == b
  | .ne => a != b
  | .lt => if signed then a.slt b else a.ult b
  | .ge => if signed then !a.slt b else !a.ult b

/-- A condition on exact values (R53, R169). -/
def condExact (c : Cond) (a b : Ex) : Bool :=
  match c with
  | .eq => a.eq b
  | .ne => !a.eq b
  | .lt => a.lt b
  | .ge => b.lt a || a.eq b

/-- What FCMP writes: 1, 2, 4 or 8 (R98). -/
def fcmpCode (a b : Ex) : Word :=
  if a.isNan || b.isNan then 8 else if a.lt b then 1 else if a.eq b then 2 else 4

/-- A pre-emption request that is acted on: PREQ and IE set and not deferred by LHOLD (R131, R351). -/
def Hart.preemptable (h : Hart) : Bool := h.preq && h.ie && (h.lhold == 0 || h.expired)

/-- The timer condition (R120). -/
def Hart.timerDue (h : Hart) (cyc : Word) : Bool := h.tmr != 0 && h.ie && !cyc.ult h.tmr

end Sys2Proof.Machine
end

