-- ==== Sys2Proof/Machine/Access.lean ====
section
/-! DEFINITION. Access to the parts of the state: members, scalar registers with their outstanding
results (R19, R73, R74), cached translations, caches (R252 to R255), the write of bytes with everything
that it breaks or wakes (R105, R149, R283, R322), and the fetch of a line (R66 to R70, R123). -/

namespace Sys2Proof.Machine

/-! ### Members and registers -/

/-- A tiller as after reset (R39, R342). -/
def Member.fresh (t : Nat) : Member := { tile := t, chset := t }

/-- Furrow length F. -/
def Hart.len (h : Hart) : Nat := h.members.length

/-- Member `i`. -/
def Hart.member (h : Hart) (i : Nat) : Member := (h.members[i]?).getD (Member.fresh 0)

/-- The furrow with member `i` changed. -/
def Hart.modMember (h : Hart) (i : Nat) (f : Member → Member) : Hart :=
  { h with members := modifyAt h.members i f }

/-- The furrow with every member changed. -/
def Hart.mapMembers (h : Hart) (f : Nat → Member → Member) : Hart :=
  { h with members := mapPos f h.members }

/-- The state with the current furrow changed. -/
def State.modHart (s : State) (f : Hart → Hart) : State := { s with hart := f s.hart }

/-- A free choice among `n` alternatives at this moment; 0 when there is only one (log 1). -/
def State.pick (s : State) (what : List Nat) (n : Nat) : Nat :=
  if n ≤ 1 then 0 else Config.choose s.tick what % n

/-- The value that a reader of register `r` receives: the written value, or that of an outstanding
result (R74). -/
def regValue (t tile : Nat) (regs : SMap Word) (pend : List (Nat × Word)) (r : Reg) : Word :=
  if r = 0 then 0
  else
    let base := lookupD regs r.toNat 0
    let vals := (pend.filter fun p => p.1 == r.toNat && p.2 != base).map (·.2)
    if vals.isEmpty then base
    else (vals[Config.choose t [74, tile, r.toNat] % (vals.length + 1)]?).getD base

/-- Register `r` of a member, as a bundle reads it. -/
def Member.reg (m : Member) (t : Nat) (r : Reg) : Word := regValue t m.tile m.regs m.pend r

/-- A member with a single-cycle result written (R19, R73, R74). -/
def Member.setReg (m : Member) (t : Nat) (r : Reg) (v : Word) : Member :=
  if r = 0 then m
  else
    let m' := { m with regs := insert m.regs r.toNat v }
    if m.pend.any fun p => p.1 == r.toNat then
      if Config.choose t [74, m.tile, r.toNat, 1] % 2 = 0 then
        { m' with pend := m.pend.filter fun p => p.1 != r.toNat }
      else m'
    else m'

/-- A member with an asynchronous result outstanding (R73). -/
def Member.asyncReg (m : Member) (r : Reg) (v : Word) : Member :=
  if r = 0 then m else { m with pend := m.pend ++ [(r.toNat, v)] }

/-- Outstanding result `k` arrives (R74). -/
def Member.arrive (m : Member) (k : Nat) : Member :=
  match m.pend[k]? with
  | none => m
  | some (r, v) => { m with regs := insert m.regs r v, pend := m.pend.eraseIdx k }

/-- Every outstanding result is written, in an order of the module's choosing (R74, R75). -/
def Member.drainPend (m : Member) (t : Nat) : Member :=
  let l := if m.pend.length ≤ 1 || Config.choose t [74, m.tile] % 2 = 0 then m.pend else m.pend.reverse
  { m with regs := l.foldl (fun r p => insert r p.1 p.2) m.regs, pend := [] }

/-- Register `r` of member `i` of the current furrow. -/
def State.reg (s : State) (i : Nat) (r : Reg) : Word := (s.hart.member i).reg s.tick r

/-- Member 0's register: a furrow-wide operand (R18). -/
def State.reg0 (s : State) (r : Reg) : Word := s.reg 0 r

/-- Every member gets a single-cycle result, `f i` for member `i` (R90). -/
def State.setRegs (s : State) (r : Reg) (f : Nat → Word) : State :=
  s.modHart fun h => h.mapMembers fun i m => m.setReg s.tick r (f i)

/-- Every member gets an asynchronous result, `f i` for member `i`. -/
def State.asyncRegs (s : State) (r : Reg) (f : Nat → Word) : State :=
  s.modHart fun h => h.mapMembers fun i m => m.asyncReg r (f i)

/-- Every member gets the same single-cycle result. -/
def State.setRegAll (s : State) (r : Reg) (v : Word) : State := s.setRegs r fun _ => v

/-- Every member gets the same asynchronous result. -/
def State.asyncRegAll (s : State) (r : Reg) (v : Word) : State := s.asyncRegs r fun _ => v

/-- A scalar operand of an A word: member 0's, as of before the bundle (R72, R157). -/
def State.aScalar (s : State) (r : Reg) : Word :=
  match s.hart.snap with
  | some n => regValue s.tick (s.hart.member 0).tile n.regs n.pend r
  | none => s.reg0 r

/-! ### All members, wherever they are -/

/-- Furrows and root cores that run. -/
def State.harts (s : State) : List Hart := s.hart :: s.others

/-- Every recorded member. -/
def State.allMembers (s : State) : List Member :=
  s.harts.flatMap (·.members) ++ s.idle.map (·.2)
    ++ s.roots.flatMap (fun r => match r.2.core with | some h => h.members | none => [])

/-- The state with every recorded member changed. -/
def State.mapAll (s : State) (f : Member → Member) : State :=
  { s with
    hart := { s.hart with members := s.hart.members.map f }
    others := s.others.map fun h => { h with members := h.members.map f }
    idle := s.idle.map fun p => (p.1, f p.2)
    roots := s.roots.map fun p =>
      (p.1, { p.2 with core := p.2.core.map fun h => { h with members := h.members.map f } }) }

/-- An idle tiller. -/
def State.idleMember (s : State) (t : Nat) : Member := lookupD s.idle t (Member.fresh t)

/-- The root core of pseudo-channel `g`. -/
def State.rootOf (s : State) (g : Nat) : RootCore := lookupD s.roots g {}

/-- The state with the root core of `g` changed. -/
def State.modRoot (s : State) (g : Nat) (f : RootCore → RootCore) : State :=
  { s with roots := insert s.roots g (f (s.rootOf g)) }

/-- A sheaf. -/
def State.sheaf (s : State) (n : Nat) : Sheaf := lookupD s.sheaves n {}

/-- The state with a sheaf changed. -/
def State.modSheaf (s : State) (n : Nat) (f : Sheaf → Sheaf) : State :=
  { s with sheaves := insert s.sheaves n (f (s.sheaf n)) }

/-- The state with every furrow and root core changed. -/
def State.mapHarts (s : State) (f : Hart → Hart) : State :=
  { s with hart := f s.hart, others := s.others.map f }

/-! ### Channels -/

/-- Channel `n` of a set. -/
def State.channel (s : State) (set n : Nat) : Channel := lookupD (lookupD s.chsets set {}).ch n {}

/-- The state with channel `n` of a set changed. -/
def State.modChannel (s : State) (set n : Nat) (f : Channel → Channel) : State :=
  let c := lookupD s.chsets set {}
  { s with chsets := insert s.chsets set { c with ch := insert c.ch n (f (lookupD c.ch n {})) } }

/-! ### The queues of the pseudo-channels (R356, R362, R365) -/

/-- Offset of OWN0 in a register block, and the register blocks of the root cores (R358, R362). -/
def ownOffset (pa : Nat) : Option (Nat × Nat) :=
  let off := pa - Config.regBase
  let k := off % 0x1000
  if inRegs pa && decide (0x100000 ≤ off) && decide (off < 0x500000) && decide (0x80 ≤ k) && decide (k < 0x100) then
    some ((off - 0x100000) / 0x1000, (k - 0x80) / 8)
  else none

/-- The address of OWNn of pseudo-channel `g`. -/
def ownAddress (g n : Nat) : Nat := Config.regBase + 0x100000 + 0x1000 * g + 0x80 + 8 * n

/-- The pseudo-channel at which a request to an address is performed: the owner's in HBM, and the register's own for a
write of OWNn (R354, R362). -/
def State.pcAt (s : State) (pa : Nat) : Option Nat :=
  match ownOffset pa with
  | some (g, _) => some g
  | none => ownerPc s.rmF.toNat pa

/-- The bank of a request, where it is architectural (R261, R362). -/
def State.bankAt (s : State) (pa : Nat) : Option Nat :=
  match ownOffset pa with
  | some (_, n) => some n
  | none => if rowMapped s.rmF.toNat pa then some (bankOf s.rmF.toNat pa) else none

/-- An address in each 4 KiB block of a range; a block lies in one pseudo-channel. -/
def blocksOf (pa n : Nat) : List Nat :=
  if n = 0 then [] else (numsFrom (pa / 4096) ((pa % 4096 + n - 1) / 4096 + 1)).map (· * 4096)

/-- Accesses that have been issued and not performed: the number of the instruction or command, and an address. -/
def State.pendingAt (s : State) : List (Nat × Nat) :=
  (s.harts.flatMap fun h => h.vops.flatMap fun o => o.todo.map fun e => (o.id, e.pa))
    ++ (s.allMembers.flatMap fun m => (m.tq.filter fun c => !c.ready).flatMap fun c =>
      (c.rows.flatten.flatMap fun r => blocksOf r.1 r.2).map fun pa => (c.id, pa))
    ++ s.sheaves.flatMap fun p => p.2.order.flatMap fun a => match a with
      | .wld w => (w.runs.flatMap fun r => blocksOf r.1 r.2).map fun pa => (w.id, pa)
      | .cmd .. => []

/-- A request has not been served yet; one whose furrow, operation, instruction or outside access no longer makes it
counts as served. -/
def State.stillWaits (s : State) (q : Nat × Nat) : Bool :=
  (s.waiting.any fun w => w.1 == q.1) || (s.harts.any fun h => h.id == q.1 && (h.park == some .bank || h.parts.isSome)) ||
    s.pendingAt.contains q || (s.ops.any fun o => o.id == q.1 && o.ended.isNone && !o.cancelled) ||
    (s.merges.any fun m => m.id == q.1) || (s.launches.any fun l => l.id == q.1) || (s.jobs.any fun j => j.id == q.1) ||
    s.saved.any fun u => u.id == q.1

/-- No row microprogram runs, and no request waits. -/
def State.calm (s : State) : Bool := s.roots.all fun p => p.2.prog.isNone && p.2.serving.isEmpty

/-- The root core begins a row microprogram; what still waits belongs to the end of its first window. -/
def RootCore.begun (r : RootCore) (p : BkProg) : RootCore :=
  { r with prog := some p, suspended := false, steps := 0, queue := r.serving ++ r.queue, serving := [] }

/-- The root core without a row microprogram; what waited for it is served. -/
def RootCore.stopped (r : RootCore) : RootCore :=
  { r with prog := none, suspended := false, steps := 0, queue := [], serving := r.serving ++ r.queue }

/-- The requester of a request waits at no other pseudo-channel than `g`, and waits there still. -/
def State.waitsOnly (s : State) (g : Nat) (q : Nat × Nat) : Bool :=
  s.stillWaits q && s.roots.all fun p => p.1 == g || !((p.2.queue ++ p.2.serving).any fun e => e.1 == q.1)

/-- The sequencer holds back a request: it works in a window, or is suspended for others (R365). -/
def RootCore.refuses (r : RootCore) (q : Nat × Nat) : Bool :=
  match r.prog with
  | some p => decide (r.mpc.toNat < p.n) && !(r.suspended && r.serving.contains q)
  | none => false

/-- A request of another requester to the bank of `q` came before it and waits still (R356, log 73). -/
def State.waitsBehind (s : State) (g : Nat) (r : RootCore) (q : Nat × Nat) : Bool :=
  match s.bankAt q.2 with
  | none => false
  | some b => (r.serving.takeWhile (· != q)).any fun e => e.1 != q.1 && s.bankAt e.2 == some b && s.waitsOnly g e

/-- The requests of `id` at some addresses that must wait, each with its pseudo-channel. -/
def State.windowsAt (s : State) (id : Nat) (pas : List Nat) : List (Nat × Nat) :=
  if s.calm then []
  else pas.filterMap fun pa =>
    match s.pcAt pa with
    | none => none
    | some g =>
      match lookup s.roots g with
      | some r => if r.refuses (id, pa) || s.waitsBehind g r (id, pa) then some (g, pa) else none
      | none => none

/-- A request enters the queue of its pseudo-channel, once. Where the queue's 64 entries are taken, it is held back in the
mesh: it has not arrived, and its requester makes it again (R356). -/
def RootCore.enter (r : RootCore) (q : Nat × Nat) : RootCore :=
  if r.queue.contains q || r.serving.contains q || decide (64 ≤ r.queue.length + r.serving.length) then r
  else { r with queue := r.queue ++ [q] }

/-- Requests of `id` enter the queues of pseudo-channels. -/
def State.enterQueues (s : State) (id : Nat) (gs : List (Nat × Nat)) : State :=
  gs.foldl (fun (s : State) g => s.modRoot g.1 fun r => r.enter (id, g.2)) s

/-- Requests leave the queues: they are performed, or made no longer. -/
def State.leaveQueues (s : State) (gone : Nat × Nat → Bool) : State :=
  if s.calm then s
  else { s with roots := s.roots.map fun p =>
    (p.1, { p.2 with queue := p.2.queue.filter (!gone ·), serving := p.2.serving.filter (!gone ·) }) }

/-! ### Translation for an agent -/

/-- Cached translations that tiller or root core `t` may use: its own, and for a tiller its sheaf's leaves and its
block's pointers (R270). -/
def State.tlbOf (s : State) (t : Nat) : List TlbEntry :=
  let own := (s.allMembers.filter fun m => m.tile == t).flatMap (·.tlb)
  if t < Config.tillers then own ++ (s.sheaf (sheafOf t)).tlb ++ lookupD s.walks (blockOf t) [] else own

/-- The translation context of member `i` of the current furrow. -/
def State.tctx (s : State) (i : Nat) : TCtx :=
  { ctx := s.hart.ctx, pt0 := s.hart.ptroot0, pt1 := s.hart.ptroot1, priv := s.hart.priv,
    cands := s.tlbOf (s.hart.member i).tile }

/-- Translation for member `i` of the current furrow. -/
def State.xlat (s : State) (i : Nat) (k : AKind) (va : Word) : Except (Nat × Nat) Xlat :=
  translate s (s.tctx i) k va

/-- The page is cached: WB or ROWMAP. -/
def Xlat.wb (x : Xlat) : Bool := x.mt = 0 || x.mt = 3
/-- The page is an IO page. -/
def Xlat.io (x : Xlat) : Bool := x.mt = 2

/-! ### Caches -/

/-- Mode of pair `w` in a WMODE value (Table 01.5). -/
def pairMode (wm : BitVec 8) (w : Nat) : Nat := wm.toNat / 4 ^ w % 4

/-- Pairs of a WMODE value in a mode. -/
def pairsIn (wm : BitVec 8) (mode : Nat) : List Nat := (numsFrom 0 4).filter fun w => pairMode wm w == mode

/-- The number of beds of a member. -/
def Member.beds (m : Member) : Nat := (pairsIn m.wmode 1).length

/-- The ways that hold lines: those of pairs in cache mode; the compute-die ways alone on a tiller
without its stacked half, and none on a root core (R253, R257, R360). -/
def cacheWays (s : State) (m : Member) : List Nat :=
  let ps := pairsIn m.wmode 0
  if Config.tillers ≤ m.tile then []
  else if s.tmapOf m.tile = 2 then ps else ps ++ ps.map (· + 4)

/-- Sector bit of a physical address within its line. -/
def upper (pa : Nat) : Bool := decide (pa / 32 % 2 = 1)

/-- The line holds the sector of `pa`. -/
def CLine.holds (l : CLine) (pa : Nat) : Bool :=
  l.pa == pa / 64 * 64 && (if upper pa then l.valid1 else l.valid0)

/-- The line holds the sector of `pa` dirty. -/
def CLine.dirtyAt (l : CLine) (pa : Nat) : Bool :=
  l.pa == pa / 64 * 64 && (if upper pa then l.dirty1 else l.dirty0)

/-- The line with the sector of `pa` clean: its bytes are at the home. -/
def CLine.clean (l : CLine) (pa : Nat) : CLine :=
  if l.pa == pa / 64 * 64 then
    let l := if upper pa then { l with dirty1 := false } else { l with dirty0 := false }
    { l with home := l.home.filter fun p => sectorOf p.1 != sectorOf pa }
  else l

/-- The line without the sector of `pa`. A kept mark stays while the other sector is valid (R275, log 124). -/
def CLine.drop (l : CLine) (pa : Nat) : CLine :=
  if l.pa == pa / 64 * 64 then
    let l := l.clean pa
    if upper pa then { l with valid1 := false } else { l with valid0 := false }
  else l

/-- A line that still holds a sector. -/
def CLine.live (l : CLine) : Bool := l.valid0 || l.valid1

/-- The line with every dirty sector written back. -/
def CLine.writtenBack (l : CLine) : CLine := { l with dirty0 := false, dirty1 := false, home := [] }

/-- A copy held by a member, dirty or not. -/
def Member.holds (m : Member) (pa : Nat) : Bool :=
  m.lines.any (·.holds pa) || m.l1d.contains (sectorOf pa)

/-- A dirty copy held by a member. -/
def Member.dirtyAt (m : Member) (pa : Nat) : Bool := m.lines.any (·.dirtyAt pa)

/-- The member without a copy of the sector of `pa`. -/
def Member.dropSector (m : Member) (pa : Nat) : Member :=
  if m.holds pa then
    { m with lines := (m.lines.map (·.drop pa)).filter CLine.live
             l1d := m.l1d.filter (· != sectorOf pa) }
  else m

/-- The member with its copy of the sector of `pa` clean. -/
def Member.cleanSector (m : Member) (pa : Nat) : Member :=
  if m.dirtyAt pa then { m with lines := m.lines.map (·.clean pa) } else m

/-- The byte at the home as the host reads it: the one under a dirty copy of a scope narrower than the host's, if any
(R280, R302); all ones in a poisoned sector (R379). -/
def State.homeByte (s : State) (pa : Nat) : Byte :=
  if s.poisoned.contains (sectorOf pa) then 0xFF
  else match (s.allMembers.flatMap fun m => m.lines.flatMap fun l => if l.coh = 5 then [] else l.home).find?
      fun p => p.1 == pa with
  | some p => p.2
  | none => s.peek pa

/-- A sector enters the L1 D-cache, 4 ways of 64 sets; the victim is the module's choice (R252). -/
def Member.fillL1 (s : State) (m : Member) (sec : Nat) : Member :=
  if m.l1d.contains sec then m
  else
    let inSet := m.l1d.filter fun k => k % 64 == sec % 64
    let rest := if inSet.length < 4 then m.l1d
      else match inSet[s.pick [252, sec] inSet.length]? with
        | some v => m.l1d.filter (· != v)
        | none => m.l1d
    { m with l1d := sec :: rest }

/-- Sets of the L1 I-cache: 32, and 16 in a root core's 8 KiB (R252, R360, log 94). -/
def icacheSets (tile : Nat) : Nat := if tile < Config.tillers then 32 else 16

/-- A line enters the L1 I-cache of 4 ways; the victim is the module's choice (R252). -/
def Member.fillI (s : State) (m : Member) (pa : Nat) (line : List Byte) : Member :=
  let n := icacheSets m.tile
  let inSet := m.icache.filter fun p => p.1 != pa && p.1 / 128 % n == pa / 128 % n
  let rest := if inSet.length < 4 then m.icache
    else match inSet[s.pick [252, pa, 1] inSet.length]? with
      | some v => erase m.icache v.1
      | none => m.icache
  { m with icache := insert rest pa line }

/-- The L1 copies that a line's scalar-presence bit records are invalidated (R255). -/
def Member.dropPresent (m : Member) (pa : Nat) : Member :=
  { m with l1d := m.l1d.filter fun k => k / 2 != pa / 64 }

/-- The lines of pairs that leave cache mode are invalidated, with the L1 copies that they record (R153). Where no pair
was in cache mode and one enters it, the L1 copies, which no line records, are invalidated too (R255, log 116). -/
def Member.leaveCache (m : Member) (wm : BitVec 8) : Member :=
  let m := if pairsIn m.wmode 0 = [] && pairsIn wm 0 != [] then { m with l1d := [] } else m
  let gone := m.lines.filter fun l => !(pairsIn wm 0).contains (l.way % 4)
  gone.foldl (fun (m : Member) l => m.dropPresent l.pa)
    { m with lines := m.lines.filter fun l => (pairsIn wm 0).contains (l.way % 4) }

/-- A member after it allocates the sector of `pa`; the victim is the module's choice among the lines of the set
that KEEP does not protect (R253 to R255, R275). -/
def allocate (s : State) (m : Member) (pa coh : Nat) (keep dirty : Bool) : Member :=
  let base := pa / 64 * 64
  let home := if dirty then mapPos (fun j b => (sectorOf pa * 32 + j, b)) (s.peekBytes (sectorOf pa * 32) 32)
    else []
  let touch : CLine → CLine := fun l =>
    let l := { l with kept := l.kept || keep }
    let was := l.dirtyAt pa
    let l := if upper pa then { l with valid1 := true, dirty1 := l.dirty1 || dirty }
      else { l with valid0 := true, dirty0 := l.dirty0 || dirty }
    if was then l else { l with home := l.home ++ home }
  if m.lines.any fun l => l.pa == base then
    { m with lines := m.lines.map fun l => if l.pa == base then touch l else l }
  else
    let ways := cacheWays s m
    let inSet := m.lines.filter fun l => l.pa / 64 % 256 == base / 64 % 256
    let free := ways.filter fun w => !inSet.any fun l => l.way == w
    let fresh : Nat → CLine := fun w => touch ⟨base, w, coh, false, false, false, false, false, []⟩
    match free[s.pick [253, base] free.length]? with
    | some w => { m with lines := fresh w :: m.lines }
    | none =>
      let soft := inSet.filter fun l => !l.kept
      let victims := if soft.isEmpty then inSet else soft
      match victims[s.pick [253, base, 1] victims.length]? with
      | none => m
      | some v => ({ m with lines := fresh v.way :: m.lines.filter fun l => l.pa != v.pa } : Member).dropPresent v.pa

/-- A member after it accessed the sector of `pa` on a cached page under policy `p` (R254, R255, R258, R275).
A scalar load also fills the L1 D-cache; a vector access does not use it, and a vector store invalidates it. -/
def cacheTouch (s : State) (m : Member) (p : Policy) (scalar wr : Bool) (pa coh : Nat) : Member :=
  let sec := sectorOf pa
  let hit := m.lines.any (·.holds pa) || (scalar && m.l1d.contains sec)
  let off := (cacheWays s m).isEmpty
  let pol := if off then Policy.norm else p
  let m := if off || (pol = .strm && !hit) then m else allocate s m pa coh (pol = .keep) wr
  let m := if scalar && !wr && (hit || pol != .strm) && pol != .nol1 then m.fillL1 s sec else m
  if wr && !scalar then m.dropPresent pa else m

/-- The caches after agent `tile` accessed the sector of `pa` on a cached page: other copies are
invalidated by a write and cleaned by a read (R254, R255, R284). -/
def State.touch (s : State) (tile : Nat) (p : Policy) (scalar wr : Bool) (pa coh : Nat) : State :=
  let s1 := if s.allMembers.any fun m => m.tile != tile && m.holds pa then
      s.mapAll fun m => if m.tile = tile then m else if wr then m.dropSector pa else m.cleanSector pa
    else s
  s1.mapAll fun m => if m.tile = tile then cacheTouch s1 m p scalar wr pa coh else m

/-- A sector overlaps the physical bytes `lo` to `hi`. -/
def secIn (lo hi sec : Nat) : Bool := decide (lo / 32 ≤ sec) && decide (sec ≤ hi / 32)

/-- The line holds a dirty sector that overlaps the physical bytes `lo` to `hi`. -/
def CLine.dirtyIn (l : CLine) (lo hi : Nat) : Bool :=
  (l.dirty0 && secIn lo hi (sectorOf l.pa)) || (l.dirty1 && secIn lo hi (sectorOf (l.pa + 32)))

/-- The line with its sectors that overlap the physical bytes `lo` to `hi` clean. -/
def CLine.cleanIn (l : CLine) (lo hi : Nat) : CLine :=
  let l := if secIn lo hi (sectorOf l.pa) then l.clean l.pa else l
  if secIn lo hi (sectorOf (l.pa + 32)) then l.clean (l.pa + 32) else l

/-- Dirty copies of `n` bytes in caches other than those of the reader, which `mine` names, are written back: the bytes
are read coherently (R254). -/
def State.cleanFor (s : State) (mine : Nat → Bool) (pa n : Nat) : State :=
  let hi := pa + n - 1
  if n != 0 && s.allMembers.any fun m => !mine m.tile && m.lines.any (·.dirtyIn pa hi) then
    s.mapAll fun m => if mine m.tile then m else { m with lines := m.lines.map (·.cleanIn pa hi) }
  else s

/-- Tiller `tile` reads a range coherently (R254). -/
def State.readCoherent (s : State) (tile pa n : Nat) : State := s.cleanFor (· == tile) pa n

/-- A party without a cache reads a range coherently: every dirty copy is written back (R254). -/
def State.cleanRange (s : State) (pa n : Nat) : State := s.cleanFor (fun _ => false) pa n

/-- Physical runs (address, length) are read coherently. -/
def State.cleanRuns (s : State) (mine : Nat → Bool) (runs : List (Nat × Nat)) : State :=
  runs.foldl (fun (s : State) r => s.cleanFor mine r.1 r.2) s

/-- Every cached copy of the sector of `pa` is written back and, when `inv`, dropped. -/
def State.flushSector (s : State) (pa : Nat) (inv : Bool) : State :=
  if s.allMembers.any (·.holds pa) then
    s.mapAll fun m => if inv then m.dropSector pa else m.cleanSector pa
  else s

/-! ### Writing bytes -/

/-- Who writes: a scalar access of a tiller, or a walk for it; a thread of a tiller; the host; another party (R105). -/
inductive Writer where
  | scalar (tile : Nat)
  | thread (tile : Nat)
  | host
  | other
deriving DecidableEq, Repr

/-- The link of a member after a write to a sector (R105). -/
def linkAfter (w : Writer) (sec : Nat) (m : Member) : Member :=
  if m.link = some sec then
    match w with
    | .scalar t => if m.tile = t then m else { m with link := none }
    | _ => { m with link := none }
  else m

/-- The open chunk of a furrow after a write of another agent to a sector (R283). -/
def conflictAfter (w : Writer) (sec : Nat) (h : Hart) : Hart :=
  let self : Nat → Bool := fun i =>
    match w with
    | .scalar t => decide ((h.member i).tile = t)
    | _ => false
  if (h.chunk.rset ++ h.chunk.wset).any fun p => p.2 == sec && !self p.1 then
    { h with chunk := { h.chunk with conflict := true } }
  else h

/-- A parked WAITA after a write to a sector (R322). -/
def wokenAfter (sec : Nat) (h : Hart) : Hart := if h.park = some (.waita sec) then { h with woken := true } else h

/-- A write to a sector of host memory: the module's moves the write counter on, and after the host's the line fails its
check (R374). -/
def State.sealWrite (s : State) (w : Writer) (sec : Nat) : State :=
  if w = .host then s.unseal [sec / 2] else s.countWrite sec

/-- What a write to a sector breaks and wakes: links break, chunks conflict, watches fire (R105, R149,
R283, R322); in host memory it is enciphered (R374). -/
def State.wrote (s : State) (w : Writer) (sec : Nat) : State :=
  let s := s.mapAll (linkAfter w sec)
  let s := s.mapHarts fun h => wokenAfter sec (conflictAfter w sec h)
  let s := if inHost (32 * sec) then s.sealWrite w sec else s
  { s with
    vlinks := s.vlinks.filter fun p => p.2 != sec
    saved := s.saved.map fun u => if u.watch = some sec then { u with ready := true } else u }

/-- ACC, or DIRTY with it, is set in a page-table entry by an atomic OR at its home, which is a write where it
changes the entry; a walk for a tiller is that tiller's own (R269, R105, log 32). -/
def State.orPte (s : State) (w : Writer) (a : Nat) (dirty : Bool) : State :=
  let b := Memory.get s.mem a
  if b ||| (if dirty then 0x60 else 0x20) = b then s
  else ({ s with mem := markPte s.mem a dirty } : State).wrote w (sectorOf a)

/-- Addresses of the entries that a walk reads. -/
def Xlat.walked (x : Xlat) : List Nat := if x.cached then [] else x.marks ++ x.path.map (·.addr)

/-- The state after a translation is used: the walk has read its entries at their homes, where dirty copies are
written back (R254); ACC is set in the entries it installs, and DIRTY in the leaf of a write (R269). -/
def State.useXlat (s : State) (w : Writer) (x : Xlat) (dirty : Bool) : State :=
  let s := x.walked.foldl (fun (s : State) a => s.flushSector a false) s
  let s := x.marks.foldl (fun (s : State) a => s.orPte w a false) s
  if dirty && !Pte.dirty x.pte then s.orPte w x.leaf true else s

/-- A translation cache of `n` entries after an entry came in at its head: where it is too long, one of the others
leaves it, which the module chooses (R270, log 35). -/
def State.fitTlb (s : State) (what n : Nat) (l : List TlbEntry) : List TlbEntry :=
  if l.length ≤ n then l else l.eraseIdx (1 + s.pick [270, what, n] (l.length - 1))

/-- The translation caches after tiller or root core `t` used a translation: its own, and after a walk of a tiller
its sheaf's TLB and its block's walk cache (R270). -/
def State.cacheXlat (s : State) (t : Nat) (x : Xlat) (dirty : Bool) : State :=
  let l := x.installs dirty
  let leaves := l.filter fun e => !e.ptr
  let mine := fun (old : List TlbEntry) =>
    if t < Config.tillers then s.fitTlb t Config.tlbEntries (install leaves old) else install l old
  let s1 := s.mapAll fun m => if m.tile = t then { m with tlb := mine m.tlb } else m
  if x.cached || decide (Config.tillers ≤ t) then s1
  else
    let s2 := s1.modSheaf (sheafOf t) fun sh => { sh with tlb := s.fitTlb (sheafOf t) Config.sheafTlbEntries (install leaves sh.tlb) }
    { s2 with walks := insert s2.walks (blockOf t) (install (l.filter (·.ptr)) (lookupD s2.walks (blockOf t) [])) }

/-- The state after member `i` used a translation: ACC, DIRTY and the caches of translations (R269,
R270). -/
def State.use (s : State) (i : Nat) (x : Xlat) (dirty : Bool) : State :=
  (s.useXlat (.scalar (s.hart.member i).tile) x dirty).cacheXlat (s.hart.member i).tile x dirty

/-! ### Bytes that a chunk has buffered -/

/-- One sector of a chunk's write set reaches memory, with DIRTY set first (R269, R283, R289). -/
def State.flushSectorOf (s : State) (c : Chunk) (tiles : List Nat) (e : Nat × Nat) : State :=
  let w : Writer := .scalar (tiles.getD e.1 0)
  let s := (c.leaves.filter fun l => l.1 == e.1 && l.2.1 == e.2).foldl (fun (s : State) l => s.orPte w l.2.2 true) s
  let m := ((lookupD c.wbuf e.1 []).filter fun b => sectorOf b.1 == e.2).foldl (fun m b => Memory.put m b.1 b.2) s.mem
  ({ s with mem := m } : State).wrote w e.2

/-- The buffered bytes of a chunk reach memory, member by member and sector by sector (R283, R289). -/
def State.flushChunk (s : State) (c : Chunk) (tiles : List Nat) : State :=
  let es := (numsFrom 0 tiles.length).flatMap fun i => c.wset.filter fun e => e.1 == i
  es.foldl (fun (s : State) e => s.flushSectorOf c tiles e) s

/-- The module wrote `n` bytes of a sector at once: a whole sector of host memory stands under its key (R374). -/
def State.sealIf (s : State) (w : Writer) (pa n : Nat) : State :=
  if inHost pa && n == 32 && w != .host then s.seal (sectorOf pa) else s

/-- The state after bytes are written from `pa` on, within one sector. -/
def State.putBytes (s : State) (w : Writer) (pa : Nat) (bs : List Byte) : State :=
  if bs.isEmpty then s
  else
    let s := s.sealIf w pa bs.length
    ({ s with mem := Memory.write s.mem pa bs } : State).wrote w (sectorOf pa)

/-- Bytes written sector by sector, in increasing address (a scatter of runs of at most 32 bytes). -/
def State.putRun (s : State) (w : Writer) : Nat → Nat → List Byte → State
  | 0, _, _ => s
  | fuel + 1, pa, bs =>
    if bs.isEmpty then s
    else
      let n := 32 - pa % 32
      (s.putBytes w pa (bs.take n)).putRun w fuel (pa + n) (bs.drop n)

/-- Bytes written by an engine or another party, coherently: other copies are dropped (R223). -/
def State.putCoherent (s : State) (w : Writer) (pa : Nat) (bs : List Byte) : State :=
  let secs := numsFrom (sectorOf pa) (sectorOf (pa + bs.length - 1) + 1 - sectorOf pa)
  let s := secs.foldl (fun s k => s.flushSector (32 * k) true) s
  s.putRun w (bs.length + 1) pa bs

/-! ### Fetch -/

/-- The slots of a line, slot 0 first (R66). -/
def slotsOf (line : List Byte) : List Word :=
  (numsFrom 0 16).map fun k => BitVec.ofNat 64 (ofBytes ((line.drop (8 * k)).take 8))

/-- LAST of a header. -/
def hdrLast (h : Word) : Nat := field h 33 30
/-- Slot `k` begins a bundle. -/
def hdrStart (h : Word) (k : Nat) : Bool := bit h (k - 1)
/-- Slot `k` may be entered. -/
def hdrTarget (h : Word) (k : Nat) : Bool := bit h (14 + k)
/-- The C word of a slot has major 0x0E (LI). -/
def isLi (slot : Word) : Bool := field slot 29 24 == 0x0E

/-- The header is consistent (R68). -/
def headerOk (slots : List Word) : Bool :=
  let h := slots.getD 0 0
  let last := hdrLast h
  field h 63 34 == 0 && decide (1 ≤ last) && hdrStart h 1 &&
    ((numsFrom 1 15).all fun k =>
      (if k ≤ last then
        (if hdrStart h k then !isLi (slots.getD k 0) || (decide (k + 1 ≤ last) && !hdrStart h (k + 1))
          else decide (2 ≤ k) && hdrStart h (k - 1) && isLi (slots.getD (k - 1) 0))
        else true) &&
      (!hdrTarget h k || (decide (k ≤ last) && hdrStart h k)))

/-- A transfer may enter slot `k`; TRET and trap entry need no TARGET bit (R70). -/
def entryOk (slots : List Word) (k : Nat) (target : Bool) : Bool :=
  let h := slots.getD 0 0
  headerOk slots && decide (1 ≤ k) && decide (k ≤ hdrLast h) && hdrStart h k && (!target || hdrTarget h k)

/-- The line of an address. -/
def lineOf (a : Word) : Word := BitVec.ofNat 64 (a.toNat / 128 * 128)
/-- The slot of an address. -/
def slotIx (a : Word) : Nat := a.toNat / 8 % 16

/-- A line at physical address `pa` lies where the current furrow may fetch: anywhere on a tiller, in its own
row-mapped range on a root core (R360). -/
def State.fetchesAt (s : State) (pa : Nat) : Bool :=
  match s.hart.root with
  | none => true
  | some g => rowMapped s.rmF.toNat pa && ownerPc s.rmF.toNat pa == some g

/-- The page of the line at virtual address `a`, before the line is read: one that lies where the current furrow may
not fetch is the page fault of R360, whatever it permits (R111, R360). -/
def State.fetchPage (s : State) (a : Word) : Except (Nat × Nat) Xlat :=
  let here := fun (x : Xlat) => if s.fetchesAt x.pa then Except.ok x else .error (7, 5)
  match s.xlat 0 .exec (lineOf a) with
  | .ok x => here x
  | .error e =>
    match s.xlat 0 .look (lineOf a) with
    | .ok x => (match here x with | .ok _ => .error e | .error r => .error r)
    | .error _ => .error e

/-- The line at virtual address `a` as the current furrow fetches it, with the translation used; or a
fault (R111, R123, R267, R360). A line in the I-cache that differs from memory is fetched old or new. -/
def fetchLine (s : State) (a : Word) : Except (Nat × Nat) (Xlat × List Byte) :=
  match s.fetchPage a with
  | .error e => .error e
  | .ok x =>
    if x.io then .error (8, 0)
    else match s.runFault x 128 true with
    | some f => .error (8, f.2)
    | none =>
      let new := s.peekBytes x.pa 128
      match (if x.wb then lookup (s.hart.member 0).icache x.pa else none) with
      | none => .ok (x, new)
      | some old =>
        if old = new then .ok (x, new)
        else if s.pick [123, x.pa] 2 = 0 then .ok (x, new) else .ok (x, old)

/-- The state after the line was fetched: the translation, and the I-cache of a cached page, which a miss fills with a
coherent read (R252, R254, R267). -/
def State.fetched (s : State) (x : Xlat) (line : List Byte) : State :=
  let s := s.use 0 x false
  let m := s.hart.member 0
  if x.wb then
    (if lookup m.icache x.pa = some line then s else s.readCoherent m.tile x.pa 128).modHart fun h =>
      h.modMember 0 fun m => m.fillI s x.pa line
  else s

end Sys2Proof.Machine
end

