-- ==== Sys2Proof/Machine/Operands.lean ====
section
/-! DEFINITION. Operand forms: effective addresses (R100, R133), the distribution of elements over the
members (R36, R37), vector elements and mask bits (R20, R21, R38), queues (R22, R143 to R145), and the
format word with its checks (R45 to R48). -/

namespace Sys2Proof.Machine

/-! ### Effective addresses -/

/-- The address of a CM access: s(A) + O × size modulo 2^64 (R100). -/
def eaCM (a : Word) (o : BitVec 10) (size : Nat) : Word := a + o.signExtend 64 * BitVec.ofNat 64 size

/-- Address of element `i` of a contiguous access of `e`-byte elements (Table 05.1). -/
def eaContig (a : Word) (i e : Nat) : Word := a + BitVec.ofNat 64 (i * e)

/-- Address of element `i` at a signed byte stride. -/
def eaStride (a b : Word) (i : Nat) : Word := a + BitVec.ofNat 64 i * b

/-- Address of the element with index `k`. -/
def eaIndex (a : Word) (k e : Nat) : Word := a + BitVec.ofNat 64 (k * e)

/-! ### The distribution of elements (R36, R37) -/

/-- Element width in bits of a width code. -/
def widthBits (vw : BitVec 2) : Nat := if vw = 0 then 8 else if vw = 1 then 16 else 32

/-- Element width of a furrow. -/
def Hart.w (h : Hart) : Nat := widthBits h.vw

/-- Element size in bytes. -/
def Hart.e (h : Hart) : Nat := h.w / 8

/-- Grain capacity of a member (R36), with every lane retirement counted. -/
def Member.cap (m : Member) : Nat := (512 * m.beds - 4 * m.groups.toNat) / 32

/-- Grain capacity of a member since the last SETVL (R36, R349). -/
def Member.capNow (m : Member) : Nat := (512 * m.beds - 4 * m.lanes.toNat) / 32

/-- Bytes of one vector register that a member holds (R190); a retirement counts from the next SETVL (R349). -/
def Member.partBytes (m : Member) : Nat := 512 * m.beds - 4 * m.lanes.toNat

/-- The lane retirements take effect (R36, R349). -/
def Member.takeLanes (m : Member) : Member := { m with lanes := m.groups }

/-- M_t (R23). -/
def Member.mt (m : Member) : Nat := 8 * m.beds

/-- VMAX.BYTES of a furrow (R36). -/
def Hart.capacity (h : Hart) : Nat := 32 * (h.members.map Member.cap).sum

/-- One round of R37: every member that has room takes one grain while grains remain. -/
def dealRound : Nat → List (Nat × Nat) → Nat × List (Nat × Nat)
  | need, [] => (need, [])
  | need, (share, cap) :: l =>
    if 0 < need && share < cap then
      let (n, l') := dealRound (need - 1) l
      (n, (share + 1, cap) :: l')
    else
      let (n, l') := dealRound need l
      (n, (share, cap) :: l')

/-- The rounds of R37. -/
def dealRounds : Nat → Nat → List (Nat × Nat) → List (Nat × Nat)
  | 0, _, l => l
  | k + 1, need, l =>
    let (need', l') := dealRound need l
    if need' = 0 then l' else dealRounds k need' l'

/-- share(m) for VL elements of `w` bits (R37). -/
def sharesFor (caps : List Nat) (vl w : Nat) : List Nat :=
  (dealRounds 64 (ceilDiv (vl * w) 256) (caps.map fun c => (0, c))).map (·.1)

/-- start(m) (R37). -/
def startOf (shares : List Nat) (w m : Nat) : Nat := (shares.take m).sum * (256 / w)

/-- cnt(m) (R37). -/
def cntOf (shares : List Nat) (w vl m : Nat) : Nat :=
  min (shares.getD m 0 * (256 / w)) (vl - startOf shares w m)

/-- member_of(i) and the position of element `i` among the member's elements. An element past every share, which
only a loaded VMAX above the members' capacities makes possible, continues in the last member (log 95). -/
def placeFrom (w : Nat) : Nat → List Nat → Nat → Nat × Nat
  | m, [], i => (m - 1, i)
  | m, sh :: l, i => if i < sh * (256 / w) then (m, i) else placeFrom w (m + 1) l (i - sh * (256 / w))

/-- The holder of element `i` and its position there. -/
def Hart.place (h : Hart) (i : Nat) : Nat × Nat := placeFrom h.w 0 h.shares i

/-- Elements ELS to VL − 1 (R32). -/
def Hart.range (h : Hart) : List Nat := numsFrom h.els.toNat (h.vl.toNat - h.els.toNat)

/-- Elements 0 to VL − 1. -/
def Hart.all (h : Hart) : List Nat := numsFrom 0 h.vl.toNat

/-! ### Vector elements and mask bits -/

/-- A member-local byte of a vector register; undefined where nothing wrote it (R20, R31, R190). -/
def Member.vbyte (m : Member) (n p : Nat) : Byte :=
  match lookup m.vreg (n * 2048 + p) with
  | some b => b
  | none => BitVec.ofNat 8 (Config.choose m.vEpoch [20, m.tile, n, p])

/-- `k` bytes from position `p` on. -/
def Member.vbytes (m : Member) (n p k : Nat) : List Byte := (numsFrom p k).map fun j => m.vbyte n j

/-- The member with bytes written from position `p` of register `n` on. -/
def Member.setVbytes (m : Member) (n p : Nat) (bs : List Byte) : Member :=
  { m with vreg := (mapPos (fun j b => (n * 2048 + p + j, b)) bs).foldl (fun r x => insert r x.1 x.2) m.vreg }

/-- A member-local mask bit; m0 reads as ones; undefined where nothing wrote it (R21). -/
def Member.mbit (m : Member) (k p : Nat) : Bool :=
  if k = 0 then true
  else match lookup m.mask (k * 2048 + p) with
    | some b => b
    | none => Config.choose m.vEpoch [21, m.tile, k, p] % 2 == 1

/-- The member with a mask bit written. -/
def Member.setMbit (m : Member) (k p : Nat) (b : Bool) : Member :=
  { m with mask := insert m.mask (k * 2048 + p) b }

/-- The member with register `n` undefined. -/
def Member.forget (m : Member) (n : Nat) : Member :=
  { m with vreg := eraseRange m.vreg (n * 2048) (n * 2048 + 2048) }

/-- elem(v, i) (R38). -/
def Hart.elem (h : Hart) (n i : Nat) : Nat :=
  let (mi, p) := h.place i
  ofBytes ((h.member mi).vbytes n (p * h.e) h.e)

/-- elem(v, i) := x (R38). -/
def Hart.setElem (h : Hart) (n i x : Nat) : Hart :=
  let (mi, p) := h.place i
  h.modMember mi fun m => m.setVbytes n (p * h.e) (bytesOf h.e x)

/-- Bit `i` of a mask. -/
def Hart.melem (h : Hart) (k i : Nat) : Bool :=
  let (mi, p) := h.place i
  (h.member mi).mbit k p

/-- Bit `i` of a mask := b. -/
def Hart.setMelem (h : Hart) (k i : Nat) (b : Bool) : Hart :=
  let (mi, p) := h.place i
  h.modMember mi fun m => m.setMbit k p b

/-- Several elements written, in order. -/
def Hart.setElems (h : Hart) (n : Nat) (xs : List (Nat × Nat)) : Hart :=
  xs.foldl (fun h x => h.setElem n x.1 x.2) h

/-- Several mask bits written, in order. -/
def Hart.setMelems (h : Hart) (k : Nat) (xs : List (Nat × Bool)) : Hart :=
  xs.foldl (fun h x => h.setMelem k x.1 x.2) h

/-- The high-water mark of `n` raised to `bytes` (R33). -/
def Hart.raiseMark (h : Hart) (n bytes : Nat) : Hart :=
  { h with hwm := insert h.hwm n (BitVec.ofNat 19 (max (lookupD h.hwm n 0).toNat bytes)) }

/-- An instruction completes after writing register `n` under VL: its mark, and ELS := 0 (R32, R33). -/
def Hart.wrote (h : Hart) (n : Nat) : Hart := { h.raiseMark n (h.vl.toNat * h.e) with els := 0 }

/-- The vector registers and masks of every member become undefined (R34, R154). -/
def Member.forgetAll (m : Member) (epoch : Nat) : Member :=
  { m with vreg := [], mask := [], vEpoch := epoch }

/-! ### Queues -/

/-- QST field of queue `q`: BOUND. -/
def qBound (qst : Word) (q : Nat) : Bool := bit qst (16 * q + 8)
/-- HEAD. -/
def qHead (qst : Word) (q : Nat) : Nat := field qst (16 * q + 15) (16 * q + 13)
/-- COUNT. -/
def qCount (qst : Word) (q : Nat) : Nat := field qst (16 * q + 12) (16 * q + 9)
/-- Registers of the run. -/
def qDepth (qst : Word) (q : Nat) : Nat := field qst (16 * q + 7) (16 * q + 5) + 1
/-- First register of the run. -/
def qBase (qst : Word) (q : Nat) : Nat := field qst (16 * q + 4) (16 * q)

/-- QST with one queue's field replaced. -/
def setQueue (qst : Word) (q head count : Nat) (bound : Bool) (depth base : Nat) : Word :=
  setField qst (16 * q + 15) (16 * q)
    (head * 8192 + count * 512 + b2n bound * 256 + (depth - 1) * 32 + base)

/-- The queue whose bound run holds register `n`. -/
def queueOf (qst : Word) (n : Nat) : Option Nat :=
  (numsFrom 0 4).find? fun q =>
    qBound qst q && decide (qBase qst q ≤ n) && decide (n < qBase qst q + qDepth qst q)

/-- The register that a source operand reads: the head entry when it names a bound run's BASE; none
for another register of a bound run (R22, R145). -/
def sourceReg (qst : Word) (n : Nat) : Option Nat :=
  match queueOf qst n with
  | none => some n
  | some q => if n = qBase qst q then some (qBase qst q + qHead qst q) else none

/-- The register that a source operand reads where the checks have passed. -/
def Hart.src (h : Hart) (n : Nat) : Nat := (sourceReg h.qst n).getD n

/-- QST as an MTS stores it: a run that passes v31, bound or not, and bound runs that overlap store 0
(R30). HEAD and COUNT are stored as written, whatever the depth (log 96). -/
def sanitiseQst (w : Word) : Word :=
  let runs := fun q => if qBound w q then numsFrom (qBase w q) (qDepth w q) else []
  let bad := fun q =>
    decide (31 < qBase w q + qDepth w q - 1) ||
      (numsFrom 0 4).any fun r => r != q && (runs r).any fun n => (runs q).contains n
  (numsFrom 0 4).foldl (fun v q => if bad q then setField v (16 * q + 15) (16 * q) 0 else v) w

/-! ### The format word -/

/-- A decoded format word (Table 02.3). -/
structure FormatWord where
  fa : Fmt
  fb : Fmt
  fd : Fmt
  rm : Nat
  ef : Bool
  sat : Bool
  scl : Bool
  sv : Nat
  aux : Nat
deriving DecidableEq, Repr

/-- The classes of Table 02.4; a generic instruction may read no FB from a register. -/
inductive FmtClass where
  | generic (readsB : Bool)
  /-- VRED: generic, with a scalar destination, so that FD is no field of a vector register. -/
  | reduce
  | bitwise
  /-- VNOT: bitwise without a second operand. -/
  | notClass
  | select
  | compare
  | convert
  | extract
  | thresher
  | index
deriving DecidableEq, Repr

/-- The checks of a class (R48, Table 02.4). i4 in FB of a VCVT fails (log 107). -/
def FmtClass.accepts (c : FmtClass) (f : FormatWord) (vw : Nat) : Bool :=
  let fits := fun (x : Fmt) => decide (x.width ≤ vw)
  let noI4 := f.fa != .i4 && f.fb != .i4 && f.fd != .i4
  let narrowing := f.fa == .f32 && f.fd.isNarrow
  let shiftOk := !(f.fa.isInt && f.fd.isInt) || decide (f.aux ≤ 31)
  let fp8 := fun (x : Fmt) => x == .e4m3 || x == .e5m2
  match c with
  | .generic b => noI4 && !f.ef && !f.scl && fits f.fa && (!b || fits f.fb) && fits f.fd
  | .reduce => noI4 && !f.ef && !f.scl && fits f.fa
  | .bitwise =>
    noI4 && !f.ef && !f.scl && f.fa.isInt && f.fb.isInt && f.fd.isInt && fits f.fa && fits f.fb && fits f.fd
  | .notClass =>
    noI4 && !f.ef && !f.scl && f.fa.isInt && f.fb.isInt && f.fd.isInt && fits f.fa && fits f.fd
  | .select => noI4 && !f.ef && !f.scl && f.fa.isInt && f.fb.isInt && f.fd.isInt && fits f.fd
  | .compare => noI4 && !f.ef && !f.scl && fits f.fa && fits f.fb
  | .convert => noI4 && (!f.ef || narrowing) && !f.scl && shiftOk && fits f.fa && fits f.fd
  | .extract =>
    noI4 && (f.fa == .f32 || f.fa == .i32) && (!f.ef || narrowing) && !f.scl && shiftOk && fits f.fd
  | .thresher =>
    !f.ef && f.rm == 0 &&
      (((fp8 f.fa && fp8 f.fb) && f.fd == .f32) ||
        (f.fa == .bf16 && f.fb == .bf16 && f.fd == .f32 && !f.scl) ||
        ((f.fa == .i8 || f.fa == .n8) && (f.fb == .i8 || f.fb == .i4) && f.fd == .i32 && !f.scl))
  | .index => noI4 && !f.ef && !f.scl && (f.fd == .i32 || f.fd == .n32 || f.fd == .f32)

/-- The fields of a format word, where no code is reserved and RES0 is zero. -/
def formatFields (w : Word) : Option FormatWord :=
  match Fmt.ofCode (field w 3 0), Fmt.ofCode (field w 7 4), Fmt.ofCode (field w 11 8) with
  | some fa, some fb, some fd =>
    if field w 31 22 != 0 then none
    else some ⟨fa, fb, fd, field w 13 12, bit w 14, bit w 15, bit w 16, field w 21 17, field w 63 32⟩
  | _, _, _ => none

/-- `decode_fmt`: the fields after the checks, or none where the illegal-format trap is raised (R48). -/
def decodeFmt (c : FmtClass) (w : Word) (vw : Nat) : Option FormatWord :=
  match formatFields w with
  | none => none
  | some f => if c.accepts f vw then some f else none

/-- Bits of a format in the low end of an element, as an exact value (R47, R49). -/
def exactOf (f : Fmt) (x : Nat) : Ex := f.decode (x % 2 ^ f.width)

end Sys2Proof.Machine
end

