-- ==== Sys2Proof/Machine/Units.lean ====
section
/-! DEFINITION. The work tables (Chapter 11): status words, flags, the propagation of ends, cancel
(R321), the end of a unit, the machine check (R324, R379), and the event ring (R377). -/

namespace Sys2Proof.Machine

/-! ### Virtual accesses by the module -/

/-- The context in which a job's records and flags translate (R305, R311). -/
def Job.tctx (j : Job) : TCtx := { ctx := j.ctx, pt0 := j.pt0, pt1 := j.pt1, priv := true, cands := [] }

/-- Bytes of one page read through a context. An IO page cannot be read (R305, log 119). -/
def readRun (s : State) (t : TCtx) (va : Word) (n : Nat) : Option (List Byte) :=
  match translate s t .read va with
  | .error _ => none
  | .ok x => if x.io then none else some (s.peekBytes x.pa n)

/-- A doubleword read through a context, of one page or across two; none where it cannot be read (R305). -/
def readVirt (s : State) (t : TCtx) (va : Word) : Option Word :=
  let n := min 8 (65536 - va.toNat % 65536)
  match readRun s t va n with
  | none => none
  | some bs =>
    if n = 8 then some (BitVec.ofNat 64 (ofBytes bs))
    else (readRun s t (va + BitVec.ofNat 64 n) (8 - n)).map fun cs => BitVec.ofNat 64 (ofBytes (bs ++ cs))

/-- `n` doublewords from `va` on. -/
def readVirts (s : State) (t : TCtx) (va : Word) : Nat → Option (List Word)
  | 0 => some []
  | n + 1 =>
    match readVirt s t va, readVirts s t (va + 8) n with
    | some w, some ws => some (w :: ws)
    | _, _ => none

/-- The walker has read `n` doublewords from `va` on: the leaves that it used are marked, and dirty copies of what it read
are written back (R254, R269, log 119). -/
def State.noteReads (s : State) (t : TCtx) (va : Word) (n : Nat) : State :=
  ((numsFrom 0 n).flatMap fun k => [8 * k, 8 * k + 7]).foldl (fun (s : State) o =>
    match translate s t .read (va + BitVec.ofNat 64 o) with
    | .error _ => s
    | .ok x => if x.io then s else (s.useXlat .other x false).cleanRange x.pa 1) s

/-- A DONE flag written through a context, or nothing where it does not translate: then with the cause (R361). An IO
page counts as a failure, as for an engine (R223, log 31). -/
def writeVirt (s : State) (t : TCtx) (va v : Word) : State × Option Nat :=
  if va.toNat % 8 != 0 then (s, some 3)
  else match translate s t .write va with
    | .error e => (s, some e.1)
    | .ok x =>
      if x.io || s.partFails x then (s, some 8)
      else ((s.useXlat .other x true).putCoherent .other x.pa (bytesOf 8 v.toNat), none)

/-! ### Events (R377) -/

/-- An event record in the ring (R377): 6 bytes of sequence number, the source and the type in the module's own
numbering, 22 bytes of data. `src` is the model's name of the source. -/
def State.logEvent (s : State) (src : Nat) : State :=
  let seq := lookupD s.evseq src 0
  let s : State := { s with evseq := insert s.evseq src ((seq + 1) % 2 ^ 48) }
  if s.evsize = 0 then s
  else
    let bytes := bytesOf 6 seq ++ bytesOf 2 (Config.choose 0 [377, src]) ++ bytesOf 24 (Config.choose s.tick [377])
    let s := s.putCoherent .other (s.evbase + 32 * (s.evpos % s.evsize)) bytes
    { s with evpos := (s.evpos + 1) % s.evsize }

/-- A source of which the spec does not say what it records may record an event (R377, log 104). -/
def State.mayLog (s : State) (src : Nat) : State := if s.pick [377, src] 2 = 1 then s.logEvent src else s

/-- The kinds of engines that record events, each engine a source of its own (R355, R377): the streamers, plough sequencers
and root cores of the pseudo-channels, the reduction engines of the stacks, the binders of the dies, and the ports. -/
inductive Engine where
  | streamer | plough | rootCore | reduction | binder | port
deriving DecidableEq, Repr

/-- The model's name of engine `k` of a kind (log 104). -/
def engineSource (e : Engine) (k : Nat) : Nat :=
  1024 * (match e with
    | .streamer => 1 | .plough => 2 | .rootCore => 3 | .reduction => 4 | .binder => 5 | .port => 6) + k

/-! ### Tables -/

/-- Work that has ended (R310). -/
def WState.ended : WState → Bool
  | .done | .cancelled | .rejected | .faulted => true
  | _ => false

/-- STATE of Table 04.10. -/
def WState.code : WState → Nat
  | .waiting | .ready => 1
  | .running | .draining | .cancelling => 2
  | .done => 3 | .cancelled => 4 | .rejected => 5 | .faulted => 6

/-- A status word (Table 04.10); OUT is the counter's low 32 bits (R310, log 120). -/
def workStatus (out reason : Nat) (st : WState) : Word :=
  BitVec.ofNat 64 (out % 2 ^ 32 * 2 ^ 32 + reason % 256 * 256 + st.code)

def State.job? (s : State) (id : Nat) : Option Job := s.jobs.find? (·.id == id)
def State.phase? (s : State) (id : Nat) : Option Phase := s.phases.find? (·.id == id)
def State.graph? (s : State) (id : Nat) : Option Graph := s.graphs.find? (·.id == id)
def State.launch? (s : State) (id : Nat) : Option Launch := s.launches.find? (·.id == id)

/-- The state with a job changed. -/
def State.modJob (s : State) (id : Nat) (f : Job → Job) : State :=
  { s with jobs := s.jobs.map fun j => if j.id = id then f j else j }
/-- The state with a phase changed. -/
def State.modPhase (s : State) (id : Nat) (f : Phase → Phase) : State :=
  { s with phases := s.phases.map fun j => if j.id = id then f j else j }
/-- The state with a graph changed. -/
def State.modGraph (s : State) (id : Nat) (f : Graph → Graph) : State :=
  { s with graphs := s.graphs.map fun j => if j.id = id then f j else j }
/-- The state with a launch changed. -/
def State.modLaunch (s : State) (id : Nat) (f : Launch → Launch) : State :=
  { s with launches := s.launches.map fun j => if j.id = id then f j else j }

/-- P, the units of a launch (R308). -/
def Launch.total (l : Launch) : Nat := l.bounds.foldl (· * ·) 1
/-- FLOG of the control word: F. -/
def Launch.len (l : Launch) : Nat := 2 ^ field l.ctl 6 4
/-- PMODE. -/
def Launch.pmode (l : Launch) : BitVec 8 := BitVec.ofNat 8 (field l.ctl 15 8)
/-- GEO. -/
def Launch.geo (l : Launch) : Nat := field l.ctl 17 16
/-- PRIO. -/
def Launch.prio (l : Launch) : Nat := field l.ctl 19 18
/-- IRING. -/
def Launch.iring (l : Launch) : Bool := bit l.ctl 24

/-- OUT of a graph: its launches that have not ended (R310). -/
def State.graphOut (s : State) (g : Nat) : Nat :=
  (s.launches.filter fun l => l.graph == g && !l.state.ended).length
/-- OUT of a phase: its graphs that have not ended. -/
def State.phaseOut (s : State) (p : Nat) : Nat :=
  (s.graphs.filter fun g => g.phase == p && !g.state.ended).length

/-- OUT of a job: its phases that have not ended; a cancelled job starts no further phase (R310, R321). -/
def State.jobOut (s : State) (j : Job) : Nat :=
  let ph := s.phases.filter fun p => p.job == j.id
  let gone := (ph.filter fun p => p.state.ended).length
  if j.state.ended then 0 else if j.state == .cancelling then ph.length - gone else j.nph - gone

/-- The final state of work from its parts (R311). -/
def combine (parts : List WState) : WState :=
  if parts.all (· == .done) then .done
  else if parts.any (· == .faulted) then .faulted
  else .cancelled

/-- The final state of a graph or a phase whose counter is 0. -/
def finalState (cur : WState) (faulted : Bool) (parts : List WState) : WState :=
  match cur with
  | .cancelling => if faulted then .faulted else .cancelled
  | _ => combine parts

/-- A graph after its counter was looked at (R310, R311). -/
def State.settleGraph (s : State) (g : Graph) : Graph :=
  let parts := (s.launches.filter fun l => l.graph == g.id).map (·.state)
  if !g.state.ended && s.graphOut g.id == 0 then
    { g with state := finalState g.state g.faulted parts } else g

/-- A phase after its counter was looked at (R310, R311). -/
def State.settlePhase (s : State) (p : Phase) : Phase :=
  let parts := (s.graphs.filter fun g => g.phase == p.id).map (·.state)
  if !p.state.ended && s.phaseOut p.id == 0 then
    { p with state := finalState p.state p.faulted parts } else p

/-- Graphs and phases whose counters have reached 0 end (R310, R311). -/
def State.settle (s : State) : State :=
  let s : State := { s with graphs := s.graphs.map s.settleGraph }
  { s with phases := s.phases.map s.settlePhase }

/-- Every dirty copy of a page with a coherence scope narrower than `code` is written back (R289). -/
def State.writeBackAll (s : State) (code : Nat) : State :=
  s.mapAll fun m => { m with lines := m.lines.map fun l => if l.coh < code then l.writtenBack else l }

/-- A doubleword written at a flag, or nothing where it does not translate (R311). A module register is written by the
step that the agenda then names (R367, log 31). -/
def State.putFlag (s : State) (t : TCtx) (va v : Word) : State :=
  if va.toNat % 8 != 0 then s
  else match translate s t .write va with
    | .error _ => s
    | .ok x =>
      if s.partFails x then s
      else
        let s := s.useXlat .other x true
        if inRegs x.pa then { s with agenda := .event (.moduleRegisterWrite x.pa v) :: s.agenda }
        else s.putCoherent .other x.pa (bytesOf 8 v.toNat)

/-- The flag of a launch or a job receives its status word, as a release at a scope (R311, R289). -/
def State.writeFlag (s : State) (code : Nat) (j : Job) (flag : Word) (st : Word) : State :=
  if flag = 0 then s else (s.writeBackAll code).putFlag j.tctx flag st

/-- The doublewords of a launch record, read through its job's context (R305). -/
def State.launchWords (s : State) (l : Launch) : Option (List Word) :=
  match s.job? l.job with
  | none => none
  | some j => readVirts s j.tctx l.addr 8

/-- The record of a launch has been read. -/
def State.noteLaunch (s : State) (l : Launch) : State :=
  match s.job? l.job with
  | none => s
  | some j => s.noteReads j.tctx l.addr 8

/-- A launch whose record was never taken learns its flag's address from it (R311). -/
def State.learnFlag (s : State) (l : Launch) : State :=
  if !l.bounds.isEmpty then s
  else match s.launchWords l with
    | some ws => (s.noteLaunch l).modLaunch l.id fun x => { x with flag := ws.getD 7 0 }
    | none => s

/-- A launch ends in a state: its flag is written with release at module scope, then its graph and phase follow (R311). -/
def State.endLaunch (s : State) (id : Nat) (st : WState) (reason : Nat) (flagged : Bool) : State :=
  match s.launch? id with
  | none => s
  | some l =>
    let s := match s.job? l.job with
      | some j => if flagged then s.writeFlag 4 j l.flag (workStatus 0 reason st) else s
      | none => s
    let s := s.modLaunch id fun l => { l with state := st, reason := reason, out := 0 }
    ({ s with rings := s.rings.filter fun r => r.launch != id }).settle

/-- A job ends in a state: its flag is written with release at host scope (R311). -/
def State.endJob (s : State) (id : Nat) (st : WState) (reason : Nat) (flagged : Bool) : State :=
  match s.job? id with
  | none => s
  | some j =>
    let s := if flagged then s.writeFlag 5 j j.flag (workStatus 0 reason st) else s
    s.modJob id fun j => { j with state := st, reason := reason }

/-- The launch counter falls (R310). -/
def State.countDown (s : State) (l : Option Nat) : State :=
  match l with
  | none => s
  | some id => s.modLaunch id fun l => { l with out := l.out - 1 }

/-- The launch counter rises (R310). -/
def State.countUp (s : State) (l : Option Nat) (n : Nat) : State :=
  match l with
  | none => s
  | some id => s.modLaunch id fun l => { l with out := l.out + n }

/-- A unit that holds slot `u.slot` is complete: its launch's counter and slot (R310, R317). -/
def State.unitDone (s : State) (u : UnitRef) : State :=
  (s.modLaunch u.launch fun l =>
    { l with slots := match u.slot with | some j => l.slots.filter (· != j) | none => l.slots }).countDown
    (some u.launch)

/-! ### Cancel (R321) -/

/-- The work that a handle or the host names (R124). -/
inductive Work where
  | launch (id : Nat)
  | graph (id : Nat)
  | phase (id : Nat)
  | job (id : Nat)
deriving DecidableEq, Repr

/-- The launches within a piece of work. -/
def State.launchesOf (s : State) (w : Work) : List Launch :=
  s.launches.filter fun l =>
    match w with
    | .launch id => l.id == id
    | .graph id => l.graph == id
    | .phase id => (match s.graph? l.graph with | some g => g.phase == id | none => false)
    | .job id => l.job == id

/-- The launch has ended, though its final state may not show yet: its counter is 0 (R310, R321). -/
def Launch.gone (l : Launch) : Bool := l.state.ended || ((l.state == .draining || l.state == .cancelling) && l.out == 0)

/-- The graph has ended: its launches have (R310). -/
def State.graphOver (s : State) (g : Graph) : Bool :=
  g.state.ended || s.launches.all fun l => l.graph != g.id || l.gone

/-- The phase has ended: its graphs have (R310). -/
def State.phaseOver (s : State) (p : Phase) : Bool :=
  p.state.ended || s.graphs.all fun g => g.phase != p.id || s.graphOver g

/-- The job has ended: all its phases have (R310). -/
def State.jobOver (s : State) (j : Job) : Bool :=
  j.state.ended || (j.state == .running && j.phase == j.nph && s.phases.all fun p => p.job != j.id || s.phaseOver p)

/-- The work has ended. -/
def State.workEnded (s : State) (w : Work) : Bool :=
  match w with
  | .launch id => (match s.launch? id with | some x => x.gone | none => true)
  | .graph id => (match s.graph? id with | some x => s.graphOver x | none => true)
  | .phase id => (match s.phase? id with | some x => s.phaseOver x | none => true)
  | .job id => (match s.job? id with | some x => s.jobOver x | none => true)

/-- The work is already CANCELLING. -/
def State.workCancelling (s : State) (w : Work) : Bool :=
  match w with
  | .launch id => (match s.launch? id with | some x => x.state == .cancelling | none => false)
  | .graph id => (match s.graph? id with | some x => x.state == .cancelling | none => false)
  | .phase id => (match s.phase? id with | some x => x.state == .cancelling | none => false)
  | .job id => (match s.job? id with | some x => x.state == .cancelling | none => false)

/-- A launch enters CANCELLING: units not handed out are no longer counted. One that is CANCELLING already keeps its
reason (log 101). -/
def Launch.cancelAs (l : Launch) (reason : Nat) : Launch :=
  if l.gone || l.state == .cancelling then l
  else
    let started := !(l.state == .waiting)
    { l with state := .cancelling, reason := reason
             out := if started then l.out - (l.total - l.next) else 0 }

/-- The reason that work `v` reports when `w` is cancelled (R321). -/
def cancelReason (w v : Work) (reason : Nat) : Nat := if v = w then reason else 0xFF

/-- A graph when `w` is cancelled; `ended` if it has ended. -/
def Graph.cancelIn (g : Graph) (ended : Bool) (w : Work) (reason : Nat) : Graph :=
  let inside : Bool := match w with
    | .graph id => g.id == id
    | .phase id => g.phase == id
    | .job id => g.job == id
    | .launch _ => false
  if inside && !ended && g.state != .cancelling then
    { g with state := .cancelling, reason := cancelReason w (.graph g.id) reason } else g

/-- A phase when `w` is cancelled; `ended` if it has ended. -/
def Phase.cancelIn (p : Phase) (ended : Bool) (w : Work) (reason : Nat) : Phase :=
  let inside : Bool := match w with
    | .phase id => p.id == id
    | .job id => p.job == id
    | _ => false
  if inside && !ended && p.state != .cancelling then
    { p with state := .cancelling, reason := cancelReason w (.phase p.id) reason } else p

/-- A job when `w` is cancelled. -/
def Job.cancelIn (j : Job) (w : Work) (reason : Nat) : Job :=
  if w = .job j.id then { j with state := .cancelling, reason := reason } else j

/-- A unit belongs to one of the launches. -/
def unitIn (live : List Nat) (u : Option UnitRef) : Bool :=
  match u with
  | some u => live.contains u.launch
  | none => false

/-- An operation is counted in one of the launches. -/
def EngOp.countedIn (live : List Nat) (o : EngOp) : Bool :=
  match o.launch with
  | some l => live.contains l
  | none => false

/-- Bytes become undefined: free values are stored where they translate for a write (log 3). -/
def State.undefineBytes (t : TCtx) : Nat → Word → State → State
  | 0, _, s => s
  | n + 1, va, s =>
    State.undefineBytes t n (va + 1)
      (match translate s t .write va with
        | .error _ => s
        | .ok x => if x.io then s else (s.useXlat .other x true).putCoherent .other x.pa [BitVec.ofNat 8 (Config.choose s.tick [242, va.toNat])])

/-- The destination of a merge that is dropped is undefined (R242): free values in as many of its first bytes as the
module chooses, old bytes in the others (log 66). `o` is its first operation, whose entry holds the destination. -/
def State.undefineMerge (s : State) (m : Merge) : State :=
  match m.members.head?.bind fun x => s.ops.find? (·.id == x.2) with
  | none => s
  | some o =>
    let t : TCtx := { ctx := o.ctx, pt0 := o.pt0, pt1 := o.pt1, priv := o.priv, cands := o.tlb }
    State.undefineBytes t (s.pick [242, m.id] (o.whi + 2 - o.wlo)) (BitVec.ofNat 64 o.wlo) s

/-- Engine operations after a cancel: they stop, and a merge with one of them is dropped with all its
operations, its destination undefined (R321 step 5, R242). -/
def State.cancelOps (s : State) (live : List Nat) : State :=
  let dropped := s.merges.filter fun m =>
    m.members.any fun x => s.ops.any fun o => o.id == x.2 && o.countedIn live
  let inDropped : EngOp → Bool := fun o => dropped.any fun m => m.members.any fun x => x.2 == o.id
  let s := dropped.foldl State.undefineMerge s
  { s with
    ops := s.ops.map fun o =>
      if inDropped o then { o with ended := some { code := 5 } }
      else if o.countedIn live then { o with cancelled := true } else o
    merges := s.merges.filter fun m => !dropped.any fun d => d.id == m.id }

/-- Saved units of the launches are discarded (R321 step 4). -/
def State.dropSaved (s : State) (live : List Nat) : State :=
  let gone := s.saved.filter fun u => unitIn live u.unit
  let s := gone.foldl (fun (s : State) u => match u.unit with
    | some r => s.unitDone r
    | none => s) s
  { s with saved := s.saved.filter fun u => !unitIn live u.unit }

/-- The cancel takes effect at the work table, on the running and saved units, and on the engine
operations (R321 steps 1 to 5, R242). `reason` is reported by the named work, 0xFF within it. -/
def State.cancelWork (s : State) (w : Work) (reason : Nat) : State :=
  if s.workEnded w || s.workCancelling w then s
  else
    let live := (s.launchesOf w).map (·.id)
    let s : State := { s with
      launches := s.launches.map fun l =>
        if live.contains l.id then l.cancelAs (cancelReason w (.launch l.id) reason) else l
      graphs := s.graphs.map fun g => g.cancelIn (s.graphOver g) w reason
      phases := s.phases.map fun p => p.cancelIn (s.phaseOver p) w reason
      jobs := s.jobs.map fun j => j.cancelIn w reason }
    let s := s.mapHarts fun h => if unitIn live h.unit then { h with cancel := true } else h
    (s.dropSaved live).cancelOps live

/-- The fault of a unit with STOPF = 1: its job is cancelled, its own launch, graph, phase and job end
FAULTED with the cause (R323), also where the job is being cancelled already (log 114). -/
def State.faultJob (s : State) (u : UnitRef) (cause : Nat) : State :=
  match s.launch? u.launch with
  | none => s
  | some l =>
    let s := s.cancelWork (.job l.job) cause
    let ph := match s.graph? l.graph with | some g => g.phase | none => 0
    let s := s.modLaunch l.id fun x =>
      if x.state == .cancelling then { x with faulted := true, reason := cause } else x
    let s := s.modGraph l.graph fun x =>
      if x.state == .cancelling then { x with faulted := true, reason := cause } else x
    let s := s.modPhase ph fun x =>
      if x.state == .cancelling then { x with faulted := true, reason := cause } else x
    s.modJob l.job fun x => if x.state == .cancelling then { x with faulted := true, reason := cause } else x

/-! ### Leaving a furrow -/

/-- A tiller that goes idle keeps its caches, its modes and its channel set (Table 01.7); `set` is the
channel set that it holds. -/
def Member.toIdle (m : Member) (set : Nat) : Member :=
  { m with pend := [], sende := [], link := none, regs := [], tq := [], chset := set }

/-- The members of a furrow become idle tillers, or the root core's member is kept with its core. -/
def State.freeMembers (s : State) (h : Hart) : State :=
  match h.root with
  | some g => s.modRoot g fun r => { r with core := some h }
  | none =>
    { s with idle := h.members.foldl (fun m x => insert m x.tile (x.toIdle (h.ownSet.getD x.chset))) s.idle }

/-- Dirty copies of pages with a narrower coherence scope are written back (R289). -/
def State.writeBackNarrow (s : State) (code : Nat) : State :=
  let tiles := s.hart.members.map (·.tile)
  s.mapAll fun m =>
    { m with lines := m.lines.map fun l =>
        if l.coh < code && tiles.any (fun t => sameInstance l.coh t m.tile) then l.writtenBack else l }

/-- A unit that the E-side finished while its furrow ran the next one is complete, as a release at module scope (R116,
R294, R318). -/
def State.priorDone (s : State) (p : Prior) : State := (s.writeBackNarrow 4).unitDone p.unit

/-- The current furrow or root core leaves the tillers that it runs on; all its work has drained. -/
def State.leave (s : State) : State :=
  let h := s.hart
  let s := h.prior.foldl State.priorDone s
  { s.freeMembers h with hart := Hart.absent, ckpts := erase s.ckpts h.id }

/-! ### The machine check -/

/-- A machine check (R324, R379): every context, engine operation and job ends with cause 0x20 and the sequence number of
the fault-log entry; no flag is written, and the host gets a message. -/
def State.machineCheck (s : State) (kind : Nat) (line : Word) (cause : Nat) : State :=
  let seq := s.faultLog.length + 1
  let s := s.harts.foldl (fun s h => s.freeMembers
    { h with tcause := 0x20, tval := BitVec.ofNat 64 seq, run := .idle }) s
  { s with
    messages := s.messages + 1, holds := [], gifts := []
    hart := Hart.absent, others := [], ckpts := [], saved := [], ops := [], merges := [], rings := []
    vlinks := []
    sheaves := s.sheaves.map fun p => (p.1, { p.2 with order := [], busy := none })
    roots := s.roots.map fun p => (p.1, { p.2.stopped with state := 0, rstart := none, serving := [] })
    launches := s.launches.map fun l => if l.state.ended then l else { l with state := WState.faulted, reason := 0x20 }
    graphs := s.graphs.map fun l => if l.state.ended then l else { l with state := WState.faulted, reason := 0x20 }
    phases := s.phases.map fun l => if l.state.ended then l else { l with state := WState.faulted, reason := 0x20 }
    jobs := s.jobs.map fun l => if l.state.ended then l else { l with state := WState.faulted, reason := 0x20 }
    faultLog := s.faultLog ++ [⟨seq, kind, line, cause⟩]
    mcValid := true, mcKind := BitVec.ofNat 8 kind, mcSeq := BitVec.ofNat 48 seq }

end Sys2Proof.Machine
end

