-- ==== Sys2Proof/Machine/Chunks.lean ====
section
/-! DEFINITION. The current furrow or root core and the others, and the chunks (R281 to R283). -/

namespace Sys2Proof.Machine

/-! ### Another furrow for a moment -/

/-- The furrow or root core `id` becomes the current one. -/
def State.switchTo (s : State) (id : Nat) : Option State :=
  if s.hart.id = id then some s
  else
    let parked := if s.hart.id = 0 then [] else [s.hart]
    let rest := s.others.filter (·.id != id)
    if id = 0 then some { s with hart := Hart.absent, others := parked ++ rest }
    else match s.others.find? (·.id == id) with
      | none => none
      | some h => some { s with hart := h, others := parked ++ rest }

/-- `f` on the furrow `id`, with the current one unchanged afterwards. -/
def State.onHart (s : State) (id : Nat) (f : State → State) : State :=
  match s.switchTo id with
  | none => s
  | some s1 => let s2 := f s1; (s2.switchTo s.hart.id).getD s2

/-! ### Chunks -/

/-- The buffered byte of the last member up to `i` that has one. A member meets a sector of another's open chunk only
where both wait for a SENDE, and the one to the west comes before it (R209, log 8). -/
def Chunk.byte (c : Chunk) (pa : Nat) : Nat → Option Byte
  | 0 => lookup (lookupD c.wbuf 0 []) pa
  | i + 1 =>
    match lookup (lookupD c.wbuf (i + 1) []) pa with
    | some b => some b
    | none => c.byte pa i

/-- A byte as member `i` of the current furrow reads it: the buffered one of an open chunk, or memory (R283). -/
def State.view (s : State) (i pa : Nat) : Byte := (s.hart.chunk.byte pa i).getD (s.peek pa)

/-- `n` bytes as member `i` of the current furrow reads them. -/
def State.viewBytes (s : State) (i pa n : Nat) : List Byte := (numsFrom pa n).map (s.view i)

/-- The parts of the chunks that belong to some of the members. -/
def Chunk.of (c : Chunk) (who : Nat → Bool) : Chunk :=
  { c with
    wbuf := c.wbuf.filter fun b => who b.1
    rset := c.rset.filter fun e => who e.1
    wset := c.wset.filter fun e => who e.1
    leaves := c.leaves.filter fun e => who e.1 }

/-- A RECVW of member `i`, or of one west of it, stands ahead of its SENDE: the hardware has not executed what member `i`
did since (R205, R209, log 8). -/
def Hart.ahead (h : Hart) (i : Nat) : Bool := h.owed.any fun p => decide (p.1 ≤ i)

/-- The chunks that a commit leaves open: those of members that wait for a SENDE (log 8). -/
def Hart.keptChunk (h : Hart) : Chunk := if h.owed.isEmpty then {} else h.chunk.of h.ahead

/-- The chunks that a commit performs: those of the other members. -/
def Hart.dueChunk (h : Hart) : Chunk := if h.owed.isEmpty then h.chunk else h.chunk.of fun i => !h.ahead i

/-- The open chunks of the current furrow are committed (R283), but for those of members that wait for a SENDE. What
those have done comes after it in the order of the chunks, so it is no conflict for them (log 8). -/
def State.commitChunk (s : State) : State :=
  let h := s.hart
  let s : State := { s with hart := { h with chunk := h.keptChunk }, ckpts := erase s.ckpts h.id }
  if h.dueChunk.wset.isEmpty then s
  else (s.flushChunk h.dueChunk (h.members.map (·.tile))).modHart fun t =>
    { t with chunk := { t.chunk with conflict := h.keptChunk.conflict } }

/-- What a restart takes from the furrow as it stands: its caches, its requests and its lane counts are
no state of the chunk, and a link that another party broke stays broken (R105, R283). -/
def Member.keepCaches (old new : Member) : Member :=
  { old with
    icache := new.icache, l1d := new.l1d, lines := new.lines, tlb := new.tlb, link := new.link
    events := new.events, groups := new.groups, spares := new.spares }

/-- The current furrow as it restarts its chunk from `c` (R283): what others did to it meanwhile stands, as the requests
it got, the waits that posts freed, and the end of a unit before it. -/
def Hart.restart (h c : Hart) : Hart :=
  { c with
    members := List.zipWith Member.keepCaches c.members h.members
    status := setBit c.status 4 h.preq
    cancel := h.cancel
    expired := h.expired
    prior := h.prior
    waits := c.waits.filter h.waits.contains
    park := none
    chunk := { squashes := h.chunk.squashes + 1 } }

/-- The open chunk is squashed: the furrow stands at the chunk's first bundle (R283). Chunks that members waiting for a
SENDE keep have no restart point: they stay as they are, and the furrow's next bundle goes back (`State.squash`). -/
def State.squashChunk (s : State) : State :=
  match lookup s.ckpts s.hart.id with
  | none => if s.hart.owed.isEmpty then s.commitChunk else s
  | some c =>
    { s with hart := s.hart.restart c, ckpts := erase s.ckpts s.hart.id }

/-- The end of the chunk: the arbiters commit it, or squash it when it conflicts (R283). -/
def State.endChunk (s : State) : State := if s.hart.chunk.conflict then s.squashChunk else s.commitChunk

/-- A chunk of the current furrow is open. -/
def State.chunkOpen (s : State) : Bool :=
  (lookup s.ckpts s.hart.id).isSome || s.hart.chunk.conflict || !s.hart.chunk.wset.isEmpty ||
    !s.hart.chunk.rset.isEmpty

/-- A scalar access of member `i` to a sector meets the sets of another member's chunk. -/
def Chunk.meets (c : Chunk) (i sec : Nat) (wr : Bool) : Bool :=
  (c.wset.any fun p => p.1 != i && p.2 == sec) || (wr && c.rset.any fun p => p.1 != i && p.2 == sec)

/-- The furrow that holds a tiller ends its open chunk: a step of the module is about to change that tiller. -/
def State.endChunkOf (s : State) (tile : Nat) : State :=
  match s.harts.find? fun h => h.members.any fun m => m.tile == tile with
  | some h => s.onHart h.id State.endChunk
  | none => s

end Sys2Proof.Machine
end

