-- ==== Sys2Proof/Machine/Thresh.lean ====
section
/-! DEFINITION. The thresher and the weight latch (R25, R58 to R61, R189 to R200): the arithmetic of a
command, the load of a slot, the gather of rows, and the drain of a tiller's queue. -/

namespace Sys2Proof.Machine

/-- An accumulator element; undefined where nothing wrote it (R23). -/
def Member.accElem (m : Member) (k : Nat) : W32 :=
  match lookup m.acc k with
  | some v => v
  | none => BitVec.ofNat 32 (Config.choose m.accEpoch [23, m.tile, k])

/-- Byte `k` of a weight slot; undefined where no WLD loaded it (R25). -/
def WSlot.byte (w : WSlot) (name k : Nat) : Nat :=
  match lookup w.bytes k with
  | some b => b.toNat
  | none => Config.choose 0 [25, name, k] % 256

/-- The format code of a weight slot; undefined where no WLD recorded one (R25). -/
def WSlot.code (w : WSlot) (name : Nat) : Nat :=
  match w.fmt with
  | some f => (Decode.latchCode f).toNat
  | none => Config.choose 0 [25, name, 32770] % 16

/-- Tile scale of half `h` of a weight slot (R25). -/
def WSlot.scale (w : WSlot) (name h : Nat) : W32 :=
  match w.sw with
  | some (a, b) => if h = 0 then a else b
  | none => BitVec.ofNat 32 (Config.choose 0 [25, name, 32768 + h])

/-- A weight slot of a sheaf. -/
def Sheaf.slot (s : Sheaf) (n : Nat) : WSlot := if n = 0 then s.wl0 else s.wl1

/-- B[k][c] under FB, exact (Table 07.1). -/
def weight (w : WSlot) (name : Nat) (fb : Fmt) (k c : Nat) : Ex :=
  match fb with
  | .i4 =>
    let b := w.byte name (k * 128 + c / 2)
    Fmt.i4.decode (if c % 2 = 0 then b % 16 else b / 16)
  | .bf16 => Fmt.bf16.decode (w.byte name (k * 512 + 2 * c) + 256 * w.byte name (k * 512 + 2 * c + 1))
  | f => f.decode (w.byte name (k * 256 + c))

/-- a[r][k] under FA, exact (R190). -/
def activation (a : List Byte) (fa : Fmt) (r k : Nat) : Ex :=
  let byte := fun j => (a.getD (r * 128 + j) 0).toNat
  match fa with
  | .bf16 => Fmt.bf16.decode (byte (2 * k) + 256 * byte (2 * k + 1))
  | f => f.decode (byte k)

/-- The K-group length (Table 07.1). -/
def kGroup (fa : Fmt) : Nat := if fa = .bf16 then 64 else 128

/-- The exact sum of the K-group's products (R59, R61). -/
def kSum (a : List Byte) (w : WSlot) (name : Nat) (f : FormatWord) (r c : Nat) : Ex :=
  (numsFrom 0 (kGroup f.fa)).foldl
    (fun x k => Ex.add 0 x (Ex.mul (activation a f.fa r k) (weight w name f.fb k c))) (.fin false 0 1)

/-- One K-group update of an accumulator element (R59, R60, R61). -/
def kUpdate (f : FormatWord) (old : Nat) (p : Ex) (sa sw : W32) : Nat :=
  if f.fd = .i32 then rnd .i32 0 f.sat (Ex.add 0 (Fmt.i32.decode old) p)
  else
    let q := rnd32 p
    let s := if f.scl then
        rnd32 (Ex.mul q (rnd32 (Ex.mul (Fmt.f32.decode sa.toNat) (Fmt.f32.decode sw.toNat)))) else q
    rnd .f32 0 f.sat (Ex.add 0 (Fmt.f32.decode old) s)

/-- Columns of a tile under a geometry (R23). -/
def tileCols (geo : Nat) : Nat := 256 / 2 ^ geo

/-- The member after a command on its tile (R197). -/
def ThCmd.apply (c : ThCmd) (w : WSlot) (name : Nat) (m : Member) : Member :=
  match formatFields c.fw with
  | none => m
  | some f =>
    let wt := tileCols c.geo
    let cells := (numsFrom 0 c.mt).flatMap fun r => (numsFrom (c.tile * wt) wt).map fun col => (r, col)
    let acc := cells.foldl (fun (acc : SMap W32) rc =>
      let k := rc.1 * 256 + rc.2
      insert acc k (BitVec.ofNat 32
        (kUpdate f (m.accElem k).toNat (kSum c.a w name f rc.1 rc.2) (c.scales.getD rc.1 0)
          (w.scale name (rc.2 / 128))))) m.acc
    { m with acc := acc, live := m.live ||| BitVec.ofNat 4 (2 ^ c.tile) }

/-- The number that names a slot of a sheaf in free values. -/
def slotName (sheaf slot : Nat) : Nat := 2 * sheaf + slot

/-- The bytes of physical runs (address, length), one after another. -/
def State.runBytes (s : State) (runs : List (Nat × Nat)) : List Byte :=
  runs.flatMap fun r => s.readHome r.1 r.2

/-- The member with a tile number. -/
def State.memberOf (s : State) (tile : Nat) : Option Member := s.allMembers.find? fun m => m.tile == tile

/-- The physical runs that the gather of a command reads. -/
def State.gatherRuns (s : State) (tile id : Nat) : List (Nat × Nat) :=
  match s.memberOf tile with
  | some m => (m.tq.filter fun c => c.id == id && !c.ready).flatMap fun c => c.rows.flatten
  | none => []

/-- The gather of a command is performed: its rows are read coherently (R198, R254). -/
def State.gather (s : State) (tile id : Nat) : State :=
  let s := s.endChunkOf tile
  let s := s.cleanRuns (· == tile) (s.gatherRuns tile id)
  s.mapAll fun m =>
    if m.tile = tile then
      { m with tq := m.tq.map fun c =>
          if c.id = id && !c.ready then
            { c with a := c.rows.flatMap fun r => (s.runBytes r ++ List.replicate 128 0).take 128
                     ready := true } else c }
    else m

/-- A command that is not in its tiller's queue, or is gathered. -/
def State.gathered (s : State) (tile id : Nat) : Bool :=
  match s.memberOf tile with
  | some m => m.tq.all fun c => c.id != id || c.ready
  | none => true

/-- The gathers of a command and of the other members' commands of its MMAG are performed (R198). -/
def State.gatherAll (s : State) (tile id : Nat) : State :=
  match (s.memberOf tile).bind fun m => m.tq.find? fun c => c.id == id with
  | none => s
  | some c => c.group.foldl (fun (s : State) g => s.gather g.1 g.2) s

/-! ### Arbitration (R194, R200) -/

/-- The arrivals before a command. -/
def Sheaf.before (sh : Sheaf) (tile id : Nat) : List Arrival :=
  sh.order.takeWhile fun a => match a with | .cmd t i _ => !(t == tile && i == id) | _ => true

/-- An arrival loads a slot. -/
def Arrival.loads (slot : Nat) : Arrival → Bool
  | .wld w => w.slot == slot
  | _ => false

/-- The head of a tiller's queue, where it is ready: gathered with the rest of its MMAG, and no load of its slot
arrived before it (R198, R200, R194). -/
def State.readyHead (s : State) (n k : Nat) : Option (Nat × Nat) :=
  let tile := 8 * n + k
  match (s.memberOf tile).bind fun m => m.tq.head? with
  | none => none
  | some c =>
    if c.ready && (c.group.all fun g => s.gathered g.1 g.2) &&
        !((s.sheaf n).before tile c.id).any (Arrival.loads c.slot) then some (tile, c.id) else none

/-- The next position after `k` with a ready command, and that command (R200). -/
def State.nextReady (s : State) (n k : Nat) : Option (Nat × Nat × Nat) :=
  ((numsFrom (k + 1) 8).map (· % 8)).findSome? fun j =>
    match s.readyHead n j with
    | some c => some (j, c)
    | none => none

/-- W(k), a field of THW (Table 01.4). -/
def Sheaf.weightAt (sh : Sheaf) (k : Nat) : Nat := sh.thw.toNat / 16 ^ k % 16

/-- The command that the thresher starts next: position, remaining credit, command (R200, log 110). -/
def State.arbitrate (s : State) (n : Nat) : Option (Nat × Nat × Nat × Nat) :=
  let sh := s.sheaf n
  let next := match s.nextReady n sh.k with
    | some (j, t, id) => some (j, sh.weightAt j - 1, t, id)
    | none => none
  match s.readyHead n sh.k with
  | some (t, id) => if 0 < sh.credit then some (sh.k, sh.credit - 1, t, id) else next
  | none => next

/-- The thresher starts a command: position, credit, command. -/
def State.startCmd (s : State) (n : Nat) (c : Nat × Nat × Nat × Nat) : State :=
  s.modSheaf n fun sh => { sh with k := c.1, credit := c.2.1, busy := some c.2.2 }

/-- A thresher that finds no ready command stays idle, and takes a new position when one is ready (R200). -/
def State.restThresher (s : State) (n : Nat) : State :=
  if (s.nextReady n 0).isSome then s else s.modSheaf n fun sh => { sh with credit := 0 }

/-- A command of a tiller completes: its tile is updated and it leaves the queue and the arrival order
(R194, R197). -/
def State.completeCmd (s : State) (tile id : Nat) : State :=
  let n := sheafOf tile
  let sh := s.sheaf n
  let s := s.mapAll fun m =>
    if m.tile = tile then
      match m.tq.find? (·.id == id) with
      | none => m
      | some c =>
        let m := if c.gone then m else c.apply (sh.slot c.slot) (slotName n c.slot) m
        { m with tq := m.tq.filter (·.id != id) }
    else m
  let s := s.modSheaf n fun sh =>
    { sh with
      order := sh.order.filter fun a => match a with | .cmd t i _ => !(t == tile && i == id) | _ => true
      busy := if sh.busy = some (tile, id) then none else sh.busy }
  s.restThresher n

/-- A weight-latch load completes (R192, R193): the slot holds the bytes, which are read coherently, the format and the
scales, and the WLD of every member is complete. -/
def State.completeLoad (s : State) (n : Nat) (w : WLoad) : State :=
  let s := s.cleanRuns (fun _ => false) w.runs
  let bytes := s.runBytes w.runs
  let put := fun (old : WSlot) =>
    { old with bytes := (mapPos (fun k b => (k, b)) bytes).foldl (fun (m : SMap Byte) x => insert m x.1 x.2) old.bytes
               fmt := some w.fmt, sw := some (w.sw0, w.sw1) }
  let s := s.modSheaf n fun sh =>
    let sh := { sh with order := sh.order.filter fun a => match a with | .wld v => v.id != w.id | _ => true }
    if w.slot = 0 then { sh with wl0 := put sh.wl0 } else { sh with wl1 := put sh.wl1 }
  let done := s.ops.filter fun o => w.ops.contains o.id
  let s := done.foldl (fun (s : State) o => s.countDown o.launch) s
  { s with ops := s.ops.filter fun o => !w.ops.contains o.id }

/-- The arrival belongs to a tiller. -/
def Arrival.isCmdOf (tile : Nat) : Arrival → Bool
  | .cmd t _ _ => t == tile
  | _ => false

/-- The arrival is a command. -/
def Arrival.isCmd (tile id : Nat) : Arrival → Bool
  | .cmd t i _ => t == tile && i == id
  | _ => false

/-- The thresher of a sheaf moves on: the running command completes, or the next one starts, or, where none is
ready, the oldest arrival is made ready (R194, R198, R200). -/
def State.thresherStep (s : State) (n : Nat) : State :=
  match (s.sheaf n).busy with
  | some (t, id) => (s.endChunkOf t).completeCmd t id
  | none =>
    match s.arbitrate n with
    | some c => s.startCmd n c
    | none =>
      match (s.sheaf n).order.head? with
      | some (.wld w) => s.completeLoad n w
      | some (.cmd t id _) => s.gatherAll t id
      | none => s

/-- Steps of a sheaf's thresher until no arrival with `want` is left. -/
def State.drainSheaf (n : Nat) (want : Arrival → Bool) : Nat → State → State
  | 0, s => s
  | fuel + 1, s => if (s.sheaf n).order.any want then State.drainSheaf n want fuel (s.thresherStep n) else s

/-- The arrivals of a tiller's sheaf with `want` complete, as the thresher serves its queues (R194, R199, R200); each
takes three steps at most. -/
def State.drainArrivals (s : State) (tile : Nat) (want : Arrival → Bool) : State :=
  let n := sheafOf tile
  State.drainSheaf n want (3 * (s.sheaf n).order.length) s

/-- Every thresher command of the current furrow has completed (R199, R202, R331). -/
def State.drainThresher (s : State) : State :=
  s.hart.members.foldl (fun s m =>
    if m.tq.isEmpty then s else s.drainArrivals m.tile fun a => a.isCmdOf m.tile) s

end Sys2Proof.Machine
end

