-- ==== Sys2Proof/Machine/VMem.lean ====
section
/-! DEFINITION. Vector memory instructions in flight (R137, R138, R140, R145, R147 to R150): the
performance of elements, arrival, retirement, and the drain. -/

namespace Sys2Proof.Machine

/-- A VGLK of a tiller at a sector: its link is the newest, and a home keeps eight (R147, R150). -/
def State.addVlink (s : State) (tile sec : Nat) : State :=
  let l := (s.vlinks.filter fun p => !(p.1 == tile && p.2 == sec)) ++ [(tile, sec)]
  let here := l.filter fun p => p.2 == sec
  let l := if 8 < here.length then
      match here.head? with
      | some old => l.filter (· != old)
      | none => l
    else l
  { s with vlinks := l }

/-- The vector operations of the current furrow with one of them changed. -/
def State.modVop (s : State) (id : Nat) (f : VOp → VOp) : State :=
  s.modHart fun h => { h with vops := h.vops.map fun o => if o.id = id then f o else o }

/-- The copies of the sector after a vector access: the L2 under the policy, or the home alone, to which dirty copies are
written back. -/
def State.vtouch (s : State) (o : VOp) (tile : Nat) (e : VElem) (wr : Bool) : State :=
  if e.uc then s.flushSector e.pa wr
  else match o.kind with
    | .glk | .stc => s.flushSector e.pa wr
    | _ => s.touch tile o.policy false wr e.pa e.coh

/-- One element is performed (R135, R147, R148). -/
def State.vperform (s : State) (o : VOp) (e : VElem) : State :=
  let tile := (s.hart.member e.member).tile
  let load := fun (s : State) =>
    let s := s.vtouch o tile e false
    let bs := s.readHome e.pa e.data.length
    match o.kind with
    | .ldq _ => s.modVop o.id fun o => { o with got := o.got ++ [{ e with data := bs }] }
    | _ =>
      if o.discard then s
      else s.modHart fun h => h.modMember e.member fun m => m.setVbytes o.reg e.pos bs
  match o.kind with
  | .load | .ldq _ => load s
  | .glk => (load s).addVlink tile (sectorOf e.pa)
  | .store => (s.vtouch o tile e true).putBytes (.thread tile) e.pa e.data
  | .stc =>
    let sec := sectorOf e.pa
    let ok := (s.vlinks.any fun p => p.1 == tile && p.2 == sec) && !s.lost e.pa
    let s := if ok then
        let s : State := match e.leaf with
          | some a => s.orPte (.scalar tile) a true
          | none => s
        (s.vtouch o tile e true).putBytes (.thread tile) e.pa e.data
      else s
    s.modVop o.id fun o => { o with fails := o.fails ++ [(e.member, e.pos / e.data.length, !ok)] }

/-- The elements of one request: those in one sector, whichever members hold them; a VSTC tries one element at a
time (R137, R138, R148). -/
def VOp.request (o : VOp) (k : Nat) : List VElem :=
  match o.kind with
  | .stc => if k = 0 then o.todo.take 1 else []
  | _ =>
    match ((o.todo.map fun e => sectorOf e.pa).eraseDups)[k]? with
    | none => []
    | some sec => o.todo.filter fun e => sectorOf e.pa == sec

/-- VSTC has tried its last element: the failure mask is written (R148). -/
def State.vfinish (s : State) (id : Nat) : State :=
  match s.hart.vops.find? (·.id == id) with
  | none => s
  | some o =>
    if o.kind = .stc && o.todo.isEmpty && !o.discard then
      s.modHart fun h => o.fails.foldl (fun h f => h.modMember f.1 fun m => m.setMbit o.mask f.2.1 f.2.2) h
    else s

/-- A sector of host memory that the elements of a store have written whole stands under its key (R374). -/
def State.sealElems (s : State) (es : List VElem) : State :=
  es.foldl (fun (s : State) e =>
    if inHost e.pa && coversSector (es.map fun x => (x.pa, x.data.length)) e.pa then s.seal (sectorOf e.pa) else s) s

/-- The elements of a store that reach their homes: not those that write part of a sector of host memory which no longer
passes its check (R375, log 118). -/
def State.landing (s : State) (o : VOp) (es : List VElem) : List VElem :=
  if o.kind != .store then es
  else es.filter fun e => !s.lost e.pa || (inHost e.pa && coversSector (es.map fun x => (x.pa, x.data.length)) e.pa)

/-- Elements of an operation are performed and leave its list. -/
def State.vrun (s : State) (o : VOp) (es : List VElem) : State :=
  let s := (s.landing o es).foldl (fun s e => s.vperform o e) s
  let s := if o.kind = .store then s.sealElems es else s
  (s.modVop o.id fun o => { o with todo := o.todo.filter fun e => !es.contains e }).vfinish o.id

/-- The data of a VLDQ reaches its entry register (R145). -/
def State.varrive (s : State) (o : VOp) : State :=
  let s := if o.discard then s
    else s.modHart fun h => o.got.foldl (fun h e => h.modMember e.member fun m => m.setVbytes o.reg e.pos e.data) h
  s.modVop o.id fun o => { o with got := [] }

/-- An operation retires (R140). -/
def State.vretire (s : State) (id : Nat) : State :=
  s.modHart fun h => { h with vops := h.vops.filter (·.id != id) }

/-- One operation is performed to its end. -/
def State.vcomplete (s : State) (id : Nat) : State :=
  match s.hart.vops.find? (·.id == id) with
  | none => s
  | some o =>
    let s := s.vrun o o.todo
    let s := match s.hart.vops.find? (·.id == id) with
      | some o => s.varrive o
      | none => s
    s.vretire id

/-- Every vector memory instruction of the current furrow retires, in program order (R108, R299). -/
def State.drainVector (s : State) : State :=
  (s.hart.vops.map (·.id)).foldl (fun s id => s.vcomplete id) s

/-- Younger data of loads in flight is discarded, and failure masks are not written (R132, R146). -/
def Hart.discardVector (h : Hart) : Hart :=
  { h with vops := h.vops.map fun o => { o with discard := true } }

/-- An older operation of the same tiller still acts on the sector, and one of the two writes (R138). -/
def vblocked (ops : List VOp) (o : VOp) (e : VElem) : Bool :=
  let writes := fun (k : VKind) => k == .store || k == .stc
  (ops.takeWhile (·.id != o.id)).any fun p =>
    (writes p.kind || writes o.kind) &&
      p.todo.any fun x => x.member == e.member && sectorOf x.pa == sectorOf e.pa

end Sys2Proof.Machine
end

