-- ==== Sys2Proof/Machine/Frames.lean ====
section
/-! DEFINITION. Frames (R335 to R341): what a save writes, as runs of bytes at offsets, the checks of a
load, and the state that a load leaves; the attachment of channel sets (R342). -/

namespace Sys2Proof.Machine

/-- Bytes of a frame of F members (R335). -/
def frameBytes (f : Nat) : Nat := 0x1000 + f * 0x29000

/-- Offset of member `m`'s block. -/
def blockOff (m : Nat) : Nat := 0x1000 + m * 0x29000

/-- A doubleword at an offset. -/
def dw (off v : Nat) : Nat × List Byte := (off, bytesOf 8 v)

/-- Consecutive doublewords. -/
def dws (off : Nat) (vs : List Nat) : List (Nat × List Byte) := mapPos (fun k v => dw (off + 8 * k) v) vs

/-- ACCG as it reads (Table 01.5). -/
def Member.accg (m : Member) : Nat := m.mt % 256 * 256 + m.live.toNat * 16 + m.geo.toNat

/-- IXST as it reads (Table 06.2). -/
def Member.ixst (m : Member) : Nat :=
  (mapPos (fun n (p : IxPair) => b2n p.drop * 2 ^ (60 + n) + p.entries.length % 4096 * 2 ^ (12 * n)) m.ix).sum

/-- The thresher weight of a member (Table 01.4). -/
def State.thwOf (s : State) (tile : Nat) : Nat := (s.sheaf (sheafOf tile)).thw.toNat / 16 ^ (tile % 8) % 16

/-- FHDR (Table 12.5). -/
def fhdr (h : Hart) (kind : Nat) (vst : Bool) : Nat :=
  (h.member 0).wmode.toNat * 65536 + b2n h.ringf * 32768 + b2n h.training * 16384 + b2n vst * 8192
    + kind * 2048 + h.len

/-- The header of a frame (Table 12.3). -/
def headerRuns (h : Hart) (kind : Nat) (vst : Bool) : List (Nat × List Byte) :=
  dws 0x000 [fhdr h kind vst, h.vmax.toNat]
    ++ dws 0x010 [h.status.toNat, h.tcause.toNat, h.tpc.toNat, h.tval.toNat, h.tmem.toNat, h.vec.toNat]
    ++ dws 0x040 [h.ctx.toNat, h.ptroot0.toNat, h.ptroot1.toNat, h.tmr.toNat, h.prio.toNat]
    ++ dws 0x068 [h.vl.toNat, h.vw.toNat, h.els.toNat, h.efr.toNat, h.qst.toNat, h.axo.toNat, h.lhold.toNat]
    ++ [dw 0x0A0 (wrapNat 64 h.bal), dw 0x0A8 h.origin.toNat, (0x0B0, List.replicate 0x50 0)]
    ++ dws 0x100 ((numsFrom 0 32).map fun n => (lookupD h.hwm n 0).toNat)
    ++ [(0x200, List.replicate 0xE00 0)]

/-- Bits of a mask of a member as 256 bytes (Table 12.4). -/
def maskBytes (m : Member) (k : Nat) : List Byte :=
  (numsFrom 0 256).map fun j => BitVec.ofNat 8 ((numsFrom 0 8).foldl (fun x t => x + b2n (m.mbit k (8 * j + t)) * 2 ^ t) 0)

/-- The bytes of register `n` below its mark that member `i` writes (R336). -/
def markedBytes (h : Hart) (i n : Nat) : List Byte :=
  let e := min (cntOf h.shares h.w h.vl.toNat i) ((lookupD h.hwm n 0).toNat / h.e - startOf h.shares h.w i)
  (h.member i).vbytes n 0 (e * h.e)

/-- The tiles that are live (ACCG.LIVE). -/
def liveTiles (live : BitVec 4) (geo : BitVec 2) : List Nat :=
  (numsFrom 0 (2 ^ geo.toNat)).filter fun n => live.getLsbD n

/-- The block of member `i` (Table 12.4, R336). -/
def blockRuns (s : State) (h : Hart) (i : Nat) (vst : Bool) : List (Nat × List Byte) :=
  let m := h.member i
  let wt := tileCols m.geo.toNat
  let runs :=
    dws 0 ((numsFrom 0 64).map fun r => (m.reg s.tick (BitVec.ofNat 6 r)).toNat)
    ++ dws 0x200 ((numsFrom 0 8).map fun n => (s.channel m.chset n).txn.toNat)
    ++ dws 0x240 ((numsFrom 0 8).map fun n => (s.channel m.chset n).txw.toNat)
    ++ dws 0x280 [m.chset, m.accg, m.ixst, h.shares.getD i 0 + m.groups.toNat * 65536, s.thwOf m.tile]
    ++ dws 0x2A8 ((numsFrom 0 8).map fun k => (m.sende.getD k 0).toNat)
    ++ (if vst then
          ((numsFrom 1 7).map fun k => (0x800 + (k - 1) * 0x100, maskBytes m k))
            ++ ((numsFrom 0 32).map fun n => (0x1000 + n * 0x800, markedBytes h i n))
        else [])
    ++ (liveTiles m.live m.geo).flatMap (fun n =>
          (numsFrom 0 m.mt).map fun r =>
            (0x11000 + 4 * (r * 256 + n * wt),
              (numsFrom 0 wt).flatMap fun c => bytesOf 4 (m.accElem (r * 256 + n * wt + c)).toNat))
    ++ (mapPos (fun j (p : IxPair) =>
          mapPos (fun e (kv : W32 × W32) => (0x19000 + j * 0x4000 + 8 * e, bytesOf 4 kv.1.toNat ++ bytesOf 4 kv.2.toNat))
            p.entries) m.ix).flatten
  runs.map fun r => (blockOff i + r.1, r.2)

/-- Everything that a save writes: offsets and bytes (R336). -/
def frameRuns (s : State) (h : Hart) (kind : Nat) (vst : Bool) : List (Nat × List Byte) :=
  headerRuns h kind vst ++ (numsFrom 0 h.len).flatMap fun i => blockRuns s h i vst

/-! ### Where the bytes of a frame lie -/

/-- The physical pages of a frame: (offset of the page's first frame byte, its physical address). A run
never crosses a page, since every run is aligned to its size within 4 KiB. -/
abbrev FrameMap := List (Nat × Nat)

/-- The physical address of offset `off`. -/
def frameAddr : FrameMap → Nat → Nat
  | [], off => off
  | [(o, p)], off => p + off - o
  | (o, p) :: (o', p') :: l, off => if off < o' then p + off - o else frameAddr ((o', p') :: l) off

/-- The frame in physical memory from `pa` on. -/
def physFrame (pa : Nat) : FrameMap := [(0, pa)]

/-- The state with runs written (R338, R343). -/
def State.putRuns (s : State) (w : Writer) (fm : FrameMap) (runs : List (Nat × List Byte)) : State :=
  runs.foldl (fun s r => if r.2.isEmpty then s else s.putCoherent w (frameAddr fm r.1) r.2) s

/-- A doubleword of a frame. -/
def State.frameWord (s : State) (fm : FrameMap) (off : Nat) : Word := s.peekWord (frameAddr fm off)

/-! ### Loading -/

/-- Bits that RES0 fields of the header's registers occupy, by offset (Tables 01.4, 01.5, 12.3). -/
def headerRes0 : List (Nat × Nat) :=
  [(0x000, 0xFFFFFFFFFF000700), (0x008, 0xFFFFFFFFFFF80000), (0x010, 0xFFFFFFFFFFFFF0E0),
   (0x018, 0xFFFFFFFFFFFE0000), (0x020, 0xFF00000000000007), (0x030, 0xFFFFFFFFFFFFFF80),
   (0x038, 0xFF0000000000007F), (0x040, 0xFFFFFFFFFFFFF000), (0x048, 0xFFF000000000FFFE),
   (0x050, 0xFFF000000000FFFE), (0x060, 0xFFFFFFFFFFFFFFFC), (0x068, 0xFFFFFFFFFFF80000),
   (0x070, 0xFFFFFFFFFFFFFFFC), (0x078, 0xFFFFFFFFFFF80000), (0x080, 0xFFFFFFFF00000000),
   (0x090, 0xFFFFFFFFFFFFE000), (0x098, 0xFFFFFFFFFFFFFF00), (0x0A8, 0x3FFFFFFFFFFFFC00)]

/-- A RES0 field of the frame is nonzero, or KIND is reserved (R341, SUB 4). Pair mode 3 and GEO 3 are not named there
(log 117). `f` is the number of its member blocks. -/
def frameMalformed (s : State) (fm : FrameMap) (f : Nat) : Bool :=
  let w := s.frameWord fm
  (headerRes0.any fun p => (w p.1).toNat &&& p.2 != 0) || field (w 0) 12 11 == 3 ||
    (((numsFrom 0 10).map (0x0B0 + 8 * ·)) ++ ((numsFrom 0 448).map (0x200 + 8 * ·))).any (fun o => w o != 0) ||
    ((numsFrom 0 32).any fun n => (w (0x100 + 8 * n)).toNat / 2 ^ 19 != 0) ||
    (numsFrom 0 f).any fun i =>
      (w (blockOff i + 0x288)).toNat &&& 0xFFFFFFFFFFFF000C != 0 ||
      (w (blockOff i + 0x290)).toNat &&& 0x0FFF000000000000 != 0 ||
      (w (blockOff i + 0x298)).toNat / 2 ^ 24 != 0

/-- The pairs that a mode word puts in bed or index mode (R315). -/
def modesNeedStack (wm : BitVec 8) : Bool := wm != 0

/-- A member has working pairs for the modes (R257, R315, R340). -/
def State.pairsWork (s : State) (tile : Nat) (wm : BitVec 8) : Bool :=
  s.tmapOf tile == 1 || (s.tmapOf tile == 2 && !modesNeedStack wm)

/-- The channel sets that are attached, each with the tiller or root core that holds it: a thread that has moved, or
waits for a tiller, has taken its root core's set with it (R342, R346). -/
def State.setHolders (s : State) : List (Nat × Nat) :=
  let threads := s.saved.flatMap fun u => match u.thread with | some h => h.members | none => []
  let cores := s.roots.flatMap fun r => if r.2.state = 4 then [] else
    match r.2.core with | some h => h.members | none => []
  ((s.harts.flatMap (·.members)) ++ s.idle.map (·.2) ++ threads ++ cores).map fun m => (m.tile, m.chset)

/-- A channel set is attached elsewhere than to `mine`: also the own set of a tiller on which a moved thread runs, and
the set that a tiller or root core has carried since reset (R342, log 115). -/
def State.setHeld (s : State) (set : Nat) (mine : List Nat) : Bool :=
  (s.setHolders.any fun p => p.2 == set && !mine.contains p.1) || (s.harts.any fun h => h.ownSet == some set) ||
    (decide (set < 66560) && !mine.contains set && !s.allMembers.any (·.tile == set))

/-- The number of the channel set that a frame gives member `i`. -/
def State.frameSet (s : State) (fm : FrameMap) (i : Nat) : Nat := field (s.frameWord fm (blockOff i + 0x280)) 31 0

/-- The channel sets of a frame can be attached to the tillers `mine`: each is named once, is held by no other
tiller, and is not newer than the frame (R342). A number that no set has carried names an empty set (log 115). -/
def State.setsAttach (s : State) (fm : FrameMap) (f : Nat) (mine : List Nat) : Bool :=
  let sets := (numsFrom 0 f).map (s.frameSet fm)
  decide sets.Nodup &&
    (numsFrom 0 f).all fun i =>
      !s.setHeld (s.frameSet fm i) mine &&
        (numsFrom 0 8).all fun n =>
          (s.channel (s.frameSet fm i) n).txn == s.frameWord fm (blockOff i + 0x200 + 8 * n)

/-- The first condition of R341 that a load breaks: SUB and the failing member. -/
def loadFails (s : State) (h : Hart) (fm : FrameMap) : Option (Nat × Nat) :=
  let w := s.frameWord fm
  let hd := w 0
  let f := h.len
  let wm := BitVec.ofNat 8 (field hd 23 16)
  let mine := h.members.map (·.tile)
  if frameMalformed s fm (field hd 7 0) then some (4, 0)
  else if field hd 7 0 != f then some (1, 0)
  else match (numsFrom 0 f).find? fun i => !s.pairsWork (h.member i).tile wm with
    | some i => some (2, i)
    | none =>
      match (numsFrom 0 f).find? fun i =>
        bit hd 13 && decide (({ h.member i with wmode := wm } : Member).cap < field (w (blockOff i + 0x298)) 15 0) with
      | some i => some (3, i)
      | none =>
        if s.setsAttach fm f mine then none else some (5, 0)

/-- The index pairs of a member as the frame holds them. -/
def loadPairs (s : State) (fm : FrameMap) (base : Nat) (wm : BitVec 8) : List IxPair :=
  let st := s.frameWord fm (base + 0x290)
  (numsFrom 0 (pairsIn wm 2).length).map fun j =>
    { drop := bit st (60 + j)
      entries := (numsFrom 0 (field st (12 * j + 11) (12 * j))).map fun e =>
        let kv := s.frameWord fm (base + 0x19000 + j * 0x4000 + 8 * e)
        (BitVec.ofNat 32 kv.toNat, BitVec.ofNat 32 (kv.toNat / 2 ^ 32)) }

/-- Vector bytes of a member as the frame holds them, below the marks (R336, R339). -/
def loadVreg (s : State) (fm : FrameMap) (h : Hart) (i : Nat) : SMap Byte :=
  (numsFrom 0 32).flatMap fun n =>
    let e := min (cntOf h.shares h.w h.vl.toNat i) ((lookupD h.hwm n 0).toNat / h.e - startOf h.shares h.w i)
    mapPos (fun p b => (n * 2048 + p, b)) (s.peekBytes (frameAddr fm (blockOff i + 0x1000 + n * 0x800)) (e * h.e))

/-- Mask bits of a member as the frame holds them. -/
def loadMask (s : State) (fm : FrameMap) (i : Nat) : SMap Bool :=
  (numsFrom 1 7).flatMap fun k =>
    (mapPos (fun j (b : Byte) => (numsFrom 0 8).map fun t => (k * 2048 + 8 * j + t, b.getLsbD t))
      (s.peekBytes (frameAddr fm (blockOff i + 0x800 + (k - 1) * 0x100)) 256)).flatten

/-- Accumulator elements of the live tiles as the frame holds them. -/
def loadAcc (s : State) (fm : FrameMap) (i mt : Nat) (live : BitVec 4) (geo : BitVec 2) : SMap W32 :=
  let wt := tileCols geo.toNat
  let cols := (liveTiles live geo).flatMap fun n => numsFrom (n * wt) wt
  (numsFrom 0 mt).flatMap fun r => cols.map fun c =>
    (r * 256 + c, BitVec.ofNat 32 (ofBytes (s.peekBytes (frameAddr fm (blockOff i + 0x11000 + 4 * (r * 256 + c))) 4)))

/-- Member `i` after a load (R339); `h` is the furrow with its loaded registers. -/
def loadMember (s : State) (fm : FrameMap) (h : Hart) (i epoch : Nat) (vst : Bool) (wm : BitVec 8)
    (m : Member) : Member :=
  let w := fun off => s.frameWord fm (blockOff i + off)
  let accg := w 0x288
  let geo := BitVec.ofNat 2 (field accg 1 0)
  let live := BitVec.ofNat 4 (field accg 7 4)
  let m1 : Member := ({ m.leaveCache wm with wmode := wm } : Member).takeLanes
  { m1 with
    regs := ((numsFrom 1 63).map fun r => (r, w (8 * r)))
    pend := []
    chset := field (w 0x280) 31 0
    geo := geo, live := live
    acc := loadAcc s fm i m1.mt live geo, accEpoch := epoch
    vreg := if vst then loadVreg s fm h i else []
    mask := if vst then loadMask s fm i else []
    vEpoch := epoch
    ix := loadPairs s fm (blockOff i) wm
    sende := if (i = 0 && !h.ringf) then [] else (numsFrom 0 h.bal.toNat).map fun k => w (0x2A8 + 8 * k) }

/-- The furrow and its sheaves after a load that passes every check (R339). -/
def State.loadFrame (s : State) (fm : FrameMap) : State :=
  let w := s.frameWord fm
  let hd := w 0
  let vst := bit hd 13
  let wm := BitVec.ofNat 8 (field hd 23 16)
  let h := s.hart
  let h1 : Hart := { h with
    status := w 0x010, tcause := w 0x018, tpc := w 0x020, tval := w 0x028, tmem := w 0x030, vec := w 0x038
    ctx := w 0x040, ptroot0 := w 0x048, ptroot1 := w 0x050, tmr := w 0x058, prio := w 0x060
    vl := if vst then BitVec.ofNat 19 (w 0x068).toNat else 0
    vw := BitVec.ofNat 2 (min (field (w 0x070) 1 0) 2)
    els := if vst then BitVec.ofNat 19 (w 0x078).toNat else 0
    efr := BitVec.ofNat 32 (w 0x080).toNat
    qst := if vst then w 0x088 else 0
    axo := BitVec.ofNat 13 (w 0x090).toNat
    lhold := BitVec.ofNat 8 (w 0x098).toNat
    bal := signedOf 64 (w 0x0A0).toNat
    origin := w 0x0A8
    ringf := bit hd 15
    hwm := if vst then (numsFrom 0 32).map (fun n => (n, BitVec.ofNat 19 (w (0x100 + 8 * n)).toNat)) else []
    shares := (numsFrom 0 h.len).map fun i => if vst then field (w (blockOff i + 0x298)) 15 0 else 0
    vops := [], waits := [] }
  let h2 : Hart := { h1 with members := mapPos (fun i m => loadMember s fm h1 i (s.tick + 1) vst wm m) h.members }
  let h3 : Hart := { h2 with vmax := BitVec.ofNat 19 (if vst then (w 0x008).toNat else h2.capacity) }
  let s : State := { s with hart := h3, chsets := ((numsFrom 0 h.len).map (s.frameSet fm)).foldl (fun c k => insert c k (lookupD c k {})) s.chsets }
  (numsFrom 0 h.len).foldl (fun (s : State) i =>
    let t := (h.member i).tile
    s.modSheaf (sheafOf t) fun sh =>
      { sh with thw := BitVec.ofNat 32 (sh.thw.toNat - s.thwOf t * 16 ^ (t % 8)
          + max 1 (field (w (blockOff i + 0x2A0)) 3 0) * 16 ^ (t % 8)) }) s

end Sys2Proof.Machine
end

