-- ==== Sys2Proof/Machine/Ops.lean ====
section
/-! DEFINITION. The shared operations of execution: the three outcomes of a word, trap entry and return (R38, R70, R114, R328 to R333), transfers (R70, R111), saves by the module and their
resumption (R342 to R344), and the moves of a root core's thread (R346, R347, R245). -/

namespace Sys2Proof.Machine

/-- The outcome of a step. -/
abbrev Result := Host.Outcome State Fault Refusal

/-- The word completed. -/
def State.ok (s : State) : Result := .next { s with signal := .done }

/-- The word waits: the furrow parks at its bundle (R117, R206). -/
def State.wait (s : State) (p : Park) : Result :=
  .next { s with hart := { s.hart with park := some p }, signal := .stalled }

/-- A step that makes requests of `id` at some addresses: those that must wait enter the queues of their
pseudo-channels, or the step takes place (R356, R365). Of the requests that `id` still has elsewhere, those at `keep`
stay. -/
def State.bankGate (s : State) (id : Nat) (pas keep : List Nat) (f : State → Result) : Result :=
  match s.windowsAt id pas with
  | [] => f (s.leaveQueues fun q => q.1 == id && pas.contains q.2)
  | gs => ((s.leaveQueues fun q => q.1 == id && !(pas ++ keep).contains q.2).enterQueues id gs).ok

/-- The step does not exist in this state. -/
def notEnabled : Result := .fault .notEnabled

/-! ### The end of older work -/

/-- Everything older than the current bundle ends: the chunk, vector memory, the thresher, outstanding
results (R331 step 1). -/
def State.quiesce (s : State) : State :=
  let s := s.endChunk.drainVector.drainThresher
  s.modHart fun h => h.mapMembers fun _ m => m.drainPend s.tick

/-- The vector memory instructions in flight retire; a chunk that is open ends first. -/
def State.settleVector (s : State) : State :=
  if s.hart.vops.isEmpty then s else s.commitChunk.drainVector

/-- Links break and iteration wait entries are freed (R331 step 3, R105, R149, R218). -/
def State.breakLinks (s : State) : State :=
  let tiles := s.hart.members.map (·.tile)
  let s := s.modHart fun h =>
    { h with waits := [], members := h.members.map fun m => { m with link := none } }
  { s with vlinks := s.vlinks.filter fun p => !tiles.contains p.1 }

/-! ### Trap entry -/

/-- TCAUSE as a trap sets it. -/
def causeWord (t : TrapInfo) : Word :=
  BitVec.ofNat 64 (b2n t.eside * 65536 + t.sub % 256 * 256 + t.cause % 256)

/-- The trap registers of `trap(cause, val)` (R38). -/
def Hart.report (h : Hart) (t : TrapInfo) : Hart :=
  { h with tcause := causeWord t, tpc := h.pc, tval := t.val, tmem := BitVec.ofNat 64 t.member }

/-- STATUS, TCAUSE, TPC, TVAL and TMEM of `trap(cause, val)` (R38). -/
def Hart.trapRegs (h : Hart) (t : TrapInfo) : Hart := { h.report t with status := statusTrap h.status }

/-- The address of slot 1 of VEC.LINE (R38). -/
def Hart.handler (h : Hart) : Word := lineOf h.vec + 8

/-- The furrow starts at `pc` with the header in use. -/
def Hart.goto (h : Hart) (pc : Word) (e : Entry) (hdr : Word) : Hart :=
  { h with pc := pc, npc := pc, entry := e, hdr := hdr, park := none, after := none, snap := none, enabled := false }

/-- The entry of the handler at VEC; a machine check where the line cannot be entered (R70). -/
def State.enterHandler (s : State) (cause : Nat) : State :=
  let a := s.hart.handler
  match fetchLine s a with
  | .error _ => s.machineCheck 7 (lineOf a) cause
  | .ok (x, line) =>
    let slots := slotsOf line
    if headerOk slots then
      (s.fetched x line).modHart fun h => h.goto a .inLine (slots.getD 0 0)
    else s.machineCheck 7 (lineOf a) cause

/-- A trap with STOPF = 1 and a cause up to 0x0B ends the job (R323). -/
def stopsJob (h : Hart) (t : TrapInfo) : Bool :=
  h.stopf && decide (1 ≤ t.cause) && decide (t.cause ≤ 0x0B) && h.unit.isSome

/-- The furrow's unit has executed END, or ends as if it had (R116, R323). -/
def Hart.endsUnit (h : Hart) : Hart :=
  { h with run := .ending, park := none, after := none, snap := none, parts := none, cancel := false, qst := 0
           members := h.members.map fun m => { m with link := none } }

/-- A trap interrupts the BKSEQ of the current root core; MPC, ba0 and ba1 are kept (R249). -/
def State.stopProg (s : State) : State :=
  match s.hart.root with
  | some g => s.modRoot g RootCore.stopped
  | none => s

/-- A trap that enters the handler on a tiller: the last trap was not raised on the thread's root core
(Table 12.3). -/
def Hart.enters (h : Hart) (t : TrapInfo) : Hart := { h.trapRegs t with origin := setBit h.origin 62 false }

/-- What a trap does once older work has ended (R331, R38), or what R323 and R347 put in its place. -/
def State.enterTrap (s : State) (t : TrapInfo) : State :=
  if s.hart.root.isSome then
    (s.modHart fun h => { h.report t with moving := true, park := none, after := none }).stopProg
  else if stopsJob s.hart t then
    let ended := s.modHart Hart.endsUnit
    match s.hart.unit with
    | some u => ended.faultJob u t.cause
    | none => ended
  else (s.modHart fun h => h.enters t).enterHandler t.cause

/-- The module as it goes back to: the furrow stands before its current bundle (log 8). -/
def State.snapshot (s : State) : ModuleState :=
  { s.toModuleState with hart := { s.hart with npc := s.hart.pc, entry := .inLine, snap := none } }

/-- The module goes back to the first RECVW that ran ahead, and the furrow knows the values `known` in advance
(R209, log 8). -/
def State.goBack (s : State) (known : List (Nat × Word)) : State :=
  let told : Hart → Hart := fun h => if h.id = s.hart.id then { h with foreseen := known } else h
  match s.undo with
  | none => { s with signal := .undone }
  | some m =>
    { toModuleState := { m with
        hart := told m.hart, others := m.others.map told, agenda := .bundle :: m.agenda, tick := s.tick, cyc := s.cyc
        signal := .undone }
      undo := none }

/-- The chunk that conflicts is squashed, and with it the bundle at hand (R283). Chunks without a restart point are those
of members that wait for a SENDE: the module goes back to their RECVW (log 8). -/
def State.squash (s : State) : State :=
  if s.hart.owed.isEmpty || (lookup s.ckpts s.hart.id).isSome then { s.squashChunk with signal := .undone }
  else s.goBack s.hart.seen

/-- Trap entry at the current bundle (R331), unless the chunk before it is squashed, and the bundle that traps with it
(R283, R299). Behind a RECVW that stands ahead of its SENDE no bundle executes before the value is there: the module goes
back to that RECVW (R209, log 8). -/
def State.takeTrap (s : State) (t : TrapInfo) : State :=
  if s.hart.chunk.conflict then s.squash
  else if s.hart.owed.isEmpty then { s.quiesce.breakLinks.enterTrap t with signal := .trapped t }
  else s.goBack s.hart.seen

/-- The word traps. -/
def State.trap (s : State) (t : TrapInfo) : Result := .next (s.takeTrap t)

/-- The slot that the furrow executes (R81, R82): the one that the bundle was decoded from. -/
def State.slotWord (s : State) : Word :=
  match s.hart.snap with
  | some n => n.slot
  | none =>
    match fetchLine s s.hart.pc with
    | .ok (_, line) => (slotsOf line).getD (slotIx s.hart.pc) 0
    | .error _ => 0

/-- The illegal-instruction trap of the current slot. -/
def State.illegal (s : State) (sub : Nat := 0) (eside : Bool := false) : Result :=
  s.trap { cause := 1, sub := sub, val := s.slotWord, eside := eside }

/-- The protection trap. -/
def State.protection (s : State) (sub : Nat) (val : Word) (mem : Nat := 0) : Result :=
  s.trap { cause := 8, sub := sub, val := val, member := mem }

/-! ### Transfers -/

/-- A transfer to `target`, checked under R70; `after` is the transfer's own effect (R111). -/
def State.transfer (s : State) (target : Word) (check : Bool) (after : State → State) : Result :=
  match fetchLine (after s) target with
  | .error _ => ((after s).modHart fun h => { h with npc := target, entry := .jump check }).ok
  | .ok (x, line) =>
    let slots := slotsOf line
    if entryOk slots (slotIx target) check then
      ((after (s.fetched x line)).modHart fun h =>
        { h with npc := target, entry := .inLine, hdr := slots.getD 0 0 }).ok
    else s.trap { cause := 4, val := target }

/-! ### Frames of CXSAVE and CXLOAD -/

/-- The pages of `n` bytes from `va` on, translated for an access of member `i` in increasing order; or the
trap at the first byte that fails (R192, R338, R339). -/
def framePages (s : State) (i : Nat) (k : AKind) : Nat → Word → Nat → Nat → Except TrapInfo (List (Nat × Xlat))
  | 0, _, _, _ => .ok []
  | fuel + 1, va, off, n =>
    if n = 0 then .ok []
    else
      let step := min n (65536 - va.toNat % 65536)
      match s.xlat i k va with
      | .error e => .error (xlatTrap e va i)
      | .ok x =>
        if x.io then .error { cause := 8, val := va, member := i }
        else
          match s.runFault x step (k != .write) with
          | some f => .error { cause := 8, sub := f.2, val := va + BitVec.ofNat 64 f.1, member := i }
          | none =>
            match framePages s i k fuel (va + BitVec.ofNat 64 step) (off + step) (n - step) with
            | .error t => .error t
            | .ok l => .ok ((off, x) :: l)

/-- The frame address of a CXSAVE or CXLOAD value. -/
def frameAddress (v : Word) : Word := v &&& 0xFFFFFFFFFFFFF000

/-! ### Channel sets and saves by the module -/

/-- The lowest number from `n` on that no channel set has carried (R342). -/
def uncarried (sets : SMap ChSet) : Nat → Nat → Nat
  | 0, n => n
  | fuel + 1, n => if (lookup sets n).isSome then uncarried sets fuel (n + 1) else n

/-- A fresh channel set for member `i` of the current furrow (R342). -/
def State.freshSet (s : State) (i : Nat) : State :=
  let old := (s.hart.member i).chset
  let n := uncarried s.chsets s.chsets.length s.nextSet
  let copy := (numsFrom 0 8).map fun k =>
    let t := (s.channel old k).txn
    (k, ({ txn := t, txw := t } : Channel))
  let s : State := { s with chsets := insert s.chsets n { ch := copy }, nextSet := n + 1 }
  s.modHart fun h => h.modMember i fun m => { m with chset := n }

/-- Regions of the context store in use: (address, bytes). -/
def State.framesUsed (s : State) : List (Nat × Nat) :=
  (s.saved.filter fun u => u.thread.isNone).map fun u => (u.frame, frameBytes u.len)

/-- A free region of the context store for a frame of F members (R344). -/
def State.freeFrame (s : State) (f : Nat) : Option Nat :=
  let n := frameBytes f
  let starts := s.csbase :: s.framesUsed.map fun u => u.1 + u.2
  starts.find? fun a =>
    decide (a + n ≤ s.csbase + s.cssize) && decide (a % 4096 = 0) &&
      s.framesUsed.all fun u => decide (a + n ≤ u.1) || decide (u.1 + u.2 ≤ a)

/-- The job of the current furrow's unit. -/
def State.jobOf (s : State) : Option Nat :=
  match s.hart.unit with
  | none => none
  | some u => (s.launch? u.launch).map (·.job)

/-- The effective priority of a launch (R313). -/
def State.effPrio (s : State) (l : Launch) : Nat :=
  max l.prio (match s.job? l.job with | some j => j.prio | none => 0)

/-- The effective priority that the records give to the unit of a furrow (R313). -/
def State.recordPrio (s : State) (h : Hart) : Nat :=
  match h.unit.bind fun u => s.launch? u.launch with
  | some l => s.effPrio l
  | none => h.prio.toNat % 4

/-- The effective priority of a running unit: PRIO's once a supervisor wrote it (R313). -/
def State.unitPrio (s : State) (h : Hart) : Nat := if h.prioSet then h.prio.toNat % 4 else s.recordPrio h

/-- A save by the module (R343): the frame is written, the channel sets are detached, and the tillers are
free; none where the context store has no room. -/
def State.saveUnit (s : State) (kind sub : Nat) (val : Word) (vst : Bool) (watch : Option Nat)
    (ready : Bool) : Option State :=
  match s.freeFrame s.hart.len with
  | none => none
  | some pa =>
    let s := s.quiesce.breakLinks
    let s := s.modHart fun h => { h with
      status := setBit h.status 4 false, expired := false
      tcause := causeWord { cause := 0x10, sub := sub }, tpc := h.pc, tval := val, tmem := 0 }
    let h := s.hart
    let s := s.putRuns .other (physFrame pa) (frameRuns s h kind vst)
    let u : Saved := {
      id := s.nextId, frame := pa, len := h.len, thread := none, target := none, job := s.jobOf,
      unit := h.unit, prio := s.recordPrio h, watch := watch, ready := ready || h.woken, cancel := h.cancel }
    let s : State := { s with saved := s.saved ++ [u], nextId := s.nextId + 1 }
    let s := (numsFrom 0 h.len).foldl State.freshSet s
    some { s.leave with signal := .trapped { cause := 0x10, sub := sub, val := val } }

/-- The current furrow, whose frame was just loaded, goes on at its saved TPC as after a TRET, with the STATUS
that was saved (R331, R344, R70). -/
def State.resumeFrame (s : State) : State := s.modHart fun h => h.goto h.tpc (.jump false) 0

/-! ### Threads of root cores -/

/-- The thread of the current root core leaves it and waits for a tiller (R346). -/
def State.moveThread (s : State) (pending : Bool) : State :=
  match s.hart.root with
  | none => s
  | some g =>
    let h := s.hart
    let dw7 := lookupD (s.rootOf g).mbox 7 0
    let t := field dw7 15 0
    let target := if bit dw7 16 && s.tmapOf t != 0 then some t else none
    let prio := match h.rlaunch with
      | some l => (match s.launch? l with | some l => s.effPrio l | none => 3)
      | none => 3
    let origin := BitVec.ofNat 64 (2 ^ 63 + b2n pending * 2 ^ 62 + g)
    let thread : Hart := { h with origin := origin, moving := false, park := none, after := none }
    let u : Saved := {
      id := s.nextId, frame := 0, len := 1, thread := some thread, target := target, job := none
      unit := none, prio := prio, watch := none, ready := true }
    let s : State := { s with saved := s.saved ++ [u], nextId := s.nextId + 1 }
    let s := s.modRoot g fun r => { r with state := 4, core := some { h with moving := false } }
    { s with hart := Hart.absent, ckpts := erase s.ckpts h.id }

/-- The furrow that takes a moved thread on the idle tiller `t` (R346, R347). The registers that R346 does not name are
zero, and the index pairs keep their entries only where no pair changes its mode (log 111). -/
def State.threadFurrow (s : State) (th : Hart) (t : Nat) : Hart :=
  let m := s.idleMember t
  let wm : BitVec 8 := match th.rlaunch with
    | some l => (match s.launch? l with | some l => l.pmode | none => 0x55)
    | none => 0x55
  let src := th.member 0
  let same := m.wmode == wm
  let n := (pairsIn wm 2).length
  let member : Member := { m.leaveCache wm with
    regs := src.regs, pend := [], chset := src.chset, wmode := wm, geo := 0, live := 0
    acc := [], accEpoch := s.tick + 1, vreg := [], mask := [], vEpoch := s.tick + 1
    ix := if same then m.ix else List.replicate n {}
    lanes := m.groups, link := none, sende := [], tq := [] }
  let h : Hart := {
    id := s.nextId, members := [member], run := .running, pc := th.pc, npc := th.pc
    entry := .jump false, status := th.status, vec := th.vec
    ctx := th.ctx, ptroot0 := th.ptroot0, ptroot1 := th.ptroot1
    els := th.els, efr := th.efr, shares := [0], origin := th.origin, rlaunch := th.rlaunch
    ownSet := some m.chset }
  { h with vmax := BitVec.ofNat 19 h.capacity }

/-- A moved thread starts on the idle tiller `t`; with a trap pending it enters the handler (R346,
R347). -/
def State.startThread (s : State) (u : Saved) (th : Hart) (t : Nat) : State :=
  let h := s.threadFurrow th t
  let h : Hart := { h with prio := BitVec.ofNat 64 u.prio }
  let s : State := { s with
    saved := s.saved.filter (·.id != u.id), idle := erase s.idle t, gifts := erase s.gifts t
    nextId := s.nextId + 1, hart := h }
  if bit th.origin 62 then
    let s := s.modHart fun h =>
      { h with tcause := th.tcause, tpc := th.tpc, tval := th.tval, tmem := th.tmem
               status := statusTrap h.status }
    s.enterHandler (field th.tcause 7 0)
  else s

/-- The thread of the current furrow goes back to its root core and resumes at `a` (R245, R347). -/
def State.returnToRoot (s : State) (a : Word) (e : Entry) : State :=
  let h := s.hart
  let g := field h.origin 9 0
  let base : Hart := (s.rootOf g).core.getD { id := 0, root := some g, members := [Member.fresh (Config.tillers + g)] }
  let m0 := h.member 0
  let core : Hart := { base with
    id := s.nextId, root := some g, run := .running, status := h.status, efr := h.efr, els := 0
    members := base.members.map fun m => { m with regs := m0.regs, pend := [], link := none, chset := m0.chset }
    origin := 0, rlaunch := h.rlaunch, chunk := {}, cancel := false }
  let s := s.leave
  let s := s.modRoot g fun r => { r with state := 2, core := none }
  { s with hart := core.goto a e 0, nextId := s.nextId + 1 }

/-! ### Return from a trap -/

/-- TRET (R114), with the return of a moved thread to its root core (R347). -/
def State.trapReturn (s : State) : Result :=
  let h := s.hart
  if !h.priv then s.protection 3 0
  else
    let s := s.commitChunk
    let back : State → State := fun s => s.modHart fun h => { h with status := statusReturn h.status }
    if bit h.origin 62 then
      ((back s).quiesce.returnToRoot h.tpc (.jump false)).ok
    else s.transfer h.tpc false back

/-! ### Where a word may execute -/

/-- The return trap: the thread of the current root core moves to a tiller (R83, R346). -/
def State.ship (s : State) : Result := .next { s.quiesce.moveThread false with signal := .trapped { cause := 0x0C } }

/-- A word that a root core does not execute: its bundle ships the thread to a tiller (R83, R250). -/
def State.onTiller (s : State) (f : State → Result) : Result := if s.hart.root.isSome then s.ship else f s

/-- A word that only root cores execute (R81). -/
def State.onRoot (s : State) (f : Nat → Result) : Result :=
  match s.hart.root with
  | some g => f g
  | none => s.illegal

/-- A word of a supervisor (R112, R27). -/
def State.supervisor (s : State) (val : Word) (f : State → Result) : Result :=
  if s.hart.priv then f s else s.protection 3 val

end Sys2Proof.Machine
end

