-- ==== Sys2Proof/Machine/ModuleRegs.lean ====
section
/-! DEFINITION. The module registers (R367 to R380, R262) and the register blocks of the root cores (R358 to
R362): what a read returns, what a doubleword write does, the job port, the host cancel and the start of a
root core. -/

namespace Sys2Proof.Machine

/-! ### Jobs at the port -/

/-- Jobs PENDING (R370). -/
def State.pendingJobs (s : State) : Nat := (s.jobs.filter fun j => j.state == .waiting).length

/-- A job record can be read (R305, R370). One outside HBM cannot (log 122). -/
def State.recordReadable (s : State) (pa : Nat) : Bool := inHbm pa && !s.reserved pa

/-- The job that a record describes (Table 11.1). -/
def State.jobRecord (s : State) (id pa : Nat) (st : WState) : Job :=
  let w := fun k => s.peekWord (pa + 8 * k)
  { id := id, record := pa, state := st, ctx := BitVec.ofNat 64 (field (w 0) 11 0)
    pt0 := w 1, pt1 := w 2, vec := w 4, prio := field (w 0) 13 12, nph := field (w 0) 31 16
    pht := w 3, flag := w 5, taken := true }

/-- The fields from which a job's flag translates keep their layout (R306, R311). -/
def rootOk (w : Word) : Bool := field w 63 52 == 0 && field w 15 1 == 0

/-- The record keeps its layout (Table 11.1). -/
def State.jobRecordOk (s : State) (pa : Nat) : Bool :=
  let w := fun k => s.peekWord (pa + 8 * k)
  field (w 0) 63 32 == 0 && field (w 0) 15 14 == 0 && field (w 0) 31 16 != 0 &&
    rootOk (w 1) && rootOk (w 2) && (w 3).toNat % 8 == 0 &&
    field (w 4) 63 56 == 0 && field (w 4) 6 0 == 0 && (w 5).toNat % 8 == 0 && w 6 == 0 && w 7 == 0

/-- A job enters the table REJECTED (R305, R311, R370). -/
def State.rejectJob (s : State) (j : Job) (reason : Nat) : State :=
  let s : State := { s with jobs := s.jobs.filter (·.id != j.id) ++ [{ j with state := .waiting }] }
  s.endJob j.id .rejected reason
    (reason != 2 && rootOk j.pt0 && rootOk j.pt1 && j.flag.toNat % 8 == 0)

/-- A write to JOBP (R370). An address PENDING or RUNNING whose record cannot be read is REJECTED with 0x02 (log 122). -/
def State.submitJob (s : State) (v : Word) : State :=
  if s.stage.toNat < 3 || s.err != 0 || 1024 ≤ s.pendingJobs then { s with rej := true }
  else
    let pa := field v 51 6 * 64
    let id := s.nextId
    let s : State := { s with accepted := s.accepted + 1, nextId := id + 1 }
    if s.jobs.any fun j => j.record == pa && !j.state.ended then
      s.rejectJob (s.jobRecord id pa .waiting) (if s.recordReadable pa then 3 else 2)
    else { s with jobs := s.jobs ++ [{ id := id, record := pa, state := .waiting }] }

/-- A write to JOBC (R370, R321). -/
def State.hostCancel (s : State) (v : Word) : State :=
  match s.jobs.find? fun j => j.record == field v 51 6 * 64 && !j.state.ended with
  | some j => s.cancelWork (.job j.id) (field v 5 0)
  | none => s

/-! ### Root-core register blocks -/

/-- The root core begins at slot 1 of the entry line (R244, R360). -/
def State.startRoot (s : State) (g : Nat) (line ctx pt0 pt1 : Word) (op launch : Option Nat) : State :=
  let r := s.rootOf g
  let base : Hart := r.core.getD { id := 0, root := some g, members := [Member.fresh (Config.tillers + g)] }
  let regs := (numsFrom 0 8).map fun k => (k + 4, lookupD r.mbox k 0)
  let h : Hart := { base with
    id := s.nextId, root := some g, run := .running
    members := base.members.map fun m => { m with regs := regs, pend := [], link := none, icache := [] }
    status := 0, ctx := ctx, ptroot0 := pt0, ptroot1 := pt1, origin := 0, rlaunch := launch
    chunk := {}, cancel := false, moving := false }
  let h := h.goto (lineOf line + 8) .fall 0
  let s := s.modRoot g fun r => { r with state := 2, starts := r.starts + 1, core := none, rstart := op }
  { s with others := s.others ++ [h], nextId := s.nextId + 1 }

/-- RCST (Table 13.5). -/
def RootCore.rcst (r : RootCore) : Nat := r.starts.toNat * 2 ^ 32 + b2n r.ref * 256 + r.state.toNat

/-- A write to MBOXn, FLAGA or START while STATE ≠ 0 sets REF (R359). -/
def State.ifIdleRoot (s : State) (g : Nat) (f : State → State) : State :=
  if (s.rootOf g).state = 0 then f s else s.modRoot g fun r => { r with ref := true }

/-- A write to START (R359, R360); a halted module starts nothing (R369). -/
def State.writeStart (s : State) (g : Nat) (v : Word) : State :=
  if s.err != 0 then s
  else s.ifIdleRoot g fun s =>
    let r := s.rootOf g
    (s.modRoot g fun r => { r with state := 1 }).startRoot g (BitVec.ofNat 64 (field v 55 7 * 128))
      r.hctx r.hpt0 r.hpt1 none none

/-- A write to OWNn (R362). -/
def State.writeOwn (s : State) (g n : Nat) (v : Word) : State :=
  s.modRoot g fun r => { r with own := insert r.own n (BitVec.ofNat 13 v.toNat) }

/-- PTROOT bits that exist (Table 01.4). -/
def rootMask : Word := 0x000FFFFFFFFF0001

/-- A doubleword of a register block (Table 13.3). -/
def State.readBlock (s : State) (g off : Nat) : Nat :=
  let r := s.rootOf g
  if off < 0x40 then (lookupD r.mbox (off / 8) 0).toNat
  else if off = 0x48 then r.flaga.toNat
  else if off = 0x50 then r.rcst
  else if off = 0x60 then r.hctx.toNat
  else if off = 0x68 then r.hpt0.toNat
  else if off = 0x70 then r.hpt1.toNat
  else if 0x80 ≤ off && off < 0x100 then (lookupD r.own ((off - 0x80) / 8) 0).toNat
  else 0

/-- A doubleword write to a register block. -/
def State.writeBlock (s : State) (g off : Nat) (v : Word) : State :=
  if off < 0x40 then
    s.ifIdleRoot g fun s => s.modRoot g fun r => { r with mbox := insert r.mbox (off / 8) v }
  else if off = 0x40 then s.writeStart g v
  else if off = 0x48 then
    s.ifIdleRoot g fun s => s.modRoot g fun r => { r with flaga := BitVec.ofNat 64 (field v 55 3 * 8) }
  else if off = 0x50 then
    if bit v 8 then s.modRoot g fun r => { r with ref := false } else s
  else if off = 0x60 then s.modRoot g fun r => { r with hctx := BitVec.ofNat 64 (field v 11 0) }
  else if off = 0x68 then s.modRoot g fun r => { r with hpt0 := v &&& rootMask }
  else if off = 0x70 then s.modRoot g fun r => { r with hpt1 := v &&& rootMask }
  else if 0x80 ≤ off && off < 0x100 then s.writeOwn g ((off - 0x80) / 8) v
  else s

/-! ### All module registers -/

/-- 64 bits of PCMAP. -/
def State.pcmapWord (s : State) (k : Nat) : Nat :=
  ((numsFrom 0 64).map fun j => b2n (s.pcmap.contains (64 * k + j)) * 2 ^ j).sum

/-- 64 bits of TMAP. -/
def State.tmapWord (s : State) (k : Nat) : Nat :=
  ((numsFrom 0 32).map fun j => s.tmapOf (32 * k + j) % 4 * 4 ^ j).sum

/-- JOBST (Table 14.3). -/
def State.jobst (s : State) : Nat := s.accepted.toNat * 2 ^ 32 + s.pendingJobs % 8192 * 256 + b2n s.rej

/-- The doubleword of a register at an 8-aligned offset (Table 14.1, R358). -/
def State.readRegAt (s : State) (off : Nat) : Nat :=
  if 0x100000 ≤ off && off < 0x500000 then s.readBlock ((off - 0x100000) / 0x1000) (off % 0x1000)
  else if off = 0 then s.linkup.toNat * 65536 + s.err.toNat * 256 + s.stage.toNat
  else if off = 0x100 then b2n s.rmLock * 256 + s.rmF.toNat
  else if off = 0x210 then s.jobst
  else if off = 0x300 then s.csbase
  else if off = 0x308 then s.cssize / 65536
  else if off = 0x400 then b2n s.throt * 2 ^ 48 + s.draw.toNat * 2 ^ 32 + s.limit.toNat
  else if off = 0x500 then s.mcSeq.toNat * 65536 + s.mcKind.toNat * 256 + b2n s.mcValid
  else if off = 0x600 then s.evbase
  else if off = 0x608 then s.evsize
  else if 0x800 ≤ off && off < 0x840 then (lookupD s.wear ((off - 0x800) / 8) 0).toNat
  else if off = 0x880 then s.eol.toNat
  else if 0x1000 ≤ off && off < 0x1040 then
    let k := lookupD s.kslots ((off - 0x1000) / 16) (0, 0)
    if off % 16 = 0 then k.1.toNat else k.2.toNat
  else if 0x2000 ≤ off && off < 0x2080 then s.pcmapWord ((off - 0x2000) / 8)
  else if 0x20000 ≤ off && off < 0x24000 then s.tmapWord ((off - 0x20000) / 8)
  else 0

/-- `n` bytes of a module register: the addressed bytes of its doubleword (R367). -/
def State.readReg (s : State) (pa n : Nat) : List Byte :=
  let off := pa - Config.regBase
  ((bytesOf 8 (s.readRegAt (off / 8 * 8))).drop (off % 8)).take n

/-- A write to RMFRAC: open in stage MEMORY, fixed from COMPUTE on (R262, R368). -/
def State.writeRmfrac (s : State) (v : Word) : State :=
  if s.rmLock || s.stage.toNat < 2 || s.err != 0 then s
  else { s with rmF := BitVec.ofNat 4 (min (field v 3 0) 8) }

/-- A doubleword write to a module register (R367, R262, R370, R378, R379). -/
def State.writeReg (s : State) (pa : Nat) (v : Word) : State :=
  let off := pa - Config.regBase
  if 0x100000 ≤ off && off < 0x500000 then s.writeBlock ((off - 0x100000) / 0x1000) (off % 0x1000) v
  else if off = 0x100 then s.writeRmfrac v
  else if off = 0x200 then s.submitJob v
  else if off = 0x208 then s.hostCancel v
  else if off = 0x210 then (if bit v 0 then { s with rej := false } else s)
  else if off = 0x400 then
    let limit := max 1000 (min (field v 15 0) 3800)
    { s with limit := BitVec.ofNat 16 limit, draw := BitVec.ofNat 16 (min s.draw.toNat limit) }
  else if off = 0x500 then (if bit v 0 then { s with mcValid := false } else s)
  else if off = 0x600 then { s with evbase := field v 39 12 * 4096, evpos := 0 }
  else if off = 0x608 then { s with evsize := v.toNat, evpos := 0 }
  else s

end Sys2Proof.Machine
end

