-- ==== Sys2Proof/Machine/ScalarMemory.lean ====
section
/-! DEFINITION. Scalar loads and stores, LDL and STC (R100 to R106), with the range scoreboard (R141, R142)
and the chunk that holds them (R281, R283). -/

namespace Sys2Proof.Machine

/-! ### Checks -/

/-- The checks of R101 for one address; `io` says what an IO page does (0 allows it). -/
def State.checkAccess (s : State) (i : Nat) (k : AKind) (ea : Word) (size : Nat) : Except TrapInfo Xlat :=
  if field ea 63 56 != 0 then .error { cause := k.cause, val := ea, member := i }
  else if ea.toNat % size != 0 then .error { cause := 3, val := ea, member := i }
  else match s.xlat i k ea with
    | .error e => .error (xlatTrap e ea i)
    | .ok x => .ok x

/-- Each member's check in turn; the first that fails is the trap (R329). -/
def checkAll (f : Nat → Except TrapInfo MAcc) : List Nat → Except TrapInfo (List MAcc)
  | [] => .ok []
  | i :: l =>
    match f i with
    | .error t => .error t
    | .ok a =>
      match checkAll f l with
      | .error t => .error t
      | .ok as => .ok (a :: as)

/-- Members of the current furrow. -/
def State.ids (s : State) : List Nat := numsFrom 0 s.hart.len

/-! ### The range scoreboard -/

/-- Two byte ranges, each given by its lowest and highest address, overlap. -/
def overlaps (lo hi lo' hi' : Nat) : Bool := decide (lo ≤ hi') && decide (lo' ≤ hi) && decide (lo ≤ hi) && decide (lo' ≤ hi')

/-- A vector entry of member `i` holds back the access (R142). -/
def VOp.holds (o : VOp) (i lo hi : Nat) (wr : Bool) : Bool :=
  (wr || o.kind == .store || o.kind == .stc) && o.ranges.any fun r => r.1 == i && overlaps lo hi r.2.1 r.2.2

/-- An engine entry holds back the access (R142, Table 08.1). -/
def EngOp.holds (o : EngOp) (tile lo hi : Nat) (wr : Bool) : Bool :=
  o.tile == tile && o.entry && (overlaps lo hi o.wlo o.whi || (wr && overlaps lo hi o.rlo o.rhi))

/-- Ungathered MMAGs of a tiller whose rows the store would write (R198). -/
def Member.gathersAt (m : Member) (lo hi : Nat) : List Nat :=
  (m.tq.filter fun c => !c.ready && overlaps lo hi c.lo c.hi).map (·.id)

/-- The wait of R103 on internal work: the vector memory instructions retire, gathers are performed. -/
def State.joinScalar (s : State) (as : List MAcc) (n : Nat) (wr : Bool) : State :=
  let s := if as.any fun a => s.hart.vops.any fun o => o.holds a.i a.ea.toNat (a.ea.toNat + n - 1) wr then
      s.settleVector else s
  let gathers := if wr then as.flatMap fun a =>
      let m := s.hart.member a.i
      (m.gathersAt a.ea.toNat (a.ea.toNat + n - 1)).map fun id => (m.tile, id)
    else []
  if gathers.isEmpty then s else gathers.foldl (fun s g => s.gather g.1 g.2) s.commitChunk

/-- The addresses of accesses that make a request at a bank: those without a cached copy; of the registers a write to
OWNn alone (R356, R362). -/
def State.requestsOf (s : State) (as : List MAcc) (wr : Bool) : List Nat :=
  (as.filter fun a => !(a.x.wb && (s.hart.member a.i).holds a.x.pa) && (wr || !inRegs a.x.pa)).map (·.x.pa)

/-- The requests of the accesses that must wait (R356, R365). -/
def State.bankHolds (s : State) (as : List MAcc) (wr : Bool) : List (Nat × Nat) :=
  s.windowsAt s.hart.id (s.requestsOf as wr)

/-- An engine command, or a row microprogram at the home, holds back the access (R142, R365). -/
def State.engineHolds (s : State) (as : List MAcc) (n : Nat) (wr : Bool) : Bool :=
  (as.any fun a => s.ops.any fun o => o.holds (s.hart.member a.i).tile a.ea.toNat (a.ea.toNat + n - 1) wr) ||
    !(s.bankHolds as wr).isEmpty

/-- The accesses wait, in the queues of the pseudo-channels that hold them back (R142, R365). -/
def State.awaitAccess (s : State) (as : List MAcc) (wr : Bool) : Result :=
  match s.bankHolds as wr with
  | [] => s.wait .drain
  | gs => ((s.leaveQueues fun q => q.1 == s.hart.id && !(s.requestsOf as wr).contains q.2).enterQueues s.hart.id gs).wait .bank

/-! ### One member's access -/

/-- A policy contradiction is counted, on a tiller that has a cache pair (R258, R276). -/
def State.countPcx (s : State) (i : Nat) (p : Policy) : State :=
  if p = .norm || (cacheWays s (s.hart.member i)).isEmpty then s
  else s.modHart fun h => h.modMember i fun m =>
    { m with pcx := if m.pcx = 0xFFFFFFFF then m.pcx else m.pcx + 1 }

/-- The chunk's read set with an access of member `i`. -/
def Chunk.noteRead (c : Chunk) (i sec : Nat) : Chunk :=
  if c.rset.contains (i, sec) then c else { c with rset := (i, sec) :: c.rset }

/-- The leaf entry whose DIRTY bit the write through a translation sets (R269). -/
def Xlat.marksDirty (x : Xlat) : Option Nat := if Pte.dirty x.pte then none else some x.leaf

/-- The chunk's write set and buffer with a store of member `i`, whose commit sets DIRTY in `leaf` first. -/
def Chunk.noteWrite (c : Chunk) (i pa : Nat) (bs : List Byte) (leaf : Option Nat) : Chunk :=
  { c with
    leaves := match leaf with | some a => (i, sectorOf pa, a) :: c.leaves | none => c.leaves
    wset := if c.wset.contains (i, sectorOf pa) then c.wset else (i, sectorOf pa) :: c.wset
    wbuf := insert c.wbuf i
      ((mapPos (fun j b => (pa + j, b)) bs).foldl (fun m x => insert m x.1 x.2) (lookupD c.wbuf i [])) }

/-- The translations of a bundle's accesses are used, before any of them is made (R269); `dirty` for a write that sets
DIRTY at once. -/
def State.useAll (s : State) (dirty : MAcc → Bool) (as : List MAcc) : State :=
  as.foldl (fun (s : State) a => s.use a.i a.x (dirty a)) s

/-- The access of member `i` to a sector begins another chunk: the open one holds an access of another member to it. The
chunk of a member that waits for a SENDE stays open (R205, log 8). -/
def State.partChunks (s : State) (i sec : Nat) (wr : Bool) : State :=
  if !s.hart.ahead i && s.hart.dueChunk.meets i sec wr then s.commitChunk else s

/-- A load of `n` bytes by one member, with its translation used (R101, R103). -/
def State.loadAt (s : State) (p : Policy) (a : MAcc) (n : Nat) : State × List Byte :=
  if a.x.wb then
    let sec := sectorOf a.x.pa
    let s := s.partChunks a.i sec false
    let bs := s.viewBytes a.i a.x.pa n
    let s := s.modHart fun h => { h with chunk := h.chunk.noteRead a.i sec }
    (s.touch (s.hart.member a.i).tile p true false a.x.pa a.x.coh, bs)
  else
    let s := s.commitChunk.countPcx a.i p
    if inRegs a.x.pa then (s, s.readReg a.x.pa n)
    else let s := s.flushSector a.x.pa false; (s, s.peekBytes a.x.pa n)

/-- A store by one member, with its translation used (R101, R103, R269). -/
def State.storeAt (s : State) (p : Policy) (a : MAcc) (bs : List Byte) : State :=
  let tile := (s.hart.member a.i).tile
  if a.x.wb then
    let s := s.partChunks a.i (sectorOf a.x.pa) true
    let s := s.touch tile p true true a.x.pa a.x.coh
    s.modHart fun h => { h with chunk := h.chunk.noteWrite a.i a.x.pa bs a.x.marksDirty }
  else
    let s := s.commitChunk.countPcx a.i p
    if inRegs a.x.pa then s.writeReg a.x.pa (BitVec.ofNat 64 (ofBytes bs))
    else (s.flushSector a.x.pa true).putBytes (.scalar tile) a.x.pa bs

/-- A bundle's accesses are made, unless the chunk that holds the bundle conflicts with a walk for them: it is squashed
then, and the bundle with it (R283). -/
def State.unlessSquashed (s : State) (f : State → State) : Result :=
  if s.hart.chunk.conflict then .next s.squash else (f s).ok

/-! ### Loads -/

/-- The loaded value, sign-extended or zero-extended (R100). -/
def extend (signed : Bool) (bs : List Byte) : Word :=
  if signed then BitVec.ofInt 64 (signedOf (8 * bs.length) (ofBytes bs)) else BitVec.ofNat 64 (ofBytes bs)

/-- The load of one member, whose result is outstanding (R73). -/
def State.loadOne (s : State) (p : Policy) (n : Nat) (f : List Byte → Word) (d : Reg) (a : MAcc) : State :=
  let (s1, bs) := s.loadAt p a n
  s1.modHart fun h => h.modMember a.i fun m => m.asyncReg d (f bs)

/-- The loads of the members, in member order. -/
def State.loads (s : State) (p : Policy) (n : Nat) (f : List Byte → Word) (d : Reg) : List MAcc → State
  | [] => s
  | a :: as => (s.loadOne p n f d a).loads p n f d as

/-- The check of a load by member `i` (R101). -/
def State.checkLoad (s : State) (n : Nat) (ea : Nat → Word) (i : Nat) : Except TrapInfo MAcc :=
  (s.checkAccess i .read (ea i) n).map fun x => ⟨i, ea i, x⟩

/-- A scalar load of `n` bytes at each member's address (R100, R101, R103). Where a member traps, no member's
contradiction is counted (R276, log 113). -/
def State.scalarLoad (s : State) (p : Policy) (n : Nat) (signed : Bool) (d : Reg) (ea : Nat → Word) : Result :=
  match checkAll (s.checkLoad n ea) s.ids with
  | .error t => s.trap t
  | .ok as =>
    if s.engineHolds as n false then s.awaitAccess as false
    else ((s.joinScalar as n false).useAll (fun _ => false) as).unlessSquashed fun s => s.loads p n (extend signed) d as

/-! ### Stores -/

/-- A store to a module register narrower than a doubleword is refused (R367). -/
def narrowReg (n : Nat) (a : MAcc) : Option TrapInfo :=
  if inRegs a.x.pa && n != 8 then some { cause := 8, val := a.ea, member := a.i } else none

/-- The check of a store by member `i`; of host memory it writes part of a line, which is read and checked first (R101,
R367, R375). -/
def State.checkStore (s : State) (n : Nat) (ea : Nat → Word) (i : Nat) : Except TrapInfo MAcc :=
  match s.checkAccess i .write (ea i) n with
  | .error t => .error t
  | .ok x =>
    if s.partFails x then .error { cause := 8, sub := 4, val := ea i, member := i }
    else match narrowReg n ⟨i, ea i, x⟩ with
    | some t => .error t
    | none => .ok ⟨i, ea i, x⟩

/-- A scalar store of `n` bytes at each member's address (R100, R101, R103). The members' accesses are made in one step,
in member order, so of two stores to one address the higher member's stays (R281, log 93). -/
def State.scalarStore (s : State) (p : Policy) (n : Nat) (d : Reg) (ea : Nat → Word) : Result :=
  match checkAll (s.checkStore n ea) s.ids with
  | .error t => s.trap t
  | .ok as =>
    if s.engineHolds as n true then s.awaitAccess as true
    else
      let data := fun i => bytesOf n (s.reg i d).toNat
      ((s.joinScalar as n true).useAll (fun a => !a.x.wb) as).unlessSquashed fun s =>
        as.foldl (fun (s' : State) a => s'.storeAt p a (data a.i)) s

/-! ### The forms -/

/-- Address of a CM form for member `i`. -/
def State.cm (s : State) (a : Reg) (o : BitVec 10) (n i : Nat) : Word := eaCM (s.reg i a) o n
/-- Address of a register-indexed form for member `i` (R100). -/
def State.rx (s : State) (a b : Reg) (i : Nat) : Word := s.reg i a + s.reg i b

/-- LDB (R100). -/
def execLdb (p : Policy) (d a : Reg) (o : BitVec 10) (s : State) : Result := s.scalarLoad p 1 true d (s.cm a o 1)
/-- LDBN (R100). -/
def execLdbn (p : Policy) (d a : Reg) (o : BitVec 10) (s : State) : Result := s.scalarLoad p 1 false d (s.cm a o 1)
/-- LDH (R100). -/
def execLdh (p : Policy) (d a : Reg) (o : BitVec 10) (s : State) : Result := s.scalarLoad p 2 true d (s.cm a o 2)
/-- LDHN (R100). -/
def execLdhn (p : Policy) (d a : Reg) (o : BitVec 10) (s : State) : Result := s.scalarLoad p 2 false d (s.cm a o 2)
/-- LDW (R100). -/
def execLdw (p : Policy) (d a : Reg) (o : BitVec 10) (s : State) : Result := s.scalarLoad p 4 true d (s.cm a o 4)
/-- LDWN (R100). -/
def execLdwn (p : Policy) (d a : Reg) (o : BitVec 10) (s : State) : Result := s.scalarLoad p 4 false d (s.cm a o 4)
/-- LDD (R100). -/
def execLdd (p : Policy) (d a : Reg) (o : BitVec 10) (s : State) : Result := s.scalarLoad p 8 false d (s.cm a o 8)
/-- STB (R100). -/
def execStb (p : Policy) (d a : Reg) (o : BitVec 10) (s : State) : Result := s.scalarStore p 1 d (s.cm a o 1)
/-- STH (R100). -/
def execSth (p : Policy) (d a : Reg) (o : BitVec 10) (s : State) : Result := s.scalarStore p 2 d (s.cm a o 2)
/-- STW (R100). -/
def execStw (p : Policy) (d a : Reg) (o : BitVec 10) (s : State) : Result := s.scalarStore p 4 d (s.cm a o 4)
/-- STD (R100). -/
def execStd (p : Policy) (d a : Reg) (o : BitVec 10) (s : State) : Result := s.scalarStore p 8 d (s.cm a o 8)
/-- LDB, register-indexed (R100). -/
def execLdbX (d a b : Reg) (s : State) : Result := s.scalarLoad .norm 1 true d (s.rx a b)
/-- LDBN, register-indexed. -/
def execLdbnX (d a b : Reg) (s : State) : Result := s.scalarLoad .norm 1 false d (s.rx a b)
/-- LDH, register-indexed. -/
def execLdhX (d a b : Reg) (s : State) : Result := s.scalarLoad .norm 2 true d (s.rx a b)
/-- LDHN, register-indexed. -/
def execLdhnX (d a b : Reg) (s : State) : Result := s.scalarLoad .norm 2 false d (s.rx a b)
/-- LDW, register-indexed. -/
def execLdwX (d a b : Reg) (s : State) : Result := s.scalarLoad .norm 4 true d (s.rx a b)
/-- LDWN, register-indexed. -/
def execLdwnX (d a b : Reg) (s : State) : Result := s.scalarLoad .norm 4 false d (s.rx a b)
/-- LDD, register-indexed. -/
def execLddX (d a b : Reg) (s : State) : Result := s.scalarLoad .norm 8 false d (s.rx a b)
/-- STB, register-indexed. -/
def execStbX (d a b : Reg) (s : State) : Result := s.scalarStore .norm 1 d (s.rx a b)
/-- STH, register-indexed. -/
def execSthX (d a b : Reg) (s : State) : Result := s.scalarStore .norm 2 d (s.rx a b)
/-- STW, register-indexed. -/
def execStwX (d a b : Reg) (s : State) : Result := s.scalarStore .norm 4 d (s.rx a b)
/-- STD, register-indexed. -/
def execStdX (d a b : Reg) (s : State) : Result := s.scalarStore .norm 8 d (s.rx a b)

/-! ### LDL and STC -/

/-- The checks of LDL and STC: those of an access of size 8, and no IO page (R104, R105). -/
def State.checkAtomic (s : State) (k : AKind) (ea : Word) (i : Nat) : Except TrapInfo MAcc :=
  match s.checkAccess i k ea 8 with
  | .error t => .error t
  | .ok x => if x.io then .error { cause := 8, val := ea, member := i } else .ok ⟨i, ea, x⟩

/-- The access is performed at the home: cached copies give way (R104). -/
def State.atHome (s : State) (a : MAcc) (wr : Bool) : State :=
  if a.x.wb then s.flushSector a.x.pa wr else s

/-- LDL of one member (R104). -/
def State.linkLoad (s : State) (d : Reg) (a : MAcc) : State :=
  let s := (s.use a.i a.x false).atHome a false
  let v := s.peekWord a.x.pa
  s.modHart fun h => h.modMember a.i fun m =>
    ({ m with link := some (sectorOf a.x.pa) } : Member).asyncReg d v

/-- LDL (R104). -/
def execLdl (d a : Reg) (s : State) : Result :=
  match checkAll (fun i => s.checkAtomic .atomRead (s.reg i a) i) s.ids with
  | .error t => s.trap t
  | .ok as =>
    if s.engineHolds as 8 false then s.awaitAccess as false
    else (as.foldl (fun s' x => s'.linkLoad d x) (s.commitChunk.joinScalar as 8 false)).ok

/-- STC of one member (R104, R105). -/
def State.condStore (s : State) (d : Reg) (v : Word) (a : MAcc) : State :=
  let m := s.hart.member a.i
  let hit := m.link == some (sectorOf a.x.pa)
  let s := if hit then
      ((s.use a.i a.x true).atHome a true).putBytes (.scalar m.tile) a.x.pa (bytesOf 8 v.toNat)
    else s.use a.i a.x false
  s.modHart fun h => h.modMember a.i fun m =>
    ({ m with link := none } : Member).asyncReg d (if hit then 0 else 1)

/-- STC (R104, R105). -/
def execStc (d a b : Reg) (s : State) : Result :=
  match checkAll (fun i => s.checkAtomic .atomWrite (s.reg i a) i) s.ids with
  | .error t => s.trap t
  | .ok as =>
    if s.engineHolds as 8 true then s.awaitAccess as true
    else
      (as.foldl (fun s' x => s'.condStore d (s.reg x.i b) x) (s.commitChunk.joinScalar as 8 true)).ok

end Sys2Proof.Machine
end

