-- ==== Sys2Proof/Machine/Parts.lean ====
section
/-! DEFINITION. The scalar memory words as each member makes its access of them (R100 to R105), for a bundle whose members
make them apart (R281). -/

namespace Sys2Proof.Machine

/-- A scalar memory word, by member: the width of an access, whether it writes, its policy, its check, the data to store,
and the access, whose translation has been used but for LDL and STC. -/
structure ScalarWord where
  size : Nat
  write : Bool
  atomic : Bool
  check : State → Nat → Except TrapInfo MAcc
  data : State → Nat → Word
  act : State → MAcc → Word → State

/-- A load (R100). -/
def loadWord (p : Policy) (n : Nat) (signed : Bool) (d : Reg) (ea : State → Nat → Word) : ScalarWord where
  size := n
  write := false
  atomic := false
  check := fun s => s.checkLoad n (ea s)
  data := fun _ _ => 0
  act := fun s a _ => s.loadOne p n (extend signed) d a

/-- A store of `d` (R100). -/
def storeWord (p : Policy) (n : Nat) (d : Reg) (ea : State → Nat → Word) : ScalarWord where
  size := n
  write := true
  atomic := false
  check := fun s => s.checkStore n (ea s)
  data := fun s i => s.reg i d
  act := fun s a v => s.storeAt p a (bytesOf n v.toNat)

/-- The scalar memory words (R100, R104). -/
def scalarWord : Instr → Option ScalarWord
  | .ldb p d a o => some (loadWord p 1 true d fun s => s.cm a o 1)
  | .ldbn p d a o => some (loadWord p 1 false d fun s => s.cm a o 1)
  | .ldh p d a o => some (loadWord p 2 true d fun s => s.cm a o 2)
  | .ldhn p d a o => some (loadWord p 2 false d fun s => s.cm a o 2)
  | .ldw p d a o => some (loadWord p 4 true d fun s => s.cm a o 4)
  | .ldwn p d a o => some (loadWord p 4 false d fun s => s.cm a o 4)
  | .ldd p d a o => some (loadWord p 8 false d fun s => s.cm a o 8)
  | .stb p d a o => some (storeWord p 1 d fun s => s.cm a o 1)
  | .sth p d a o => some (storeWord p 2 d fun s => s.cm a o 2)
  | .stw p d a o => some (storeWord p 4 d fun s => s.cm a o 4)
  | .std p d a o => some (storeWord p 8 d fun s => s.cm a o 8)
  | .ldbX d a b => some (loadWord .norm 1 true d fun s => s.rx a b)
  | .ldbnX d a b => some (loadWord .norm 1 false d fun s => s.rx a b)
  | .ldhX d a b => some (loadWord .norm 2 true d fun s => s.rx a b)
  | .ldhnX d a b => some (loadWord .norm 2 false d fun s => s.rx a b)
  | .ldwX d a b => some (loadWord .norm 4 true d fun s => s.rx a b)
  | .ldwnX d a b => some (loadWord .norm 4 false d fun s => s.rx a b)
  | .lddX d a b => some (loadWord .norm 8 false d fun s => s.rx a b)
  | .stbX d a b => some (storeWord .norm 1 d fun s => s.rx a b)
  | .sthX d a b => some (storeWord .norm 2 d fun s => s.rx a b)
  | .stwX d a b => some (storeWord .norm 4 d fun s => s.rx a b)
  | .stdX d a b => some (storeWord .norm 8 d fun s => s.rx a b)
  | .ldl d a => some {
      size := 8, write := false, atomic := true
      check := fun s i => s.checkAtomic .atomRead (s.reg i a) i
      data := fun _ _ => 0
      act := fun s c _ => s.linkLoad d c }
  | .stc d a b => some {
      size := 8, write := true, atomic := true
      check := fun s i => s.checkAtomic .atomWrite (s.reg i a) i
      data := fun s i => s.reg i b
      act := fun s c v => s.condStore d v c }
  | _ => none

/-- The accesses of the members with their data, and the state in which they are to be made, where every member's check
passes and nothing holds the accesses back (R101, R103, R142). -/
def ScalarWord.start (w : ScalarWord) (s : State) : Option (List (MAcc × Word) × State) :=
  match checkAll (w.check s) s.ids with
  | .error _ => none
  | .ok as =>
    if s.engineHolds as w.size w.write then none
    else
      let t := s.joinScalar as w.size w.write
      some (as.map fun a => (a, w.data s a.i), if w.atomic then t else t.useAll (fun a => w.write && !a.x.wb) as)

end Sys2Proof.Machine
end

