-- ==== Sys2Proof/Machine/Bundle.lean ====
section
/-! DEFINITION. The execution of a bundle around the meanings of its words (R66 to R75, R84, R113, R281 to
R283), and the steps among which the module may choose. `run` stands for `exec`. -/

namespace Sys2Proof.Machine

/-! ### Classes of words -/

/-- The C word ends the chunk and executes outside every chunk (Table 10.1, Table 04.1). -/
def endsChunk : Instr → Bool
  | .fence .. | .ldl .. | .stc .. | .waita .. | .chend | .mts .. | .tlbinv .. | .cxsave .. | .cxload ..
  | .tret | .endUnit | .cflush .. | .cinv .. | .launch .. | .cancel .. | .txwait ..
  | .copy .. | .rcpy .. | .rfil .. | .rand .. | .ror .. | .rxor .. | .rnot .. | .rmaj ..
  | .rdc .. | .spred .. | .rstart .. | .wld ..
  | .vld .. | .vlds .. | .vldx .. | .vldq .. | .vst .. | .vsts .. | .vstx .. | .vglk .. | .vstc ..
  | .wcfg .. | .ipost .. | .rgo .. | .bkld .. | .bkst .. | .bkseq .. | .bkset .. | .mmag .. => true
  | _ => false

/-- The word acts irrevocably although it may stand inside a chunk (R330, R160). -/
def irrevocable : Instr → Bool
  | .irset | .ixins .. | .ixadd .. | .ixclr .. | .mma .. | .azero .. => true
  | _ => false

/-- The bundle needs every older chunk ended. -/
def outside (b : Bundle) : Bool := endsChunk b.c || endsChunk b.a

/-- BANK words are illegal on a tiller (R81). -/
def isBank : Instr → Bool
  | .bkld .. | .bkst .. | .bkseq .. | .bkset .. => true
  | _ => false

/-- A root core executes the bundle itself (R83). -/
def rootBundle (b : Bundle) : Bool :=
  b.a == .vnop &&
    match Encode.cWord b.c with
    | some (op, _) => decide (op.toNat ≤ 0x22) || op == 0x33#6 || op == 0x37#6 || op == 0x39#6
    | none => false

/-- The C words whose effects stand when the bundle's A word fails a dispatch check (R332). -/
def standing : Instr → Bool
  | .setvl .. | .wcfg .. | .accfg .. => true
  | _ => false

/-- The effects of the C word stand when the A word of its bundle traps so: a dispatch check is an illegal
instruction or an illegal format, and the gather fault of an MMAG is none (R48, R82, R198, R332). -/
def stands (c : Instr) (t : TrapInfo) : Bool := standing c && decide (t.cause ≤ 2)

/-- The scalar register that a C word writes as a single-cycle result: field D of the major opcodes of Table 03.2, and
the link of CALL (R73). -/
def cDest (i : Instr) : Option Reg :=
  match Encode.cWord i with
  | none => none
  | some (op, w) =>
    let n := op.toNat
    if n = 0x21 then some 1
    else if n = 1 || n = 3 || (6 ≤ n && n ≤ 0x0E) || n = 0x22 || n = 0x25 || (0x33 ≤ n && n ≤ 0x36) || n = 0x38 ||
        (n = 0x23 && decide ((w.extractLsb' 0 6).toNat < 2)) || (n = 0x3A && w.extractLsb' 0 6 == 0) then
      some (w.extractLsb' 18 6)
    else none

/-- The scalar register that an A word writes (R157). -/
def aDest : Instr → Option Reg
  | .vred _ d _ _ _ | .vget d _ _ | .mcntPop d _ | .mcntFirst d _ => some (d.setWidth 6)
  | _ => none

/-- Both words of the bundle write this scalar register (R72). -/
def bothWrite (b : Bundle) : Option Reg :=
  match cDest b.c, aDest b.a with
  | some r, some q => if r = q && r != 0 then some r else none
  | _, _ => none

/-- The youngest outstanding result is dropped where it is for the register. -/
def Member.dropYoungest (m : Member) (r : Reg) : Member :=
  match m.pend.getLast? with
  | some p => if p.1 = r.toNat then { m with pend := m.pend.dropLast } else m
  | none => m

/-! ### The fetch of a bundle -/

/-- A fetched bundle: the state after the fetch, the header in use, the slot and the slot above it. -/
structure Fetch where
  st : State
  hdr : Word
  slot : Word
  lit : Word
deriving DecidableEq, Repr

/-- The header that governs the next bundle, after the checks of entering its line (R68, R70). -/
def entryHeader (h : Hart) (slots : List Word) : Except TrapInfo Word :=
  match h.entry with
  | .inLine => .ok h.hdr
  | .fall =>
    if headerOk slots then .ok (slots.getD 0 0)
    else .error { cause := 4, sub := 1, val := lineOf h.pc }
  | .jump t =>
    if entryOk slots (slotIx h.pc) t then .ok (slots.getD 0 0)
    else .error { cause := 4, val := h.pc }

/-- The fetch at the program counter (R66 to R70, R111, R360). -/
def State.fetchBundle (s : State) : Except TrapInfo Fetch :=
  let h := s.hart
  match fetchLine s h.pc with
  | .error (c, sub) => .error { cause := c, sub := sub, val := if c = 7 && sub = 5 then lineOf h.pc else h.pc }
  | .ok (x, line) =>
    let slots := slotsOf line
    match entryHeader h slots with
    | .error t => .error t
    | .ok hdr =>
      let k := slotIx h.pc
      .ok ⟨s.fetched x line, hdr, slots.getD k 0, slots.getD (k + 1) 0⟩

/-- The next bundle in program order, and how its line is entered (R69, R110). -/
def successor (pc hdr : Word) : Word × Entry :=
  let k := slotIx pc
  let n := if k + 1 ≤ hdrLast hdr && !hdrStart hdr (k + 1) then k + 2 else k + 1
  if n ≤ hdrLast hdr then (lineOf pc + BitVec.ofNat 64 (8 * n), .inLine)
  else (lineOf pc + 136, .fall)

/-! ### Before and after the words -/

/-- A chunk opens with a bundle that does not end one; its restart point is the furrow at the bundle. While members keep
chunks of theirs, waiting for a SENDE, the bundles of the others are chunks of their own (log 8). -/
def State.openChunk (s : State) (b : Bundle) : State :=
  let c := s.hart.chunk
  if outside b || (lookup s.ckpts s.hart.id).isSome || !c.rset.isEmpty || !c.wset.isEmpty then s
  else { s with ckpts := insert s.ckpts s.hart.id { s.hart with park := none } }

/-- The furrow as the words of the bundle find it. -/
def State.begin (s : State) (hdr slot : Word) : State :=
  let nx := successor s.hart.pc hdr
  let m := s.hart.member 0
  s.modHart fun h => { h with npc := nx.1, entry := nx.2, hdr := hdr, snap := some ⟨m.regs, m.pend, slot⟩, enabled := false }

/-- The furrow stays at the bundle `old` was at. -/
def Hart.rewind (h old : Hart) : Hart :=
  { h with pc := old.pc, npc := old.npc, entry := old.entry, hdr := old.hdr, snap := none }

/-- The chunk after a bundle completed (R282, R283). -/
def State.closeBundle (s : State) : State :=
  let c := s.hart.chunk
  if (lookup s.ckpts s.hart.id).isSome then
    if 4 ≤ c.squashes then s.commitChunk
    else s.modHart fun h => { h with chunk := { c with bundles := c.bundles + 1 } }
  else if c.wset.isEmpty && c.rset.isEmpty then s
  else s.commitChunk

/-- The debug trap of single step follows a bundle that began in user mode (R113). -/
def Hart.stepTrap (h : Hart) (began : Bool) : Option TrapInfo :=
  match h.after with
  | some t => some t
  | none => if h.sstep && !began && h.run = .running then some { cause := 0x13 } else none

/-- The bundle completed: the switch marker, the debug trap of single step, the next bundle (R74, R113). -/
def State.finish (s : State) (sw began : Bool) : State :=
  let s := if sw then s.modHart fun h => h.mapMembers fun _ m => m.drainPend s.tick else s
  let s := s.modHart fun h =>
    { h with pc := h.npc, snap := none, park := none, after := h.stepTrap began }
  (s.leaveQueues fun q => q.1 == s.hart.id).closeBundle

/-! ### The bundle -/

/-- The register that both words wrote ends with either value (R72, log 105). -/
def State.settleBoth (s : State) (b : Bundle) : State :=
  match bothWrite b with
  | some r => if s.pick [72] 2 = 0 then s else s.modHart fun h => h.mapMembers fun _ m => m.dropYoungest r
  | none => s

/-- The bundle stays as it was: its A word waits. -/
def State.stallAt (s0 : State) (old : Hart) : State :=
  { s0 with hart := { s0.hart.rewind old with park := some .drain }, signal := .stalled }

/-- The A word of a bundle, after its C word completed in `t`; `s0` is the state before both. -/
def State.runAWord (run : Instr → State → Result) (s0 : State) (b : Bundle) (old : Hart) (t : State) :
    Result :=
  match run b.a t with
  | .next u =>
    match u.signal with
    | .done => .next ((u.settleBoth b).finish b.sw s0.hart.priv)
    | .trapped info => if stands b.c info then .next u else .next (s0.takeTrap info)
    | .stalled => .next (s0.stallAt old)
    | .undone => .next u
  | r => r

/-- The C word trapped in a member other than 0: an A word that traps in a lower one comes first (R329). -/
def State.lowestTrap (run : Instr → State → Result) (s0 t : State) (b : Bundle) (c : TrapInfo) : Result :=
  if c.member = 0 || b.a == .vnop then .next t
  else match run b.a s0 with
    | .next u =>
      match u.signal with
      | .trapped a => if a.member < c.member then .next u else .next t
      | _ => .next t
    | _ => .next t

/-- The C word moves the thread to its root core, which goes on after the bundle: the A word acts on the tiller
before (R72), and single step counts the bundle (R113). -/
def State.moveAfter (run : Instr → State → Result) (s0 t : State) (b : Bundle) (old : Hart) : Result :=
  let step := fun (t : State) => t.modHart fun h => { h with after := h.stepTrap s0.hart.priv }
  if b.a = .vnop then .next (step t)
  else match run b.a s0 with
    | .next u =>
      match u.signal with
      | .trapped _ | .undone => .next u
      | .stalled => .next (s0.stallAt old)
      | .done =>
        match run b.c u with
        | .next v => .next (step v)
        | r => r
    | r => r

/-- The bundle begins with its members' scalar accesses still to be made, each as a chunk of its own, where the module
chooses so (R281, log 93): no chunk is open, the bundle would complete, and its A word, which executes first, has ended no
chunk. -/
def State.beginApart (run : Instr → State → Result) (s : State) (f : Fetch) (b : Bundle) : Option State :=
  match scalarWord b.c with
  | none => none
  | some w =>
    if s.hart.len < 2 || !s.hart.owed.isEmpty || s.chunkOpen || endsChunk b.a || irrevocable b.a || s.pick [281] 2 = 0 then none
    else
      let s0 := f.st.begin f.hdr f.slot
      match w.start s0 with
      | none => none
      | some (as, t) =>
        match run b.a t with
        | .next u =>
          if u.signal = .done && !u.chunkOpen then
            some (u.modHart fun h => { h with parts := some ⟨b.c, as, b.sw, s0.hart.priv⟩ })
          else none
        | _ => none

/-- One member's access of such a bundle, in an order of the module's choosing: it is a chunk of its own, and the last one
completes the bundle (R281). -/
def State.partAct (s : State) : Result :=
  match s.hart.parts.bind fun p => (scalarWord p.word).map fun w => (p, w) with
  | none => notEnabled
  | some (p, w) =>
    let k := s.pick [281, 1] p.todo.length
    match p.todo[k]? with
    | none => ((s.modHart fun h => { h with parts := none }).finish p.sw p.began).ok
    | some a =>
      s.bankGate s.hart.id (s.requestsOf [a.1] w.write) (s.requestsOf (p.todo.map (·.1)) w.write) fun s =>
        let t := (w.act s a.1 a.2).commitChunk
        let rest := p.todo.eraseIdx k
        if rest.isEmpty then ((t.modHart fun h => { h with parts := none }).finish p.sw p.began).ok
        else (t.modHart fun h => { h with parts := some { p with todo := rest } }).ok

/-- The words of a bundle in order (R72). -/
def State.runWords (run : Instr → State → Result) (s : State) (f : Fetch) (b : Bundle) : Result :=
  let old := s.hart
  let s0 := (f.st.openChunk b).begin f.hdr f.slot
  match run b.c s0 with
  | .next t =>
    match t.signal with
    | .trapped info => State.lowestTrap run s0 t b info
    | .stalled => .next { t with hart := t.hart.rewind old }
    | .undone => .next t
    | .done =>
      if t.hart.id != old.id then State.moveAfter run s0 t b old
      else if b.a = .vnop then .next (t.finish b.sw s0.hart.priv)
      else State.runAWord run s0 b old t
  | r => r

/-- The chunk that is open must end before the bundle (R282, Table 10.1). -/
def State.mustEnd (s : State) (b : Bundle) : Bool :=
  let c := s.hart.chunk
  (lookup s.ckpts s.hart.id).isSome && decide (0 < c.bundles) &&
    (outside b || irrevocable b.c || irrevocable b.a || decide (Config.chunkBundles ≤ c.bundles) ||
      (numsFrom 0 s.hart.len).any fun i =>
        decide (Config.chunkSectors ≤ (c.wset.filter fun p => p.1 == i).length))

/-- An asynchronous trap may come at this bundle: no RECVW waits for a SENDE that is still to come (log 8), and the
bundle has not begun. -/
def Hart.interruptible (h : Hart) : Bool := h.owed.isEmpty && h.parts.isNone

/-- The furrow is parked at a wait where a pre-emption is acted on (R320). -/
def Hart.waitsParked (h : Hart) : Bool :=
  match h.park with
  | some (.waita _) | some .iwait | some (.viwait _) | some .ipost | some .txwait | some .launch => true
  | some .bank | some .drain | none => false

/-- SETVL, which acts on a pre-emption itself (R131). -/
def isSetvl : Instr → Bool
  | .setvl .. => true
  | _ => false

/-- A cancel is due (R321). -/
def Hart.cancelDue (h : Hart) : Bool := h.interruptible && h.cancel && h.ie

/-- A timer is due (R120). -/
def State.timerDue (s : State) : Bool := s.hart.interruptible && s.hart.timerDue s.cyc

/-- The cancel trap (R321 step 3). -/
def State.takeCancel (s : State) : Result := (s.modHart fun h => { h with cancel := false }).trap { cause := 0x12 }

/-- The timer trap (R120). -/
def State.takeTimer (s : State) : Result := s.trap { cause := 0x11, val := s.cyc }

/-- The pre-emption that is taken at a bundle other than SETVL: where the unit is parked at a wait (R320), or where an
MTS has just enabled it (R119, log 20). While the context store has no room the parked word executes again, and the
other bundle waits (log 29). -/
def State.preempted (s : State) (b : Bundle) : Option Result :=
  if !s.hart.interruptible || !s.hart.preemptable then none
  else if s.hart.waitsParked then (s.saveUnit 2 1 0 true none true).map Host.Outcome.next
  else if s.hart.enabled && !isSetvl b.c then
    some (match s.saveUnit 2 0 0 true none true with
      | some t => .next t
      | none => s.wait .drain)
  else none

/-- The first three conditions of R84 do not hold at the decoded bundle: it may execute here. -/
def Hart.executes (h : Hart) (b : Bundle) : Bool := if h.root.isSome then rootBundle b else !isBank b.c

/-- A decoded bundle at the program counter, in the order of R84. -/
def State.runDecoded (run : Instr → State → Result) (s : State) (f : Fetch) (b : Bundle) : Result :=
  let h := s.hart
  if isBank b.c && h.root.isNone then s.trap { cause := 1, val := f.slot }
  else if h.root.isSome && !rootBundle b then s.ship
  else if h.cancelDue then s.takeCancel
  else if s.timerDue then s.takeTimer
  else match s.preempted b with
    | some r => r
    | none =>
      if s.mustEnd b then run .chunkCommit s
      else match s.beginApart run f b with
        | some t => .next t
        | none => s.runWords run f b

/-- The bundle at the program counter, where it can be fetched and decoded. -/
def State.nextBundle (s : State) : Option (State × Bundle) :=
  match s.fetchBundle with
  | .error _ => none
  | .ok f =>
    match Decode.slot f.slot f.lit with
    | .error _ => none
    | .ok b => some (f.st, b)

/-- The current furrow or root core moves on by one bundle (R84), or by one member's access of a bundle whose accesses are
made apart. A trap that follows the bundle before comes first, and a fault of the fetch comes before the conditions of the
bundle (log 97). A chunk that conflicts is squashed before anything else (R283). -/
def State.runBundle (run : Instr → State → Result) (s : State) : Result :=
  let h := s.hart
  if h.id = 0 || h.run != .running then notEnabled
  else if h.moving then run .rootCoreTrapMigration s
  else if h.chunk.conflict then run .chunkCommit s
  else if h.parts.isSome then s.partAct
  else match h.after with
    | some t => s.trap t
    | none =>
      match s.fetchBundle with
      | .error t => s.trap t
      | .ok f =>
        if f.st.hart.chunk.conflict then run .chunkCommit f.st
        else match Decode.slot f.slot f.lit with
        | .error _ => f.st.trap { cause := 1, val := f.slot }
        | .ok b => f.st.runDecoded run f b

/-! ### Requests that a row microprogram holds back (R365) -/

/-- The address that a flag or a record at `va` has in a context. -/
def State.homeAt (s : State) (t : TCtx) (k : AKind) (va : Word) : List Nat :=
  match translate s t k va with
  | .ok x => [x.pa]
  | .error _ => []

/-- The context of the current furrow's own accesses. -/
def Hart.context (h : Hart) : TCtx := { ctx := h.ctx, pt0 := h.ptroot0, pt1 := h.ptroot1, priv := h.priv, cands := [] }

/-- The flag of a root core whose thread ends. -/
def State.flagOf (s : State) (h : Hart) (g : Nat) : List Nat :=
  if (s.rootOf g).flaga = 0 then [] else s.homeAt h.context .write (s.rootOf g).flaga

/-- A fetch that no cache serves: the line of a page that is not cached. A furrow that is parked at a wait, or whose row
microprogram runs, fetches nothing. -/
def State.uncachedFetch (s : State) : List Nat :=
  if s.hart.waitsParked || (match s.hart.root with | some g => (s.rootOf g).prog.isSome | none => false) then []
  else match fetchLine s s.hart.pc with
    | .ok (x, _) => if x.wb then [] else [x.pa]
    | .error _ => []

/-- The requests of the C word at the program counter that its meaning does not hold back itself: the pages of a frame and
the flag of a root core. -/
def State.wordRequests (s : State) : List Nat :=
  let frame := fun (k : AKind) (a : Reg) =>
    let n := frameBytes s.hart.len
    match framePages s 0 k (n / 65536 + 2) (frameAddress (s.reg0 a)) 0 n with
    | .ok l => l.flatMap fun p => blocksOf p.2.pa (min (n - p.1) (65536 - p.2.pa % 65536))
    | .error _ => []
  match s.nextBundle with
  | none => []
  | some (_, b) =>
    match b.c with
    | .cxsave a => frame .write a
    | .cxload a => frame .read a
    | .endUnit => (match s.hart.root with | some g => s.flagOf s.hart g | none => [])
    | _ => []

/-- The lines that entered the instruction cache of the current furrow in an act that led to `t`. -/
def State.fetchedLines (s t : State) : List Nat :=
  let m := s.hart.member 0
  (t.allMembers.filter fun n => n.tile == m.tile).flatMap fun n =>
    (n.icache.filter fun p => (lookup m.icache p.1).isNone).map (·.1)

/-- The frames that an act which led to `t` wrote into the context store. -/
def State.savedFrames (s t : State) : List Nat :=
  (t.saved.filter fun u => decide (s.nextId ≤ u.id) && u.thread.isNone).flatMap fun u => blocksOf u.frame (frameBytes u.len)

/-- The addresses that the walker reads or writes for a launch or a job in an act. -/
def State.walkerRequests (s : State) (i : Instr) : List (Nat × Nat) :=
  let at' := fun (j : Job) (id : Nat) (va : Word) (k : AKind) =>
    if va = 0 then [] else (s.homeAt j.tctx k va).map fun pa => (id, pa)
  let forLaunch := fun (id : Nat) (f : Launch → Job → List (Nat × Nat)) =>
    match s.launch? id with
    | some l => (match s.job? l.job with | some j => f l j | none => [])
    | none => []
  let forJob := fun (id : Nat) (f : Job → List (Nat × Nat)) => match s.job? id with | some j => f j | none => []
  match i with
  | .launchReady id => forLaunch id fun l j => at' j id l.addr .read
  | .launchEnd id => forLaunch id fun l j => at' j id l.flag .write
  | .jobStart id => forJob id fun j => if j.taken then [] else [(id, j.record)]
  | .jobEnd id => forJob id fun j => at' j id j.flag .write
  | .phaseStart id => forJob id fun j =>
    let va := j.pht + BitVec.ofNat 64 (8 * j.phase)
    at' j id va .read ++ match readVirt s j.tctx va with
      | some p => at' j id p .read
      | none => []
  | .savedUnitResume id _ =>
    (match s.saved.find? fun u => u.id == id && u.thread.isNone with
      | some u => (blocksOf u.frame (frameBytes u.len)).map fun pa => (id, pa)
      | none => [])
  | .unitCompletion id =>
    (match s.harts.find? fun h => h.id == id && h.unit.isNone && bit h.origin 63 with
      | some h => (s.flagOf h (field h.origin 9 0)).map fun pa => (id, pa)
      | none => [])
  | _ => []

/-- The act ends older work of the current furrow: it may perform accesses that were issued before. -/
def drainsWork : Act → Bool
  | .bundle | .event .timerTrap | .event .cancelTrap | .event .furrowDonation | .event .returnTrap => true
  | _ => false

/-- The requests of an act that led to `t`, which its own meaning does not hold back: issued accesses that it performed,
fetches, frames, flags and records. -/
def State.actRequests (s : State) (a : Act) (t : State) : List (Nat × Nat) :=
  let mine := fun (l : List Nat) => l.map fun pa => (s.hart.id, pa)
  (if drainsWork a then
    let done := t.pendingAt
    s.pendingAt.filter (fun x => !done.contains x) ++ mine (s.fetchedLines t ++ s.savedFrames t)
  else []) ++
  match a with
  | .bundle => mine (s.uncachedFetch ++ s.wordRequests)
  | .event i => s.walkerRequests i
  | .switch _ => []

/-- What the walker made for a launch or a job in an earlier state of it, and makes no longer. -/
def State.dropStale (s : State) (a : Act) (reqs : List (Nat × Nat)) : State :=
  match a with
  | .event i => s.leaveQueues fun q => ((s.walkerRequests i).any fun x => x.1 == q.1) && !reqs.contains q
  | _ => s

/-- An act waits where it would make a request that a window holds back: its requests enter the queues (R365, log 73). A
furrow stays at its bundle; a step of the module is tried again. -/
def State.heldBack (s : State) (a : Act) (r : Result) : Result :=
  if s.calm then r
  else match r with
    | .next t =>
      if t.signal = .undone then r
      else
        let reqs := s.actRequests a t
        let lost := reqs.filter fun x => !(s.windowsAt x.1 [x.2]).isEmpty
        if lost.isEmpty then .next (t.leaveQueues reqs.contains)
        else
          let u := lost.foldl (fun (u : State) x => u.enterQueues x.1 (s.windowsAt x.1 [x.2])) (s.dropStale a reqs)
          if a = .bundle then u.wait .bank else u.ok
    | r => r

/-! ### Engine and vector accesses behind a RECVW (log 8) -/

/-- The number was given since the first RECVW whose SENDE lies ahead. -/
def State.sinceRecvw (s : State) (id : Nat) : Bool :=
  match s.undo with
  | some m => decide (m.nextId ≤ id)
  | none => false

/-- The tiller belongs to a member that waits for a SENDE. -/
def State.tileAhead (s : State) (t : Nat) : Bool :=
  s.harts.any fun h => (mapPos (fun i (m : Member) => h.ahead i && m.tile == t) h.members).any id

/-- The step would perform an access that a member which waits for a SENDE issued since: the hardware has not issued it
(R205, R209, log 8). -/
def State.tooEarly (s : State) (i : Instr) : Bool :=
  let op := fun (id : Nat) => s.sinceRecvw id && s.ops.any fun o => o.id == id && s.tileAhead o.tile
  match i with
  | .vectorSectorRequest id k =>
    s.sinceRecvw id && s.hart.vops.any fun o => o.id == id && (o.request k).any fun e => s.hart.ahead e.member
  | .copyTransfer id _ | .plowRowStep id | .rdcReduction id | .rstartOperation id | .engineOperationComplete id => op id
  | .spredMergeWrite id => (s.merges.filter (·.id == id)).any fun m => m.members.any fun x => op x.2
  | _ => false

/-- A step of the module's surroundings, of its start-up or of its health. -/
def fromOutside : Instr → Bool
  | .moduleReset .. | .stageMemory .. | .stageCompute .. | .stageLinks .. | .hostAccess .. | .peerAccess .. | .linkDown ..
  | .spdmMessage .. | .moduleRegisterWrite .. | .jobp .. | .jobc .. | .start .. | .own .. | .rmfrac .. | .laneRetirement ..
  | .machineCheck .. | .thermalThrottle .. | .wearUpdate .. | .dramRefresh .. => true
  | _ => false

/-- A halted module takes no act of its own: an ERR other than 0 leaves only the SAFE functions (R369). -/
def State.halts (s : State) (a : Act) : Bool :=
  s.err != 0 && match a with
    | .bundle => true
    | .switch _ => false
    | .event i => !fromOutside i

/-- One act of the agenda. -/
def State.act (run : Instr → State → Result) (s : State) (a : Act) : Result :=
  if s.halts a then notEnabled
  else match a with
  | .bundle => s.heldBack a (s.runBundle run)
  | .switch id =>
    match s.switchTo id with
    | some s => .next { s with signal := .done }
    | none => notEnabled
  | .event i => if s.tooEarly i then notEnabled else s.heldBack a (run i s)

/-! ### What may move next (log 1) -/

/-- Requests of a vector operation that may be performed. -/
def vectorActs (o : VOp) : List Instr :=
  (numsFrom 0 (o.todo.length + 1)).map (fun k => .vectorSectorRequest o.id k)
    ++ [.vectorMemoryRetire o.id, .queueEntryArrival o.id]

/-- Steps of the current furrow's own machinery. -/
def State.hartActs (s : State) : List Instr :=
  let h := s.hart
  (mapPos (fun i (m : Member) => (numsFrom 0 m.pend.length).map fun k => Instr.asyncResultWrite i k) h.members).flatten
    ++ h.vops.flatMap vectorActs
    ++ [.chunkCommit, .timerTrap, .cancelTrap, .furrowDonation, .waitaReread, .bkseqRowStep, .bkseqWindowEnd,
        .bkseqResume, .returnTrap, .rootCoreTrapMigration, .trainingClassCopy]

/-- The `k`-th free stack slot of a launch, counted modulo their number (R317). -/
def Launch.nthFree (l : Launch) (k : Nat) : Nat :=
  (sortNat l.slots).foldl (fun x u => if u ≤ x then x + 1 else x) (k % max 1 (l.nslot - l.slots.length))

/-- A number below `n` that the module picks for the part `k` (log 1). -/
def State.pickFor (s : State) (k n : Nat) : Nat := Config.choose s.tick [1, k] % n

/-- The events of the saved units (R319, R322, R344). -/
def State.savedActs (s : State) : List Instr :=
  let f : Saved → List Instr := fun u =>
    [.watchWake u.id, .priorityAging true u.id, .savedUnitResume u.id (s.pickFor u.id Config.tillers)]
  s.saved.flatMap f

/-- The events of the launches (R310, R315, R319). -/
def State.launchActs (s : State) : List Instr :=
  let f : Launch → List Instr := fun l =>
    [.launchReady l.id, .launchEnd l.id, .priorityAging false l.id,
      .unitStart l.id (s.pickFor l.id Config.tillers) (l.nthFree (Config.choose s.tick [317, l.id]))]
  s.launches.flatMap f

/-- The events of the jobs (R305, R306). -/
def State.jobActs (s : State) : List Instr :=
  let f : Job → List Instr := fun j => [.phaseStart j.id, .jobStart j.id, .jobEnd j.id]
  s.jobs.flatMap f

/-- The events of the sheaves and of their members' queues (R198, R200, R206). -/
def State.sheafActs (s : State) : List Instr :=
  let f : Nat × Sheaf → List Instr := fun p =>
    [.thresherArbitration p.1, .thresherCommandComplete p.1, .wldSlotLoad p.1 0, .wldSlotLoad p.1 1]
  let g : Member → List Instr := fun m => if m.tq.isEmpty then [] else [.mmagGather m.tile]
  s.sheaves.flatMap f ++ s.allMembers.flatMap g

/-- The events of the engines' operations and merges (R219, R241). -/
def State.engineActs (s : State) : List Instr :=
  let f : EngOp → List Instr := fun o =>
    [.copyTransfer o.id (s.pickFor o.id (o.todo.length + 1)), .plowRowStep o.id, .rdcReduction o.id,
      .rstartOperation o.id, .engineOperationComplete o.id]
  let g : Merge → Instr := fun m => .spredMergeWrite m.id
  s.ops.flatMap f ++ s.merges.map g

/-- The events of a hart that no act of its own makes (R320, R351, R116). -/
def State.unitActs (s : State) : List Instr :=
  let f : Hart → List Instr := fun h => [.preemptionRequest h.id, .lholdDeferralExpiry h.id, .unitCompletion h.id]
  s.harts.flatMap f

/-- Steps of the walker and of the engines. The tiller, the slot and the sector are free choices. -/
def State.moduleActs (s : State) : List Instr :=
  let rest : List Instr := s.rings.map (fun r => .iterationPostDelivery r.launch) ++ s.waiting.map (·.2)
  s.unitActs ++ s.savedActs ++ s.launchActs ++ s.jobActs ++ s.sheafActs ++ s.engineActs ++ rest
    ++ [.dramRefresh (s.pickFor 1 1024) (s.pickFor 2 16)]

/-- The acts that the state enables. -/
def State.enabled (run : Instr → State → Result) (s : State) : List Act :=
  let ok : Act → Bool := fun a =>
    match s.act run a with
    | .next _ => true
    | _ => false
  (.bundle :: (s.others.map fun h => Act.switch h.id)
    ++ (s.hartActs ++ s.moduleActs).map Act.event).filter ok

/-- The next act: the agenda's first, or one that the module chooses (log 1). -/
def State.nextAct (run : Instr → State → Result) (s : State) : Option Act × State :=
  match s.agenda with
  | a :: rest => (some a, { s with agenda := rest })
  | [] =>
    let l := s.enabled run
    (l[s.pick [1] l.length]?, s)

/-- Time passes: a step takes some cycles (R11, R29). -/
def State.advance (s : State) : State :=
  { s with tick := s.tick + 1, cyc := s.cyc + 1 + BitVec.ofNat 64 (Config.choose s.tick [29]) }

/-- One step of the module around `run`. -/
def State.stepWith (run : Instr → State → Result) (s : State) : Result :=
  let s := s.advance
  match s.nextAct run with
  | (some a, s) => s.act run a
  | (none, s) => .next s

/-! ### Placing a program (log 9) -/

/-- Memory with doublewords written from `pa` on. -/
def putWords (m : List Host.Cell) (pa : Nat) (ws : List Word) : List Host.Cell :=
  Memory.write m pa (ws.flatMap fun w => bytesOf 8 w.toNat)

/-- A header for a line whose slot 1 is a bundle, with its literal in slot 2 when `li` (R67). -/
def placedHeader (li : Bool) : Word := if li then 0x80008001 else 0x40008001

/-- Page tables for context 0: the first 512 MiB map to themselves; the second map to the row-mapped
range of pseudo-channel 0 under F = 1. The root is at 0x10000. -/
def placedTables (m : List Host.Cell) : List Host.Cell :=
  putWords (putWords m 0x10000 [0x20001]) 0x20000 [0x206F, 0xE0000236F]

/-- A furrow of tiller 0 in supervisor mode, or the root core of pseudo-channel 0, at `pc`. -/
def placedHart (root : Bool) (pc : Word) : Hart := {
  id := 1, root := if root then some 0 else none
  members := [Member.fresh (if root then Config.tillers else 0)], run := .running
  pc := pc, npc := pc, entry := .fall, vec := 0x40000, ptroot0 := 0x10001, shares := [0] }

/-- The state with an instruction's slots placed at slot 1 of a line, and a furrow that executes it next;
a BANK word is placed for a root core. -/
def State.place (s : State) (slot lit : Word) : State :=
  let bank := field slot 29 24 == 0x39
  let m := placedTables s.mem
  let m := putWords m 0x40000 [placedHeader false, 0x80000000]
  let m := putWords m (if bank then 0xE00000000 else 0x30000) [placedHeader (isLi slot), slot, lit]
  { s with
    mem := m, hart := placedHart bank (if bank then 0x20000008 else 0x30008), others := [], ckpts := []
    rmF := if bank then 1 else s.rmF, nextId := max s.nextId 2, agenda := [.bundle] }

end Sys2Proof.Machine
end

