-- ==== Sys2Proof/Machine/Vector.lean ====
section
/-! DEFINITION. The dispatch of an A word (R82, R48, R157, R158): the checks of its operands, the wait for
the registers and masks that it names, and the results that it delivers (R32, R33, R47). -/

namespace Sys2Proof.Machine

/-! ### Waiting for vector memory -/

/-- The operation still brings data into one of the registers, or a result into one of the masks. -/
def VOp.delivers (o : VOp) (regs masks : List Nat) : Bool :=
  !o.discard &&
    match o.kind with
    | .load | .glk | .ldq _ => regs.contains o.reg
    | .store => false
    | .stc => masks.contains o.mask

/-- The operation must act before the younger `p` (R138). -/
def VOp.precedes (o p : VOp) : Bool :=
  let writes := fun (k : VKind) => k == .store || k == .stc
  (writes o.kind || writes p.kind) &&
    o.todo.any fun x => p.todo.any fun y => x.member == y.member && sectorOf x.pa == sectorOf y.pa

/-- The operations that must end so that those with `want` end, oldest first. -/
def neededOps (want : VOp → Bool) : List VOp → List VOp
  | [] => []
  | o :: l =>
    let rest := neededOps want l
    if want o || rest.any o.precedes then o :: rest else rest

/-- The operations of the current furrow with `want` retire; a chunk that is open ends first. -/
def State.settleOps (s : State) (want : VOp → Bool) : State :=
  let ids := (neededOps want s.hart.vops).map (·.id)
  if ids.isEmpty then s else ids.foldl (fun s id => s.vcomplete id) s.commitChunk

/-- The wait for the data of the registers and masks that a word names (R140, R145, R148). -/
def State.awaitRegs (s : State) (regs masks : List Nat) : State := s.settleOps fun o => o.delivers regs masks

/-! ### Dispatch -/

/-- The vector operands of an A word. -/
structure AOps where
  srcs : List VReg := []
  dsts : List VReg := []
  masks : List MReg := []

/-- An operand breaks R22 or R158. -/
def AOps.bad (o : AOps) (h : Hart) : Bool :=
  (o.dsts.any fun n => (queueOf h.qst n.toNat).isSome) || o.srcs.any fun n => (sourceReg h.qst n.toNat).isNone

/-- The registers that the operands name. -/
def AOps.regs (o : AOps) (h : Hart) : List Nat := o.dsts.map (·.toNat) ++ o.srcs.map fun n => h.src n.toNat

/-- The dispatch of an A word with vector operands; `bad` adds a check that names an illegal instruction
(R82, R158). -/
def State.dispatch (s : State) (o : AOps) (bad : Bool) (f : State → Result) : Result :=
  s.onTiller fun s =>
    if bad || o.bad s.hart then s.illegal 0 true
    else f (s.awaitRegs (o.regs s.hart) (o.masks.map (·.toNat)))

/-- The check of the format word (R46, R48). -/
def State.withFormat (s : State) (c : FmtClass) (r : Reg) (f : FormatWord → Result) : Result :=
  let w := s.aScalar r
  match decodeFmt c w s.hart.w with
  | none => s.trap { cause := 2, val := w, eside := true }
  | some fw => f fw

/-- A word with vector operands and a format word. -/
def State.formatted (s : State) (o : AOps) (bad : Bool) (c : FmtClass) (r : Reg)
    (f : FormatWord → State → Result) : Result :=
  s.dispatch o bad fun s => s.withFormat c r fun fw => f fw s

/-! ### Elements and results -/

/-- Active elements: ELS to VL − 1 under a mask (R21, R32). -/
def Hart.active (h : Hart) (m : MReg) : List Nat := h.range.filter fun i => h.melem m.toNat i

/-- Element `i` of a source operand, its queue entry included. -/
def Hart.source (h : Hart) (n : VReg) (i : Nat) : Nat := h.elem (h.src n.toNat) i

/-- The exact value of element `i` of a source operand. -/
def Hart.sourceEx (h : Hart) (f : Fmt) (n : VReg) (i : Nat) : Ex := exactOf f (h.source n i)

/-- A result under a format word, widened (R47, R49). -/
def FormatWord.deliver (f : FormatWord) (w : Nat) (x : Ex) : Nat := widen f.fd w (rnd f.fd f.rm f.sat x)

/-- Elements of the destination are written, and the word completes (R32, R33). -/
def State.writeElems (s : State) (d : VReg) (xs : List (Nat × Nat)) : Result :=
  (s.modHart fun h => (h.setElems d.toNat xs).wrote d.toNat).ok

/-- Mask bits are written, and the word completes. -/
def State.writeMask (s : State) (d : MReg) (xs : List (Nat × Bool)) : Result :=
  (s.modHart fun h => { h.setMelems d.toNat xs with els := 0 }).ok

/-- A scalar result of an A word: asynchronous, in every member (R73, R157). -/
def State.writeScalar (s : State) (d : VReg) (v : Word) : Result :=
  ((s.asyncRegAll (d.setWidth 6) v).modHart fun h => { h with els := 0 }).ok

end Sys2Proof.Machine
end

