-- ==== Sys2Proof/Machine/ArrayArith.lean ====
section
/-! DEFINITION. Elementwise arithmetic and conversion (R162 to R166), with error-feedback rounding (R55). -/

namespace Sys2Proof.Machine

/-! ### Elementwise words -/

/-- Two vector sources (R162). -/
def State.binary (s : State) (d a b : VReg) (r : Reg) (m : MReg) (op : FormatWord → Ex → Ex → Ex) : Result :=
  s.formatted { srcs := [a, b], dsts := [d], masks := [m] } false (.generic true) r fun f s =>
    let h := s.hart
    s.writeElems d ((h.active m).map fun i =>
      (i, f.deliver h.w (op f (h.sourceEx f.fa a i) (h.sourceEx f.fb b i))))

/-- One vector source (R162). -/
def State.unary (s : State) (d a : VReg) (r : Reg) (m : MReg) (op : Ex → Ex) : Result :=
  s.formatted { srcs := [a], dsts := [d], masks := [m] } false (.generic false) r fun f s =>
    let h := s.hart
    s.writeElems d ((h.active m).map fun i => (i, f.deliver h.w (op (h.sourceEx f.fa a i))))

/-- The scalar operand of VADDS, VMULS and VMAS under FB (R165). -/
def State.scalarEx (s : State) (f : FormatWord) (b : VReg) : Ex := exactOf f.fb (s.aScalar (b.setWidth 6)).toNat

/-- A vector and a scalar source (R162, R165). -/
def State.withScalar (s : State) (d a b : VReg) (r : Reg) (m : MReg) (op : FormatWord → Ex → Ex → Ex) : Result :=
  s.formatted { srcs := [a], dsts := [d], masks := [m] } false (.generic false) r fun f s =>
    let h := s.hart
    s.writeElems d ((h.active m).map fun i =>
      (i, f.deliver h.w (op f (h.sourceEx f.fa a i) (s.scalarEx f b))))

/-- d + a × b, exact (Table 06.3). -/
def fused (f : FormatWord) (d a b : Ex) : Ex := Ex.add f.rm d (Ex.mul a b)

/-- VADD (R162). -/
def execVadd (d a b : VReg) (r : Reg) (m : MReg) (s : State) : Result := s.binary d a b r m fun f x y => Ex.add f.rm x y
/-- VSUB. -/
def execVsub (d a b : VReg) (r : Reg) (m : MReg) (s : State) : Result := s.binary d a b r m fun f x y => Ex.add f.rm x y.negate
/-- VMUL. -/
def execVmul (d a b : VReg) (r : Reg) (m : MReg) (s : State) : Result := s.binary d a b r m fun _ x y => Ex.mul x y
/-- VMIN (R53). -/
def execVmin (d a b : VReg) (r : Reg) (m : MReg) (s : State) : Result := s.binary d a b r m fun _ x y => Ex.min x y
/-- VMAX (R53). -/
def execVmax (d a b : VReg) (r : Reg) (m : MReg) (s : State) : Result := s.binary d a b r m fun _ x y => Ex.max x y
/-- VDIV (R163). -/
def execVdiv (d a b : VReg) (r : Reg) (m : MReg) (s : State) : Result := s.binary d a b r m fun _ x y => Ex.div x y
/-- VABS. -/
def execVabs (d a : VReg) (r : Reg) (m : MReg) (s : State) : Result := s.unary d a r m Ex.abs
/-- VNEG. -/
def execVneg (d a : VReg) (r : Reg) (m : MReg) (s : State) : Result := s.unary d a r m Ex.negate
/-- VRCP (R164). -/
def execVrcp (d a : VReg) (r : Reg) (m : MReg) (s : State) : Result := s.unary d a r m recip
/-- VSQRT. -/
def execVsqrt (d a : VReg) (r : Reg) (m : MReg) (s : State) : Result := s.unary d a r m Ex.sqrt
/-- VADDS (R165). -/
def execVadds (d a b : VReg) (r : Reg) (m : MReg) (s : State) : Result := s.withScalar d a b r m fun f x y => Ex.add f.rm x y
/-- VMULS (R165). -/
def execVmuls (d a b : VReg) (r : Reg) (m : MReg) (s : State) : Result := s.withScalar d a b r m fun _ x y => Ex.mul x y

/-- VMA: fused, the old destination under FD (R49, R162). -/
def execVma (d a b : VReg) (r : Reg) (m : MReg) (s : State) : Result :=
  s.formatted { srcs := [a, b], dsts := [d], masks := [m] } false (.generic true) r fun f s =>
    let h := s.hart
    s.writeElems d ((h.active m).map fun i =>
      (i, f.deliver h.w (fused f (exactOf f.fd (h.elem d.toNat i)) (h.sourceEx f.fa a i) (h.sourceEx f.fb b i))))

/-- VMAS (R162, R165). -/
def execVmas (d a b : VReg) (r : Reg) (m : MReg) (s : State) : Result :=
  s.formatted { srcs := [a], dsts := [d], masks := [m] } false (.generic false) r fun f s =>
    let h := s.hart
    s.writeElems d ((h.active m).map fun i =>
      (i, f.deliver h.w (fused f (exactOf f.fd (h.elem d.toNat i)) (h.sourceEx f.fa a i) (s.scalarEx f b))))

/-! ### Error feedback and VCVT -/

/-- One element of the chain of R55: the result bits and the new residual. -/
def feedback (f : FormatWord) (res : Nat) (x : Ex) : Nat × Nat :=
  let xp := rnd32 (Ex.add 0 x (Fmt.f32.decode res))
  let y := rnd f.fd f.rm f.sat xp
  let res' := match f.fd.decode y with
    | .fin s n d => rnd .f32 0 false (Ex.add 0 xp (Ex.negate (.fin s n d)))
    | _ => 0
  (y, res')

/-- The chain over elements (R55): the results and the last residual. -/
def feedbackChain (f : FormatWord) (w : Nat) : Nat → List (Nat × Ex) → List (Nat × Nat) × Nat
  | res, [] => ([], res)
  | res, (i, x) :: l =>
    let (y, res') := feedback f res x
    let (ys, last) := feedbackChain f w res' l
    ((i, widen f.fd w y) :: ys, last)

/-- The end of VCVT and AEXT: values rounded one by one, or in the chain (R55, R166, R202). -/
def State.convert (s : State) (f : FormatWord) (d : VReg) (xs : List (Nat × Ex)) : Result :=
  if f.ef then
    let (ys, res) := feedbackChain f s.hart.w s.hart.efr.toNat xs
    (s.modHart fun h => { h with efr := BitVec.ofNat 32 res }).writeElems d ys
  else s.writeElems d (xs.map fun x => (x.1, f.deliver s.hart.w x.2))

/-- VCVT (R166). -/
def execVcvt (d a : VReg) (r : Reg) (m : MReg) (s : State) : Result :=
  s.formatted { srcs := [a], dsts := [d], masks := [m] } false .convert r fun f s =>
    let h := s.hart
    let k := if f.fa.isInt && f.fd.isInt then f.aux else 0
    s.convert f d ((h.active m).map fun i => (i, (h.sourceEx f.fa a i).shiftDown k))

end Sys2Proof.Machine
end

