-- ==== Sys2Proof/Machine/ArrayBits.lean ====
section
/-! DEFINITION. Bitwise words, shifts, selection, compare and filling (R167 to R170), and VNOP (R80). -/

namespace Sys2Proof.Machine

/-- VNOP (R71, R80). -/
def execVnop (s : State) : Result := s.ok

/-! ### Bitwise words and shifts -/

/-- The bit pattern of a source in `wd` bits (R167). -/
def bring (f : Fmt) (wd x : Nat) : Nat :=
  if f.isSigned then wrapNat wd (signedOf f.width x) else x % 2 ^ f.width % 2 ^ wd

/-- VSHL of a by b in `wd` bits. -/
def shiftLeft (wd a b : Nat) : Nat := a * 2 ^ min b wd % 2 ^ wd

/-- VSHR of a by b under FD (R167). -/
def shiftRight (f : Fmt) (a b : Nat) : Nat :=
  let k := min b f.width
  if f.isSigned then wrapNat f.width (signedOf f.width a / ((2 ^ k : Nat) : Int)) else a / 2 ^ k

/-- A bitwise word of two sources (R167); `op` works on FD's bits. -/
def State.bitwise2 (s : State) (d a b : VReg) (r : Reg) (m : MReg) (op : Fmt → Nat → Nat → Nat) : Result :=
  s.formatted { srcs := [a, b], dsts := [d], masks := [m] } false .bitwise r fun f s =>
    let h := s.hart
    let wd := f.fd.width
    s.writeElems d ((h.active m).map fun i =>
      (i, widen f.fd h.w (op f.fd (bring f.fa wd (h.source a i)) (bring f.fb wd (h.source b i)) % 2 ^ wd)))

/-- VAND (R167). -/
def execVand (d a b : VReg) (r : Reg) (m : MReg) (s : State) : Result := s.bitwise2 d a b r m fun _ x y => x &&& y
/-- VOR. -/
def execVor (d a b : VReg) (r : Reg) (m : MReg) (s : State) : Result := s.bitwise2 d a b r m fun _ x y => x ||| y
/-- VXOR. -/
def execVxor (d a b : VReg) (r : Reg) (m : MReg) (s : State) : Result := s.bitwise2 d a b r m fun _ x y => x ^^^ y
/-- VSHL. -/
def execVshl (d a b : VReg) (r : Reg) (m : MReg) (s : State) : Result := s.bitwise2 d a b r m fun f x y => shiftLeft f.width x y
/-- VSHR. -/
def execVshr (d a b : VReg) (r : Reg) (m : MReg) (s : State) : Result := s.bitwise2 d a b r m shiftRight

/-- VNOT (R162, R167). -/
def execVnot (d a : VReg) (r : Reg) (m : MReg) (s : State) : Result :=
  s.formatted { srcs := [a], dsts := [d], masks := [m] } false .notClass r fun f s =>
    let h := s.hart
    let wd := f.fd.width
    s.writeElems d ((h.active m).map fun i =>
      (i, widen f.fd h.w (2 ^ wd - 1 - bring f.fa wd (h.source a i))))

/-! ### Selection and compare -/

/-- VSEL: every element of the range, under the selector M (R168). -/
def execVsel (d a b : VReg) (r : Reg) (m : MReg) (s : State) : Result :=
  s.formatted { srcs := [a, b], dsts := [d], masks := [m] } false .select r fun f s =>
    let h := s.hart
    s.writeElems d (h.range.map fun i =>
      (i, widen f.fd h.w ((if h.melem m.toNat i then h.source a i else h.source b i) % 2 ^ f.fd.width)))

/-- VCMP (R169). -/
def execVcmp (c : Cond) (d : MReg) (a b : VReg) (r : Reg) (m : MReg) (s : State) : Result :=
  s.formatted { srcs := [a, b], masks := [m, d] } false .compare r fun f s =>
    let h := s.hart
    s.writeMask d ((h.active m).map fun i => (i, condExact c (h.sourceEx f.fa a i) (h.sourceEx f.fb b i)))

/-! ### Filling -/

/-- VSPLAT (R170). -/
def execVsplat (d : VReg) (r : Reg) (m : MReg) (s : State) : Result :=
  s.dispatch { dsts := [d], masks := [m] } false fun s =>
    let h := s.hart
    s.writeElems d ((h.active m).map fun i => (i, (s.aScalar r).toNat % 2 ^ h.w))

/-- VIOTA (R170). -/
def execViota (d : VReg) (m : MReg) (s : State) : Result :=
  s.dispatch { dsts := [d], masks := [m] } false fun s =>
    let h := s.hart
    s.writeElems d ((h.active m).map fun i => (i, i % 2 ^ h.w))

end Sys2Proof.Machine
end

