-- ==== Sys2Proof/Machine/ArrayMove.lean ====
section
/-! DEFINITION. Permutations (R171 to R175), reductions and scans (R176, R177), conflicts and masks (R178 to
R180). -/

namespace Sys2Proof.Machine

/-! ### Permutations -/

/-- A permutation: active element `i` receives `src i`, or the fill value (R171). -/
def State.permute (s : State) (d a : VReg) (more : List VReg) (r : Reg) (m : MReg)
    (src : State → Nat → Option Nat) : Result :=
  s.dispatch { srcs := a :: more, dsts := [d], masks := [m] } false fun s =>
    let h := s.hart
    let fill := (s.aScalar r).toNat % 2 ^ h.w
    s.writeElems d ((h.active m).map fun i =>
      (i, match src s i with | some j => h.source a j | none => fill))

/-- VSLUP: B names the scalar amount (R172). -/
def execVslup (d a b : VReg) (r : Reg) (m : MReg) (s : State) : Result :=
  s.permute d a [] r m fun s i =>
    let k := (s.aScalar (b.setWidth 6)).toNat
    if k ≤ i then some (i - k) else none

/-- VSLDN (R172). -/
def execVsldn (d a b : VReg) (r : Reg) (m : MReg) (s : State) : Result :=
  s.permute d a [] r m fun s i =>
    let k := (s.aScalar (b.setWidth 6)).toNat
    if i + k < s.hart.vl.toNat then some (i + k) else none

/-- VPERM (R173). -/
def execVperm (d a b : VReg) (r : Reg) (m : MReg) (s : State) : Result :=
  s.permute d a [b] r m fun s i =>
    let j := s.hart.source b i
    if j < s.hart.vl.toNat then some j else none

/-- VCOMP: selected elements move to the front of the range (R174). -/
def execVcomp (d a : VReg) (m : MReg) (s : State) : Result :=
  s.dispatch { srcs := [a], dsts := [d], masks := [m] } false fun s =>
    let h := s.hart
    s.writeElems d (mapPos (fun k i => (h.els.toNat + k, h.source a i)) (h.active m))

/-- VGET (R175). -/
def execVget (d a : VReg) (r : Reg) (s : State) : Result :=
  s.dispatch { srcs := [a] } false fun s =>
    let h := s.hart
    let j := (s.aScalar r).toNat
    s.writeScalar d (if j < h.vl.toNat then BitVec.ofNat 64 (h.source a j) else 0)

/-- VPUT: B names the scalar index (R175). -/
def execVput (d b : VReg) (r : Reg) (s : State) : Result :=
  s.dispatch { dsts := [d] } false fun s =>
    let h := s.hart
    let j := (s.aScalar (b.setWidth 6)).toNat
    if h.els.toNat ≤ j && decide (j < h.vl.toNat) then
      s.writeElems d [(j, (s.aScalar r).toNat % 2 ^ h.w)]
    else (s.modHart fun h => { h with els := 0 }).ok

/-! ### Reductions and scans -/

/-- The operator on exact values (R176). -/
def redOp (o : RedOp) (rm : Nat) (x y : Ex) : Ex :=
  match o with
  | .add | .or => Ex.add rm x y
  | .min => Ex.min x y
  | .max => Ex.max x y

/-- The identity (R63, R176). -/
def redIdentity (o : RedOp) (fd : Fmt) : Ex :=
  match o with
  | .add | .or => if fd.isInt then .ofInt 0 else .fin true 0 1
  | .min => if fd.isInt then .ofInt fd.maxInt else .inf false
  | .max => if fd.isInt then .ofInt fd.minInt else .inf true

/-- A node of the tree: the operator, rounded at once (R62). -/
def redNode (o : RedOp) (f : FormatWord) (x y : Ex) : Ex := f.fd.decode (rnd f.fd f.rm f.sat (redOp o f.rm x y))

/-- The VL positions: an active element's value, rounded where FD is floating-point, or the identity. -/
def Hart.positions (h : Hart) (o : RedOp) (f : FormatWord) (a : VReg) (m : MReg) : List Ex :=
  h.all.map fun i =>
    if h.els.toNat ≤ i && h.melem m.toNat i then
      let x := h.sourceEx f.fa a i
      if f.fd.isInt then x else f.fd.decode (rnd f.fd f.rm f.sat x)
    else redIdentity o f.fd

/-- The FD patterns of the positions, for the operator or. -/
def Hart.patterns (h : Hart) (f : FormatWord) (a : VReg) (m : MReg) : List Nat :=
  h.all.map fun i =>
    if h.els.toNat ≤ i && h.melem m.toNat i then rnd f.fd f.rm f.sat (h.sourceEx f.fa a i) else 0

/-- The prefix results of a list under an operator. -/
def prefixes {α : Type} (op : α → α → α) : Option α → List α → List α
  | _, [] => []
  | none, x :: l => x :: prefixes op (some x) l
  | some y, x :: l => op y x :: prefixes op (some (op y x)) l

/-- The result of VRED as a bit pattern of FD (R176). Identities alone are rounded like any result, also with SAT = 1
(log 112). -/
def Hart.reduce (h : Hart) (o : RedOp) (f : FormatWord) (a : VReg) (m : MReg) : Nat :=
  match o with
  | .or => (h.patterns f a m).foldl (fun x y => x ||| y) 0
  | _ =>
    let xs := h.positions o f a m
    let x := if f.fd.isInt then (prefixes (redOp o f.rm) none xs).getLast?.getD (redIdentity o f.fd)
      else canonSum (redNode o f) (redIdentity o f.fd) xs
    rnd f.fd f.rm f.sat x

/-- VRED (R176). -/
def execVred (o : RedOp) (d a : VReg) (r : Reg) (m : MReg) (s : State) : Result :=
  s.formatted { srcs := [a], masks := [m] } false .reduce r fun f s =>
    s.writeScalar d (BitVec.ofNat 64 (widen f.fd 64 (s.hart.reduce o f a m)))

/-- The results of VSCAN by position, as bit patterns of FD (R177). -/
def Hart.scan (h : Hart) (o : RedOp) (f : FormatWord) (a : VReg) (m : MReg) : List Nat :=
  match o with
  | .or => prefixes (fun x y => x ||| y) none (h.patterns f a m)
  | _ =>
    let xs := h.positions o f a m
    (if f.fd.isInt then prefixes (redOp o f.rm) none xs else logScan (redNode o f) xs).map (rnd f.fd f.rm f.sat)

/-- VSCAN (R177). -/
def execVscan (o : RedOp) (d a : VReg) (r : Reg) (m : MReg) (s : State) : Result :=
  s.formatted { srcs := [a], dsts := [d], masks := [m] } false (.generic false) r fun f s =>
    let h := s.hart
    let ys := h.scan o f a m
    s.writeElems d ((h.active m).map fun i => (i, widen f.fd h.w (ys.getD i 0)))

/-! ### Conflicts and masks -/

/-- For each active element, whether a lower one has its value. -/
def conflicts (seen : List Nat) : List (Nat × Nat) → List (Nat × Bool)
  | [] => []
  | (i, x) :: l => (i, seen.contains x) :: conflicts (x :: seen) l

/-- VCONF (R178). -/
def execVconf (d : MReg) (a : VReg) (m : MReg) (s : State) : Result :=
  s.dispatch { srcs := [a], masks := [m, d] } false fun s =>
    let h := s.hart
    s.writeMask d (conflicts [] ((h.active m).map fun i => (i, h.source a i)))

/-- The operators of MLOG (R179). -/
def maskOp (o : MaskOp) (x y : Bool) : Bool :=
  match o with
  | .and => x && y
  | .or => x || y
  | .xor => x != y
  | .andn => x && !y

/-- MLOG (R179). -/
def execMlog (o : MaskOp) (d a b : MReg) (s : State) : Result :=
  s.dispatch { masks := [a, b, d] } false fun s =>
    let h := s.hart
    s.writeMask d (h.range.map fun i => (i, maskOp o (h.melem a.toNat i) (h.melem b.toNat i)))

/-- MCNT.pop (R180). -/
def execMcntPop (d : VReg) (a : MReg) (s : State) : Result :=
  s.dispatch { masks := [a] } false fun s => s.writeScalar d (BitVec.ofNat 64 (s.hart.active a).length)

/-- MCNT.first (R180). -/
def execMcntFirst (d : VReg) (a : MReg) (s : State) : Result :=
  s.dispatch { masks := [a] } false fun s =>
    s.writeScalar d (BitVec.ofNat 64 ((s.hart.active a).head?.getD s.hart.vl.toNat))

end Sys2Proof.Machine
end

