-- ==== Sys2Proof/Machine/CacheOps.lean ====
section
/-! DEFINITION. Cache maintenance (R121 to R123). -/

namespace Sys2Proof.Machine

/-- A line with one sector treated by CINV: a sector wholly in the range is dropped with its dirty bytes
given back to the home, one partly in it is written back and dropped. -/
structure Discard where
  line : CLine
  back : List (Nat × Byte)
deriving DecidableEq, Repr

/-- CINV of the sector at `pa` of a line. -/
def Discard.sector (d : Discard) (pa lo hi : Nat) : Discard :=
  if d.line.holds pa && decide (lo < pa + 32) && decide (pa ≤ hi) then
    let whole := decide (lo ≤ pa) && decide (pa + 31 ≤ hi)
    let back := if whole && d.line.dirtyAt pa then d.line.home.filter fun p => sectorOf p.1 == sectorOf pa else []
    { line := d.line.drop pa, back := d.back ++ back }
  else d

/-- CINV of a line over physical bytes `lo` to `hi`. -/
def CLine.discard (l : CLine) (lo hi : Nat) : Discard :=
  (Discard.sector ⟨l, []⟩ l.pa lo hi).sector (l.pa + 32) lo hi

/-- The I-cache after CFLUSH or CINV of `lo` to `hi`: a tiller gives up the lines, a root core keeps its own until
its next start (R121, R123, R360). -/
def Member.maintainI (m : Member) (lo hi : Nat) : SMap (List Byte) :=
  if Config.tillers ≤ m.tile then m.icache
  else m.icache.filter fun p => !(decide (p.1 ≤ hi) && decide (lo < p.1 + 128))

/-- The lines of a member after CFLUSH of `lo` to `hi`. -/
def Member.flushRange (m : Member) (lo hi : Nat) : Member :=
  { m with
    lines := m.lines.map (·.cleanIn lo hi)
    icache := m.maintainI lo hi }

/-- The caches of a member after CINV of `lo` to `hi`. -/
def Member.invRange (m : Member) (lo hi : Nat) : Member :=
  { m with
    lines := (m.lines.map fun l => (l.discard lo hi).line).filter CLine.live
    l1d := m.l1d.filter fun k => !secIn lo hi k
    icache := m.maintainI lo hi }

/-- The caches that CFLUSH and CINV of a tiller reach: those of its instance of the page's scope. -/
def reached (coh tile : Nat) (m : Member) : Bool := sameInstance coh tile m.tile

/-- One page's part of CFLUSH or CINV, from physical byte `lo` to `hi` (R121, Table 04.8). -/
def State.maintain (s : State) (inv : Bool) (tile coh lo hi : Nat) : State :=
  if inv then
    let back := s.allMembers.flatMap fun m =>
      if reached coh tile m then m.lines.flatMap fun l => (l.discard lo hi).back else []
    let s := s.mapAll fun m => if reached coh tile m then m.invRange lo hi else m
    { s with mem := back.foldl (fun m p => Memory.put m p.1 p.2) s.mem }
  else s.mapAll fun m => if reached coh tile m then m.flushRange lo hi else m

/-- CFLUSH or CINV by member `i` from `va` on, `n` bytes, page by page (R122). -/
def State.maintainPages (inv : Bool) (i : Nat) : Nat → State → Word → Nat → Except (State × TrapInfo) State
  | 0, s, _, _ => .ok s
  | fuel + 1, s, va, n =>
    if n = 0 then .ok s
    else
      let k := min n (65536 - va.toNat % 65536)
      match s.xlat i (if inv then .write else .read) va with
      | .error e => .error (s, xlatTrap e va i)
      | .ok x =>
        let s := s.use i x false
        let s := if x.wb then s.maintain inv (s.hart.member i).tile x.coh x.pa (x.pa + k - 1) else s
        State.maintainPages inv i fuel s (va + BitVec.ofNat 64 k) (n - k)

/-- CFLUSH or CINV by each member in turn; a fault leaves the work below it done (R122). -/
def State.maintainAll (inv : Bool) (a b : Reg) : List Nat → State → Result
  | [], s => s.ok
  | i :: l, s =>
    let n := (s.reg i b).toNat
    match State.maintainPages inv i (n / 65536 + 2) s (s.reg i a) n with
    | .error (s, t) => s.trap t
    | .ok s => State.maintainAll inv a b l s

/-- CFLUSH (R121, R122). -/
def execCflush (a b : Reg) (s : State) : Result :=
  s.onTiller fun s => State.maintainAll false a b s.ids s.commitChunk

/-- CINV (R121, R122). -/
def execCinv (a b : Reg) (s : State) : Result :=
  s.onTiller fun s => State.maintainAll true a b s.ids s.commitChunk

/-- CPREF by member `i`: sectors of the pages that translate enter its L2 (R121, R122). -/
def State.prefetch (i : Nat) : Nat → State → Word → Nat → State
  | 0, s, _, _ => s
  | fuel + 1, s, va, n =>
    if n = 0 then s
    else
      let k := min n (65536 - va.toNat % 65536)
      let s := match s.xlat i .hint va with
        | .error _ => s
        | .ok x =>
          if x.wb then
            (numsFrom (sectorOf x.pa) (sectorOf (x.pa + k - 1) + 1 - sectorOf x.pa)).foldl
              (fun (s : State) sec => s.touch (s.hart.member i).tile .nol1 false false (32 * sec) x.coh)
              (s.use i x false)
          else s
      State.prefetch i fuel s (va + BitVec.ofNat 64 k) (n - k)

/-- CPREF (R121, R122): the first 64 KiB of the range, where the tiller has cache pairs. -/
def execCpref (a b : Reg) (s : State) : Result :=
  s.onTiller fun s => (s.ids.foldl (fun (s' : State) i =>
    if (cacheWays s' (s'.hart.member i)).isEmpty then s'
    else State.prefetch i 2 s' (s.reg i a) (min (s.reg i b).toNat 65536)) s).ok

end Sys2Proof.Machine
end

