-- ==== Sys2Proof/Machine/Control.lean ====
section
/-! DEFINITION. Control transfers (R109 to R111). -/

namespace Sys2Proof.Machine

/-- The target of a CB or CJ word: L + 128 × displacement + 8 × slot (R76). -/
def lineTarget (pc : Word) (disp : Int) (slot : BitVec 4) : Word :=
  lineOf pc + BitVec.ofInt 64 (128 * disp) + BitVec.ofNat 64 (8 * slot.toNat)

/-- The address of the next bundle in program order: the return address (R110). -/
def State.returnAddress (s : State) : Word := s.hart.npc

/-- A branch that compares member 0's registers (R18, R109). -/
def State.branch (s : State) (c : Cond) (signed : Bool) (a b : Reg) (disp : BitVec 6) (slot : BitVec 4) :
    Result :=
  if condHolds c signed (s.reg0 a) (s.reg0 b) then
    s.transfer (lineTarget s.hart.pc disp.toInt slot) true id
  else s.ok

/-- BR (R109). -/
def execBr (c : Cond) (a b : Reg) (disp : BitVec 6) (slot : BitVec 4) (s : State) : Result :=
  s.branch c true a b disp slot

/-- BRN (R109). -/
def execBrn (c : Cond) (a b : Reg) (disp : BitVec 6) (slot : BitVec 4) (s : State) : Result :=
  s.branch c false a b disp slot

/-- JMP (R110). -/
def execJmp (disp : BitVec 20) (slot : BitVec 4) (s : State) : Result :=
  s.transfer (lineTarget s.hart.pc disp.toInt slot) true id

/-- CALL: s1 receives the return address (R110). -/
def execCall (disp : BitVec 20) (slot : BitVec 4) (s : State) : Result :=
  let r := s.returnAddress
  s.transfer (lineTarget s.hart.pc disp.toInt slot) true fun s => s.setRegAll 1 r

/-- JR (R110). -/
def execJr (d a : Reg) (s : State) : Result :=
  let t := s.reg0 a
  let r := s.returnAddress
  if field t 2 0 != 0 || field t 63 56 != 0 then s.trap { cause := 4, sub := 2, val := t }
  else s.transfer t true fun s => s.setRegAll d r

end Sys2Proof.Machine
end

