-- ==== Sys2Proof/Machine/ScalarFloat.lean ====
section
/-! DEFINITION. Scalar floating point (R97 to R99). -/

namespace Sys2Proof.Machine

/-- The f32 in bits [31:0] of a register, exact (R97). -/
def f32Of (w : Word) : Ex := Fmt.f32.decode w.toNat

/-- An exact value rounded to f32 under RNE, bits [63:32] zero (R54, R97). -/
def f32Word (x : Ex) : Word := BitVec.ofNat 64 (rnd .f32 0 false x)

/-- Every member: s(D) := f of two f32 values, asynchronous. -/
def State.falu (s : State) (d a b : Reg) (f : Ex → Ex → Word) : Result :=
  (s.asyncRegs d fun i => f (f32Of (s.reg i a)) (f32Of (s.reg i b))).ok

/-- Every member: s(D) := f of one f32 value, asynchronous. -/
def State.falu1 (s : State) (d a : Reg) (f : Ex → Word) : Result :=
  (s.asyncRegs d fun i => f (f32Of (s.reg i a))).ok

/-- Conversion to a 64-bit integer: the exact integer, clamped (R99). -/
def cvtToInt (lo hi : Int) (rm : Nat) : Ex → Word
  | .nan => 0
  | .inf neg => BitVec.ofInt 64 (if neg then lo else hi)
  | .fin neg n d => BitVec.ofInt 64 (clampInt lo hi (roundInt rm neg n d))

/-- The nearest integral value, ties to even; a zero keeps the sign (R99). -/
def integral : Ex → Ex
  | .fin neg n d => .fin neg (roundMag 0 neg n d) 1
  | x => x

/-- FCVT of one register value (Table 04.5). -/
def convertScalar (k : CvtKind) (w : Word) : Word :=
  match k with
  | .f2i => cvtToInt (-(2 ^ 63)) (2 ^ 63 - 1) 0 (f32Of w)
  | .f2n => cvtToInt 0 (2 ^ 64 - 1) 0 (f32Of w)
  | .i2f => f32Word (.ofInt w.toInt)
  | .n2f => f32Word (.ofInt w.toNat)
  | .rint => f32Word (integral (f32Of w))
  | .f2it => cvtToInt (-(2 ^ 63)) (2 ^ 63 - 1) 1 (f32Of w)
  | .f2nt => cvtToInt 0 (2 ^ 64 - 1) 1 (f32Of w)

/-- FADD (R97). -/
def execFadd (d a b : Reg) (s : State) : Result := s.falu d a b fun x y => f32Word (.add 0 x y)
/-- FSUB (R97). -/
def execFsub (d a b : Reg) (s : State) : Result := s.falu d a b fun x y => f32Word (.add 0 x y.negate)
/-- FMUL (R97). -/
def execFmul (d a b : Reg) (s : State) : Result := s.falu d a b fun x y => f32Word (.mul x y)
/-- FMA: the addend is the old s(D) (R97). -/
def execFma (d a b : Reg) (s : State) : Result :=
  (s.asyncRegs d fun i =>
    f32Word (.add 0 (f32Of (s.reg i d)) (.mul (f32Of (s.reg i a)) (f32Of (s.reg i b))))).ok
/-- FMIN (R97, R53). -/
def execFmin (d a b : Reg) (s : State) : Result := s.falu d a b fun x y => f32Word (.min x y)
/-- FMAX (R97, R53). -/
def execFmax (d a b : Reg) (s : State) : Result := s.falu d a b fun x y => f32Word (.max x y)
/-- FCMP (R98). -/
def execFcmp (d a b : Reg) (s : State) : Result := s.falu d a b fcmpCode
/-- FCVT (R99). -/
def execFcvt (k : CvtKind) (d a : Reg) (s : State) : Result :=
  (s.asyncRegs d fun i => convertScalar k (s.reg i a)).ok
/-- FABS (R97). -/
def execFabs (d a : Reg) (s : State) : Result := s.falu1 d a fun x => f32Word x.abs
/-- FNEG (R97). -/
def execFneg (d a : Reg) (s : State) : Result := s.falu1 d a fun x => f32Word x.negate
/-- FDIV (R97). -/
def execFdiv (d a b : Reg) (s : State) : Result := s.falu d a b fun x y => f32Word (.div x y)
/-- FSQRT (R97). -/
def execFsqrt (d a : Reg) (s : State) : Result := s.falu1 d a fun x => f32Word x.sqrt

end Sys2Proof.Machine
end

