-- ==== Sys2Proof/Machine/System.lean ====
section
/-! DEFINITION. The system group (R112 to R117) and FENCE (R107, R108), with the end of a unit (R116, R361). -/

namespace Sys2Proof.Machine

/-- NOP (R112). -/
def execNop (s : State) : Result := s.ok

/-- TRAP: the system-call trap follows the bundle (R113). -/
def execTrap (n : BitVec 8) (s : State) : Result :=
  (s.modHart fun h => { h with after := some { cause := 0x14, val := n.setWidth 64 } }).ok

/-- DBG: the debug trap follows the bundle (R113). -/
def execDbg (n : BitVec 8) (s : State) : Result :=
  (s.modHart fun h => { h with after := some { cause := 0x13, sub := 1, val := n.setWidth 64 } }).ok

/-- TRET (R114). -/
def execTret (s : State) : Result := s.trapReturn

/-- YIELD: a pause, with no architectural effect (R115). -/
def execYield (s : State) : Result := s.ok

/-- CHEND ends the chunk (R112, R282). -/
def execChend (s : State) : Result := s.commitChunk.ok

/-! ### END -/

/-- The end of a root core's thread, on it or on a tiller: the DONE flag, STATE 0, the RSTART's status
(R361). -/
def State.endRoot (s : State) (g : Nat) : State :=
  let s := s.quiesce.writeBackNarrow 4
  let h := s.hart
  let r := s.rootOf g
  let t : TCtx := { ctx := h.ctx, pt0 := h.ptroot0, pt1 := h.ptroot1, priv := h.priv, cands := s.tlbOf (h.member 0).tile }
  let (s, failed) := if r.flaga = 0 then (s, none) else writeVirt s t r.flaga 1
  let status : EngStatus := match failed with
    | none => { code := 1 }
    | some c => { code := 3, sub := c, opnd := 4 }
  let s : State := match r.rstart with
    | some id => { s with ops := s.ops.map fun o => if o.id = id then { o with ended := some status } else o }
    | none => s
  let s := s.leave
  s.modRoot g fun r => { r.stopped with state := 0, rstart := none }

/-- The furrow's END: it issues nothing more, queues are released, loads into queues are discarded, links
are cleared (R116, R146, R149). The elements of older VGLKs and VSTCs, which need the links, come before that (R150). -/
def State.endOnTiller (s : State) : State :=
  let tiles := s.hart.members.map (·.tile)
  let s := s.commitChunk.settleOps fun o => o.kind == .glk || o.kind == .stc
  let s := s.modHart fun h =>
    { h with
      run := .ending, qst := 0
      members := h.members.map fun m => { m with link := none }
      vops := h.vops.map fun o => match o.kind with | .ldq _ => { o with discard := true } | _ => o }
  { s with vlinks := s.vlinks.filter fun p => !tiles.contains p.1 }

/-- END (R116, R361). It does not come past a RECVW that waits for its SENDE: the module goes back (R209, log 8). -/
def execEndUnit (s : State) : Result :=
  match s.hart.root with
  | some g => (s.commitChunk.endRoot g).ok
  | none => if s.hart.owed.isEmpty then s.endOnTiller.ok else .next (s.goBack s.hart.seen)

/-! ### WAITA -/

/-- The root core's STATE while it waits and when it goes on (Table 13.5). -/
def State.rootParks (s : State) (parked : Bool) : State :=
  match s.hart.root with
  | some g => s.modRoot g fun r => { r with state := if parked then 3 else 2 }
  | none => s

/-- The checks of WAITA (R117). -/
def State.checkWaita (s : State) (ea : Word) : Except TrapInfo MAcc :=
  match s.checkAccess 0 .read ea 8 with
  | .error t => .error t
  | .ok x => if x.io then .error { cause := 8, val := ea } else .ok ⟨0, ea, x⟩

/-- WAITA (R117). -/
def execWaita (a b : Reg) (s : State) : Result :=
  match s.checkWaita (s.reg0 a) with
  | .error t => s.trap t
  | .ok acc =>
    if s.engineHolds [acc] 8 false then s.awaitAccess [acc] false
    else
      let want := s.reg0 b
      let s := (s.commitChunk.joinScalar [acc] 8 false).use 0 acc.x false
      let s := if acc.x.wb then s.readCoherent (s.hart.member 0).tile acc.x.pa 8 else s
      if s.peekWord acc.x.pa = want then (s.rootParks false).ok
      else ((s.rootParks true).modHart fun h => { h with woken := false }).wait (.waita (sectorOf acc.x.pa))

/-! ### FENCE -/

/-- The scope code that a fence of the furrow acts with (R108). -/
def State.fenceScope (s : State) (sc : Scope) : Nat :=
  let c := (Decode.scopeCode sc).toNat
  if s.hart.root.isSome then max c 3 else c

/-- FENCE (R107, R108, R289). -/
def execFence (k : FenceKind) (sc : Scope) (s : State) : Result :=
  let s := s.commitChunk.drainVector
  match k with
  | .acq => s.ok
  | .rel | .full => (s.writeBackNarrow (s.fenceScope sc)).ok

end Sys2Proof.Machine
end

