-- ==== Sys2Proof/Machine/Furrow.lean ====
section
/-! DEFINITION. Furrow and iteration-ring instructions (R205 to R218). -/

namespace Sys2Proof.Machine

/-! ### FID, FLEN, SENDE, RECVW -/

/-- FID (R208). -/
def execFid (d : Reg) (s : State) : Result :=
  s.onTiller fun s => (s.setRegs d fun i => BitVec.ofNat 64 i).ok

/-- FLEN (R208). -/
def execFlen (d : Reg) (s : State) : Result :=
  s.onTiller fun s => (s.setRegAll d (BitVec.ofNat 64 s.hart.len)).ok

/-- The member that a SENDE of member `i` reaches (R209). -/
def Hart.east (h : Hart) (i : Nat) : Option Nat :=
  if i + 1 < h.len then some (i + 1) else if h.ringf then some 0 else none

/-- A value reaches member `d`: it is held for a RECVW, or confirms one that ran ahead; none where it
contradicts that one. -/
def Hart.deliver (h : Hart) (d : Nat) (v : Word) : Option Hart :=
  match h.owed.find? fun p => p.1 == d with
  | none => some (h.modMember d fun m => { m with sende := m.sende ++ [v] })
  | some p =>
    if p.2 = v then some { h with owed := h.owed.erase p, seen := h.seen ++ [(d, v)] } else none

/-- SENDE values of the members, from member `i` on. -/
def State.sendFrom (a : Reg) (s0 : State) : List Nat → State → State × Bool
  | [], s => (s, true)
  | i :: l, s =>
    match s.hart.east i with
    | none => State.sendFrom a s0 l s
    | some d =>
      match s.hart.deliver d (s0.reg i a) with
      | some h => State.sendFrom a s0 l { s with hart := h }
      | none => (s.goBack (s.hart.seen ++ [(d, s0.reg i a)]), false)

/-- Every value that the furrow received ahead is confirmed; the way back is given up once no furrow owes one. -/
def State.settleOwed (s : State) : State :=
  if s.hart.owed.isEmpty then
    let s := s.modHart fun h => { h with seen := [], foreseen := [] }
    { s with undo := if s.others.all fun h => h.owed.isEmpty then none else s.undo }
  else s

/-- SENDE (R209, R210). -/
def execSende (a : Reg) (s : State) : Result :=
  s.onTiller fun s =>
    if 8 ≤ s.hart.bal then s.illegal 1
    else
      match State.sendFrom a s s.ids s with
      | (t, true) => (t.modHart fun h => { h with bal := h.bal + 1 }).settleOwed.ok
      | (t, false) => .next t

/-- The value that member `i`'s RECVW receives, and the furrow after it took it (R209, log 8). -/
def Hart.receive (h : Hart) (t i : Nat) : Word × Hart :=
  if i = 0 && !h.ringf then (0, h)
  else
    match (h.member i).sende with
    | v :: l => (v, h.modMember i fun m => { m with sende := l })
    | [] =>
      match h.foreseen.find? fun p => p.1 == i with
      | some p => (p.2, { h with owed := h.owed ++ [p], foreseen := h.foreseen.erase p })
      | none =>
        let v := BitVec.ofNat 64 (Config.choose t [209, (h.member i).tile])
        (v, { h with owed := h.owed ++ [(i, v)] })

/-- RECVWs of the members. -/
def Hart.receiveAll (d : Reg) (t : Nat) : List Nat → Hart → Hart
  | [], h => h
  | i :: l, h =>
    let (v, h) := h.receive t i
    Hart.receiveAll d t l (h.modMember i fun m => m.asyncReg d v)

/-- RECVW (R209, R210). -/
def execRecvw (d : Reg) (s : State) : Result :=
  s.onTiller fun s =>
    if s.hart.ringf && decide (s.hart.bal ≤ 0) then s.illegal 1
    else
      let h := Hart.receiveAll d s.tick s.ids s.hart
      let undo := if h.owed.isEmpty || s.undo.isSome then s.undo else some s.snapshot
      ({ s with hart := { h with bal := h.bal - 1 }, undo := undo } : State).ok

/-! ### VOTE -/

/-- VOTE with a reduction of the members' values (R211). -/
def State.vote (s : State) (d a : Reg) (f : List Word → Word) : Result :=
  s.onTiller fun s => (s.asyncRegAll d (f (s.ids.map fun i => s.reg i a))).ok

/-- Reduction of a nonempty list by an operator. -/
def fold1 {α : Type} (e : α) (f : α → α → α) : List α → α
  | [] => e
  | x :: l => l.foldl f x

/-- VOTE.add (R211). -/
def execVoteAdd (d a : Reg) (s : State) : Result := s.vote d a (fold1 0 fun x y => x + y)
/-- VOTE.min. -/
def execVoteMin (d a : Reg) (s : State) : Result := s.vote d a (fold1 0 fun x y => if x.slt y then x else y)
/-- VOTE.max. -/
def execVoteMax (d a : Reg) (s : State) : Result := s.vote d a (fold1 0 fun x y => if x.slt y then y else x)
/-- VOTE.or. -/
def execVoteOr (d a : Reg) (s : State) : Result := s.vote d a (fold1 0 fun x y => x ||| y)
/-- VOTE.minn. -/
def execVoteMinn (d a : Reg) (s : State) : Result := s.vote d a (fold1 0 fun x y => if x.ult y then x else y)
/-- VOTE.maxn. -/
def execVoteMaxn (d a : Reg) (s : State) : Result := s.vote d a (fold1 0 fun x y => if x.ult y then y else x)
/-- VOTE.fadd: the canonical tree over member numbers (R62, R211). -/
def execVoteFadd (d a : Reg) (s : State) : Result :=
  s.vote d a fun l => f32Word (canonSum (fun x y => rnd32 (.add 0 x y)) (.fin true 0 1) (l.map f32Of))
/-- VOTE.fmin. -/
def execVoteFmin (d a : Reg) (s : State) : Result := s.vote d a fun l => f32Word (fold1 .nan Ex.min (l.map f32Of))
/-- VOTE.fmax. -/
def execVoteFmax (d a : Reg) (s : State) : Result := s.vote d a fun l => f32Word (fold1 .nan Ex.max (l.map f32Of))

/-! ### The iteration ring -/

/-- The ring of the running launch (R213). -/
def State.ringOf (s : State) : Option Ring :=
  match s.hart.unit with
  | none => none
  | some u => s.rings.find? (·.launch == u.launch)

/-- N, the launch's count of iterations. -/
def State.ringN (s : State) : Nat :=
  match s.hart.unit with
  | none => 0
  | some u => (match s.launch? u.launch with | some l => l.total | none => 0)

/-- Iteration `n` needs no wait: it is posted, or at or above N (R213, R215). -/
def State.posted (s : State) (n : Nat) : Bool :=
  decide (s.ringN ≤ n) ||
    match s.ringOf with
    | none => true
    | some r => decide (n < r.low) || r.posted.contains n

/-- ITR words need STATUS.RING (R212). -/
def State.withRing (s : State) (f : State → Result) : Result :=
  s.onTiller fun s => if s.hart.ring then f s else s.illegal

/-- The state with the ring of the running launch changed. -/
def State.modRing (s : State) (f : Ring → Ring) : State :=
  match s.hart.unit with
  | none => s
  | some u => { s with rings := s.rings.map fun r => if r.launch = u.launch then f r else r }

/-- IPOST (R214). -/
def execIpost (a : Reg) (s : State) : Result :=
  s.withRing fun s =>
    let n := (s.reg0 a).toNat
    let s := (s.commitChunk.drainVector).writeBackNarrow 3
    let low := match s.ringOf with | some r => r.low | none => 0
    if n < low || s.ringN ≤ n then s.ok
    else if low + 4096 ≤ n then s.wait .ipost
    else (s.modRing fun r => { r with posts := r.posts ++ [((s.hart.unit.map (·.ordinal)).getD 0, n)] }).ok

/-- IWAIT (R215). -/
def execIwait (a : Reg) (s : State) : Result :=
  s.withRing fun s =>
    let n := (s.reg0 a).toNat
    if s.posted n || (s.hart.park == some .iwait && s.hart.waits.isEmpty) then
      (s.modHart fun h => { h with waits := [] }).ok
    else (s.modHart fun h => { h with waits := [n] }).wait .iwait

/-- The first iterations from `a` to `a + n - 1` that are not posted and below N: as many as the prefix
needs (R216). -/
def State.unposted (s : State) (a n : Nat) : List Nat :=
  let (low, k) := match s.ringOf with | some r => (r.low, r.posted.length) | none => (0, 0)
  let lo := max a low
  ((numsFrom lo (min (k + 17) (min (a + n) s.ringN - lo))).filter fun i => !s.posted i)

/-- The prefix of VIWAIT and the iterations that it arms (R216). -/
def State.prefixOf (s : State) (a n : Nat) : Nat × List Nat :=
  let u := s.unposted a n
  match u[16]? with
  | some x => (x - a, u.take 16)
  | none => (n, u)

/-- VIWAIT (R216). -/
def execViwait (d a b : Reg) (s : State) : Result :=
  s.withRing fun s =>
    let done := fun (c : Nat) =>
      ((s.modHart fun h => { h with waits := [] }).asyncRegAll d (BitVec.ofNat 64 c)).ok
    match s.hart.park with
    | some (.viwait c) => if s.hart.waits.isEmpty then done c else s.wait (.viwait c)
    | _ =>
      let (c, u) := s.prefixOf (s.reg0 a).toNat (s.reg0 b).toNat
      if u.isEmpty then done c else (s.modHart fun h => { h with waits := u }).wait (.viwait c)

/-- The waits of a furrow of the launch after a post (R213). -/
def Hart.freed (h : Hart) (launch n : Nat) : Hart :=
  match h.unit with
  | some u => if u.launch = launch then { h with waits := h.waits.filter (· != n) } else h
  | none => h

/-- An undelivered post acts before an IRSET of unit `u`: it is the unit's own, or one that after it would have parked,
since n ≥ 0 + 4096 (R214, R217). -/
def actsBefore (u : UnitRef) (p : Nat × Nat) : Bool := p.1 == u.ordinal || decide (4096 ≤ p.2)

/-- The iterations of the undelivered posts that act before an IRSET of the running unit. -/
def State.olderPosts (s : State) : List Nat :=
  match s.hart.unit, s.ringOf with
  | some u, some r => (r.posts.filter (actsBefore u)).map (·.2)
  | _, _ => []

/-- IRSET (R217). What a post that acts before it posts, it clears; other posts under way act after it, unless they were
delivered before (log 25). -/
def execIrset (s : State) : Result :=
  s.withRing fun s =>
    let s := s.commitChunk
    match s.hart.unit with
    | none => s.ok
    | some u =>
      ((s.olderPosts.foldl (fun (s : State) n => s.mapHarts fun h => h.freed u.launch n) s).modRing fun r =>
        { r with low := 0, posted := [], posts := r.posts.filter fun p => !actsBefore u p }).ok

end Sys2Proof.Machine
end

