-- ==== Sys2Proof/Machine/VectorConfig.lean ====
section
/-! DEFINITION. Vector configuration: SETVL (R129 to R132), WCFG (R152 to R155), ACCFG (R156) and the
load-data queues (R143, R145). -/

namespace Sys2Proof.Machine

/-! ### SETVL -/

/-- The furrow after a grant of `n` elements of a width (R132, R37). -/
def Hart.granted (h : Hart) (w : Width) (n t : Nat) : Hart :=
  let h1 : Hart := { h with vw := Decode.widthCode w }
  { h1.discardVector with
    vl := BitVec.ofNat 19 n, els := 0, hwm := [], qst := 0, vmax := BitVec.ofNat 19 h.capacity
    shares := sharesFor (h.members.map Member.cap) n h1.w
    members := h.members.map fun m => (m.forgetAll (t + 1)).takeLanes }

/-- VMAX(w) as recomputed now (R36, R130). -/
def Hart.vmaxFor (h : Hart) (w : Width) : Nat := h.capacity / (widthBits (Decode.widthCode w) / 8)

/-- SETVL without a pre-emption request (R130, R132). -/
def State.setVl (s : State) (w : Width) (d a : Reg) : Result :=
  let n := min (s.reg0 a).toNat (s.hart.vmaxFor w)
  ((s.modHart fun h => h.granted w n s.tick).setRegAll d (BitVec.ofNat 64 n)).ok

/-- SETVL: the pre-emption point (R129 to R132, R343). Where the context store has no room, SETVL waits for it
(log 29); behind a RECVW that stands ahead of its SENDE the module goes back to that RECVW (R209, log 8). -/
def execSetvl (w : Width) (d a : Reg) (s : State) : Result :=
  s.onTiller fun s =>
    if s.hart.preemptable && !s.hart.owed.isEmpty then .next (s.goBack s.hart.seen)
    else if s.hart.preemptable then
      match s.saveUnit 1 0 (s.reg0 a) false none true with
      | some t => .next t
      | none => s.wait .drain
    else s.setVl w d a

/-! ### WCFG -/

/-- The index pairs of a member after its modes change: a pair that stays in index mode keeps its entries
(R154). -/
def Member.renumber (m : Member) (wm : BitVec 8) : List IxPair :=
  let old := pairsIn m.wmode 2
  (pairsIn wm 2).map fun w =>
    match findPos (· == w) 0 old with
    | some (n, _) => m.ix.getD n {}
    | none => {}

/-- Steps 1 to 4 of WCFG on one member: the pairs that leave cache mode are written back and
invalidated; the modes change; R154. -/
def Member.configure (m : Member) (wm : BitVec 8) (epoch : Nat) : Member :=
  let m1 : Member := ({ m.leaveCache wm with wmode := wm, ix := m.renumber wm } : Member).takeLanes
  if pairsIn m.wmode 1 = pairsIn wm 1 then m1
  else { m1.forgetAll epoch with acc := [], accEpoch := epoch, live := 0 }

/-- The furrow after WCFG (R153). -/
def Hart.configure (h : Hart) (wm : BitVec 8) (epoch : Nat) : Hart :=
  let h1 : Hart := { h with members := h.members.map fun m => m.configure wm epoch }
  { h1 with
    vl := 0, els := 0, qst := 0, hwm := [], vmax := BitVec.ofNat 19 h1.capacity
    shares := h.members.map fun _ => 0 }

/-- The modes as WMODE lays them out (Table 01.5). -/
def modeWord (p0 p1 p2 p3 : PairMode) : BitVec 8 :=
  Decode.modeCode p3 ++ Decode.modeCode p2 ++ Decode.modeCode p1 ++ Decode.modeCode p0

/-- WCFG (R152 to R155, R257). -/
def execWcfg (p0 p1 p2 p3 : PairMode) (s : State) : Result :=
  s.onTiller fun s =>
    let wm := modeWord p0 p1 p2 p3
    match s.ids.find? fun i => s.tmapOf (s.hart.member i).tile == 2 && modesNeedStack wm with
    | some i => s.trap { cause := 1, sub := 5, val := s.slotWord, member := i }
    | none => ((s.commitChunk.drainVector.drainThresher).modHart fun h => h.configure wm (s.tick + 1)).ok

/-! ### ACCFG -/

/-- Older thresher commands complete; an open chunk ends first. -/
def State.awaitThresher (s : State) : State :=
  if s.hart.members.all fun m => m.tq.isEmpty then s else s.commitChunk.drainThresher

/-- ACCFG (R156). -/
def execAccfg (g : BitVec 2) (s : State) : Result :=
  s.onTiller fun s =>
    let s := s.awaitThresher
    (s.modHart fun h => h.mapMembers fun _ m =>
      if m.geo = g then m else { m with geo := g, live := 0, acc := [], accEpoch := s.tick + 1 }).ok

/-! ### Queues -/

/-- The state with a queue's field replaced. -/
def State.modQueue (s : State) (q head count : Nat) (bound : Bool) (depth base : Nat) : State :=
  s.modHart fun h => { h with qst := setQueue h.qst q head count bound depth base }

/-- The registers of a run. -/
def runOf (base depth : Nat) : List Nat := numsFrom base depth

/-- The registers become undefined (R143): a new epoch of the free values. -/
def State.forgetRegs (s : State) (l : List Nat) : State :=
  s.modHart fun h => h.mapMembers fun _ m => { l.foldl Member.forget m with vEpoch := s.tick + 1 }

/-- Older VLDQs of a queue have delivered their data (R143). -/
def State.awaitQueue (s : State) (q : Nat) : State :=
  s.settleOps fun o => match o.kind with | .ldq k => k == q | _ => false

/-- QBIND breaks R143. -/
def bindFails (qst : Word) (q base depth : Nat) : Bool :=
  qBound qst q || decide (31 < base + depth - 1) ||
    (runOf base depth).any fun n => (queueOf qst n).isSome

/-- QBIND (R143); `depth` is d − 1. -/
def execQbind (q : BitVec 2) (base : VReg) (depth : BitVec 3) (s : State) : Result :=
  s.onTiller fun s =>
    let b := base.toNat
    let n := depth.toNat + 1
    if bindFails s.hart.qst q.toNat b n then s.illegal
    else (((s.awaitRegs (runOf b n) []).forgetRegs (runOf b n)).modQueue q.toNat 0 0 true n b).ok

/-- QDRAIN of a bound queue. -/
def State.drainQueue (s : State) (q : Nat) : State :=
  (s.awaitQueue q).modHart fun h => { h with qst := setQueue h.qst q 0 0 true (qDepth h.qst q) (qBase h.qst q) }

/-- QDRAIN (R143). -/
def execQdrain (q : BitVec 2) (s : State) : Result :=
  s.onTiller fun s => (if qBound s.hart.qst q.toNat then s.drainQueue q.toNat else s).ok

/-- QFREE (R143). -/
def execQfree (q : BitVec 2) (s : State) : Result :=
  s.onTiller fun s =>
    if qBound s.hart.qst q.toNat then
      let b := qBase s.hart.qst q.toNat
      let n := qDepth s.hart.qst q.toNat
      (((s.drainQueue q.toNat).forgetRegs (runOf b n)).modQueue q.toNat 0 0 false n b).ok
    else s.ok

/-- QSTAT (R143). -/
def execQstat (q : BitVec 2) (a : Reg) (s : State) : Result :=
  s.onTiller fun s =>
    (s.asyncRegAll a (BitVec.ofNat 64 (field s.hart.qst (16 * q.toNat + 15) (16 * q.toNat)))).ok

/-- QPOP (R145). -/
def execQpop (q : BitVec 2) (s : State) : Result :=
  s.onTiller fun s =>
    let w := s.hart.qst
    let n := q.toNat
    if !qBound w n || qCount w n == 0 then s.illegal 0 true
    else (s.modQueue n ((qHead w n + 1) % qDepth w n) (qCount w n - 1) true (qDepth w n) (qBase w n)).ok

end Sys2Proof.Machine
end

