-- ==== Sys2Proof/Machine/VectorMemory.lean ====
section
/-! DEFINITION. The vector memory instructions (R133 to R150): operands, the checks in element order, the
operation that goes into flight, and the fault at an element. -/

namespace Sys2Proof.Machine

/-- The launch that counts what a furrow or root-core thread issues (R310). -/
def Hart.launchOf (h : Hart) : Option Nat :=
  match h.unit with
  | some u => some u.launch
  | none => h.rlaunch

/-! ### Entries of the range scoreboard (R141) -/

/-- Entries in use by member `i`: vector operations, engine commands and ungathered MMAGs. -/
def State.entries (s : State) (i : Nat) : Nat :=
  let m := s.hart.member i
  s.hart.vops.length + (s.ops.filter fun o => o.entry && o.tile == m.tile).length
    + (m.tq.filter fun c => !c.ready).length

/-- Some member among `who` has no free entry. -/
def State.full (s : State) (who : List Nat) : Bool := who.any fun i => decide (Config.scoreboardEntries ≤ s.entries i)

/-- `f` once every member among `who` has a free entry: the oldest vector operation retires for it, or the
word waits for an engine command. -/
def State.withEntry (s : State) (who : List Nat) (f : State → Result) : Result :=
  if s.full who then
    let s1 := match s.hart.vops.head? with
      | some o => s.settleOps fun x => x.id == o.id
      | none => s
    if s1.full who then s.wait .drain else f s1
  else f s

/-! ### An instruction's elements -/

/-- A vector memory instruction with its operands resolved. -/
structure VRequest where
  kind : VKind
  /-- The data register. -/
  reg : Nat
  mask : Nat
  policy : Policy
  /-- The address of an element; none for a sentinel. -/
  addr : Nat → Option Word

/-- The instruction writes memory. -/
def VKind.stores (k : VKind) : Bool := k == .store || k == .stc

/-- The access that each element makes (R266). -/
def VKind.access (k : VKind) : AKind :=
  match k with
  | .load | .ldq _ => .read
  | .store => .write
  | .glk => .atomRead
  | .stc => .atomWrite

/-- Active elements with their addresses, in element order (R135). -/
def VRequest.active (q : VRequest) (h : Hart) : List (Nat × Word) :=
  h.range.filterMap fun i =>
    if h.melem q.mask i then (match q.addr i with | some a => some (i, a) | none => none) else none

/-- The checks of one element of an instruction with active elements `l` (R135, R136). A store to a sector of host
memory that its elements do not cover whole is of part of it, which is read and checked first (R375). -/
def State.checkElem (s : State) (k : AKind) (l : List (Nat × Word)) (i : Nat) (a : Word) : Except TrapInfo Xlat :=
  let mi := (s.hart.place i).1
  match s.checkAccess mi k a s.hart.e with
  | .error t => .error t
  | .ok x =>
    if x.io then .error { cause := 8, val := a, member := mi }
    else if k == .write && s.partFails x && !coversSector (l.map fun p => (p.2.toNat, s.hart.e)) a.toNat then
      .error { cause := 8, sub := 4, val := a, member := mi }
    else .ok x

/-- An element that passed its checks. -/
structure Checked where
  i : Nat
  a : Word
  x : Xlat
deriving DecidableEq, Repr

/-- The checks in element order: the elements before the first failure, and that failure with its element
and the elements after it. -/
def State.checkElems (s : State) (k : AKind) (all : List (Nat × Word)) :
    List (Nat × Word) → List Checked × Option (Nat × TrapInfo × List (Nat × Word))
  | [] => ([], none)
  | (i, a) :: l =>
    match s.checkElem k all i a with
    | .error t => ([], some (i, t, l))
    | .ok x =>
      let (cs, r) := s.checkElems k all l
      (⟨i, a, x⟩ :: cs, r)

/-- Elements above the fault that the module performs all the same (R135, R298). -/
def State.extraElems (s : State) (k : AKind) (all l : List (Nat × Word)) : List Checked :=
  l.filterMap fun p =>
    match s.checkElem k all p.1 p.2 with
    | .error _ => none
    | .ok x => if s.pick [135, p.1] 2 = 1 then some ⟨p.1, p.2, x⟩ else none

/-- The element as the operation holds it; a store captures its data (R140). -/
def VRequest.elem (q : VRequest) (h : Hart) (c : Checked) : VElem :=
  let (mi, p) := h.place c.i
  { i := c.i, member := mi, pos := p * h.e, pa := c.x.pa, uc := !c.x.wb, coh := c.x.coh
    leaf := if Pte.dirty c.x.pte then none else some c.x.leaf
    data := if q.kind.stores then bytesOf h.e (h.elem q.reg c.i) else List.replicate h.e 0 }

/-- The ranges of the scoreboard entry, by member (R141). -/
def rangesOf (h : Hart) (cs : List Checked) : List (Nat × Nat × Nat) :=
  (numsFrom 0 h.len).filterMap fun m =>
    let l := (cs.filter fun c => (h.place c.i).1 == m).map fun c => c.a.toNat
    match span l with
    | some (lo, hi) => some (m, lo, hi + h.e - 1)
    | none => none

/-- The translations of the elements are used; contradictions of the policy are counted (R269, R276). -/
def State.useElems (s : State) (q : VRequest) (cs : List Checked) : State :=
  let s := cs.foldl (fun (s : State) c => s.use (s.hart.place c.i).1 c.x (q.kind == .store)) s
  let p := match q.kind with | .glk | .stc => Policy.norm | _ => q.policy
  let hit := s.ids.filter fun m => cs.any fun c => (s.hart.place c.i).1 == m && !c.x.wb
  hit.foldl (fun (s : State) m => s.countPcx m p) s

/-- The failure bits that VSTC writes for inactive elements below `k` (R148). -/
def VRequest.inactive (q : VRequest) (h : Hart) (k : Nat) : List (Nat × Nat × Bool) :=
  let act := (q.active h).map (·.1)
  (h.range.filter fun i => decide (i < k) && !act.contains i).map fun i =>
    let (mi, p) := h.place i
    (mi, p, false)

/-- The operation goes into flight with the elements `cs`; `k` is VL, or the faulting element. -/
def State.launchVop (s : State) (q : VRequest) (cs : List Checked) (k : Nat) : State :=
  let h := s.hart
  let o : VOp := {
    id := s.nextId, kind := q.kind, reg := q.reg, mask := q.mask, policy := q.policy
    todo := cs.map (q.elem h), got := []
    fails := if q.kind = .stc then q.inactive h k else []
    ranges := rangesOf h cs, discard := false }
  let s : State := { s with nextId := s.nextId + 1 }
  let s := s.modHart fun h => { h with vops := h.vops ++ [o] }
  if o.todo.isEmpty then (s.vfinish o.id).vretire o.id else s

/-- The destination elements at or above a fault are undefined (R135). -/
def State.undefineElems (s : State) (q : VRequest) (l : List Nat) : State :=
  match q.kind with
  | .load | .glk =>
    s.modHart fun h => h.setElems q.reg (l.map fun i => (i, Config.choose s.tick [135, i, 1]))
  | _ => s

/-- A load's destination has been written up to byte `n` of it (R33). -/
def State.markReg (s : State) (q : VRequest) (n : Nat) : State :=
  if q.kind.stores then s else s.modHart fun h => h.raiseMark q.reg n

/-- The fault at element `k` (R135, R148, R298, R33): the elements below it have been performed, with some
of those above it for a load or a store. The mark is raised also where no element below `k` was active (log 43). -/
def State.elemFault (s : State) (q : VRequest) (cs : List Checked) (k : Nat) (t : TrapInfo)
    (rest : List (Nat × Word)) : State :=
  let extra := if q.kind = .stc then [] else s.extraElems q.kind.access (q.active s.hart) rest
  let s := s.useElems q cs
  let s := extra.foldl (fun (s : State) c => s.use (s.hart.place c.i).1 c.x (q.kind == .store)) s
  let s := (s.launchVop q (cs ++ extra) k).drainVector
  let s := (s.undefineElems q (k :: rest.map (·.1))).markReg q (k * s.hart.e)
  (s.modHart fun h => { h with els := BitVec.ofNat 19 k }).takeTrap t

/-- A fault of VLDQ discards the push (R146). -/
def State.pushFault (s : State) (q : VRequest) (cs : List Checked) (t : TrapInfo) : State :=
  ((s.useElems q cs).modHart fun h => { h with els := 0 }).takeTrap t

/-- The instruction, once it has an entry of the scoreboard (R135, R140, R144, R148). -/
def State.vissue (s : State) (q : VRequest) : Result :=
  let (cs, r) := s.checkElems q.kind.access (q.active s.hart) (q.active s.hart)
  match r with
  | some (k, t, rest) =>
    match q.kind with
    | .ldq _ => .next (s.pushFault q cs t)
    | _ => .next (s.elemFault q cs k t rest)
  | none =>
    let n := s.hart.vl.toNat
    let s := ((s.useElems q cs).launchVop q cs n).markReg q (n * s.hart.e)
    (s.modHart fun h => { h with els := 0 }).ok

/-! ### Operands -/

/-- The operands of a vector memory instruction: its data register, whether that is a destination, and the
index register with its width. -/
structure VArgs where
  data : VReg
  dest : Bool
  index : Option (IdxW × VReg) := none

/-- An operand breaks R134. -/
def VArgs.bad (v : VArgs) (h : Hart) : Bool :=
  (match v.index with
    | none => false
    | some (w, b) =>
      (match w with | .n16 => h.vw == 0 | .n32 => h.vw != 2) || (sourceReg h.qst b.toNat).isNone) ||
    (if v.dest then (queueOf h.qst v.data.toNat).isSome else (sourceReg h.qst v.data.toNat).isNone)

/-- Registers that the instruction names. -/
def VArgs.regs (v : VArgs) (h : Hart) : List Nat :=
  (if v.dest then v.data.toNat else h.src v.data.toNat) ::
    match v.index with
    | none => []
    | some (_, b) => [h.src b.toNat]

/-- idx(i), or none for a sentinel (R133). -/
def indexOf (h : Hart) (w : IdxW) (b : VReg) (i : Nat) : Option Nat :=
  let n := match w with | .n16 => 16 | .n32 => 32
  let x := h.source b i % 2 ^ n
  if x = 2 ^ n - 1 then none else some x

/-- A vector memory instruction: R134, the entry, the wait for its operands, and its elements. -/
def State.vectorMemory (s : State) (kind : VKind) (p : Policy) (v : VArgs) (m : MReg)
    (addr : Hart → Nat → Option Word) : Result :=
  s.onTiller fun s =>
    if v.bad s.hart then s.illegal
    else s.commitChunk.withEntry s.ids fun s =>
      let s := s.awaitRegs (v.regs s.hart) [m.toNat]
      s.vissue { kind := kind, reg := (v.regs s.hart).headD 0, mask := m.toNat, policy := p, addr := addr s.hart }

/-- Contiguous addresses. -/
def contigFrom (s : State) (a : Reg) (h : Hart) (i : Nat) : Option Word := some (eaContig (s.reg0 a) i h.e)

/-- Strided addresses. -/
def strideFrom (s : State) (a b : Reg) (_ : Hart) (i : Nat) : Option Word := some (eaStride (s.reg0 a) (s.reg0 b) i)

/-- Indexed addresses. -/
def indexFrom (s : State) (w : IdxW) (a : Reg) (b : VReg) (h : Hart) (i : Nat) : Option Word :=
  match indexOf h w b i with
  | some k => some (eaIndex (s.reg0 a) k h.e)
  | none => none

/-- VLD (R133, R135). -/
def execVld (p : Policy) (v : VReg) (a : Reg) (m : MReg) (s : State) : Result :=
  s.vectorMemory .load p { data := v, dest := true } m (contigFrom s a)

/-- VLDS (R133, R135). -/
def execVlds (p : Policy) (v : VReg) (a b : Reg) (m : MReg) (s : State) : Result :=
  s.vectorMemory .load p { data := v, dest := true } m (strideFrom s a b)

/-- VLDX (R133, R135). -/
def execVldx (p : Policy) (w : IdxW) (v : VReg) (a : Reg) (b : VReg) (m : MReg) (s : State) : Result :=
  s.vectorMemory .load p { data := v, dest := true, index := some (w, b) } m (indexFrom s w a b)

/-- VST (R133, R135). -/
def execVst (p : Policy) (v : VReg) (a : Reg) (m : MReg) (s : State) : Result :=
  s.vectorMemory .store p { data := v, dest := false } m (contigFrom s a)

/-- VSTS (R133, R135). -/
def execVsts (p : Policy) (v : VReg) (a b : Reg) (m : MReg) (s : State) : Result :=
  s.vectorMemory .store p { data := v, dest := false } m (strideFrom s a b)

/-- VSTX (R133, R135). -/
def execVstx (p : Policy) (w : IdxW) (v : VReg) (a : Reg) (b : VReg) (m : MReg) (s : State) : Result :=
  s.vectorMemory .store p { data := v, dest := false, index := some (w, b) } m (indexFrom s w a b)

/-- VGLK (R147). -/
def execVglk (p : Policy) (w : IdxW) (v : VReg) (a : Reg) (b : VReg) (m : MReg) (s : State) : Result :=
  s.vectorMemory .glk p { data := v, dest := true, index := some (w, b) } m (indexFrom s w a b)

/-- VSTC (R148). -/
def execVstc (p : Policy) (w : IdxW) (v : VReg) (a : Reg) (b : VReg) (m : MReg) (s : State) : Result :=
  s.vectorMemory .stc p { data := v, dest := false, index := some (w, b) } m (indexFrom s w a b)

/-! ### VLDQ -/

/-- The tail entry of a queue. -/
def tailEntry (qst : Word) (q : Nat) : Nat := qBase qst q + (qHead qst q + qCount qst q) % qDepth qst q

/-- VLDQ with an entry of the scoreboard: the push (R144). -/
def State.push (s : State) (q : Nat) (p : Policy) (m : MReg) (addr : Nat → Option Word) : Result :=
  let w := s.hart.qst
  let n := tailEntry w q
  let s := s.awaitRegs [n] [m.toNat]
  let r := s.vissue { kind := .ldq q, reg := n, mask := m.toNat, policy := p, addr := addr }
  match r with
  | .next t =>
    if t.signal = .done then
      .next (t.modQueue q (qHead w q) (qCount w q + 1) true (qDepth w q) (qBase w q))
    else r
  | _ => r

/-- VLDQ (R144, R146). -/
def execVldq (p : Policy) (q : BitVec 2) (a b : Reg) (m : MReg) (s : State) : Result :=
  s.onTiller fun s =>
    let w := s.hart.qst
    if !qBound w q.toNat then s.illegal
    else if qDepth w q.toNat ≤ qCount w q.toNat then s.illegal 6
    else s.commitChunk.withEntry s.ids fun s' => s'.push q.toNat p m (strideFrom s a b s'.hart)

end Sys2Proof.Machine
end

