-- ==== Sys2Proof/Machine/EngineOps.lean ====
section
/-! DEFINITION. What the engines share (R220 to R225): identifiers, statuses, the watermark, the accesses of
an operation and its stop, and the checks and ranges of the operands that are known at issue. -/

namespace Sys2Proof.Machine

/-! ### Channels (R26, R225) -/

/-- A status word (Table 08.2). -/
def EngStatus.word (e : EngStatus) (path : Nat) : Word :=
  BitVec.ofNat 64 (e.detail % 2 ^ 40 * 2 ^ 24 + path % 16 * 2 ^ 20 + e.opnd % 16 * 2 ^ 16 + e.sub % 256 * 2 ^ 8 + e.code % 256)

/-- The watermark steps over completed identifiers (R26). -/
def advanceMark : Nat → Word → List Nat → Word × List Nat
  | 0, w, done => (w, done)
  | fuel + 1, w, done =>
    if done.contains w.toNat then advanceMark fuel (w + 1) (done.filter (· != w.toNat)) else (w, done)

/-- Identifier `id` of a channel completes with a status word; the last 256 are kept (R225). -/
def Channel.complete (c : Channel) (id : Nat) (st : Word) : Channel :=
  let done := insertNat id c.done
  let (w, rest) := advanceMark (done.length + 1) c.txw done
  { c with
    txw := w, done := rest
    stat := (insert c.stat id st).filter fun p => decide (c.txn.toNat ≤ p.1 + 256) }

/-- TXSTAT of an identifier; `pending` is the word of one that has not completed (R225, R228). -/
def Channel.status (c : Channel) (id : Nat) (pending : Word) : Word :=
  if c.txn.toNat ≤ id || decide (id + 256 < c.txn.toNat) || id == 0 then 6
  else match lookup c.stat id with
    | some w => w
    | none => if id < c.txw.toNat then 6 else pending

/-- The word of an operation that has not completed: its progress and its path so far (Table 08.2). -/
def EngOp.pendingWord (o : EngOp) : Word :=
  EngStatus.word { code := 0, detail := if o.kind = .rstart then 0 else o.prog } o.path

/-- The word of an identifier of a channel set that has not completed. -/
def State.pendingWord (s : State) (set chan id : Nat) : Word :=
  match s.ops.find? fun o => o.chset == set && o.chan == chan && o.ident == id && o.kind != .wld with
  | some o => o.pendingWord
  | none => 0

/-! ### Operations in flight -/

/-- The state with an operation changed. -/
def State.modOp (s : State) (id : Nat) (f : EngOp → EngOp) : State :=
  { s with ops := s.ops.map fun o => if o.id = id then f o else o }

/-- The operation ends with a status; its completion follows (R222). -/
def State.endOp (s : State) (id : Nat) (e : EngStatus) : State := s.modOp id fun o => { o with ended := some e }

/-- Why an operation stops: code, cause, operand and byte offset (R223, R224). -/
structure Stop where
  code : Nat
  sub : Nat
  opnd : Nat
  off : Nat
deriving DecidableEq, Repr

/-- The operation ends at a stop. -/
def State.stopOp (s : State) (id : Nat) (x : Stop) : State :=
  s.endOp id { code := x.code, sub := x.sub, opnd := x.opnd, detail := x.off }

/-- The context in which an operation translates (R223). -/
def EngOp.tctx (s : State) (o : EngOp) : TCtx :=
  let mine := s.etlb.filterMap fun p => if p.1 = o.die then some p.2 else none
  { ctx := o.ctx, pt0 := o.pt0, pt1 := o.pt1, priv := o.priv, cands := o.tlb ++ mine }

/-- The die of the engines at a physical address: those of its stack, or, outside HBM, a port of the module
(R4, R355). -/
def State.engineDie (s : State) (pa : Nat) : Nat :=
  match ownerPc s.rmF.toNat pa with
  | some g => g / 128
  | none => 8

/-- The operation in the engine that acts at `va`: the streamer of a source sector of COPY, the streamer or plough
sequencer of a destination row, the reduction engine at DST (R355). -/
def State.placed (s : State) (o : EngOp) (k : AKind) (va : Word) : EngOp :=
  match translate s { ctx := o.ctx, pt0 := o.pt0, pt1 := o.pt1, priv := o.priv, cands := o.tlb } k va with
  | .ok x => { o with die := s.engineDie x.pa }
  | .error _ => o

/-- The translations that an access used are kept by the operation, and after a walk by the engine that acts (R269,
R270, R273). -/
def State.useOp (s : State) (o : EngOp) (x : Xlat) (dirty : Bool) : State :=
  let s := s.useXlat .other x dirty
  let l := x.installs dirty
  let mine := install l (s.etlb.filterMap fun p => if p.1 = o.die then some p.2 else none)
  let s : State := if x.cached then s
    else { s with etlb := mine.map (fun e => (o.die, e)) ++ s.etlb.filter fun p => p.1 != o.die }
  s.modOp o.id fun o => { o with tlb := install l o.tlb }

/-- One byte's translation for an operation: no IO page (R223). -/
def State.opXlat (s : State) (o : EngOp) (k : AKind) (opnd : Nat) (base : Word) (off : Nat) : Except Stop Xlat :=
  match translate s (o.tctx s) k (base + BitVec.ofNat 64 off) with
  | .error e => .error ⟨3, e.1, opnd, off⟩
  | .ok x => if x.io then .error ⟨3, 8, opnd, off⟩ else .ok x

/-- A sector access is refused by an owner tag (R224, R363). -/
def State.opOwner (s : State) (o : EngOp) (opnd off pa : Nat) : Except Stop Unit :=
  if s.ownerRefuses pa o.ctx then .error ⟨2, 0, opnd, off⟩ else .ok ()

/-- The pieces of `n` bytes of an operand from offset `off` on, cut at sector boundaries: (offset, bytes). -/
def sectorPieces : Nat → Word → Nat → Nat → List (Nat × Nat)
  | 0, _, _, _ => []
  | fuel + 1, base, off, n =>
    if n = 0 then []
    else
      let k := min n (32 - (base + BitVec.ofNat 64 off).toNat % 32)
      (off, k) :: sectorPieces fuel base (off + k) (n - k)

/-- The pieces of a range. -/
def piecesOf (base : Word) (off n : Nat) : List (Nat × Nat) := sectorPieces (n / 32 + 2) base off n

/-- Pieces read by an operation, in order; the owner tags are checked when `tags` (R223, R224). -/
def State.opReadPieces (s : State) (o : EngOp) (opnd : Nat) (base : Word) (tags : Bool) :
    List (Nat × Nat) → Except Stop (State × List Byte)
  | [] => .ok (s, [])
  | (off, n) :: l =>
    match s.opXlat o .read opnd base off with
    | .error x => .error x
    | .ok x =>
      if tags && s.ownerRefuses x.pa o.ctx then .error ⟨2, 0, opnd, off⟩
      else
        let s := (s.useOp o x false).flushSector x.pa false
        match s.opReadPieces o opnd base tags l with
        | .error x => .error x
        | .ok (s', bs) => .ok (s', s.peekBytes x.pa n ++ bs)

/-- `n` bytes of an operand read by an operation. -/
def State.opRead (s : State) (o : EngOp) (opnd : Nat) (base : Word) (off n : Nat) (tags : Bool := true) :
    Except Stop (State × List Byte) :=
  s.opReadPieces o opnd base tags (piecesOf base off n)

/-- A piece of `n` bytes within a sector is written by an operation through a translation: the bytes are what `f` makes of
the state before. A write of part of a sector of host memory that fails its check stops it (R224, R363, R375). -/
def State.opPut (s : State) (o : EngOp) (opnd off : Nat) (x : Xlat) (n : Nat) (f : State → List Byte) :
    State × Option Stop :=
  if s.ownerRefuses x.pa o.ctx then (s, some ⟨2, 0, opnd, off⟩)
  else if n != 32 && s.partFails x then (s, some ⟨3, 8, opnd, off⟩)
  else
    let s := s.useOp o x true
    (s.putCoherent .other x.pa (f s), none)

/-- Pieces written by an operation, in order, until one stops (R223, R224). -/
def State.opWritePieces (s : State) (o : EngOp) (opnd : Nat) (base : Word) :
    List (Nat × Nat) → List Byte → State × Option Stop
  | [], _ => (s, none)
  | (off, n) :: l, bs =>
    match s.opXlat o .write opnd base off with
    | .error x => (s, some x)
    | .ok x =>
      match s.opPut o opnd off x n fun _ => bs.take n with
      | (s, none) => s.opWritePieces o opnd base l (bs.drop n)
      | r => r

/-- Bytes written by an operation from offset `off` of an operand on. -/
def State.opWrite (s : State) (o : EngOp) (opnd : Nat) (base : Word) (off : Nat) (bs : List Byte) :
    State × Option Stop :=
  s.opWritePieces o opnd base (piecesOf base off bs.length) bs

/-- Doubleword `k` of bytes. -/
def wordAt (bs : List Byte) (k : Nat) : Word := BitVec.ofNat 64 (ofBytes ((bs.drop (8 * k)).take 8))

/-! ### Operands known at issue -/

/-- What the operands of a command decide at issue: how it ends without acting, its pieces (COPY), and the
ranges of its entry (Table 08.1). -/
structure IssuePlan where
  ended : Option EngStatus := none
  todo : List Nat := []
  rlo : Nat := 1
  rhi : Nat := 0
  wlo : Nat := 1
  whi : Nat := 0

/-- MALFORMED. -/
def malformed (opnd : Nat := 0) : EngStatus := { code := 4, opnd := opnd }

/-- A range of `n` bytes; empty for 0. -/
def rangeOf (a : Word) (n : Nat) : Nat × Nat := if n = 0 then (1, 0) else (a.toNat, a.toNat + n - 1)

/-- Byte ranges share a byte, modulo 2^64. -/
def circOverlap (a : Word) (n : Nat) (b : Word) (m : Nat) : Bool :=
  decide ((b - a).toNat < n) && decide (0 < m) || (decide ((a - b).toNat < m) && decide (0 < n))

/-- The checks of COPY on its operands (R230). -/
def copyMalformed (args : List Word) : Bool :=
  let dst := args.getD 0 0
  let src := args.getD 1 0
  let n := (args.getD 2 0).toNat
  let c := args.getD 3 0
  let opr := field c 2 0
  let fmt := field c 7 4
  field c 63 12 != 0 || bit c 3 || opr == 7 || field c 10 8 == 7 || decide (2 ^ 40 ≤ n) ||
    (opr != 0 && ((fmt != 0 && fmt != 1 && fmt != 8) ||
      dst.toNat % 4 != 0 || src.toNat % 4 != 0 || n % 4 != 0)) ||
    circOverlap dst n src n

/-- COPY at issue (R230). -/
def copyPlan (args : List Word) : IssuePlan :=
  let n := (args.getD 2 0).toNat
  if copyMalformed args then { ended := some malformed }
  else if n = 0 then { ended := some { code := 1 } }
  else
    let (rlo, rhi) := rangeOf (args.getD 1 0) n
    let (wlo, whi) := rangeOf (args.getD 0 0) n
    { todo := (piecesOf (args.getD 0 0) 0 n).map (·.1), rlo := rlo, rhi := rhi, wlo := wlo, whi := whi }

/-- The source rows of a row operation: whether s1 and s2 are stepped rows, and whether s1 is a pattern. -/
def plowUses (f fill : Nat) : Bool × Bool × Bool :=
  match f with
  | 0 | 5 => (true, false, false)
  | 1 => (false, false, fill == 2)
  | _ => (true, true, false)

/-- The checks of PLOW on its operands (R232). -/
def plowMalformed (f : Nat) (args : List Word) : Bool :=
  let c := args.getD 3 0
  let fill := field c 17 16
  let (u1, u2, pat) := plowUses f fill
  field c 63 18 != 0 || (if f = 1 then fill == 3 else fill != 0) ||
    (args.getD 0 0).toNat % 32 != 0 || ((u1 || pat) && (args.getD 1 0).toNat % 32 != 0) ||
    (u2 && (args.getD 2 0).toNat % 32 != 0)

/-- ROWS of a PLOW control word. -/
def plowRows (args : List Word) : Nat := field (args.getD 3 0) 15 0

/-- PLOW at issue (R232). -/
def plowPlan (f : Nat) (args : List Word) : IssuePlan :=
  let n := plowRows args
  let (u1, u2, pat) := plowUses f (field (args.getD 3 0) 17 16)
  if plowMalformed f args then { ended := some malformed }
  else if n = 0 then { ended := some { code := 1 } }
  else
    let rows := (if u1 then [rangeOf (args.getD 1 0) (1024 * n)] else [])
      ++ (if u2 then [rangeOf (args.getD 2 0) (1024 * n)] else [])
      ++ (if pat then [rangeOf (args.getD 1 0) 1024] else [])
    let (rlo, rhi) := match span (rows.flatMap fun r => [r.1, r.2]) with | some r => r | none => (1, 0)
    let (wlo, whi) := rangeOf (args.getD 0 0) (1024 * n)
    { rlo := rlo, rhi := rhi, wlo := wlo, whi := whi }

/-- The whole address space. -/
def everywhere : Nat := 2 ^ 64 - 1

/-- RDC at issue (R236, Table 08.1). -/
def rdcPlan (args : List Word) : IssuePlan :=
  let a := args.getD 0 0
  if a.toNat % 64 != 0 then { ended := some (malformed 3) }
  else { rlo := a.toNat, rhi := a.toNat + 63, wlo := 0, whi := everywhere }

/-- SPRED at issue (R238, Table 08.1); the record is looked at afterwards. -/
def spredPlan (args : List Word) : IssuePlan :=
  let (rlo, rhi) := rangeOf (args.getD 1 0) (8 * (args.getD 2 0).toNat)
  if (args.getD 0 0).toNat % 64 != 0 || (args.getD 1 0).toNat % 8 != 0 || field (args.getD 3 0) 63 16 != 0 then
    { ended := some (malformed 3) }
  else { rlo := rlo, rhi := rhi, wlo := 0, whi := everywhere }

/-- RSTART at issue (Table 08.1). -/
def rstartPlan (args : List Word) : IssuePlan :=
  let (rlo, rhi) := rangeOf (args.getD 1 0) 64
  { rlo := rlo, rhi := rhi }

/-- A command at issue. -/
def issuePlan (k : EngKind) (args : List Word) : IssuePlan :=
  match k with
  | .copy => copyPlan args
  | .plow f => plowPlan f args
  | .rdc => rdcPlan args
  | .spred => spredPlan args
  | .rstart | .wld => rstartPlan args

/-! ### Issue -/

/-- One member's command (R220, R221). -/
def State.issueOne (s : State) (k : EngKind) (d : Reg) (chan i : Nat) (args : List Word) : State :=
  let h := s.hart
  let m := h.member i
  let id := (s.channel m.chset chan).txn
  let s := s.modChannel m.chset chan fun c => { c with txn := c.txn + 1 }
  let s := s.modHart fun h => h.modMember i fun m => m.setReg s.tick d id
  if args.getD 0 0 = 0 then s.modChannel m.chset chan fun c => c.complete id.toNat 1
  else
    let p := issuePlan k args
    let o : EngOp := {
      id := s.nextId, kind := k, chset := m.chset, chan := chan, ident := id.toNat, launch := h.launchOf
      tile := m.tile, die := dieOf m.tile, ctx := h.ctx, pt0 := h.ptroot0, pt1 := h.ptroot1, priv := h.priv
      args := args, todo := p.todo, prog := 0, path := 0, pattern := none, ended := p.ended, cancelled := false
      entry := true, rlo := p.rlo, rhi := p.rhi, wlo := p.wlo, whi := p.whi }
    ({ s with ops := s.ops ++ [o], nextId := s.nextId + 1 } : State).countUp h.launchOf 1

/-- A command of every member with its own operands (R220). -/
def State.issueAll (s : State) (k : EngKind) (d : Reg) (chan : Nat) (args : Nat → List Word) : State :=
  s.ids.foldl (fun (s' : State) i => s'.issueOne k d chan i (args i)) s

/-- An engine command: the chunk ends, members with an operand take an entry (R220, R221, R141). -/
def State.engine (s : State) (k : EngKind) (d : Reg) (chan : Nat) (args : State → Nat → List Word) : Result :=
  let who := s.ids.filter fun i => (args s i).getD 0 0 != 0
  s.commitChunk.withEntry who fun t => (t.issueAll k d chan (args s)).ok

/-- The operand group s(A) to s(A + 3) of member `i`. -/
def groupOf (a : Reg) (s : State) (i : Nat) : List Word := (numsFrom 0 4).map fun k => s.reg i (a + BitVec.ofNat 6 k)

end Sys2Proof.Machine
end

