-- ==== Sys2Proof/Machine/Engines.lean ====
section
/-! DEFINITION. The engine commands as instructions: COPY (R229), PLOW (R231), RDC (R236), SPRED (R238, R239),
RSTART (R243), and TXC (R226 to R228). -/

namespace Sys2Proof.Machine

/-- COPY (R229): on tillers and on root cores. -/
def execCopy (d a : Reg) (h : Chan) (s : State) : Result := s.engine .copy d h.toNat (groupOf a)

/-- A row operation (R231). -/
def State.plow (s : State) (f : Nat) (d a : Reg) (h : Chan) : Result :=
  s.onTiller fun s => s.engine (.plow f) d h.toNat (groupOf a)

/-- RCPY (R231, R232). -/
def execRcpy (d a : Reg) (h : Chan) (s : State) : Result := s.plow 0 d a h
/-- RFIL. -/
def execRfil (d a : Reg) (h : Chan) (s : State) : Result := s.plow 1 d a h
/-- RAND. -/
def execRand (d a : Reg) (h : Chan) (s : State) : Result := s.plow 2 d a h
/-- ROR. -/
def execRor (d a : Reg) (h : Chan) (s : State) : Result := s.plow 3 d a h
/-- RXOR. -/
def execRxor (d a : Reg) (h : Chan) (s : State) : Result := s.plow 4 d a h
/-- RNOT. -/
def execRnot (d a : Reg) (h : Chan) (s : State) : Result := s.plow 5 d a h
/-- RMAJ. -/
def execRmaj (d a : Reg) (h : Chan) (s : State) : Result := s.plow 6 d a h

/-! ### RDC -/

/-- A parameter block (Table 08.8). -/
structure RdcBlock where
  sat : Bool
  n : Nat
  fmt : Fmt
  opr : Nat
  len : Nat
  dst : Word
  tab : Word
  flag : Word
  fval : Word
deriving DecidableEq, Repr

/-- The block that the doublewords hold; none where they break Table 08.8. -/
def rdcBlock (bs : List Byte) : Option RdcBlock :=
  let w0 := wordAt bs 0
  match Fmt.ofCode (field w0 7 4) with
  | none => none
  | some f =>
    let ok := (f == .i32 || f == .n32 || f == .f32 || f == .bf16 || f == .f16) && field w0 63 14 == 0 &&
      decide (2 ≤ field w0 12 8) && decide (field w0 12 8 ≤ 16) && decide (field w0 3 0 ≤ 2) &&
      decide (1 ≤ (wordAt bs 1).toNat) && decide ((wordAt bs 1).toNat < 2 ^ 32) &&
      (wordAt bs 3).toNat % 8 == 0 && (wordAt bs 4).toNat % 8 == 0 && wordAt bs 6 == 0 && wordAt bs 7 == 0
    if ok then
      some ⟨bit w0 13, field w0 12 8, f, field w0 3 0, (wordAt bs 1).toNat, wordAt bs 2, wordAt bs 3, wordAt bs 4, wordAt bs 5⟩
    else none

/-- Bytes of a buffer. -/
def RdcBlock.bytes (b : RdcBlock) : Nat := b.len * (b.fmt.width / 8)

/-- The source addresses. -/
def tableOf (n : Nat) (bs : List Byte) : List Word := (numsFrom 0 n).map (wordAt bs)

/-- The entry's ranges once the block has been read (Table 08.1). -/
def EngOp.narrow (o : EngOp) (b : RdcBlock) (srcs : List Word) : EngOp :=
  let n := b.bytes
  let ends := fun (l : List (Nat × Nat)) => (span (l.flatMap fun r => [r.1, r.2])).getD (1, 0)
  let (rlo, rhi) := ends (rangeOf b.tab (8 * b.n) :: srcs.map fun a => rangeOf a n)
  let (wlo, whi) := ends (rangeOf b.dst n :: if b.flag = 0 then [] else [rangeOf b.flag 8])
  { o with rlo := rlo, rhi := rhi, wlo := wlo, whi := whi }

/-- The reduction engine reads the block early: the entry narrows (R141, Table 08.1). -/
def State.readEarly (s : State) (o : EngOp) : State :=
  match s.opRead o 3 (o.args.getD 0 0) 0 64 with
  | .error _ => s
  | .ok (s1, bs) =>
    match rdcBlock bs with
    | none => s
    | some b =>
      match s1.opRead o 3 b.tab 0 (8 * b.n) with
      | .error _ => s
      | .ok (s2, tb) => s2.modOp o.id fun o => o.narrow b (tableOf b.n tb)

/-- Operations from `id` on. -/
def State.opsFrom (s : State) (id : Nat) : List EngOp := s.ops.filter fun o => decide (id ≤ o.id)

/-- RDC (R236): the block is read now or when the reduction is performed, which the module chooses. -/
def execRdc (d a : Reg) (h : Chan) (s : State) : Result :=
  s.onTiller fun s =>
    match s.engine .rdc d h.toNat (groupOf a) with
    | .next t =>
      .next ((t.opsFrom s.nextId).foldl (fun (t : State) o =>
        if o.ended.isNone && s.pick [141, o.id] 2 = 1 then t.readEarly o else t) t)
    | r => r

/-! ### SPRED -/

/-- A group record (Table 08.9): its member list holds (tiller, link). -/
structure Group where
  g : Nat
  fmt : Fmt
  thr : Nat
  lo : Nat
  hi : Nat
  dst : Word
  cap : Nat
  list : List (Nat × Nat)
deriving DecidableEq, Repr

/-- The header of a group record; none where it breaks Table 08.9. -/
def groupHeader (bs : List Byte) : Option Group :=
  let w0 := wordAt bs 0
  let w1 := wordAt bs 1
  let w3 := wordAt bs 3
  match Fmt.ofCode (field w0 23 20) with
  | none => none
  | some f =>
    let ok := (f == .i32 || f == .f32 || f == .bf16) && field w0 63 40 == 0 && field w0 19 16 == 0 &&
      decide (field w0 39 24 ≤ 256) && decide (2 ≤ field w0 15 0) && decide (field w0 15 0 ≤ 256) &&
      decide (field w1 31 0 < field w1 63 32) && (wordAt bs 2).toNat % 8 == 0 &&
      decide (1 ≤ field w3 31 0) && field w3 63 32 == 0 &&
      (numsFrom 4 4).all fun k => wordAt bs k == 0
    if ok then some ⟨field w0 15 0, f, field w0 39 24, field w1 31 0, field w1 63 32, wordAt bs 2, field w3 31 0, []⟩
    else none

/-- The member list; none where an entry breaks Table 08.9. -/
def groupList (n : Nat) (bs : List Byte) : Option (List (Nat × Nat)) :=
  let es := (numsFrom 0 n).map fun k => ofBytes ((bs.drop (4 * k)).take 4)
  if es.all fun e => decide (e < 2 ^ 21) && decide (e / 65536 ≤ 16) then some (es.map fun e => (e % 65536, e / 65536))
  else none

/-- Bytes read now, of which each doubleword may be read as it was before (R220). -/
def State.oldOrNew (s : State) (id : Nat) : Nat → List Byte → List Byte → List Byte
  | 0, _, now => now
  | fuel + 1, old, now =>
    if old.isEmpty || now.isEmpty then now
    else
      let o := old.take 8
      let n := now.take 8
      (if o != n && o.length == n.length && s.pick [220, id, fuel] 2 = 1 then o else n)
        ++ s.oldOrNew id fuel (old.drop 8) (now.drop 8)

/-- The group record as an operation reads it, where an earlier member read `old`: the record and its bytes, or why
the operation ends (R220, R223, R239, R369). -/
def State.readGroup (s : State) (o : EngOp) (old : List Byte) : Except EngStatus (State × Group × List Byte) :=
  let rec' := o.args.getD 0 0
  match s.opRead o 3 rec' 0 64 with
  | .error x => .error { code := x.code, sub := x.sub, opnd := x.opnd, detail := x.off }
  | .ok (s1, bs) =>
    let head := s.oldOrNew o.id 8 (old.take 64) bs
    match groupHeader head with
    | none => .error (malformed 3)
    | some g =>
      match s1.opRead o 3 rec' 64 (4 * g.g) with
      | .error x => .error { code := x.code, sub := x.sub, opnd := x.opnd, detail := x.off }
      | .ok (s2, bs) =>
        let body := s.oldOrNew o.id (g.g + 1) (old.drop 64) bs
        match groupList g.g body with
        | none => .error (malformed 3)
        | some l =>
          if l.any fun e => e.2 != 0 && !s.linkup.getLsbD (e.2 - 1) then .error { code := 3, sub := 8, opnd := 3 }
          else .ok (s2, { g with list := l }, head ++ body)

/-- Bytes that the destination may take (R241). -/
def Group.size (g : Group) : Nat := 16 + max (8 * g.cap) (g.fmt.width / 8 * (g.hi - g.lo))

/-- The open merge that an operation's record names (R239, log 46). -/
def State.mergeOf (s : State) (o : EngOp) : Option Merge :=
  s.merges.find? fun m => m.record == o.args.getD 0 0 && m.ctx == o.ctx && m.pt0 == o.pt0

/-- The operation joins the merge that its record names, or ends (R239). A record that changed since the merge was
opened is read old or new (R220). -/
def State.joinMerge (s : State) (o : EngOp) : State :=
  let open' := s.mergeOf o
  match s.readGroup o (match open' with | some m => m.raw | none => []) with
  | .error e => s.endOp o.id e
  | .ok (s, g, raw) =>
    let k := field (o.args.getD 3 0) 15 0
    let (wlo, whi) := rangeOf g.dst g.size
    let s := s.modOp o.id fun o => { o with wlo := wlo, whi := whi }
    if g.list[k]? != some (o.tile, 0) then s.endOp o.id (malformed 3)
    else
      match open' with
      | none =>
        { s with merges := s.merges ++ [⟨s.nextId, o.args.getD 0 0, o.ctx, o.pt0, raw, [(k, o.id)], []⟩], nextId := s.nextId + 1 }
      | some m =>
        if m.members.any fun x => x.1 == k then s.endOp o.id { code := 8 }
        else { s with merges := s.merges.map fun x => if x.id = m.id then { x with members := x.members ++ [(k, o.id)] } else x }

/-- SPRED (R238, R239). -/
def execSpred (d a : Reg) (h : Chan) (s : State) : Result :=
  s.onTiller fun s =>
    match s.engine .spred d h.toNat (groupOf a) with
    | .next t =>
      .next ((t.opsFrom s.nextId).foldl (fun (t : State) o => if o.ended.isNone then t.joinMerge o else t) t)
    | r => r

/-! ### RSTART -/

/-- RSTART (R243, R244). -/
def execRstart (d a b : Reg) (h : Chan) (s : State) : Result :=
  s.onTiller fun s => s.engine .rstart d h.toNat fun s i => [s.reg i a, s.reg i b]

/-! ### TXC -/

/-- The channel of member `i`. -/
def State.chan (s : State) (i : Nat) (h : Chan) : Channel := s.channel (s.hart.member i).chset h.toNat

/-- TXWAIT (R227). -/
def execTxwait (a : Reg) (h : Chan) (s : State) : Result :=
  match s.ids.find? fun i => decide ((s.chan i h).txn.toNat ≤ (s.reg i a).toNat) with
  | some i => s.trap { cause := 0x0A, val := s.reg i a, member := i }
  | none =>
    let t := s.commitChunk
    if s.ids.all fun i => decide ((s.reg i a).toNat < (s.chan i h).txw.toNat) then t.ok
    else t.wait .txwait

/-- TXREAD (R226, R228). -/
def execTxread (d : Reg) (h : Chan) (s : State) : Result := (s.asyncRegs d fun i => (s.chan i h).txw).ok

/-- TXSTAT (R225, R228). -/
def execTxstat (d a : Reg) (h : Chan) (s : State) : Result :=
  (s.asyncRegs d fun i =>
    let id := (s.reg i a).toNat
    (s.chan i h).status id (s.pendingWord (s.hart.member i).chset h.toNat id)).ok

end Sys2Proof.Machine
end

