-- ==== Sys2Proof/Machine/RootWords.lean ====
section
/-! DEFINITION. RGO (R245, R347) and the BANK words of root cores (R246 to R249, R363, R364). -/

namespace Sys2Proof.Machine

/-! ### RGO -/

/-- RGO (R245, R347). -/
def execRgo (a : Reg) (s : State) : Result :=
  s.onTiller fun s =>
    let h := s.hart
    let t := s.aScalar a
    if !bit h.origin 63 then s.illegal 2
    else if h.len != 1 || h.vl != 0 then s.illegal 3
    else if field t 2 0 != 0 || field t 63 56 != 0 then s.trap { cause := 4, sub := 2, val := t }
    else
      let s := if h.priv then s.modHart fun h => { h with status := statusReturn h.status } else s
      (s.quiesce.returnToRoot t (.jump true)).ok

/-! ### Rows -/

/-- The check of a row access at `va` (R247): alignment, translation, the own pseudo-channel. -/
def State.rowAccess (s : State) (g : Nat) (k : AKind) (va : Word) : Except TrapInfo Xlat :=
  if va.toNat % 1024 != 0 then .error { cause := 3, val := va }
  else match s.xlat 0 k va with
    | .error e => .error (xlatTrap e va 0)
    | .ok x =>
      if ownerPc s.rmF.toNat x.pa != some g then .error { cause := 8, val := va } else .ok x

/-- The owner tag of a row (R247, R363). -/
def State.rowOwner (s : State) (va : Word) (x : Xlat) : Except TrapInfo Xlat :=
  if s.ownerRefuses x.pa s.hart.ctx then .error { cause := 8, sub := 1, val := va } else .ok x

/-- A row access with its owner tag. -/
def State.rowCheck (s : State) (g : Nat) (k : AKind) (va : Word) : Except TrapInfo Xlat :=
  match s.rowAccess g k va with
  | .error t => .error t
  | .ok x => s.rowOwner va x

/-- A row read at the home: dirty copies are written back first (R247). -/
def State.readRow (s : State) (x : Xlat) : State × List Byte :=
  let s := s.use 0 x false
  ((numsFrom (sectorOf x.pa) 32).foldl (fun (s : State) k => s.flushSector (32 * k) false) s, s.peekBytes x.pa 1024)

/-- A row written at the home: cached copies are invalidated (R247). -/
def State.writeRow (s : State) (x : Xlat) (bs : List Byte) : State := (s.use 0 x true).putCoherent .other x.pa bs

/-- Bytes of bank accumulator `n`. -/
def RootCore.accBytes (r : RootCore) (n : Nat) : List Byte := (numsFrom 0 1024).map fun k => lookupD r.ba (n * 1024 + k) 0

/-- Bytes put into the bank accumulators from key `k` on; zeros are unlisted. -/
def putBa (m : SMap Byte) (k : Nat) (bs : List Byte) : SMap Byte :=
  (mapPos (fun j b => (k + j, b)) bs).foldl (fun m x => if x.2 = 0 then erase m x.1 else insert m x.1 x.2) m

/-- The root core with bank accumulator `n` holding bytes. -/
def RootCore.setAcc (r : RootCore) (n : Nat) (bs : List Byte) : RootCore := { r with ba := putBa r.ba (n * 1024) bs }

/-! ### BKLD, BKST, BKSET -/

/-- BKLD (R246, R247). -/
def execBkld (n : BitVec 1) (a : Reg) (s : State) : Result :=
  s.onRoot fun g =>
    match s.rowCheck g .read (s.reg0 a) with
    | .error t => s.trap t
    | .ok x =>
      let (s, bs) := s.commitChunk.readRow x
      (s.modRoot g fun r => r.setAcc n.toNat bs).ok

/-- BKST (R246, R247). -/
def execBkst (n : BitVec 1) (a : Reg) (s : State) : Result :=
  s.onRoot fun g =>
    match s.rowCheck g .write (s.reg0 a) with
    | .error t => s.trap t
    | .ok x => (s.commitChunk.writeRow x ((s.rootOf g).accBytes n.toNat)).ok

/-- BKSET (R246). -/
def execBkset (n : BitVec 1) (a b : Reg) (s : State) : Result :=
  s.onRoot fun g =>
    let k := field (s.reg0 a) 6 0
    let v := s.reg0 b
    (s.commitChunk.modRoot g fun r => { r with ba := putBa r.ba (n.toNat * 1024 + 8 * k) (bytesOf 8 v.toNat) }).ok

/-! ### BKSEQ -/

/-- The descriptor's doublewords with the count of steps; none where R248 is broken. -/
def bkProg (bs : List Byte) (n : Word) : Option BkProg :=
  let w0 := wordAt bs 0
  let fmt := field w0 7 4
  if field w0 31 8 != 0 || decide (2 < field w0 3 0) || (fmt != 8 && fmt != 9 && fmt != 0) || wordAt bs 3 != 0 ||
      n == 0 || decide (65535 < n.toNat) then none
  else some ⟨field w0 3 0, fmt, BitVec.ofNat 32 (field w0 63 32), wordAt bs 1, wordAt bs 2, n.toNat⟩

/-- The format of a row microprogram. -/
def BkProg.format (p : BkProg) : Fmt := if p.fmt = 8 then .f32 else if p.fmt = 9 then .bf16 else .i32

/-- Element results of two rows: `f y x` for element `x` of ba0 and `y` of ba1. -/
def rowMap (k : Nat) (f : Nat → Nat → Nat) : Nat → List Byte → List Byte → List Byte
  | 0, _, _ => []
  | fuel + 1, ys, xs =>
    if ys.isEmpty then []
    else bytesOf k (f (ofBytes (ys.take k)) (ofBytes (xs.take k))) ++ rowMap k f fuel (ys.drop k) (xs.drop k)

/-- ba1 after a step on rows ba0 and ba1 (R248). -/
def BkProg.rowStep (p : BkProg) (y x : List Byte) : List Byte :=
  let f := p.format
  let a := Fmt.f32.decode p.scale.toNat
  let op := fun (v u : Nat) =>
    let ex := match p.opr with
      | 0 => Ex.add 0 (f.decode v) (Ex.mul a (f.decode u))
      | 1 => Ex.mul a (f.decode u)
      | _ => Ex.add 0 (f.decode v) (f.decode u)
    rnd f 0 false ex
  rowMap (f.width / 8) op 1024 y x

/-- The final write of SUMR (R248). -/
def State.finalWrite (s : State) (g : Nat) (p : BkProg) : Except TrapInfo State :=
  if p.opr != 2 then .ok s
  else match s.rowCheck g .write p.yb with
    | .error t => .error t
    | .ok x => .ok (s.writeRow x ((s.rootOf g).accBytes 1))

/-- A BKSEQ whose steps are done: the final write, MPC.STEP := 0. -/
def State.endProg (s : State) (g : Nat) (p : BkProg) : Result :=
  match s.finalWrite g p with
  | .error t => s.trap t
  | .ok s => (s.modRoot g fun r => { r.stopped with mpc := 0 }).ok

/-- The checks at the start or resumption of a BKSEQ (R248). -/
def State.startProg (s : State) (g : Nat) (a n : Word) : Except TrapInfo (State × BkProg) :=
  if a.toNat % 32 != 0 then .error { cause := 3, val := a }
  else match s.xlat 0 .read a with
    | .error e => .error (xlatTrap e a 0)
    | .ok x =>
      match bkProg (s.peekBytes x.pa 32) n with
      | none => .error { cause := 1, sub := 4, val := a }
      | some p =>
        let s := (s.use 0 x false).cleanRange x.pa 32
        if p.opr != 2 then .ok (s, p)
        else match s.rowAccess g .write p.yb with
          | .error t => .error t
          | .ok _ => .ok (s, p)

/-- BKSEQ: it starts, it waits for its row-steps, or its steps are done (R246 to R249). -/
def execBkseq (a b : Reg) (s : State) : Result :=
  s.onRoot fun g =>
    match (s.rootOf g).prog with
    | some p => if p.n ≤ (s.rootOf g).mpc.toNat then s.endProg g p else s.wait .drain
    | none =>
      match s.commitChunk.startProg g (s.reg0 a) (s.reg0 b) with
      | .error t => s.trap t
      | .ok (s, p) =>
        if p.n ≤ (s.rootOf g).mpc.toNat then s.endProg g p
        else (s.modRoot g fun r => r.begun p).wait .drain

end Sys2Proof.Machine
end

