-- ==== Sys2Proof/Machine/EngineEvents.lean ====
section
/-! DEFINITION. The steps of the engines: COPY (R230), PLOW (R232 to R235), RDC (R237), the merges of SPRED
(R239 to R242), RSTART (R244, R359), and the completion of an operation (R222, R225). -/

namespace Sys2Proof.Machine

/-- An operation of a kind that has not ended. -/
def State.activeOp (s : State) (id : Nat) (k : EngKind → Bool) : Option EngOp :=
  s.ops.find? fun o => o.id == id && o.ended.isNone && k o.kind

/-- Argument `k` of an operation. -/
def EngOp.arg (o : EngOp) (k : Nat) : Word := o.args.getD k 0

/-! ### The addresses of an operation -/

/-- The translation of an operation at `va` for `n` bytes of one page, which must all be accepted (R263, R375). -/
def State.opPage (s : State) (o : EngOp) (k : AKind) (va : Word) (n : Nat) : Except (Nat × Nat) Xlat :=
  match translate s (o.tctx s) k va with
  | .error e => .error e
  | .ok x => match s.runFault x n (k != .write) with
    | some f => .error (8, f.2)
    | none => .ok x

/-- The pages of `n` bytes from `base` on: offset, and the translation or its failure. -/
def State.opPages (s : State) (o : EngOp) (k : AKind) (base : Word) :
    Nat → Nat → Nat → List (Nat × Except (Nat × Nat) Xlat)
  | 0, _, _ => []
  | fuel + 1, off, n =>
    if n = 0 then []
    else
      let va := base + BitVec.ofNat 64 off
      let step := min n (65536 - va.toNat % 65536)
      (off, s.opPage o k va step) :: s.opPages o k base fuel (off + step) (n - step)

/-- All pages of a range. -/
def State.pagesOf (s : State) (o : EngOp) (k : AKind) (base : Word) (n : Nat) : List (Nat × Except (Nat × Nat) Xlat) :=
  s.opPages o k base (n / 65536 + 2) 0 n

/-- The blocks of physical memory that `n` bytes of an operand lie in. -/
def State.homesOf (s : State) (o : EngOp) (k : AKind) (base : Word) (n : Nat) : List Nat :=
  (s.pagesOf o k base n).flatMap fun p => match p.2 with
    | .ok x => blocksOf x.pa (min (n - p.1) (65536 - x.pa % 65536))
    | .error _ => []

/-! ### COPY -/

/-- The reducing operators on bit patterns (R230). -/
def copyOp (opr fmt : Nat) (sat : Bool) (x y : Nat) : Nat :=
  let f : Fmt := if fmt = 8 then .f32 else if fmt = 0 then .i32 else .n32
  match opr with
  | 1 => rnd f 0 (sat && f.isInt) (Ex.add 0 (f.decode x) (f.decode y))
  | 2 => rnd f 0 false (Ex.min (f.decode x) (f.decode y))
  | 3 => rnd f 0 false (Ex.max (f.decode x) (f.decode y))
  | 4 => x &&& y
  | 5 => x ||| y
  | _ => x ^^^ y

/-- A sector of a reducing COPY at its home: the destination is read and written as one access (R230, R300). -/
def State.reduceSector (s : State) (o : EngOp) (off : Nat) (src : List Byte) : State × Option Stop :=
  match s.opXlat o .atomWrite 0 (o.arg 0) off with
  | .error x => (s, some x)
  | .ok x =>
    let c := o.arg 3
    let f := copyOp (field c 2 0) (field c 7 4) (bit c 11)
    s.opPut o 0 off x src.length fun s => rowMap 4 f 1024 (s.peekBytes x.pa src.length) src

/-- COPY_TRANSFER of the destination sector at byte `off` (R230). -/
def State.copySector (s : State) (o : EngOp) (off : Nat) : State :=
  let n := min ((o.arg 2).toNat - off) (32 - (o.arg 0 + BitVec.ofNat 64 off).toNat % 32)
  let o := s.placed o .read (o.arg 1 + BitVec.ofNat 64 off)
  match s.opRead o 1 (o.arg 1) off n with
  | .error x => s.stopOp o.id x
  | .ok (s, bs) =>
    let (s, stop) := if field (o.arg 3) 2 0 = 0 then s.opWrite o 0 (o.arg 0) off bs else s.reduceSector o off bs
    match stop with
    | some x => s.stopOp o.id x
    | none =>
      let s := s.modOp o.id fun o => { o with todo := o.todo.filter (· != off), prog := o.prog + 1 }
      if o.todo.length ≤ 1 then s.endOp o.id { code := 1, detail := o.prog + 1 } else s

/-- The addresses of a COPY at byte `off`: a source sector, and the destination's. -/
def State.copyHomes (s : State) (o : EngOp) (off : Nat) : List Nat :=
  s.homesOf o .read (o.arg 1 + BitVec.ofNat 64 off) 32 ++ s.homesOf o .write (o.arg 0 + BitVec.ofNat 64 off) 1

/-- COPY_TRANSFER: the destination sectors are taken in any order (R230). -/
def execCopyTransfer (op sector : Nat) (s : State) : Result :=
  match s.activeOp op (· == .copy) with
  | none => notEnabled
  | some o =>
    match o.todo[sector]? with
    | none => notEnabled
    | some off =>
      s.bankGate op (s.copyHomes o off) (o.todo.flatMap (s.copyHomes o)) fun s => (s.copySector o off).ok

/-! ### PLOW -/

/-- F9 code of a row operation. -/
def EngKind.plowCode : EngKind → Option Nat
  | .plow f => some f
  | _ => none

/-- The operand rows of row-step `j` (R232): operand, base, offset; the destination first. -/
def plowRowsAt (o : EngOp) (f j : Nat) : List (Nat × Word × Nat) :=
  let (u1, u2, pat) := plowUses f (field (o.arg 3) 17 16)
  (0, o.arg 0, 1024 * j) :: (if u1 then [(1, o.arg 1, 1024 * j)] else [])
    ++ (if pat then [(1, o.arg 1, 0)] else []) ++ (if u2 then [(2, o.arg 2, 1024 * j)] else [])

/-- A cached copy of a row, or a dirty one. -/
def State.rowCached (s : State) (pa : Nat) (dirty : Bool) : Bool :=
  (numsFrom (sectorOf pa) 32).any fun k =>
    s.allMembers.any fun m => if dirty then m.dirtyAt (32 * k) else m.holds (32 * k)

/-- The access that a row-step makes to an operand row: the destination is written, and read too by RMAJ. -/
def rowAccessKind (f opnd : Nat) : AKind := if opnd != 0 then .read else if f = 6 then .atomWrite else .write

/-- The path of a row-step (Table 08.7, R234). -/
def State.plowPath (s : State) (o : EngOp) (f : Nat) (rows : List (Nat × Word × Nat)) : Nat :=
  let rm := s.rmF.toNat
  let xs := rows.filterMap fun r => match s.opXlat o (rowAccessKind f r.1) r.1 r.2.1 r.2.2 with
    | .ok x => if (r.2.1 + BitVec.ofNat 64 r.2.2).toNat % 1024 = 0 && x.mt = 3 then some (r.1, x.pa) else none
    | .error _ => none
  if xs.length != rows.length then 3
  else match xs with
  | [] => 3
  | (_, p) :: rest =>
    if !(rest.all fun q => ownerPc rm q.2 == ownerPc rm p && bankOf rm q.2 == bankOf rm p) then 3
    else if xs.any fun q => s.rowCached q.2 (q.1 != 0) || (f = 6 && s.rowCached q.2 true) then 4
    else if rest.all fun q => subarrayOf rm q.2 == subarrayOf rm p then 1
    else 2

/-- Rows of an operation read before the destination is written (R232); a pattern row is read once. -/
def State.plowSources (s : State) (o : EngOp) (f j : Nat) : Except Stop (State × List Byte × List Byte) :=
  let (u1, u2, pat) := plowUses f (field (o.arg 3) 17 16)
  let first : Except Stop (State × List Byte) :=
    if u1 then s.opRead o 1 (o.arg 1) (1024 * j) 1024
    else if pat then
      match o.pattern with
      | some p => .ok (s, p)
      | none => s.opRead o 1 (o.arg 1) 0 1024
    else .ok (s, List.replicate 1024 (if field (o.arg 3) 17 16 = 1 then 0xFF else 0))
  match first with
  | .error x => .error x
  | .ok (s, a) =>
    if u2 then
      match s.opRead o 2 (o.arg 2) (1024 * j) 1024 with
      | .error x => .error x
      | .ok (s, b) => .ok (s, a, b)
    else .ok (s, a, [])

/-- The result row (Table 08.6). -/
def plowResult (f : Nat) (d a b : List Byte) : List Byte :=
  match f with
  | 0 | 1 => a
  | 2 => List.zipWith (· &&& ·) a b
  | 3 => List.zipWith (· ||| ·) a b
  | 4 => List.zipWith (· ^^^ ·) a b
  | 5 => a.map (~~~ ·)
  | _ => List.zipWith (fun x y => (x &&& y.1) ||| (x &&& y.2) ||| (y.1 &&& y.2)) d (List.zip a b)

/-- The reads of a row-step: the old destination row for RMAJ, and the source rows. -/
def State.plowReads (s : State) (o : EngOp) (f j : Nat) :
    Except Stop (State × List Byte × List Byte × List Byte) :=
  match s.plowSources o f j with
  | .error x => .error x
  | .ok (s, a, b) =>
    if f = 6 then
      match s.opRead o 0 (o.arg 0) (1024 * j) 1024 with
      | .error x => .error x
      | .ok (s, d) => .ok (s, d, a, b)
    else .ok (s, [], a, b)

/-- A row-step of a PLOW operation (R232 to R235). Its sectors are read and written in one step (log 69). -/
def State.plowStep (s : State) (o : EngOp) (f : Nat) : State :=
  let j := o.prog
  let o := s.placed o .write (o.arg 0 + BitVec.ofNat 64 (1024 * j))
  let s := s.modOp o.id fun p => { p with path := max p.path (s.plowPath o f (plowRowsAt o f j)) }
  match s.plowReads o f j with
  | .error x => s.stopOp o.id x
  | .ok (s, d, a, b) =>
    let (s, stop) := s.opWrite o 0 (o.arg 0) (1024 * j) (plowResult f d a b)
    match stop with
    | some x => s.stopOp o.id x
    | none =>
      let s := s.modOp o.id fun o => { o with prog := j + 1, pattern := if f = 1 then some a else none }
      if plowRows o.args ≤ j + 1 then s.endOp o.id { code := 1, detail := j + 1 } else s

/-- PLOW_ROW_STEP (R232). -/
def execPlowRowStep (op : Nat) (s : State) : Result :=
  match s.activeOp op fun k => k.plowCode.isSome with
  | none => notEnabled
  | some o =>
    let f := o.kind.plowCode.getD 0
    s.bankGate op ((plowRowsAt o f o.prog).flatMap fun r =>
      s.homesOf o (rowAccessKind f r.1) (r.2.1 + BitVec.ofNat 64 r.2.2) 1024) [] fun s => (s.plowStep o f).ok

/-! ### RDC -/

/-- The first page of a buffer that fails its walk or its permission (R237 step 2). -/
def pageFault (opnd k : Nat) (l : List (Nat × Except (Nat × Nat) Xlat)) : Option Stop :=
  l.findSome? fun p => match p.2 with
    | .error (c, sub) => if c = 8 && sub != 0 then none else some ⟨3, c, opnd, k * 2 ^ 36 + p.1⟩
    | .ok _ => none

/-- A page of a buffer lies outside HBM (R237 step 3). -/
def pageOutside (l : List (Nat × Except (Nat × Nat) Xlat)) : Bool :=
  l.any fun p => match p.2 with
    | .error _ => true
    | .ok x => x.io || !inHbm x.pa

/-- Physical runs of a buffer: (address, length). -/
def pageRuns (n : Nat) (l : List (Nat × Except (Nat × Nat) Xlat)) : List (Nat × Nat) :=
  let starts := l.filterMap fun p => match p.2 with | .ok x => some (p.1, x.pa) | .error _ => none
  let ends := (starts.drop 1).map (·.1) ++ [n]
  List.zipWith (fun p e => (p.2, e - p.1)) starts ends

/-- Two buffers overlap without being equal (R237 step 4). -/
def runsClash (a b : List (Nat × Nat)) : Bool :=
  a != b && a.any fun x => b.any fun y => decide (x.1 < y.1 + y.2) && decide (y.1 < x.1 + x.2)

/-- The value of one destination element (R237). -/
def RdcBlock.combine (b : RdcBlock) (xs : List Nat) : Nat :=
  let f := b.fmt
  let vs := xs.map f.decode
  let node := fun (op : Ex → Ex → Ex) (x y : Ex) => f.decode (rnd f 0 false (op x y))
  match b.opr with
  | 0 =>
    if f.isInt then rnd f 0 b.sat (vs.foldl (Ex.add 0) (.ofInt 0))
    else rnd f 0 false (canonSum (node (Ex.add 0)) (.fin true 0 1) vs)
  | 1 => rnd f 0 false (fold1 .nan Ex.min vs)
  | _ => rnd f 0 false (fold1 .nan Ex.max vs)

/-- Elements of buffers combined, element by element. -/
def RdcBlock.reduce (b : RdcBlock) (k : Nat) : Nat → List (List Byte) → List Byte
  | 0, _ => []
  | n + 1, bufs => bytesOf k (b.combine (bufs.map fun l => ofBytes (l.take k))) ++ b.reduce k n (bufs.map (·.drop k))

/-- The checks of R237 in their order, with the block and the source addresses; or how the operation ends. The block and
the table are read before DST is known, with the translations of the issuer's die (log 108). -/
def State.rdcChecks (s : State) (o : EngOp) : Except EngStatus (State × RdcBlock × List Word) :=
  let stop := fun (x : Stop) => ({ code := x.code, sub := x.sub, opnd := x.opnd, detail := x.off } : EngStatus)
  match s.opRead o 3 (o.arg 0) 0 64 with
  | .error x => .error (stop x)
  | .ok (s, bs) =>
    match rdcBlock bs with
    | none => .error (malformed 3)
    | some b =>
      match s.opRead o 3 b.tab 0 (8 * b.n) with
      | .error x => .error (stop x)
      | .ok (s, tb) =>
        let srcs := tableOf b.n tb
        let e := b.fmt.width / 8
        let n := b.bytes
        let o := s.placed o .write b.dst
        let dst := s.pagesOf o .write b.dst n
        let flag := if b.flag = 0 then [] else s.pagesOf o .write b.flag 8
        let ins := srcs.map fun a => s.pagesOf o .read a n
        if (b.dst :: srcs).any fun a => a.toNat % e != 0 then .error (malformed 3)
        else match pageFault 0 0 dst with
        | some x => .error (stop x)
        | none =>
          match pageFault 4 0 flag with
          | some x => .error (stop x)
          | none =>
            match (mapPos (fun k l => pageFault 1 k l) ins).findSome? id with
            | some x => .error (stop x)
            | none =>
              if pageOutside dst || ins.any pageOutside then .error (malformed 3)
              else if ins.any fun l => runsClash (pageRuns n dst) (pageRuns n l) then .error (malformed 3)
              else .ok (s, b, srcs)

/-- A piece of a buffer that an owner tag refuses: operand, DETAIL, offset and bytes (R363). -/
structure Refused where
  opnd : Nat
  detail : Nat
  off : Nat
  n : Nat
deriving DecidableEq, Repr

/-- The pieces of buffer `k` of an operand that an owner tag refuses (R363). -/
def State.refusedAt (s : State) (o : EngOp) (kind : AKind) (opnd k : Nat) (base : Word) (n : Nat) : List Refused :=
  (piecesOf base 0 n).filterMap fun p =>
    match s.opXlat o kind opnd base p.1 with
    | .ok x => if s.ownerRefuses x.pa o.ctx then some ⟨opnd, k * 2 ^ 36 + p.1, p.1, p.2⟩ else none
    | .error _ => none

/-- The pieces of an RDC's buffers that owner tags refuse. -/
def State.rdcOwner (s : State) (o : EngOp) (b : RdcBlock) (srcs : List Word) : List Refused :=
  s.refusedAt o .write 0 0 b.dst b.bytes
    ++ (mapPos (fun k a => s.refusedAt o .read 1 k a b.bytes) srcs).flatten

/-- The sources read, each at its home. -/
def State.rdcRead (s : State) (o : EngOp) (n : Nat) : List Word → State × List (List Byte)
  | [] => (s, [])
  | a :: l =>
    match s.opRead o 1 a 0 n false with
    | .ok (s, bs) => let (s, r) := s.rdcRead o n l; (s, bs :: r)
    | .error _ => let (s, r) := s.rdcRead o n l; (s, List.replicate n 0 :: r)

/-- A piece of the buffers overlaps a refused one. -/
def Refused.meets (r : Refused) (p : Nat × Nat) : Bool := decide (p.1 < r.off + r.n) && decide (r.off < p.1 + p.2)

/-- Some destination pieces written before an owner tag stops the operation: the module's choice among those
whose elements no tag refuses (R237, R363). -/
def State.rdcPartial (s : State) (o : EngOp) (b : RdcBlock) (bad : List Refused) (res : List Byte) : State :=
  ((piecesOf b.dst 0 b.bytes).filter fun p =>
      !(bad.any fun r => r.meets p) && s.pick [237, o.id, p.1] 2 == 1).foldl
    (fun (s : State) p => (s.opWrite o 0 b.dst p.1 ((res.drop p.1).take p.2)).1) s

/-- The flag of an RDC, and its end (R237). -/
def State.rdcFlag (s : State) (o : EngOp) (b : RdcBlock) : State :=
  if b.flag = 0 then s.endOp o.id { code := 1, detail := b.len }
  else
    let (s, stop) := s.opWrite o 4 b.flag 0 (bytesOf 8 b.fval.toNat)
    match stop with
    | some x => s.stopOp o.id x
    | none => s.endOp o.id { code := 1, detail := b.len }

/-- The reduction after its checks (R237). -/
def State.rdcPerform (s : State) (o : EngOp) (b : RdcBlock) (srcs : List Word) : State :=
  let o := s.placed o .write b.dst
  let bad := s.rdcOwner o b srcs
  let (s, bufs) := s.rdcRead o b.bytes srcs
  let res := b.reduce (b.fmt.width / 8) b.len bufs
  match bad[s.pick [237, o.id] bad.length]? with
  | some r =>
    (s.rdcPartial o b bad res).endOp o.id { code := 2, opnd := r.opnd, detail := r.detail }
  | none =>
    let (s, stop) := s.opWrite o 0 b.dst 0 res
    match stop with
    | some x => s.stopOp o.id x
    | none => s.rdcFlag o b

/-- The requests of an RDC: its parameter block, its table, and, where its checks pass, its buffers and its flag. -/
def State.rdcHomes (s : State) (o : EngOp) : List Nat :=
  let table := match s.opRead o 3 (o.arg 0) 0 64 with
    | .ok (_, bs) => (match rdcBlock bs with | some b => s.homesOf o .read b.tab (8 * b.n) | none => [])
    | .error _ => []
  s.homesOf o .read (o.arg 0) 64 ++ table ++ match s.rdcChecks o with
    | .error _ => []
    | .ok (_, b, srcs) =>
      s.homesOf o .write b.dst b.bytes ++ (srcs.flatMap fun a => s.homesOf o .read a b.bytes) ++
        (if b.flag = 0 then [] else s.homesOf o .write b.flag 8)

/-- RDC_REDUCTION (R237). -/
def execRdcReduction (op : Nat) (s : State) : Result :=
  match s.activeOp op (· == .rdc) with
  | none => notEnabled
  | some o =>
    s.bankGate op (s.rdcHomes o) [] fun s =>
      match s.rdcChecks o with
      | .error e => (s.endOp o.id e).ok
      | .ok (s, b, srcs) => (s.rdcPerform o b srcs).ok

/-! ### SPRED -/

/-- What a merge node holds: dense or sparse, the values that arrived by index, OVF, CAPFORCE. -/
structure MNode where
  dense : Bool := false
  pairs : List (Nat × Nat) := []
  ovf : Bool := false
  force : Bool := false
deriving DecidableEq, Repr

/-- A stream up to its first pair that breaks R240, and whether one does. -/
def validStream (lo hi : Nat) : Option Nat → List (Nat × Nat) → List (Nat × Nat) × Bool
  | _, [] => ([], false)
  | last, (i, v) :: l =>
    let up := match last with | some k => decide (k < i) | none => true
    if up && decide (lo ≤ i) && decide (i < hi) then
      let (r, b) := validStream lo hi (some i) l
      ((i, v) :: r, b)
    else ([], true)

/-- The sum of two values at a node, and whether it was clamped (R240, log 127). -/
def Group.sum (g : Group) (x y : Nat) : Nat × Bool :=
  let f := g.fmt
  let e := Ex.add 0 (f.decode x) (f.decode y)
  let v := rnd f 0 f.isInt e
  (v, f.isInt && !(f.decode v).eq e)

/-- A value that no other one meets at a node: rounded as a sum with the identity, so that a NaN becomes the
canonical one (R44, R63, R240). -/
def Group.lone (g : Group) (x : Nat) : Nat := rnd g.fmt 0 false (g.fmt.decode x)

/-- Two ascending lists of pairs combined: `f` where both have an index, `one` where one has it. -/
def mergePairs (f : Nat → Nat → Nat) (one : Nat → Nat) :
    Nat → List (Nat × Nat) → List (Nat × Nat) → List (Nat × Nat)
  | 0, a, b => (a ++ b).map fun p => (p.1, one p.2)
  | _, [], b => b.map fun p => (p.1, one p.2)
  | _, a, [] => a.map fun p => (p.1, one p.2)
  | fuel + 1, (i, x) :: a, (j, y) :: b =>
    if i < j then (i, one x) :: mergePairs f one fuel a ((j, y) :: b)
    else if j < i then (j, one y) :: mergePairs f one fuel ((i, x) :: a) b
    else (i, f x y) :: mergePairs f one fuel a b

/-- Some index that both lists carry is clamped. -/
def clamped (f : Nat → Nat → Bool) (a b : List (Nat × Nat)) : Bool :=
  a.any fun x => b.any fun y => x.1 == y.1 && f x.2 y.2

/-- A merge node (R240). -/
def Group.node (g : Group) (a b : MNode) : MNode :=
  let pairs := mergePairs (fun x y => (g.sum x y).1) g.lone (a.pairs.length + b.pairs.length) a.pairs b.pairs
  let n := pairs.length
  let full := decide (1 ≤ g.thr) && decide (ceilDiv (g.thr * (g.hi - g.lo)) 256 ≤ n)
  let crowded := decide (g.cap < n)
  { dense := full || crowded || a.dense || b.dense, pairs := pairs
    ovf := a.ovf || b.ovf || clamped (fun x y => (g.sum x y).2) a.pairs b.pairs
    force := a.force || b.force || crowded }

/-- The image at DST (Table 08.10). -/
def Group.image (g : Group) (r : MNode) (bad : Bool) : List Byte :=
  let k := g.fmt.width / 8
  let count := if r.dense then g.hi - g.lo else r.pairs.length
  let head := (if r.dense then 2 else 1) + b2n r.ovf * 2 ^ 8 + b2n bad * 2 ^ 9 + b2n r.force * 2 ^ 10 + count * 2 ^ 32
  bytesOf 8 head ++ bytesOf 8 (g.lo + g.hi * 2 ^ 32) ++
    (if r.dense then
      ((numsFrom g.lo (g.hi - g.lo)).flatMap fun i =>
        bytesOf k (match r.pairs.find? (·.1 == i) with | some p => p.2 | none => 0))
    else r.pairs.flatMap fun p => bytesOf 4 p.1 ++ bytesOf 4 p.2)

/-- The pairs of a stream. -/
def Group.pairsOf (g : Group) (n : Nat) (bs : List Byte) : List (Nat × Nat) :=
  (numsFrom 0 n).map fun k =>
    (ofBytes ((bs.drop (8 * k)).take 4), ofBytes ((bs.drop (8 * k + 4)).take 4) % 2 ^ g.fmt.width)

/-- The operations of a merge by ordinal. -/
def State.mergeOps (s : State) (m : Merge) (g : Nat) : List EngOp :=
  (numsFrom 0 g).filterMap fun k =>
    match m.members.find? fun x => x.1 == k with
    | some x => s.ops.find? fun o => o.id == x.2 && o.ended.isNone
    | none => none

/-- Where the stream of a member comes from: an operation of this module, or a link (R238). -/
inductive Source where
  | own (o : EngOp)
  | far (pairs : List (Nat × Nat))
deriving DecidableEq, Repr

/-- The operation of a source. -/
def Source.op? : Source → Option EngOp
  | .own o => some o
  | .far _ => none

/-- The sources of a merge that have sent, in ordinal order. -/
def State.mergeSources (s : State) (m : Merge) (g : Nat) : List Source :=
  (numsFrom 0 g).filterMap fun k =>
    match (m.members.find? fun x => x.1 == k).bind fun x => s.ops.find? fun o => o.id == x.2 && o.ended.isNone with
    | some o => some (.own o)
    | none => (m.far.find? fun x => x.1 == k).map fun x => .far x.2

/-- The streams of the members in ordinal order, or the operation whose stream cannot be read. -/
def State.readStreams (s : State) (g : Group) :
    List Source → Except (EngOp × Stop) (State × List (List (Nat × Nat)))
  | [] => .ok (s, [])
  | .far p :: l =>
    match s.readStreams g l with
    | .error e => .error e
    | .ok (s, r) => .ok (s, p :: r)
  | .own o :: l =>
    match s.opRead o 3 (o.arg 1) 0 (8 * (o.arg 2).toNat) with
    | .error x => .error (o, x)
    | .ok (s, bs) =>
      match s.readStreams g l with
      | .error e => .error e
      | .ok (s, r) => .ok (s, g.pairsOf (o.arg 2).toNat bs :: r)

/-- The merge ends: every operation with its own status. -/
def State.endMerge (s : State) (m : Merge) (ends : List (EngOp × EngStatus)) : State :=
  let s := ends.foldl (fun (s : State) e => s.endOp e.1.id e.2) s
  { s with merges := s.merges.filter (·.id != m.id) }

/-- The root node of the merge of the members' pairs, in ordinal order, and whether some stream broke R240. -/
def Group.result (g : Group) (raw : List (List (Nat × Nat))) : MNode × Bool :=
  let streams := raw.map (validStream g.lo g.hi none)
  (canonSum g.node {} (streams.map fun r => ({ pairs := r.1 } : MNode)), streams.any (·.2))

/-- The requests of a merge: its members' streams and its destination. -/
def State.mergeHomes (s : State) (g : Group) (src : List Source) : List Nat :=
  (src.flatMap fun p => match p.op? with
    | some p => s.homesOf p .read (p.arg 1) (8 * (p.arg 2).toNat)
    | none => []) ++
  match src.findSome? Source.op?, s.readStreams g src with
  | some o, .ok (_, raw) => s.homesOf o .write g.dst (g.image (g.result raw).1 (g.result raw).2).length
  | _, _ => []

/-- The result of a merge is written, and its operations end (R240, R241). The write translates with the privilege
and the tables of the first member of this module (log 98). -/
def State.writeMerge (s : State) (m : Merge) (g : Group) (src : List Source) (raw : List (List (Nat × Nat))) : State :=
  let streams := raw.map (validStream g.lo g.hi none)
  let (root, bad) := g.result raw
  let own := (List.zip src streams).filterMap fun p => p.1.op?.map fun o => (o, p.2.1.length)
  match own with
  | [] => s
  | (o, _) :: _ =>
    let (s, stop) := s.opWrite o 0 g.dst 0 (g.image root bad)
    match stop with
    | some x =>
      s.endMerge m (own.map fun p => (p.1, { code := x.code, sub := x.sub, opnd := x.opnd, detail := x.off }))
    | none =>
      s.endMerge m (own.map fun p =>
        (p.1, { code := 1, sub := b2n root.ovf + 2 * b2n bad + 4 * b2n root.force, detail := p.2 }))

/-- The operations of a merge whose entries of the member list no longer name their tillers. -/
def State.strays (s : State) (m : Merge) (g : Group) : List EngOp :=
  m.members.filterMap fun x => match s.ops.find? (·.id == x.2) with
    | some o => if o.ended.isNone && g.list[x.1]? != some (o.tile, 0) then some o else none
    | none => none

/-- Operations leave a merge with a status, and contribute nothing to it (R239). -/
def State.leaveMerge (s : State) (m : Merge) (gone : List EngOp) (e : EngStatus) : State :=
  let s := gone.foldl (fun (s : State) o => s.endOp o.id e) s
  { s with merges := s.merges.map fun y =>
      if y.id = m.id then { y with members := y.members.filter fun z => !gone.any (·.id == z.2) } else y }

/-- SPRED_MERGE_WRITE (R239 to R241): a merge whose members have all sent. A member whose entry, read again, no longer
names its tiller ends MALFORMED instead (R220, R239, log 47). -/
def execSpredMergeWrite (merge : Nat) (s : State) : Result :=
  match s.merges.find? (·.id == merge) with
  | none => notEnabled
  | some m =>
    match m.members.head?.bind fun x => s.ops.find? (·.id == x.2) with
    | none => notEnabled
    | some o =>
      match s.readGroup o m.raw with
      | .error e => (s.endMerge m ((s.mergeOps m 256).map fun o => (o, e))).ok
      | .ok (t, g, _) =>
        let src := s.mergeSources m g.g
        if s.strays m g != [] then (t.leaveMerge m (s.strays m g) (malformed 3)).ok
        else if src.length != g.g then notEnabled
        else t.bankGate merge (t.mergeHomes g src) [] fun t =>
          match t.readStreams g src with
          | .error (p, x) =>
            (t.leaveMerge m [p] { code := x.code, sub := x.sub, opnd := x.opnd, detail := x.off }).ok
          | .ok (t, raw) => (t.writeMerge m g src raw).ok

/-! ### RSTART -/

/-- The entry page of an RSTART. One that is not treated as ROWMAP is MALFORMED, whatever it permits and wherever it
lies; a failed walk or a refused access is a FAULT (R244, R267). -/
def State.entryPage (s : State) (o : EngOp) (va : Word) : Except Stop Xlat :=
  match translate s (o.tctx s) .look va with
  | .error e => .error ⟨3, e.1, 3, 0⟩
  | .ok x =>
    if x.mt != 3 then .error ⟨4, 0, 3, 0⟩
    else match translate s (o.tctx s) .exec va with
      | .ok y => if y.mt = 3 then .ok y else .error ⟨4, 0, 3, 0⟩
      | .error e => .error ⟨3, e.1, 3, 0⟩

/-- The checks of RSTART before its claim (R244): the pseudo-channel and the mailbox image. -/
def State.rstartChecks (s : State) (o : EngOp) : Except Stop (State × Nat × List Byte) :=
  let a := o.arg 0
  let b := o.arg 1
  if a.toNat % 128 != 0 then .error ⟨4, 0, 3, 0⟩
  else match s.entryPage o a with
    | .error x => .error x
    | .ok x =>
      if b.toNat % 8 != 0 then .error ⟨4, 0, 3, 0⟩
      else match s.opRead o 3 b 0 64 with
        | .error y => .error y
        | .ok (s, bs) =>
          match ownerPc s.rmF.toNat x.pa with
          | none => .error ⟨4, 0, 3, 0⟩
          | some g => .ok (s, g, bs)

/-- The claim and the start (R359, R360). -/
def State.claimRoot (s : State) (o : EngOp) (g : Nat) (bs : List Byte) : State :=
  let mbox := (numsFrom 0 8).foldl (fun (m : SMap Word) k => insert m k (wordAt bs k)) []
  let flaga := BitVec.ofNat 64 (field (o.arg 1 + 64) 55 3 * 8)
  let s := s.modRoot g fun r => { r with state := 1, mbox := mbox, flaga := flaga }
  (s.startRoot g (o.arg 0) o.ctx o.pt0 o.pt1 (some o.id) o.launch).modOp o.id fun o => { o with prog := 1 }

/-- RSTART_OPERATION (R244, R359). -/
def execRstartOperation (op : Nat) (s : State) : Result :=
  match s.activeOp op (· == .rstart) with
  | none => notEnabled
  | some o =>
    if o.prog != 0 then notEnabled
    else match s.rstartChecks o with
      | .error x => (s.stopOp o.id x).ok
      | .ok (s, g, bs) =>
        s.bankGate op (s.homesOf o .read (o.arg 1) 64) [] fun s =>
          if (s.rootOf g).state != 0 then (s.endOp o.id { code := 7 }).ok
          else (s.claimRoot o g bs).ok

/-! ### Completion -/

/-- How an operation that may complete has ended: with its status, or stopped by a cancel (R222, R321). -/
def EngOp.finalStatus (o : EngOp) : Option EngStatus :=
  match o.ended with
  | some e => some e
  | none =>
    if o.cancelled && o.kind != .wld && !(o.kind == .rstart && o.prog != 0) then
      some { code := 5, detail := o.prog }
    else none

/-- The engine at an address of an operation: that of its pseudo-channel, a port outside HBM, and one that the module
chooses where the address does not translate (R355, log 104). -/
def State.engineAt (s : State) (o : EngOp) (e : Engine) (k : AKind) (va : Word) : Nat :=
  match translate s { ctx := o.ctx, pt0 := o.pt0, pt1 := o.pt1, priv := o.priv, cands := o.tlb } k va with
  | .error _ => engineSource e (s.pick [377, o.id] 1024)
  | .ok x => match ownerPc s.rmF.toNat x.pa with
    | some g => engineSource e (if e = .reduction then g / 64 else g)
    | none => engineSource .port (if inPeer x.pa then 1 + linkOf x.pa else 0)

/-- The engine that an operation which failed names as the source of an event (R355, R377). -/
def State.failedEngine (s : State) (o : EngOp) (e : EngStatus) : Nat :=
  let off := BitVec.ofNat 64 e.detail
  match o.kind with
  | .copy => s.engineAt o .streamer .read (o.arg 1 + off)
  | .plow _ => s.engineAt o (if o.path = 1 || o.path = 2 then .plough else .streamer) .write (o.arg 0 + off)
  | .rdc => engineSource .reduction (s.pick [377, o.id] 16)
  | .spred => engineSource .binder o.die
  | .rstart => s.engineAt o .rootCore .look (o.arg 0)
  | .wld => engineSource .port 0

/-- ENGINE_OPERATION_COMPLETE: the status, the watermark, the launch counter, the entry (R222, R225, R26,
R310). -/
def execEngineOperationComplete (op : Nat) (s : State) : Result :=
  match s.ops.find? (·.id == op) with
  | none => notEnabled
  | some o =>
    match o.finalStatus with
    | none => notEnabled
    | some e =>
      let s := (s.modChannel o.chset o.chan fun c => c.complete o.ident (e.word o.path)).countDown o.launch
      let s := if e.code = 1 then s else s.mayLog (s.failedEngine o e)
      ({ s with ops := s.ops.filter (·.id != op) } : State).ok

end Sys2Proof.Machine
end

