-- ==== Sys2Proof/Machine/IndexPairs.lean ====
section
/-! DEFINITION. Index pairs (R181 to R186). -/

namespace Sys2Proof.Machine

/-- The sentinel key (R182). -/
def sentinelKey : Nat := 0xFFFFFFFF

/-- The value of the entry with a key. -/
def IxPair.find (p : IxPair) (k : Nat) : Option Nat :=
  match p.entries.find? fun e => e.1.toNat == k with
  | some e => some e.2.toNat
  | none => none

/-- The pair after an insertion: `merge` of the old value where the key has an entry, `fresh` in a new
entry, or a drop (R183, R185). -/
def IxPair.insert (p : IxPair) (k : Nat) (merge : Nat → Nat) (fresh : Nat) : IxPair :=
  if k = sentinelKey then p
  else match p.find k with
    | some _ =>
      { p with entries := p.entries.map fun e => if e.1.toNat = k then (e.1, BitVec.ofNat 32 (merge e.2.toNat)) else e }
    | none =>
      if p.entries.length < 2048 then
        { p with entries := p.entries ++ [(BitVec.ofNat 32 k, BitVec.ofNat 32 fresh)] }
      else { p with drop := true }

/-- Pair `n` of a member. -/
def Member.pair (m : Member) (n : Nat) : IxPair := m.ix.getD n {}

/-- The checks of R82 and R158 for an index-pair word. -/
def Hart.badPair (h : Hart) (n : BitVec 2) : Bool := decide ((h.member 0).ix.length ≤ n.toNat) || h.w != 32

/-- Pair `n` of the holder of element `i` changed (R182). -/
def Hart.modPair (h : Hart) (n i : Nat) (f : IxPair → IxPair) : Hart :=
  h.modMember (h.place i).1 fun m => { m with ix := modifyAt m.ix n f }

/-- A word that changes a pair: it cannot be undone, so every older bundle has committed (R160). -/
def State.changePair (s : State) (f : Hart → Hart) : Result :=
  (s.commitChunk.modHart f).ok

/-- IXINS (R183). -/
def execIxins (n : BitVec 2) (a b : VReg) (m : MReg) (s : State) : Result :=
  s.dispatch { srcs := [a, b], masks := [m] } (s.hart.badPair n) fun s =>
    s.changePair fun h => (h.active m).foldl (fun h' i =>
      h'.modPair n.toNat i fun p => p.insert (h.source a i) (fun _ => h.source b i) (h.source b i)) { h with els := 0 }

/-- IXFND (R184). -/
def execIxfnd (n : BitVec 2) (d a : VReg) (m : MReg) (s : State) : Result :=
  s.dispatch { srcs := [a], dsts := [d], masks := [m] } (s.hart.badPair n) fun s =>
    let h := s.hart
    s.writeElems d ((h.active m).map fun i =>
      let k := h.source a i
      (i, if k = sentinelKey then sentinelKey
        else (((h.member (h.place i).1).pair n.toNat).find k).getD sentinelKey))

/-- IXADD (R185). -/
def execIxadd (n : BitVec 2) (a b : VReg) (r : Reg) (m : MReg) (s : State) : Result :=
  s.formatted { srcs := [a, b], masks := [m] } (s.hart.badPair n) .index r fun f s =>
    let out := fun (x : Ex) => rnd f.fd f.rm f.sat x
    s.changePair fun h => (h.active m).foldl (fun h' i =>
      let v := h.sourceEx f.fd b i
      h'.modPair n.toNat i fun p =>
        p.insert (h.source a i) (fun old => out (Ex.add f.rm (f.fd.decode old) v)) (out v)) { h with els := 0 }

/-- IXOUT: keys to A, values to D (R186). -/
def execIxout (n : BitVec 2) (d a : VReg) (r : Reg) (s : State) : Result :=
  s.dispatch { dsts := [d, a] } (s.hart.badPair n || d == a) fun s =>
    let h := s.hart
    let k := (s.aScalar r).toNat
    let entry := fun (i : Nat) =>
      let (mi, p) := h.place i
      ((h.member mi).pair n.toNat).entries[k + p]?
    let keys := h.range.map fun i => (i, match entry i with | some e => e.1.toNat | none => sentinelKey)
    let vals := h.range.map fun i => (i, match entry i with | some e => e.2.toNat | none => 0)
    (s.modHart fun h => (h.setElems a.toNat keys).wrote a.toNat).writeElems d vals

/-- IXCLR (R186). -/
def execIxclr (n : BitVec 2) (s : State) : Result :=
  s.dispatch {} (decide ((s.hart.member 0).ix.length ≤ n.toNat)) fun s =>
    s.changePair fun h => h.mapMembers fun _ m => { m with ix := modifyAt m.ix n.toNat fun p => { p with entries := [] } }

end Sys2Proof.Machine
end

