-- ==== Sys2Proof/Machine/Placement.lean ====
section
/-! DEFINITION. Where units run: the furrows that fit a piece of work (R3, R315, R340), the order in which
the walker serves it (R319), the enumeration of units (R314), and the state at unit start (R316, R317,
Table 01.7). -/

namespace Sys2Proof.Machine

/-! ### Furrows -/

/-- Tillers that furrows hold. -/
def State.busyTiles (s : State) : List Nat :=
  s.harts.flatMap fun h => if h.root.isSome then [] else h.members.map (·.tile)

/-- `f` tillers from `base` on form a furrow with working pairs for the modes, outside `busy` (R3, R315). -/
def State.furrowOk (s : State) (f : Nat) (wm : BitVec 8) (busy : List Nat) (base : Nat) : Bool :=
  decide (base % f = 0) && decide (base + f ≤ Config.tillers) &&
    (numsFrom base f).all fun t => s.pairsWork t wm && !busy.contains t

/-- The modes work on a tiller that TMAP does not single out. -/
def State.plainOk (s : State) (wm : BitVec 8) : Bool := s.tmapDef == 1 || (s.tmapDef == 2 && !modesNeedStack wm)

/-- The first tiller of furrow `k` lies on the die. -/
def onDie (die : Option Nat) (f k : Nat) : Bool :=
  match die with
  | none => true
  | some d => dieOf (k * f) == d

/-- Some furrow of length `f` satisfies `ok` on a die, or anywhere; furrows whose tillers have no entry of their
own satisfy it when `plain`. -/
def State.anyFurrow (s : State) (f : Nat) (busy : List Nat) (die : Option Nat) (plain : Bool) (ok : Nat → Bool) : Bool :=
  let named := ((s.tmap.map (·.1) ++ s.idle.map (·.1) ++ busy).map (· / f)).eraseDups.filter (onDie die f)
  let count := (match die with | none => Config.tillers | some _ => Config.tillers / 8) / f
  named.any (fun k => ok (k * f)) || (plain && decide (named.length < count))

/-! ### Work that waits for tillers (R319) -/

/-- A stack slot is free, or no slot is needed (R317). -/
def Launch.hasSlot (l : Launch) : Bool := l.nslot == 0 || l.stksz == 0 || decide (l.slots.length < l.nslot)

/-- Ring launches active on a die (R212). -/
def State.ringsOn (s : State) (d : Nat) : Nat :=
  (s.rings.filter fun r => match s.launch? r.launch with | some l => l.die == some d | none => false).length

/-- A launch may run on a die (R212, R315). -/
def State.dieAllows (s : State) (l : Launch) (d : Nat) : Bool :=
  !l.iring || (match l.die with | some e => e == d | none => decide (s.ringsOn d < 4))

/-- A launch stands in the queue of its priority: units of it are still to be handed out (R319, R321). -/
def Launch.queued (l : Launch) : Bool := (l.state == .ready || l.state == .running) && decide (l.next < l.total)

/-- A launch has a unit to hand out (R310, R317, R321). -/
def Launch.handsOut (l : Launch) : Bool := l.queued && l.hasSlot

/-- The level at which a launch is served (R319). -/
def State.launchLevel (s : State) (l : Launch) : Nat := s.effPrio l - l.risen

/-- The level at which a saved unit is served. -/
def Saved.level (u : Saved) : Nat := u.prio - u.risen

/-- Pair modes of a moved thread (R346). -/
def State.threadModes (s : State) (th : Hart) : BitVec 8 :=
  match th.rlaunch with
  | some l => (match s.launch? l with | some l => l.pmode | none => 0x55)
  | none => 0x55

/-- Pair modes that a saved unit needs. -/
def State.savedModes (s : State) (u : Saved) : BitVec 8 :=
  match u.thread with
  | some th => s.threadModes th
  | none => BitVec.ofNat 8 (field (s.peekWord u.frame) 23 16)

/-- A member's capacity covers the share that the frame gives it (R340). -/
def State.capCovers (s : State) (u : Saved) (base i : Nat) : Bool :=
  let m : Member := { s.idleMember (base + i) with wmode := s.savedModes u }
  !bit (s.peekWord u.frame) 13 || decide (field (s.peekWord (u.frame + blockOff i + 0x298)) 15 0 ≤ m.cap)

/-- The units of a ring launch stay on its die (R212, R315). -/
def State.ringDieAllows (s : State) (u : Option UnitRef) (d : Nat) : Bool :=
  match u.bind fun u => s.launch? u.launch with
  | some l => !l.iring || l.die == some d
  | none => true

/-- A saved unit may resume on the free furrow at `base` (R212, R340, R342, R346). A moved thread waits for the tiller that
its mailbox names, also where that tiller lacks the working pairs that its modes need (log 126). -/
def State.savedFits (s : State) (busy : List Nat) (u : Saved) (base : Nat) : Bool :=
  s.furrowOk u.len (s.savedModes u) busy base && s.ringDieAllows u.unit (dieOf base) &&
    match u.thread with
    | some _ => (match u.target with | some t => t == base | none => true)
    | none => ((numsFrom 0 u.len).all fun i => s.capCovers u base i) &&
        s.setsAttach (physFrame u.frame) u.len (numsFrom base u.len)

/-- Some free furrow fits a saved unit. -/
def State.savedPlace (s : State) (u : Saved) (die : Option Nat) : Bool :=
  let busy := s.busyTiles
  match u.target with
  | some t => onDie die 1 t && s.savedFits busy u t
  | none => s.anyFurrow u.len busy die (s.plainOk (s.savedModes u)) (s.savedFits busy u)

/-- Some free furrow fits a launch. -/
def State.launchPlace (s : State) (l : Launch) (die : Option Nat) : Bool :=
  let busy := s.busyTiles
  s.anyFurrow l.len busy die (s.plainOk l.pmode) (s.furrowOk l.len l.pmode busy)

/-- Some free furrow fits a launch on a die where it may run (R212, R315). -/
def State.launchFits (s : State) (l : Launch) : Bool :=
  if l.iring then (numsFrom 0 8).any fun d => s.dieAllows l d && s.launchPlace l (some d) else s.launchPlace l none

/-- Some free furrow fits a saved unit on a die where it may run. -/
def State.savedFurrow (s : State) (u : Saved) : Bool := s.savedPlace u none

/-- Of two launches the first is served before the other (R319). -/
def State.servedBefore (s : State) (a b : Launch) : Bool :=
  decide (s.launchLevel a < s.launchLevel b) || (s.launchLevel a == s.launchLevel b && decide (a.rank < b.rank))

/-- A passed-over launch holds back new units of launch `l` on a die: those of its level and of the levels below it, until
it has placed a unit there. Of launches that hold a die both, the one that is served first is not held back (R319,
log 62). -/
def State.held (s : State) (l : Launch) (d : Nat) : Bool :=
  s.holds.any fun x => x.2 == d && x.1 != l.id && match s.launch? x.1 with
    | some k => k.queued && s.dieAllows k d && decide (s.launchLevel k ≤ s.launchLevel l) &&
        (!s.holds.contains (l.id, d) || s.servedBefore k l)
    | none => false

/-- A saved unit of the ring launch is ready: it resumes before any new unit of the launch (R325). -/
def State.ringWaits (s : State) (l : Launch) : Bool :=
  l.iring && s.saved.any fun u => u.ready && u.unit.any fun r => r.launch == l.id

/-- Other work must be served first on a die: work of a lower level that fits; for a launch also saved units of its
level and launches that were READY before it (R319). `rank` is none for a saved unit. A launch that is held back itself
holds nothing back. -/
def State.ahead (s : State) (level : Nat) (rank : Option Nat) (self d : Nat) : Bool :=
  (s.saved.any fun u => u.ready && u.id != self &&
    (decide (u.level < level) || (rank.isSome && u.level == level)) && s.savedPlace u (some d)) ||
  s.launches.any fun l => l.handsOut && l.id != self && s.dieAllows l d &&
    (decide (s.launchLevel l < level) || (match rank with
      | some r => s.launchLevel l == level && decide (l.rank < r)
      | none => false)) && !s.held l d && !s.ringWaits l && s.launchPlace l (some d)

/-- A unit that runs on a furrow. -/
def Hart.unitRuns (h : Hart) : Bool := h.id != 0 && h.root.isNone && h.unit.isSome && h.run == .running

/-- The tillers that stay taken if the units above a level were pre-empted (R320). -/
def State.keptTiles (s : State) (level : Nat) : List Nat :=
  s.harts.flatMap fun h =>
    if h.root.isSome || (h.unitRuns && decide (level < s.unitPrio h)) then [] else h.members.map (·.tile)

/-- The tillers of a unit, with those of other units above a level, would make a furrow of `f` members (R320). -/
def State.wouldMake (s : State) (h : Hart) (level f : Nat) (ok : List Nat → Nat → Bool) : Bool :=
  decide (level < s.unitPrio h) && h.members.any fun m => ok (s.keptTiles level) (m.tile / f * f)

/-- Work waits that no free furrow fits, and the pre-emption of this unit would help to make one (R320). -/
def State.starvedBy (s : State) (h : Hart) : Bool :=
  (s.saved.any fun u => u.ready && !s.savedFurrow u && s.wouldMake h u.level u.len fun busy b => s.savedFits busy u b) ||
    s.launches.any fun l => l.handsOut && !s.launchFits l &&
      s.wouldMake h (s.launchLevel l) l.len fun busy b => s.dieAllows l (dieOf b) && s.furrowOk l.len l.pmode busy b

/-- Of the saved units of one level that fit the donated tillers at `base`, those of the donor's job come first, and
older ones before younger ones (R322). -/
def State.passesOver (s : State) (u : Saved) (base : Nat) : Bool :=
  match lookup s.gifts base with
  | none => false
  | some j => s.saved.any fun v =>
      v.ready && v.id != u.id && v.level == u.level && s.savedFits s.busyTiles v (base / v.len * v.len) &&
        (if u.job = some j then v.job == some j && decide (v.id < u.id)
         else v.job == some j || decide (v.id < u.id))

/-- Work fits within the tillers of a furrow (R322). -/
def State.fitsWithin (s : State) (h : Hart) : Bool :=
  let base := (h.member 0).tile
  let busy := s.busyTiles.filter fun t => !(h.members.any fun m => m.tile == t)
  let within := fun (f : Nat) (ok : Nat → Bool) => (numsFrom 0 (h.len / f)).any fun k => ok (base + k * f)
  (s.saved.any fun u => u.ready && within u.len (s.savedFits busy u)) ||
    s.launches.any fun l => l.handsOut && s.dieAllows l (dieOf base) && within l.len (s.furrowOk l.len l.pmode busy)

/-! ### Enumeration (R314) -/

/-- The `q`-th pair in increasing i0 + i1, and within one sum in increasing i0. -/
def diagPair (n0 n1 : Nat) : Nat → Nat → Nat → Nat × Nat
  | 0, _, _ => (0, 0)
  | fuel + 1, t, q =>
    let lo := t - (n1 - 1)
    let cnt := min t (n0 - 1) + 1 - lo
    if q < cnt then (lo + q, t - lo - q) else diagPair n0 n1 fuel (t + 1) (q - cnt)

/-- Pairs of a square of side `h` at (x, y) that lie within the bounds. -/
def squareCount (n0 n1 h x y : Nat) : Nat := min h (n0 - x) * min h (n1 - y)

/-- The `q`-th pair of the square of side 2^k at (x, y) in increasing Morton code. -/
def mortonPair (n0 n1 : Nat) : Nat → Nat → Nat → Nat → Nat × Nat
  | 0, x, y, _ => (x, y)
  | k + 1, x, y, q =>
    let h := 2 ^ k
    let a := squareCount n0 n1 h x y
    let b := squareCount n0 n1 h x (y + h)
    let c := squareCount n0 n1 h (x + h) y
    if q < a then mortonPair n0 n1 k x y q
    else if q < a + b then mortonPair n0 n1 k x (y + h) (q - a)
    else if q < a + b + c then mortonPair n0 n1 k (x + h) y (q - a - b)
    else mortonPair n0 n1 k (x + h) (y + h) (q - a - b - c)

/-- i0 to i3 of unit `u` (R314). -/
def indices (order n0 n1 n2 n3 u : Nat) : List Nat :=
  match order with
  | 0 => [u / (n3 * n2 * n1), u / (n3 * n2) % n1, u / n3 % n2, u % n3]
  | 1 => [u % n0, u / n0 % n1, u / (n0 * n1) % n2, u / (n0 * n1 * n2)]
  | _ =>
    let r := u % (n2 * n3)
    let q := u / (n2 * n3)
    let (i0, i1) := match order with
      | 2 => diagPair n0 n1 (n0 + n1) 0 q
      | 3 => (q / n1, if q / n1 % 2 = 0 then q % n1 else n1 - 1 - q % n1)
      | _ => mortonPair n0 n1 32 0 0 q
    [i0, i1, r / n3, r % n3]

/-- ORDER of the control word. -/
def Launch.order (l : Launch) : Nat := field l.ctl 2 0

/-- i0 to i3 of unit `u` of a launch. -/
def Launch.indicesOf (l : Launch) (u : Nat) : List Nat :=
  indices l.order (l.bounds.getD 0 1) (l.bounds.getD 1 1) (l.bounds.getD 2 1) (l.bounds.getD 3 1) u

/-! ### Unit start -/

/-- s2 of member `m` with stack slot `j` (R317). -/
def Launch.stack (l : Launch) (j m : Nat) : Word :=
  if l.nslot = 0 || l.stksz = 0 then 0 else l.stkb + BitVec.ofNat 64 ((j * l.len + m + 1) * l.stksz)

/-- The scalars of member `m` at unit start (Table 01.7). -/
def Launch.scalars (l : Launch) (u j m : Nat) : SMap Word :=
  (2, l.stack j m) :: (4, l.args) :: (55, BitVec.ofNat 64 u) ::
    mapPos (fun k i => (56 + k, BitVec.ofNat 64 i)) (l.indicesOf u)

/-- A member at unit start (R316, Table 01.7). The record's pair modes and GEO apply at every start (log 123). -/
def Launch.unitMember (l : Launch) (u j m epoch : Nat) (t : Member) : Member :=
  let t := if t.wmode = l.pmode then t else t.configure l.pmode epoch
  { (t.forgetAll epoch).takeLanes with
    geo := BitVec.ofNat 2 l.geo, live := 0, acc := [], accEpoch := epoch
    regs := l.scalars u j m, pend := [], link := none, sende := [] }

/-- STATUS at unit start: IE, and CLASS, STOPF and RING of the record. -/
def Launch.status (l : Launch) : Word :=
  BitVec.ofNat 64 (2 + b2n (bit l.ctl 26) * 2 ^ 8 + b2n (bit l.ctl 27) * 2 ^ 9 + b2n (bit l.ctl 24) * 2 ^ 10)

/-- TW: 0 is read as 1. -/
def Launch.tw (l : Launch) : Nat := if field l.ctl 23 20 = 0 then 1 else field l.ctl 23 20

/-- A tiller's field of THW in its sheaf. -/
def State.setThw (s : State) (t v : Nat) : State :=
  s.modSheaf (sheafOf t) fun sh =>
    { sh with thw := BitVec.ofNat 32 (sh.thw.toNat - s.thwOf t * 16 ^ (t % 8) + v * 16 ^ (t % 8)) }

/-- The furrow of unit `l.next` on tillers that were `old` (R313, R316). -/
def State.unitHart (s : State) (l : Launch) (j : Job) (old : List Member) (slot : Nat) : Hart :=
  let f := l.len
  let h : Hart := {
    id := s.nextId
    members := mapPos (fun m t => l.unitMember l.next slot m (s.tick + 1) t) old
    run := .running
    unit := some { launch := l.id, ordinal := l.next, slot := if l.nslot = 0 || l.stksz = 0 then none else some slot }
    pc := l.entry, npc := l.entry, entry := .fall, status := l.status, vec := j.vec
    ctx := j.ctx, ptroot0 := j.pt0, ptroot1 := j.pt1, prio := BitVec.ofNat 64 (s.effPrio l)
    ringf := bit l.ctl 25, shares := List.replicate f 0 }
  { h with vmax := BitVec.ofNat 19 h.capacity }

/-- The launch after it handed out its next unit (R314, R317). -/
def Launch.handed (l : Launch) (slot die : Nat) : Launch :=
  { l with
    next := l.next + 1, risen := 0
    state := if l.next + 1 = l.total then .draining else .running
    slots := if l.nslot = 0 || l.stksz = 0 then l.slots else l.slots ++ [slot]
    die := if l.iring then some die else none }

/-- The ring of a launch, from its first unit on (R213). -/
def State.openRing (s : State) (l : Launch) : State :=
  if l.iring && !(s.rings.any fun r => r.launch == l.id) then { s with rings := s.rings ++ [⟨l.id, 0, [], []⟩] } else s

/-- Launches of the level of launch `l` or above it that could not be placed on the die. -/
def State.passedOver (s : State) (l : Launch) (d : Nat) : List Nat :=
  (s.launches.filter fun x => x.id != l.id && x.handsOut && s.dieAllows x d && !s.launchPlace x (some d) &&
    decide (s.launchLevel x ≤ s.launchLevel l)).map (·.id)

/-- The holds after launch `l` placed a unit on a die: its own ends there, and each launch passed over may have waited
its 65,536 cycles, which the module chooses (R319, log 62). -/
def State.holdsAfter (s : State) (l : Launch) (d : Nat) : List (Nat × Nat) :=
  (s.holds.filter fun x => x != (l.id, d)) ++
    ((s.passedOver l d).filter fun x => !s.holds.contains (x, d) && s.pick [319, x, d] 2 == 1).map fun x => (x, d)

/-- `f` with no current furrow; then the current one is back. -/
def State.aside (s : State) (f : State → State) : State :=
  let old := s.hart.id
  let s2 := f ((s.switchTo 0).getD s)
  if old = 0 then s2 else (s2.switchTo old).getD s2

/-- The furrow at `base` whose unit of the launch has executed END while its E-side goes on, with the pair modes and
the geometry that the next unit needs (R318, Table 01.7). -/
def State.endingAt (s : State) (l : Launch) (base : Nat) : Option Hart :=
  s.harts.find? fun h =>
    h.id != 0 && h.root.isNone && h.run == .ending && (h.member 0).tile == base && h.len == l.len &&
      (match h.unit with | some u => u.launch == l.id | none => false) &&
      h.members.all fun m => m.wmode == l.pmode && m.geo.toNat == l.geo

/-- What of a furrow its E-side still finishes, when the next unit starts on it: the unit that ended and those before
it (R318). -/
def Hart.priors (h : Hart) : List Prior :=
  match h.unit with
  | some u => h.prior ++ [⟨u, h.members.flatMap fun m => m.tq.map (·.id), h.vops.map (·.id)⟩]
  | none => h.prior

/-- The members that a unit starts on: idle ones, or under run-ahead those of the furrow whose work goes on without
effect on the new unit (R318, Table 01.7). -/
def State.startMembers (s : State) (old : Option Hart) (base f : Nat) : List Member :=
  match old with
  | some h => h.members.map fun m => { m with tq := m.tq.map fun c => { c with gone := true } }
  | none => (numsFrom 0 f).map fun m => s.idleMember (base + m)

/-- The furrow goes on with the vector memory instructions of the unit before, whose data reaches no register (R318). -/
def Hart.runsAhead (h : Hart) (old : Option Hart) : Hart :=
  match old with
  | some o => { h with vops := o.discardVector.vops, prior := o.priors }
  | none => h

/-- Unit `l.next` starts on the tillers from `base` on, which are idle or, under run-ahead, those of `old` (R316,
R318). THW takes the record's TW at every start (log 123). -/
def State.startUnit (s : State) (l : Launch) (j : Job) (base slot : Nat) (old : Option Hart) : State :=
  s.aside fun s =>
    let h := (s.unitHart l j (s.startMembers old base l.len) slot).runsAhead old
    let s : State := match old with
      | some o => { s with others := s.others.filter (·.id != o.id), ckpts := erase s.ckpts o.id }
      | none => s
    let tiles := numsFrom base l.len
    let s := tiles.foldl (fun s t => s.setThw t l.tw) s
    let holds := s.holdsAfter l (dieOf base)
    let s := (s.openRing l).modLaunch l.id fun x => x.handed slot (dieOf base)
    { s with
      hart := h, nextId := s.nextId + 1, idle := tiles.foldl erase s.idle, holds := holds
      gifts := tiles.foldl erase s.gifts }

end Sys2Proof.Machine
end

