-- ==== Sys2Proof/Machine/ModuleEvents.lean ====
section
/-! DEFINITION. The module as a whole and its surroundings: reset and the stages (R39, R368, R369, R372), module
registers (R367, R370, R262, R359, R362), the host and the peers (R302, R303, R371, R374 to R376), SPDM
(R373), losses (R349, R376, R379), power, wear and refresh (R378, R380, R356). -/

namespace Sys2Proof.Machine

/-! ### Sources of events (R377) -/

/-- The model's names of the sources (log 104): the host port. -/
def hostSource : Nat := 0
/-- Peer link `j`. -/
def linkSource (j : Nat) : Nat := 1 + j
/-- Lane telemetry. -/
def laneSource : Nat := 17
/-- The power manager. -/
def powerSource : Nat := 18
/-- Uzoduja. -/
def bootSource : Nat := 19
/-- The trace units of die `d`. -/
def traceSource (d : Nat) : Nat := 29 + d

/-- A trace unit may record an event (R377, log 104). -/
def State.mayTrace (s : State) : State := s.mayLog (traceSource (s.pick [377] 8))

/-- The module answers the outside. -/
def State.answer (s : State) (r : Reply) : Result := ({ s with reply := r } : State).ok

/-- The answer to a read: bytes, with poison where a sector is poisoned (R379). -/
def State.readReply (s : State) (pa : Nat) (bs : List Byte) : Reply :=
  { bytes := bs
    poison := s.poisoned.any fun k => decide (pa / 32 ≤ k) && decide (32 * k < pa + bs.length) }

/-- An access that is refused: a read gets all ones (R371). -/
def refusedReply (n : Nat) : Reply := { bytes := List.replicate n 0xFF, refused := true }

/-- An access from outside waits no longer. -/
def State.outsidePassed (s : State) (i : Instr) : State := { s with waiting := s.waiting.filter (·.2 != i) }

/-- The number of an access from outside: that under which it waits, or the next one. -/
def State.outsideId (s : State) (i : Instr) : Nat :=
  match s.waiting.find? fun w => w.2 == i with
  | some w => w.1
  | none => s.nextId

/-- An access from outside waits under its number. -/
def State.outsideWaits (s : State) (i : Instr) : State :=
  if s.waiting.any fun w => w.2 == i then s
  else { s with waiting := s.waiting ++ [(s.nextId, i)], nextId := s.nextId + 1 }

/-- An access from outside to some addresses waits while a row microprogram holds it back, or another request to its bank
came first; the module tries it again (R356, R365, log 73). -/
def State.outsideGate (s : State) (i : Instr) (pas : List Nat) (f : State → Result) : Result :=
  let id := s.outsideId i
  match s.windowsAt id pas with
  | [] => f ((s.leaveQueues fun q => q.1 == id).outsidePassed i)
  | gs => ((s.outsideWaits i).enterQueues id gs).ok

/-! ### Module registers -/

/-- MODULE_REGISTER_WRITE (R367); a write of an owner tag takes its place in its bank's order (R362). -/
def execModuleRegisterWrite (pa : Nat) (value : Word) (s : State) : Result :=
  if inRegs pa && pa % 8 == 0 then
    s.outsideGate (.moduleRegisterWrite pa value) [pa] fun s => (s.writeReg pa value).ok
  else notEnabled

/-- JOBP (R370). -/
def execJobp (value : Word) (s : State) : Result := (s.submitJob value).ok

/-- JOBC (R370, R321). -/
def execJobc (value : Word) (s : State) : Result := (s.hostCancel value).ok

/-- START (R359, R360). -/
def execStart (g : Nat) (value : Word) (s : State) : Result :=
  if g < 1024 then (s.writeStart g value).ok else notEnabled

/-- OWN: the write is performed at its bank in that bank's order (R362). -/
def execOwn (g bank : Nat) (value : Word) (s : State) : Result :=
  if g < 1024 && decide (bank < 16) then
    s.outsideGate (.own g bank value) [ownAddress g bank] fun s => (s.writeOwn g bank value).ok
  else notEnabled

/-- RMFRAC (R262). -/
def execRmfrac (value : Word) (s : State) : Result := (s.writeRmfrac value).ok

/-! ### Start-up -/

/-- The firmware check of the boot ROM: the public key is the fused one, the signature over the SM3 digest is its own,
and the version is not below the fused minimum (R372). -/
def firmwareAccepted (fw : Firmware) : Bool :=
  Config.sm3 fw.key == Config.fusedKey && Config.sm2Accepts fw.key (Config.sm3 fw.image) fw.signature &&
    decide (Config.minVersion ≤ fw.version)

/-- MODULE_RESET with the firmware check (R39, R342, R368, R372): what lies in memory, the ciphertext of host memory among
it, the non-volatile fault log and the parts to be mapped out stay. -/
def execModuleReset (fw : Firmware) (s : State) : Result :=
  ({ State.reset with
      err := if firmwareAccepted fw then 0 else 1
      firmware := some (Config.sm3 fw.image)
      mem := s.mem, counters := s.counters, cipher := s.cipher, tags := s.tags, raw := s.raw, poisoned := s.poisoned, faultLog := s.faultLog, nextOut := s.nextOut, nextHalf := s.nextHalf
      messages := s.messages, agenda := s.agenda, tick := s.tick, nextId := s.nextId } : State).ok

/-- The stage follows `from` in a module that no error halts. -/
def State.mayEnter (s : State) (stage : Nat) : Bool := s.stage.toNat + 1 == stage && s.err == 0

/-- The figures that the firmware gives stage MEMORY keep their layout (R344, R367). -/
def stageFigures (pcmap : List Nat) (csbase cssize evbase evsize : Nat) : Bool :=
  pcmap.all (decide <| · < 1024) && csbase % 65536 == 0 && cssize % 65536 == 0 && decide (csbase + cssize ≤ Config.hbmSize) &&
    evbase % 4096 == 0 && decide (evbase + 32 * evsize ≤ Config.hbmSize)

/-- STAGE_MEMORY (R368, R369, R379). -/
def execStageMemory (trained : Bool) (pcmap : List Nat) (csbase cssize evbase evsize : Nat) (s : State) : Result :=
  if !s.mayEnter 2 || !stageFigures pcmap csbase cssize evbase evsize then notEnabled
  else if !trained then ({ s with stage := 2, err := 2 } : State).ok
  else
    ({ s with
        stage := 2, pcmap := sortNat (pcmap ++ s.nextOut)
        mem := s.mem.filter fun c => !inHbm c.1, poisoned := s.poisoned.filter fun k => !inHbm (32 * k)
        csbase := csbase, cssize := cssize, evbase := evbase, evsize := evsize, evpos := 0 } : State).ok

/-- Some tiller has its stacked half (R368, ERR 3). -/
def State.someBeds (s : State) : Bool := s.anyFurrow 1 [] none (s.tmapDef == 1) fun t => s.tmapOf t == 1

/-- STAGE_COMPUTE: TMAP and the lane map as self-test found them, with code 2 for the tillers that lost their stacked half;
RMFRAC is locked (R368, R262, R348, R379). -/
def execStageCompute (tmap lanes : List (Nat × Nat)) (s : State) : Result :=
  if !s.mayEnter 3 || !(tmap.all fun p => decide (p.1 < Config.tillers) && decide (p.2 ≤ 2)) ||
      !(lanes.all fun p => decide (p.1 < Config.tillers) && decide (p.2 < 256)) then notEnabled
  else
    let s : State := { s with
      stage := 3, rmLock := true, tmapDef := 1
      laneMap := lanes.foldl (fun (m : SMap Nat) p => insert m p.1 p.2) []
      tmap := s.nextHalf.foldl (fun (m : SMap Nat) t => if lookupD m t 1 = 1 then insert m t 2 else m)
        (tmap.foldl (fun (m : SMap Nat) p => insert m p.1 p.2) [])
      idle := lanes.foldl (fun (m : SMap Member) p =>
        insert m p.1 { lookupD m p.1 (Member.fresh p.1) with groups := BitVec.ofNat 8 p.2 }) s.idle }
    (if s.someBeds then s else { s with err := 3 }).ok

/-- STAGE_LINKS (R368, R369). -/
def execStageLinks (up : List Nat) (s : State) : Result :=
  if !s.mayEnter 4 then notEnabled
  else ({ s with
      stage := 4, linkup := BitVec.ofNat 16 ((sortNat (up.filter (decide <| · < 16))).map (2 ^ ·)).sum } : State).ok

/-! ### The host -/

/-- An open window holds the range, IDE is active, and no byte of it is mapped out (R371, R379, log 122). -/
def State.hostReaches (s : State) (pa n : Nat) : Bool :=
  s.ide && decide (2 ≤ s.stage.toNat) && s.err == 0 &&
    (s.windows.any fun w => decide (w.1 ≤ pa) && decide (pa + n ≤ w.1 + w.2)) &&
    !(blocksOf pa n).any s.reserved

/-- CXL.cache is enabled (R368, R371). -/
def State.hostCoherent (s : State) (pa n : Nat) : Bool :=
  s.ide && decide (2 ≤ s.stage.toNat) && s.err == 0 && (inHost pa || s.hostReaches pa n)

/-- A write through CXL.mem at the home (R302): copies of host scope follow it. Under a dirty copy of a narrower scope
the home's byte changes; the copy's byte follows where no tiller has changed it, so that an acquire or a write-back
shows the write (R288, R289). -/
def State.homePut (s : State) (pa : Nat) (b : Byte) : State :=
  if s.allMembers.any fun m => m.lines.any fun l => l.coh != 5 && l.home.any fun p => p.1 == pa then
    let s := if s.homeByte pa = s.peek pa then s.putBytes .host pa [b] else s.wrote .host (sectorOf pa)
    s.mapAll fun m => { m with lines := m.lines.map fun l =>
      { l with home := l.home.map fun p => if p.1 = pa then (pa, b) else p } }
  else s.putCoherent .host pa [b]

/-- Bytes written at the home, byte by byte. -/
def State.homePuts (s : State) : Nat → List Byte → State
  | _, [] => s
  | pa, b :: bs => (s.homePut pa b).homePuts (pa + 1) bs

/-- Lines whose tag record the host touched (R374). -/
def State.touchedRecords (s : State) (pa n : Nat) : List Nat :=
  (numsFrom (pa / 32) ((pa + n + 31) / 32 - pa / 32)).filterMap fun k => lookup s.tags k

/-- Lines of a range. -/
def linesOf (pa n : Nat) : List Nat := numsFrom (pa / 64) ((pa + n + 63) / 64 - pa / 64)

/-- Bytes that the host writes in its own memory, through CXL.cache or from its own side: lines and records that they
touch fail their check (R374). -/
def State.hostPuts (s : State) (pa : Nat) (bs : List Byte) : State :=
  let t := (s.putCoherent .host pa bs).unseal (linesOf pa bs.length ++ s.touchedRecords pa bs.length)
  { t with raw := (numsFrom pa bs.length).foldl (fun m a => insert m a true) t.raw }

/-- The key under which the module last enciphered a line. -/
def State.lineKey (s : State) (line : Nat) : Nat :=
  match lookup s.cipher (2 * line) with
  | some k => k
  | none => lookupD s.cipher (2 * line + 1) 0

/-- The tag record of a line: the tag, the write counter and zeros (R374). -/
def State.tagRecord (s : State) (line : Nat) : List Byte :=
  let ctr := lookupD s.counters line 0
  bytesOf 16 (Config.sm4Tag (s.lineKey line) ctr line (s.peekBytes (64 * line) 64)).toNat
    ++ bytesOf 8 ctr ++ bytesOf 8 0

/-- A byte of host memory as the host finds it: its own where it wrote last, else ciphertext and tag records where the
module wrote, whatever became of the key (R374). -/
def State.hostByte (s : State) (pa : Nat) : Byte :=
  if (lookup s.raw pa).isSome then s.peek pa
  else match lookup s.cipher (sectorOf pa) with
  | some key => Config.sm4Byte key (lookupD s.counters (pa / 64) 0) pa (s.peek pa)
  | none =>
    match lookup s.tags (sectorOf pa) with
    | some l => (s.tagRecord l).getD (pa % 32) 0
    | none => s.peek pa

/-- The bytes that a read of the host finds: its own memory as it stands there. -/
def State.hostBytes (s : State) (pa n : Nat) : List Byte :=
  if inHost pa then (numsFrom pa n).map s.hostByte else s.peekBytes pa n

/-- Dirty copies of host scope in a range are written back: the host reads them coherently (R280, R302). -/
def State.cleanHost (s : State) (pa n : Nat) : State :=
  (numsFrom (pa / 32) ((pa + n + 31) / 32 - pa / 32)).foldl (fun (s : State) k =>
    s.mapAll fun m => { m with lines := m.lines.map fun l => if l.coh = 5 then l.clean (32 * k) else l }) s

/-- HOST_ACCESS (R302, R356, R367, R371, R374). -/
def execHostAccess (r : HostReq) (s : State) : Result :=
  match r with
  | .cacheRead pa n =>
    if s.hostCoherent pa n then
      s.outsideGate (.hostAccess r) (blocksOf pa n) fun s =>
        let s := s.cleanRange pa n
        s.answer (s.readReply pa (s.hostBytes pa n))
    else ((s.outsidePassed (.hostAccess r)).logEvent hostSource).answer (refusedReply n)
  | .cacheWrite pa bs =>
    if s.hostCoherent pa bs.length then
      s.outsideGate (.hostAccess r) (blocksOf pa bs.length) fun s => (s.hostPuts pa bs).answer {}
    else ((s.outsidePassed (.hostAccess r)).logEvent hostSource).answer (refusedReply 0)
  | .memRead pa n =>
    if s.hostReaches pa n then
      s.outsideGate (.hostAccess r) (blocksOf pa n) fun s =>
        (s.cleanHost pa n).answer (s.readReply pa ((numsFrom pa n).map s.homeByte))
    else ((s.outsidePassed (.hostAccess r)).logEvent hostSource).answer (refusedReply n)
  | .memWrite pa bs =>
    if s.hostReaches pa bs.length then
      s.outsideGate (.hostAccess r) (blocksOf pa bs.length) fun s => (s.homePuts pa bs).answer {}
    else ((s.outsidePassed (.hostAccess r)).logEvent hostSource).answer (refusedReply 0)
  | .regRead pa n =>
    if inRegs pa && (n == 1 || n == 2 || n == 4 || n == 8) && pa % n == 0 then s.answer { bytes := s.readReg pa n }
    else notEnabled
  | .regWriteNarrow pa n =>
    if inRegs pa && (n == 1 || n == 2 || n == 4) && pa % n == 0 then (s.logEvent hostSource).answer (refusedReply 0)
    else notEnabled
  | .ownMemory pa bs =>
    if inHost pa && (bs.isEmpty || inHost (pa + bs.length - 1)) then
      (s.hostPuts pa bs).answer {}
    else notEnabled
  | .ownRead pa n =>
    if inHost pa && (n == 0 || inHost (pa + n - 1)) then s.answer { bytes := (numsFrom pa n).map s.hostByte }
    else notEnabled
  | .tagRefused line =>
    if s.sealed.any fun p => p.1 / 2 == line then ((s.unseal [line]).logEvent bootSource).ok else notEnabled

/-! ### Peers -/

/-- A slot holds a key that is shared with the peers; without one no flit of theirs can be deciphered (R374). -/
def State.peerKey (s : State) : Bool := s.kslots.any fun k => bit k.2.1 0 && bit k.2.1 1

/-- The home accepts a peer's access: an address of HBM that is not mapped out, in flits under the shared key (R374,
R376). -/
def State.peerAccepts (s : State) (pa n : Nat) : Bool :=
  s.peerKey && inHbm (pa + n - 1) && !s.reserved pa && !s.reserved (pa + n - 1)

/-- An operation in flight over a link: a byte of it lies in the link's window (R376). -/
def State.overLink (s : State) (o : EngOp) (link : Nat) : Option EngStatus :=
  let at' := fun (opnd off : Nat) =>
    match translate s (o.tctx s) .read (o.arg opnd + BitVec.ofNat 64 off), translate s (o.tctx s) .write (o.arg opnd + BitVec.ofNat 64 off) with
    | .ok x, _ => inPeer x.pa && linkOf x.pa == link
    | _, .ok x => inPeer x.pa && linkOf x.pa == link
    | _, _ => false
  if o.kind != .copy || o.ended.isSome then none
  else o.todo.findSome? fun off =>
    if at' 0 off then some { code := 3, sub := 8, opnd := 0, detail := off }
    else if at' 1 off then some { code := 3, sub := 8, opnd := 1, detail := off }
    else none

/-- The stream of a member on the peer joins the merge that its record names with this link (R238, R239). -/
def State.farStream (s : State) (link merge k : Nat) (pairs : List (Nat × Nat)) : Result :=
  match s.merges.find? (·.id == merge) with
  | none => notEnabled
  | some m =>
    match m.members.head?.bind fun x => s.ops.find? (·.id == x.2) with
    | none => notEnabled
    | some o =>
      match s.readGroup o m.raw with
      | .error _ => notEnabled
      | .ok (_, g, _) =>
        if (g.list[k]?.map (·.2)) != some (link + 1) || m.far.any (fun x => x.1 == k) then notEnabled
        else ({ s with merges := s.merges.map fun y =>
            if y.id = merge then { y with far := y.far ++ [(k, pairs)] } else y } : State).ok

/-- The merge that an operation belongs to, with its group. -/
def State.openMerge (s : State) (o : EngOp) : Option (Merge × Group) :=
  match s.merges.find? fun m => m.members.any fun x => x.2 == o.id with
  | none => none
  | some m => match s.readGroup o m.raw with
    | .error _ => none
    | .ok (_, g, _) => some (m, g)

/-- The writes that an operation has still to make: operand, base and offset. -/
def State.writesOf (s : State) (o : EngOp) : List (Nat × Word × Nat) :=
  match o.kind with
  | .copy => o.todo.map fun off => (0, o.arg 0, off)
  | .plow _ => [(0, o.arg 0, 1024 * o.prog)]
  | .rdc =>
    (match s.rdcChecks o with
      | .ok (_, b, _) => if b.flag = 0 then [] else [(4, b.flag, 0)]
      | .error _ => [])
  | .spred => (match s.openMerge o with | some (_, g) => [(0, g.dst, 0)] | none => [])
  | .rstart | .wld => []

/-- A write of an operation that lies in a link's window. -/
def State.farWrite (s : State) (o : EngOp) (link : Nat) : Option EngStatus :=
  if o.ended.isSome then none
  else (s.writesOf o).findSome? fun w =>
    match translate s (o.tctx s) .write (w.2.1 + BitVec.ofNat 64 w.2.2) with
    | .ok x => if inPeer x.pa && linkOf x.pa == link then some { code := 3, sub := 8, opnd := w.1, detail := w.2.2 } else none
    | .error _ => none

/-- A write of an operation fails at the peer's port: it is dropped there, and the operation ends with FAULT, a SPRED with
the others of its merge (R375). -/
def State.farFailure (s : State) (link op : Nat) : Result :=
  match s.ops.find? (·.id == op) with
  | none => notEnabled
  | some o =>
    match s.farWrite o link with
    | none => notEnabled
    | some e => match (if o.kind = .spred then s.openMerge o else none) with
      | some (m, g) => (s.endMerge m ((s.mergeOps m g.g).map fun p => (p, e))).ok
      | none => (s.endOp op e).ok

/-- PEER_ACCESS over a link that is up (R288, R303, R375, R376); a halted module serves no peer (R369). -/
def execPeerAccess (link : Nat) (r : PeerReq) (s : State) : Result :=
  if !s.linkup.getLsbD link || s.err != 0 then notEnabled
  else match r with
    | .read pa n =>
      if s.peerAccepts pa n then
        s.outsideGate (.peerAccess link r) (blocksOf pa n) fun s =>
          let s := s.cleanRange pa n
          s.answer (s.readReply pa (s.peekBytes pa n))
      else (s.outsidePassed (.peerAccess link r)).answer (refusedReply 0)
    | .write pa bs =>
      if s.peerAccepts pa bs.length then
        s.outsideGate (.peerAccess link r) (blocksOf pa bs.length) fun s => (s.putCoherent .other pa bs).answer {}
      else (s.outsidePassed (.peerAccess link r)).answer (refusedReply 0)
    | .badWrite _ => (s.logEvent (linkSource link)).answer (refusedReply 0)
    | .ownWrite pa bs =>
      if inPeer pa && linkOf pa == link && (bs.isEmpty || linkOf (pa + bs.length - 1) == link) then
        (s.putCoherent .other pa bs).ok
      else notEnabled
    | .failed op => s.farFailure link op
    | .stream merge k pairs => s.farStream link merge k pairs

/-- The merge names a link (R369, R376). -/
def State.mergeOver (s : State) (m : Merge) (link : Nat) : Bool :=
  match m.members.head?.bind fun x => s.ops.find? (·.id == x.2) with
  | none => false
  | some o =>
    match s.readGroup o m.raw with
    | .error _ => false
    | .ok (_, g, _) => g.list.any fun e => e.2 == link + 1

/-- LINK_DOWN (R376). The accesses of loads and gathers in flight over it are lost (log 118). -/
def execLinkDown (link : Nat) (s : State) : Result :=
  if !s.linkup.getLsbD link then notEnabled
  else
    let ops := s.ops.map fun o => match s.overLink o link with
      | some e => { o with ended := some e }
      | none => o
    let named := s.merges.filter fun m => s.mergeOver m link
    let s1 : State := { s with
      ops := ops, linkup := s.linkup &&& ~~~ (BitVec.ofNat 16 (2 ^ link))
      waiting := s.waiting.filter fun w => match w.2 with
        | .peerAccess l _ => l != link
        | _ => true }
    (named.foldl (fun (t : State) m =>
      t.endMerge m ((t.mergeOps m 256).map fun o => (o, { code := 3, sub := 8, opnd := 3 }))) s1).ok

/-! ### Uzoduja -/

/-- The words of a key slot (Table 14.4). -/
def slotWords (peer : Bool) (wbase tagb wsize : Nat) : Word × Word :=
  (BitVec.ofNat 64 (wbase % 2 ^ 36 * 65536 + b2n peer * 2 + 1), BitVec.ofNat 64 (tagb % 2 ^ 36 * 65536 + wsize % 65536))

/-- A job uses module memory. -/
def State.jobsRun (s : State) : Bool := s.jobs.any fun j => !j.state.ended

/-- A measurement (R373): indices 1 to 4; the fourth is the start-up configuration. -/
def State.measurement (s : State) (index : Nat) : Option (BitVec 256) :=
  let config := [BitVec.ofNat 8 s.rmF.toNat] ++ (numsFrom 0 16).flatMap (fun k => bytesOf 8 (s.pcmapWord k))
    ++ (numsFrom 0 2048).flatMap (fun k => bytesOf 8 (s.tmapWord k))
    ++ s.laneMap.flatMap fun p => bytesOf 2 p.1 ++ bytesOf 1 p.2
  match index with
  | 1 | 3 => some (Config.measurement index)
  | 2 => some (s.firmware.getD (Config.measurement 2))
  | 4 => some (Config.sm3 config)
  | _ => none

/-- An entry of the fault log as an answer holds it, in the model's own layout. -/
def FaultEntry.bytes (e : FaultEntry) : List Byte := bytesOf 6 e.seq ++ bytesOf 1 e.kind ++ bytesOf 8 e.line.toNat ++ bytesOf 1 e.cause

/-- A message that travels only inside a secured session: the answer is enciphered under its key; none where the message
is refused (R373). -/
def State.secured (s : State) (f : State → Option (State × List Byte)) : Result :=
  match s.session with
  | none => s.answer { refused := true }
  | some key =>
    match f s with
    | some (t, bs) => t.answer { bytes := Config.secured key bs }
    | none => s.answer { refused := true }

/-- SPDM_MESSAGE (R371, R373, R374). -/
def execSpdmMessage (m : SpdmMsg) (s : State) : Result :=
  match m with
  | .installKey slot peer wbase tagb wsize =>
    s.secured fun s =>
      if slot < 4 then
        some ({ s with
            kslots := insert s.kslots slot (slotWords peer wbase tagb wsize)
            keys := insert s.keys slot s.nextId, nextId := s.nextId + 1 }, [])
      else none
  | .openWindow base size =>
    s.secured fun s =>
      if base + size ≤ Config.hbmSize then some ({ s with windows := s.windows ++ [(base, size)] }, []) else none
  | .closeWindow base =>
    s.secured fun s =>
      if s.jobsRun then none else some ({ s with windows := s.windows.filter fun w => w.1 != base }, [])
  | .readFaultLog => s.secured fun s => some (s, s.faultLog.flatMap FaultEntry.bytes)
  | .getMeasurement index =>
    match s.measurement index with
    | some d => s.answer { bytes := bytesOf 32 d.toNat ++ Config.sm2Sign (bytesOf 32 d.toNat) }
    | none => s.answer { refused := true }
  | .ideKeys => s.secured fun s => some ({ s with ide := true }, [])
  | .ideStop => s.secured fun s => some ({ s with ide := false }, [])
  | .keyExchange data =>
    let share := Config.sm2Share data
    ({ s with session := some (Config.sm2Agree data) } : State).answer { bytes := share ++ Config.sm2Sign (data ++ share) }
  | .endSession => ({ s with session := none } : State).answer {}
  | .getCertificate slot => if slot = 0 then s.answer { bytes := Config.certificates } else s.answer { refused := true }
  | .challenge nonce => s.answer { bytes := Config.sm2Sign nonce }

/-! ### Losses -/

/-- A tiller's lane group of a bed is retired (R349). -/
def Member.retire (m : Member) (bed : Nat) : Member :=
  { m with
    groups := m.groups + 1, events := if m.events = 0xFFFFFFFF then m.events else m.events + 1
    spares := insert m.spares bed (lookupD m.spares bed 0 + 1) }

/-- The state with a tiller changed, idle tillers included. -/
def State.modTiller (s : State) (t : Nat) (f : Member → Member) : State :=
  if s.allMembers.any fun m => m.tile == t then s.mapAll fun m => if m.tile = t then f m else m
  else { s with idle := insert s.idle t (f (Member.fresh t)) }

/-- The tiller as it stands. -/
def State.tiller (s : State) (t : Nat) : Member := (s.allMembers.find? fun m => m.tile == t).getD (Member.fresh t)

/-- LANE_RETIREMENT (R349): a fifth one in a bed is a machine check of a kind that the spec does not name. -/
def execLaneRetirement (tiller bed : Nat) (s : State) : Result :=
  let m := s.tiller tiller
  if Config.tillers ≤ tiller || 4 ≤ bed || s.tmapOf tiller != 1 || pairMode m.wmode bed != 1 then notEnabled
  else if 4 ≤ lookupD m.spares bed 0 then (s.machineCheck (Config.choose s.tick [349] % 256) 0 0).ok
  else ((s.modTiller tiller fun m => m.retire bed).logEvent laneSource).ok

/-- The pseudo-channels of sectors, which the next stage MEMORY maps out (R379). -/
def State.failedParts (s : State) (sectors : List Nat) : List Nat :=
  sectors.filterMap fun k => ownerPc s.rmF.toNat (32 * k)

/-- MACHINE_CHECK: a fatal loss (R379, R324). -/
def execMachineCheck (kind : Nat) (loss : Loss) (s : State) : Result :=
  if kind = 0 || 6 < kind then notEnabled
  else
    let t := s.machineCheck kind 0 0
    ({ t with
        poisoned := (loss.poisoned ++ t.poisoned).eraseDups
        nextOut := sortNat (loss.parts ++ s.failedParts loss.poisoned ++ t.nextOut).eraseDups
        nextHalf := (loss.halves ++ t.nextHalf).eraseDups
        err := if kind = 6 then 4 else t.err } : State).ok

/-- THERMAL_THROTTLE (R378): the power manager holds the module back to its limit, and a die at 105 °C. -/
def execThermalThrottle (draw celsius : Nat) (s : State) : Result :=
  let s : State := { s with
    draw := BitVec.ofNat 16 (min draw s.limit.toNat), throt := decide (s.limit.toNat < draw) || decide (105 ≤ celsius) }
  let s := if s.throt then s.mayLog powerSource else s
  if 125 ≤ celsius then ({ s.machineCheck 6 0 0 with err := 4 } : State).ok else s.ok

/-! ### Wear and refresh -/

/-- WEAR_UPDATE (R380). -/
def execWearUpdate (wear : List Word) (days : Nat) (s : State) : Result :=
  ({ s.mayTrace.mayLog bootSource with
      wear := (mapPos (fun d w => (d, w &&& 0xFFFFFFFFFFFF)) (wear.take 8)).foldl (fun (m : SMap Word) p => insert m p.1 p.2) s.wear
      eol := BitVec.ofNat 32 (min days 0xFFFFFFFF) } : State).ok

/-- DRAM_REFRESH: no architectural effect (R356, R11). -/
def execDramRefresh (pc bank : Nat) (s : State) : Result :=
  if pc < 1024 && decide (bank < 16) && decide (2 ≤ s.stage.toNat) then s.ok else notEnabled

end Sys2Proof.Machine
end

