-- ==== Sys2Proof/Machine/Scalar.lean ====
section
/-! DEFINITION. Scalar integer arithmetic, immediates and constants (R92 to R96). -/

namespace Sys2Proof.Machine

/-- Every member: s(D) := f(s(A), s(B)), single-cycle (R90, R92). -/
def State.alu (s : State) (d a b : Reg) (f : Word → Word → Word) : Result :=
  (s.setRegs d fun i => f (s.reg i a) (s.reg i b)).ok

/-- Every member: s(D) := f(s(A)), single-cycle. -/
def State.alu1 (s : State) (d a : Reg) (f : Word → Word) : Result :=
  (s.setRegs d fun i => f (s.reg i a)).ok

/-- Every member: s(D) := f(s(A), s(B)), asynchronous (R73, R94). -/
def State.muldiv (s : State) (d a b : Reg) (f : Word → Word → Word) : Result :=
  (s.asyncRegs d fun i => f (s.reg i a) (s.reg i b)).ok

/-- A shift count: bits [5:0] (R92). -/
def shamt (b : Word) : Nat := b.toNat % 64

/-- Count of leading zero bits; 64 for 0. -/
def clz (a : Word) : Nat := if a = 0 then 64 else 63 - Nat.log2 a.toNat

/-- The least set bit at or above `n`, looking at `k` bits; 64 if none. -/
def ctzFrom (a : Word) : Nat → Nat → Nat
  | _, 0 => 64
  | n, k + 1 => if bit a n then n else ctzFrom a (n + 1) k

/-- Count of one bits. -/
def popc (a : Word) : Nat := ((numsFrom 0 64).map fun n => b2n (bit a n)).sum

/-- Field extract (R93). -/
def extField (a b : Word) : Word :=
  let lsb := field b 5 0
  let wid := field b 13 8 + 1
  let f := a.toNat / 2 ^ lsb % 2 ^ wid
  let top := min wid (64 - lsb) - 1
  if bit b 15 then BitVec.ofInt 64 (signedOf (top + 1) f) else BitVec.ofNat 64 f

/-- 1 or 0 as a register value. -/
def flag (b : Bool) : Word := if b then 1 else 0

/-- High 64 bits of a signed product. -/
def mulHigh (a b : Word) : Word := BitVec.ofInt 64 (a.toInt * b.toInt / 2 ^ 64)

/-- High 64 bits of an unsigned product. -/
def mulHighN (a b : Word) : Word := BitVec.ofNat 64 (a.toNat * b.toNat / 2 ^ 64)

/-- Signed quotient toward zero (Table 04.3). -/
def divS (a b : Word) : Word := if b = 0 then BitVec.allOnes 64 else BitVec.ofInt 64 (a.toInt.tdiv b.toInt)

/-- Unsigned quotient (Table 04.3). -/
def divU (a b : Word) : Word := if b = 0 then BitVec.allOnes 64 else BitVec.ofNat 64 (a.toNat / b.toNat)

/-- Signed remainder with the sign of the dividend (Table 04.3). -/
def remS (a b : Word) : Word := if b = 0 then a else BitVec.ofInt 64 (a.toInt.tmod b.toInt)

/-- Unsigned remainder (Table 04.3). -/
def remU (a b : Word) : Word := if b = 0 then a else BitVec.ofNat 64 (a.toNat % b.toNat)

/-! ### ALU -/

/-- ADD (R92). -/
def execAdd (d a b : Reg) (s : State) : Result := s.alu d a b fun x y => x + y
/-- SUB (R92). -/
def execSub (d a b : Reg) (s : State) : Result := s.alu d a b fun x y => x - y
/-- AND (R92). -/
def execAnd (d a b : Reg) (s : State) : Result := s.alu d a b fun x y => x &&& y
/-- OR (R92). -/
def execOr (d a b : Reg) (s : State) : Result := s.alu d a b fun x y => x ||| y
/-- XOR (R92). -/
def execXor (d a b : Reg) (s : State) : Result := s.alu d a b fun x y => x ^^^ y
/-- SLL (R92). -/
def execSll (d a b : Reg) (s : State) : Result := s.alu d a b fun x y => x <<< shamt y
/-- SRL (R92). -/
def execSrl (d a b : Reg) (s : State) : Result := s.alu d a b fun x y => x >>> shamt y
/-- SRA (R92). -/
def execSra (d a b : Reg) (s : State) : Result := s.alu d a b fun x y => x.sshiftRight (shamt y)
/-- SLT (R92). -/
def execSlt (d a b : Reg) (s : State) : Result := s.alu d a b fun x y => flag (x.slt y)
/-- SLTN (R92). -/
def execSltn (d a b : Reg) (s : State) : Result := s.alu d a b fun x y => flag (x.ult y)
/-- MIN (R92). -/
def execMin (d a b : Reg) (s : State) : Result := s.alu d a b fun x y => if x.slt y then x else y
/-- MAX (R92). -/
def execMax (d a b : Reg) (s : State) : Result := s.alu d a b fun x y => if x.slt y then y else x
/-- MINN (R92). -/
def execMinn (d a b : Reg) (s : State) : Result := s.alu d a b fun x y => if x.ult y then x else y
/-- MAXN (R92). -/
def execMaxn (d a b : Reg) (s : State) : Result := s.alu d a b fun x y => if x.ult y then y else x
/-- CLZ (R92). -/
def execClz (d a : Reg) (s : State) : Result := s.alu1 d a fun x => BitVec.ofNat 64 (clz x)
/-- CTZ (R92). -/
def execCtz (d a : Reg) (s : State) : Result := s.alu1 d a fun x => BitVec.ofNat 64 (ctzFrom x 0 64)
/-- POPC (R92). -/
def execPopc (d a : Reg) (s : State) : Result := s.alu1 d a fun x => BitVec.ofNat 64 (popc x)
/-- EXT (R93). -/
def execExt (d a b : Reg) (s : State) : Result := s.alu d a b extField

/-! ### MULDIV -/

/-- MUL (R94). -/
def execMul (d a b : Reg) (s : State) : Result := s.muldiv d a b fun x y => x * y
/-- MULH (R94). -/
def execMulh (d a b : Reg) (s : State) : Result := s.muldiv d a b mulHigh
/-- MULHN (R94). -/
def execMulhn (d a b : Reg) (s : State) : Result := s.muldiv d a b mulHighN
/-- DIV (R94). -/
def execDiv (d a b : Reg) (s : State) : Result := s.muldiv d a b divS
/-- DIVN (R94). -/
def execDivn (d a b : Reg) (s : State) : Result := s.muldiv d a b divU
/-- REM (R94). -/
def execRem (d a b : Reg) (s : State) : Result := s.muldiv d a b remS
/-- REMN (R94). -/
def execRemn (d a b : Reg) (s : State) : Result := s.muldiv d a b remU

/-! ### Immediates and constants -/

/-- The second operand of a CI word (R95). -/
def immWord (i : BitVec 12) : Word := i.signExtend 64

/-- ADDI (R95). -/
def execAddi (d a : Reg) (i : BitVec 12) (s : State) : Result := s.alu1 d a fun x => x + immWord i
/-- ANDI (R95). -/
def execAndi (d a : Reg) (i : BitVec 12) (s : State) : Result := s.alu1 d a fun x => x &&& immWord i
/-- ORI (R95). -/
def execOri (d a : Reg) (i : BitVec 12) (s : State) : Result := s.alu1 d a fun x => x ||| immWord i
/-- XORI (R95). -/
def execXori (d a : Reg) (i : BitVec 12) (s : State) : Result := s.alu1 d a fun x => x ^^^ immWord i
/-- SLTI (R95). -/
def execSlti (d a : Reg) (i : BitVec 12) (s : State) : Result := s.alu1 d a fun x => flag (x.slt (immWord i))
/-- SLTIN (R95). -/
def execSltin (d a : Reg) (i : BitVec 12) (s : State) : Result := s.alu1 d a fun x => flag (x.ult (immWord i))
/-- SHI (R95). -/
def execShi (k : ShKind) (d a : Reg) (n : BitVec 6) (s : State) : Result :=
  s.alu1 d a fun x =>
    match k with
    | .sll => x <<< n.toNat
    | .srl => x >>> n.toNat
    | .sra => x.sshiftRight n.toNat
/-- LIS (R96). -/
def execLis (d : Reg) (i : BitVec 18) (s : State) : Result := (s.setRegAll d (i.signExtend 64)).ok
/-- LI (R96). -/
def execLi (d : Reg) (lit : Word) (s : State) : Result := (s.setRegAll d lit).ok

end Sys2Proof.Machine
end

