-- ==== Sys2Proof/Machine/Work.lean ====
section
/-! DEFINITION. WORK (R124 to R127): the handle, LAUNCH, CANCEL and WSTAT. -/

namespace Sys2Proof.Machine

/-! ### Handles (R124) -/

/-- The launch of the running unit or thread. -/
def State.ownLaunch (s : State) : Option Launch :=
  match s.hart.launchOf with
  | some id => s.launch? id
  | none => none

/-- The running unit's own work of a level. -/
def State.ownWork (s : State) (l : Launch) (level : Nat) : Option Work :=
  match level with
  | 1 => some (.launch l.id)
  | 2 => some (.graph l.graph)
  | 3 => (s.graph? l.graph).map fun g => .phase g.phase
  | 4 => some (.job l.job)
  | _ => none

/-- The record at `ref` in the current context is that of the job. -/
def State.isJobRecord (s : State) (job : Nat) (ref : Word) : Bool :=
  match s.job? job, translate s { s.tctx 0 with priv := true } .read ref with
  | some j, .ok x => x.pa == j.record
  | _, _ => false

/-- The work of a level whose record stands at `ref`, in a job; of two, the later one. A phase that has not started is
unknown, as R311 says of launches (log 99). -/
def State.workAt (s : State) (job level : Nat) (ref : Word) : Option Work :=
  match level with
  | 1 => (s.launches.reverse.find? fun l => l.job == job && l.addr == ref).map fun l => .launch l.id
  | 2 => (s.graphs.reverse.find? fun g => g.job == job && (if g.addr = 0 then g.lrec else g.addr) == ref).map
      fun g => .graph g.id
  | 3 => (s.phases.reverse.find? fun p => p.job == job && p.addr == ref).map fun p => .phase p.id
  | 4 => if s.isJobRecord job ref then some (.job job) else none
  | _ => none

/-- The work that a handle names in the current job (Table 04.9). -/
def State.handleWork (s : State) (h : Word) : Option Work :=
  match s.ownLaunch with
  | none => none
  | some l =>
    let level := field h 63 60
    let ref := BitVec.ofNat 64 (field h 55 0)
    if ref = 0 then s.ownWork l level else s.workAt l.job level ref

/-! ### Status words (R127) -/

/-- The status word of a piece of work (Table 04.10). -/
def State.workWord (s : State) (w : Work) : Word :=
  match w with
  | .launch id => (match s.launch? id with | some l => workStatus l.out l.reason l.state | none => 0)
  | .graph id => (match s.graph? id with | some g => workStatus (s.graphOut id) g.reason g.state | none => 0)
  | .phase id => (match s.phase? id with | some p => workStatus (s.phaseOut id) p.reason p.state | none => 0)
  | .job id => (match s.job? id with | some j => workStatus (s.jobOut j) j.reason j.state | none => 0)

/-! ### LAUNCH -/

/-- Launches of a job made by LAUNCH that have not completed (R125). -/
def State.children (s : State) (job : Nat) : Nat :=
  (s.launches.filter fun l => l.child && l.job == job && !l.state.ended).length

/-- A launch with this record is in flight in the job (R307, R125). -/
def State.inFlight (s : State) (job : Nat) (a : Word) : Bool :=
  s.launches.any fun l => l.job == job && l.addr == a && !l.state.ended

/-- Work within the phase is no longer started (R321). -/
def State.phaseStopped (s : State) (phase : Nat) : Bool :=
  match s.phase? phase with
  | some p => p.state != .running
  | none => true

/-- The launch is REJECTED; its flag is written where the record can be read (R305, R311). -/
def State.rejectLaunch (s : State) (id reason : Nat) : State :=
  match s.launch? id with
  | none => s
  | some l => (s.learnFlag l).endLaunch id .rejected reason (reason != 2)

/-- The new graph of one launch of LAUNCH (R125); `l` is the launch of the issuing unit. -/
def State.addChild (s : State) (l : Launch) (a : Word) : State :=
  let n := s.nextId
  let ph := match s.graph? l.graph with | some g => g.phase | none => 0
  let stop := s.phaseStopped ph
  let twice := s.inFlight l.job a
  let why := if stop then 0xFF else 0
  let g : Graph := {
    id := n, phase := ph, job := l.job, addr := 0, lrec := a
    state := if stop then .cancelling else .running, reason := why }
  let x : Launch := {
    id := n + 1, graph := n, job := l.job, addr := a, preds := [], child := true
    state := if stop then .cancelling else .waiting, reason := why }
  let s : State := { s with graphs := s.graphs ++ [g], launches := s.launches ++ [x], nextId := n + 2 }
  if twice && !stop then s.rejectLaunch (n + 1) 3 else s

/-- The handle of a launch (R125). -/
def launchHandle (a : Word) : Word := BitVec.ofNat 64 (2 ^ 60 + field a 55 0)

/-- The checks of LAUNCH on its record's address (R125), with the issuer's permissions (log 100). -/
def State.checkLaunch (s : State) (va : Word) : Except TrapInfo Xlat :=
  if va.toNat % 64 != 0 then .error { cause := 3, val := va }
  else match s.checkAccess 0 .read va 64 with
    | .error t => .error t
    | .ok x => if x.io then .error { cause := 8, val := va } else .ok x

/-- LAUNCH (R125). -/
def execLaunch (d a : Reg) (s : State) : Result :=
  s.onTiller fun s =>
    let va := s.reg0 a
    match s.checkLaunch va with
    | .error t => s.trap t
    | .ok x =>
      let t := s.commitChunk.use 0 x false
      match s.ownLaunch with
      | none => (t.setRegAll d (launchHandle va)).ok
      | some l =>
        if 4096 ≤ s.children l.job then s.commitChunk.wait .launch
        else ((t.addChild l va).setRegAll d (launchHandle va)).ok

/-! ### CANCEL and WSTAT -/

/-- CANCEL (R126, R321). -/
def execCancel (a b : Reg) (s : State) : Result :=
  s.onTiller fun s =>
    match s.handleWork (s.reg0 a) with
    | some w => (s.commitChunk.cancelWork w (field (s.reg0 b) 7 0)).ok
    | none => s.commitChunk.ok

/-- WSTAT (R127). -/
def execWstat (d a : Reg) (s : State) : Result :=
  s.onTiller fun s =>
    (s.asyncRegAll d (match s.handleWork (s.reg0 a) with | some w => s.workWord w | none => 0)).ok

end Sys2Proof.Machine
end

