-- ==== Sys2Proof/Machine/ScheduleEvents.lean ====
section
/-! DEFINITION. The steps of the walker: jobs and phases (R305 to R312), launches (R308, R310, R311), the
start, pre-emption, donation, resumption and completion of units (R315 to R322, R343, R344, R351), and the
iteration ring (R214). -/

namespace Sys2Proof.Machine

/-! ### Jobs -/

/-- The job occupies one of the 64 places (R312). -/
def Job.runs (j : Job) : Bool := j.state == .running || (j.state == .cancelling && j.started)

/-- A pending job may start: a place is free, and no running job has its CTX (R312). -/
def State.mayStart (s : State) (j : Job) : Bool :=
  decide ((s.jobs.filter Job.runs).length < 64) && !(s.jobs.any fun k => k.runs && k.ctx == j.ctx)

/-- Another pending job comes first: one of a lower priority number that may start, or an earlier one of the same
priority, or whose priority is not known yet (R312, log 60). -/
def State.jobAhead (s : State) (j : Job) : Bool :=
  s.jobs.any fun k => k.id != j.id && k.state == .waiting &&
    (if k.taken then s.mayStart k && (decide (k.prio < j.prio) || (k.prio == j.prio && decide (k.id < j.id)))
     else decide (k.id < j.id))

/-- The record of a pending job is read, once, and the job is REJECTED where it cannot be read or breaks its layout
(R305, R306). -/
def State.takeJob (s : State) (j : Job) : State :=
  let r := s.jobRecord j.id j.record .waiting
  let s := s.cleanRange j.record 64
  if !s.recordReadable j.record then s.rejectJob r 2
  else if !s.jobRecordOk j.record then s.rejectJob r 1
  else s.modJob j.id fun _ => r

/-- JOB_START: the record is read, and then the job is RUNNING when its turn comes (R305, R306, R312). -/
def execJobStart (job : Nat) (s : State) : Result :=
  match s.job? job with
  | none => notEnabled
  | some j =>
    if j.state != .waiting then notEnabled
    else if !j.taken then (s.takeJob j).ok
    else if !s.mayStart j || s.jobAhead j then notEnabled
    else (s.modJob job fun k => { k with state := .running, started := true }).ok

/-- The job's phases that have started have ended (R312). -/
def State.phasesEnded (s : State) (job : Nat) : Bool := s.phases.all fun p => p.job != job || p.state.ended

/-- A job cancelled before its record was read learns where its flag lies (R311). -/
def State.learnJob (s : State) (j : Job) : State :=
  if j.taken || !s.recordReadable j.record then s
  else
    let r := s.jobRecord j.id j.record j.state
    if rootOk r.pt0 && rootOk r.pt1 then
      s.modJob j.id fun k => { k with flag := r.flag, ctx := r.ctx, pt0 := r.pt0, pt1 := r.pt1, taken := true }
    else s

/-- JOB_END (R310, R311). -/
def execJobEnd (job : Nat) (s : State) : Result :=
  match s.job? job with
  | none => notEnabled
  | some j =>
    if !s.phasesEnded job then notEnabled
    else if j.state == .cancelling then
      ((s.learnJob j).endJob job (if j.faulted then .faulted else .cancelled) j.reason true).ok
    else if j.state == .running && j.phase == j.nph then
      (s.endJob job (combine ((s.phases.filter fun p => p.job == job).map (·.state))) 0 true).ok
    else notEnabled

/-! ### Phases and graphs -/

/-- A phase or a graph that breaks its layout, or cannot be read (R305). -/
abbrev Reject := Nat

/-- The graph addresses of a phase record (R307). -/
def readPhase (s : State) (t : TCtx) (va : Word) : Except Reject (List Word) :=
  if va.toNat % 8 != 0 then .error 1
  else match readVirt s t va with
    | none => .error 2
    | some h =>
      if field h 63 16 != 0 || field h 15 0 == 0 then .error 1
      else match readVirts s t (va + 8) (field h 15 0) with
        | none => .error 2
        | some l => .ok l

/-- Edges of a graph record: (predecessor, successor). -/
def edgesOf (nd : Nat) (ws : List Word) : List (Nat × Nat) :=
  (numsFrom 0 nd).map fun e =>
    let w := field (ws.getD (e / 4) 0) (16 * (e % 4) + 15) (16 * (e % 4))
    (w % 256, w / 256)

/-- The header of a graph record keeps Table 11.2. -/
def graphOk (h : Word) : Bool :=
  field h 63 29 == 0 && field h 15 9 == 0 && decide (field h 28 16 ≤ 4096) && decide (1 ≤ field h 8 0) &&
    decide (field h 8 0 ≤ 256)

/-- The launch-record addresses and the edges of a graph record (R307). -/
def readGraphRecord (s : State) (t : TCtx) (va : Word) : Except Reject (List Word × List (Nat × Nat)) :=
  if va.toNat % 8 != 0 then .error 1
  else match readVirt s t va with
    | none => .error 2
    | some h =>
      let nl := field h 8 0
      let nd := field h 28 16
      if !graphOk h then .error 1
      else match readVirts s t (va + 8) nl, readVirts s t (va + 8 + BitVec.ofNat 64 (8 * nl)) (ceilDiv nd 4) with
        | some ls, some es =>
          let edges := edgesOf nd es
          if edges.all fun e => decide (e.1 < e.2) && decide (e.2 < nl) then .ok (ls, edges) else .error 1
        | _, _ => .error 2

/-- A graph of a starting phase enters the tables with its launches (R307, R312). -/
def State.addGraph (s : State) (j : Job) (phase : Nat) (va : Word) : State :=
  let n := s.nextId
  let put := fun (st : WState) (why : Nat) =>
    { s with graphs := s.graphs ++ [{ id := n, phase := phase, job := j.id, addr := va, state := st, reason := why }], nextId := n + 1 }
  match readGraphRecord s j.tctx va with
  | .error why => (put .rejected why).noteReads j.tctx va 1
  | .ok (ls, edges) =>
    if ls.eraseDups.length != ls.length || ls.any (s.inFlight j.id) then put .rejected 3
    else
      let s := put .running 0
      let mk := fun (k : Nat) (a : Word) =>
        ({ id := n + 1 + k, graph := n, job := j.id, addr := a, state := .waiting
           preds := ((edges.filter fun e => e.2 == k).map fun e => n + 1 + e.1).eraseDups } : Launch)
      ({ s with launches := s.launches ++ mapPos mk ls, nextId := n + 1 + ls.length } : State).noteReads j.tctx va
        (1 + ls.length + ceilDiv edges.length 4)

/-- The phase in place `j.phase` of the job starts (R312). Where the entry of the phase table cannot be read, that phase is
REJECTED with reason 2 and the job goes on (log 102). -/
def State.startPhase (s : State) (j : Job) : State :=
  let n := s.nextId
  let s : State := (({ s with nextId := n + 1 } : State)).modJob j.id fun k => { k with phase := j.phase + 1 }
  let put := fun (s : State) (va : Word) (st : WState) (why : Nat) =>
    ({ s with phases := s.phases ++ [{ id := n, job := j.id, index := j.phase, addr := va, state := st, reason := why }] } : State)
  let at' := j.pht + BitVec.ofNat 64 (8 * j.phase)
  match readVirt s j.tctx at' with
  | none => put s 0 .rejected 2
  | some va =>
    let s := s.noteReads j.tctx at' 1
    match readPhase s j.tctx va with
    | .error why => (put s va .rejected why).noteReads j.tctx va 1
    | .ok gs =>
      (gs.foldl (fun s g => s.addGraph j n g) ((put s va .running 0).noteReads j.tctx va (1 + gs.length))).settle

/-- PHASE_START (R312). -/
def execPhaseStart (job : Nat) (s : State) : Result :=
  match s.job? job with
  | none => notEnabled
  | some j =>
    if j.state == .running && decide (j.phase < j.nph) && s.phasesEnded job then (s.startPhase j).ok else notEnabled

/-! ### Launches -/

/-- A launch record keeps Tables 11.3 and 11.4 (R308). -/
def launchOk (ws : List Word) : Bool :=
  let w := fun k => ws.getD k 0
  let ctl := w 4
  let b := fun (x : Nat) => if x = 0 then 1 else x
  field (w 0) 6 0 == 8 && field (w 0) 63 56 == 0 && field ctl 63 28 == 0 && !bit ctl 7 && !bit ctl 3 &&
    field ctl 17 16 != 3 && ((numsFrom 0 4).all fun k => field ctl (9 + 2 * k) (8 + 2 * k) != 3) &&
    decide (field ctl 2 0 ≤ 4) && (w 5).toNat % 16 == 0 && field (w 6) 63 48 == 0 && field (w 6) 31 0 % 16 == 0 &&
    (w 7).toNat % 8 == 0 &&
    decide (b (field (w 2) 31 0) * b (field (w 2) 63 32) * b (field (w 3) 31 0) * b (field (w 3) 63 32) < 2 ^ 40)

/-- The launch with its record (Table 11.3). -/
def Launch.fill (l : Launch) (ws : List Word) : Launch :=
  let w := fun k => ws.getD k 0
  let b := fun (x : Nat) => if x = 0 then 1 else x
  { l with
    entry := w 0, args := w 1
    bounds := [b (field (w 2) 31 0), b (field (w 2) 63 32), b (field (w 3) 31 0), b (field (w 3) 63 32)]
    ctl := w 4, stkb := w 5, stksz := field (w 6) 31 0, nslot := field (w 6) 47 32, flag := w 7 }

/-- The launch is READY: its counter starts at P, and it enters the queue (R310, R319). -/
def Launch.readied (l : Launch) (rank : Nat) : Launch :=
  { l with state := .ready, out := l.total, rank := rank }

/-- Some furrow of the module fits the launch, used or not (R315). -/
def State.shapeExists (s : State) (l : Launch) : Bool :=
  s.anyFurrow l.len [] none (s.plainOk l.pmode) (s.furrowOk l.len l.pmode [])

/-- The record is read and checked (R305, R311, R315). -/
def State.readLaunch (s : State) (l : Launch) : State :=
  match s.launchWords l with
  | none => s.rejectLaunch l.id (if l.addr.toNat % 64 != 0 then 1 else 2)
  | some ws =>
    if l.addr.toNat % 64 != 0 || !launchOk ws then s.rejectLaunch l.id 1
    else
      let r := l.fill ws
      let s := s.noteLaunch l
      if !s.shapeExists r then s.rejectLaunch l.id 4
      else ({ s with nextId := s.nextId + 1 } : State).modLaunch l.id fun _ => r.readied s.nextId

/-- LAUNCH_READY (Table 11.5, R311). -/
def execLaunchReady (launch : Nat) (s : State) : Result :=
  match s.launch? launch with
  | none => notEnabled
  | some l =>
    let preds := l.preds.filterMap s.launch?
    if l.state != .waiting then notEnabled
    else if preds.any fun p => p.state.ended && p.state != .done then
      ((s.learnFlag l).endLaunch launch .cancelled 0xFE true).ok
    else if preds.all fun p => p.state == .done then (s.readLaunch l).ok
    else notEnabled

/-- LAUNCH_END (R310, R311). -/
def execLaunchEnd (launch : Nat) (s : State) : Result :=
  match s.launch? launch with
  | none => notEnabled
  | some l =>
    if l.out != 0 then notEnabled
    else if l.state == .draining then (s.endLaunch launch .done 0 true).ok
    else if l.state == .cancelling then
      ((s.learnFlag l).endLaunch launch (if l.faulted then .faulted else .cancelled) l.reason true).ok
    else notEnabled

/-! ### Units -/

/-- The stack slot may be given (R317). -/
def Launch.slotFree (l : Launch) (slot : Nat) : Bool :=
  l.nslot == 0 || l.stksz == 0 || (decide (slot < l.nslot) && !l.slots.contains slot)

/-- UNIT_START (R314 to R317, R319), on a free furrow or under run-ahead (R318). -/
def execUnitStart (launch tiller slot : Nat) (s : State) : Result :=
  match s.launch? launch with
  | none => notEnabled
  | some l =>
    match s.job? l.job with
    | none => notEnabled
    | some j =>
      let d := dieOf tiller
      let old := s.endingAt l tiller
      if l.handsOut && l.slotFree slot && s.dieAllows l d &&
          (old.isSome || s.furrowOk l.len l.pmode s.busyTiles tiller) && !s.ahead (s.launchLevel l) (some l.rank) l.id d && !s.held l d && !s.ringWaits l then
        (s.startUnit l j tiller slot old).ok
      else notEnabled

/-- The E-side and the vector memory of an ending furrow have drained (R116). -/
def Hart.drained (h : Hart) : Bool := h.run == .ending && h.vops.isEmpty && h.members.all fun m => m.tq.isEmpty

/-- The unit of the current furrow is complete, as a release at module scope, or its moved thread has ended (R116,
R294, R317, R347). -/
def State.completeUnit (s : State) : State :=
  let h := s.hart
  if bit h.origin 63 && h.unit.isNone then s.endRoot (field h.origin 9 0)
  else
    let t := (s.writeBackNarrow 4).leave
    match h.unit with
    | some u => t.unitDone u
    | none => t

/-- The E-side and the vector memory of a unit that ended before the running one have drained (R318). -/
def Hart.finished (h : Hart) (p : Prior) : Bool :=
  (h.members.all fun m => m.tq.all fun c => !p.cmds.contains c.id) && h.vops.all fun o => !p.vops.contains o.id

/-- A unit that ended before the running one of the current furrow is complete (R318). -/
def State.completePrior (s : State) (p : Prior) : State :=
  (s.priorDone p).modHart fun h => { h with prior := h.prior.filter fun q => q.unit != p.unit }

/-- UNIT_COMPLETION (R116): of a unit that the next one of its launch follows (R318), or of the furrow's unit. -/
def execUnitCompletion (hart : Nat) (s : State) : Result :=
  match s.harts.find? fun h => h.id == hart && h.id != 0 with
  | none => notEnabled
  | some h =>
    match h.prior.find? h.finished with
    | some p => (s.onHart hart fun s => s.completePrior p).ok
    | none => if h.drained then (s.onHart hart State.completeUnit).ok else notEnabled

/-! ### Pre-emption, donation, resumption -/

/-- The state with one furrow changed, current or not. -/
def State.modHartOf (s : State) (id : Nat) (f : Hart → Hart) : State := s.mapHarts fun h => if h.id = id then f h else h

/-- PREEMPTION_REQUEST: PREQ is set in a unit whose tillers help to make a furrow for waiting work of a higher
priority (R320). -/
def execPreemptionRequest (hart : Nat) (s : State) : Result :=
  match s.harts.find? fun h => h.id == hart with
  | none => notEnabled
  | some h =>
    if h.unitRuns && !h.preq && s.starvedBy h then
      (s.modHartOf hart fun h => { h with status := setBit h.status 4 true, expired := false }).ok
    else notEnabled

/-- LHOLD_DEFERRAL_EXPIRY (R351). -/
def execLholdDeferralExpiry (hart : Nat) (s : State) : Result :=
  match s.harts.find? fun h => h.id == hart with
  | none => notEnabled
  | some h =>
    if h.unitRuns && h.preq && h.lhold != 0 && !h.expired then
      (s.modHartOf hart fun h => { h with expired := true }).ok
    else notEnabled

/-- PRIORITY_AGING: work that waits rises one level (R319). -/
def execPriorityAging (saved : Bool) (id : Nat) (s : State) : Result :=
  if saved then
    match s.saved.find? fun u => u.id == id with
    | none => notEnabled
    | some u =>
      if u.ready && decide (u.risen < u.prio) then
        ({ s with saved := s.saved.map fun v => if v.id = id then { v with risen := v.risen + 1 } else v } : State).ok
      else notEnabled
  else
    match s.launch? id with
    | none => notEnabled
    | some l =>
      if l.handsOut && decide (l.risen < s.effPrio l) then (s.modLaunch id fun l => { l with risen := l.risen + 1 }).ok
      else notEnabled

/-- The sector that a parked wait which donates watches; a parked LAUNCH watches none (R322, R125). -/
def Park.donates : Park → Option (Option Nat)
  | .waita k => some (some k)
  | .launch => some none
  | _ => none

/-- The tillers of a furrow are noted as given up by its job (R322). -/
def State.noteGift (s : State) (tiles : List Nat) (job : Option Nat) : State :=
  match job with
  | none => s
  | some j => { s with gifts := tiles.foldl (fun m t => insert m t j) s.gifts }

/-- No trap of the parked bundle comes before a donation: no cancel and no pre-emption is due, and no RECVW waits (R84,
log 8). -/
def Hart.donatable (h : Hart) : Bool := h.interruptible && !h.cancelDue && !h.preemptable

/-- FURROW_DONATION (R322); a cancel, a timer and a pre-emption that are due at the parked bundle come first (R84). -/
def execFurrowDonation (s : State) : Result :=
  match s.hart.park.bind Park.donates with
  | none => notEnabled
  | some w =>
    if s.hart.unitRuns && s.hart.donatable && !s.timerDue && s.fitsWithin s.hart then
      match s.saveUnit 2 2 0 true w w.isNone with
      | some t => .next { t.noteGift (s.hart.members.map (·.tile)) s.jobOf with signal := .done }
      | none => notEnabled
    else notEnabled

/-- WATCH_WAKE: the donated unit is ready again, after a write to its sector or without one (R322). -/
def execWatchWake (id : Nat) (s : State) : Result :=
  match s.saved.find? fun u => u.id == id with
  | none => notEnabled
  | some u =>
    if u.watch.isSome && !u.ready then
      ({ s with saved := s.saved.map fun v => if v.id = id then { v with ready := true } else v } : State).ok
    else notEnabled

/-- The furrow that takes a saved unit on the tillers from `base` on, before its frame is loaded. -/
def State.resumeHart (s : State) (u : Saved) (base : Nat) : Hart :=
  { id := s.nextId, members := (numsFrom 0 u.len).map fun i => s.idleMember (base + i), run := .running
    unit := u.unit, shares := List.replicate u.len 0, cancel := u.cancel }

/-- A saved unit, or a moved thread, runs again on the tillers from `base` on (R344, R346). -/
def State.resumeSaved (s : State) (u : Saved) (base : Nat) : State :=
  s.aside fun s =>
    match u.thread with
    | some th => s.startThread u th base
    | none =>
      let h := s.resumeHart u base
      let s : State := { s with
        hart := h, nextId := s.nextId + 1, idle := (numsFrom base u.len).foldl erase s.idle
        gifts := (numsFrom base u.len).foldl erase s.gifts
        saved := s.saved.filter fun v => v.id != u.id }
      (s.loadFrame (physFrame u.frame)).resumeFrame

/-- SAVED_UNIT_RESUME (R344, R340, R319). -/
def execSavedUnitResume (id tiller : Nat) (s : State) : Result :=
  match s.saved.find? fun u => u.id == id with
  | none => notEnabled
  | some u =>
    if u.ready && s.savedFits s.busyTiles u tiller && !s.ahead u.level none u.id (dieOf tiller) &&
        !s.passesOver u tiller then
      (s.resumeSaved u tiller).ok
    else notEnabled

/-! ### The iteration ring -/

/-- LOW advances over posted iterations at its position (R213). -/
def advanceLow : Nat → Nat → List Nat → Nat × List Nat
  | 0, low, l => (low, l)
  | fuel + 1, low, l => if l.contains low then advanceLow fuel (low + 1) (l.filter (· != low)) else (low, l)

/-- The map of a ring after a post (R213, R214). -/
def Ring.post (r : Ring) (n : Nat) : Ring :=
  if n < r.low then r
  else
    let l := insertNat n r.posted
    let (low, rest) := advanceLow l.length r.low l
    { r with low := low, posted := rest }

/-- ITERATION_POST_DELIVERY (R213 to R216). -/
def execIterationPostDelivery (ring : Nat) (s : State) : Result :=
  match s.rings.find? fun r => r.launch == ring with
  | none => notEnabled
  | some r =>
    match r.posts with
    | [] => notEnabled
    | (_, n) :: rest =>
      let s : State := { s with rings := s.rings.map fun x => if x.launch = ring then { x.post n with posts := rest } else x }
      (s.mapHarts fun h => h.freed ring n).ok

end Sys2Proof.Machine
end

