-- ==== Sys2Proof/Machine/SysRegs.lean ====
section
/-! DEFINITION. System registers (R27 to R31, R118, R119, R181, R201, R271, R276, R337 to R342, R348, R350):
MFS, MTS, TLBINV, CXSAVE and CXLOAD. -/

namespace Sys2Proof.Machine

/-! ### Which registers exist, and who may use them -/

/-- HWM0 to HWM31. -/
def isHwm (n : Nat) : Bool := decide (0x20 ≤ n) && decide (n < 0x40)
/-- TXW0 to TXW7. -/
def isTxw (n : Nat) : Bool := decide (0x40 ≤ n) && decide (n < 0x48)
/-- TXN0 to TXN7. -/
def isTxn (n : Nat) : Bool := decide (0x48 ≤ n) && decide (n < 0x50)

/-- Registers of a tiller and of a root core alike (Table 01.2, R28). -/
def sysCommon (n : Nat) : Bool :=
  [0x000, 0x001, 0x002, 0x003, 0x004, 0x005, 0x010, 0x011, 0x012, 0x013, 0x014, 0x017, 0x060, 0x061, 0x062,
    0x070, 0x071, 0x082].contains n || isHwm n || isTxw n || isTxn n

/-- Registers of tillers alone (R27). -/
def sysTiller (n : Nat) : Bool :=
  [0x015, 0x016, 0x018, 0x019, 0x063, 0x064, 0x080, 0x081, 0x083, 0x0A0, 0x0A1, 0x0A2, 0x0A3].contains n

/-- Registers of root cores alone (R27). -/
def sysRoot (n : Nat) : Bool := [0x090, 0x091].contains n

/-- The number is assigned on the executing core (R27). -/
def State.sysExists (s : State) (n : Nat) : Bool :=
  sysCommon n || (if s.hart.root.isSome then sysRoot n else sysTiller n)

/-- User mode may read the register (Table 01.2). -/
def userReads (n : Nat) : Bool :=
  [0x000, 0x010, 0x011, 0x012, 0x013, 0x014, 0x015, 0x016, 0x017, 0x018, 0x019, 0x060, 0x064, 0x070, 0x080,
    0x081, 0x082, 0x083, 0x091, 0x0A2, 0x0A3].contains n || isHwm n || isTxw n || isTxn n

/-- User mode may write the register: EFR, IXST, AXO, LHOLD. -/
def userWrites (n : Nat) : Bool := [0x014, 0x018, 0x019, 0x0A3].contains n

/-- The register is late: MFS of it is asynchronous (R28). -/
def sysLate (n : Nat) : Bool := [0x013, 0x014, 0x017, 0x018, 0x091].contains n || isHwm n || isTxw n

/-- VL, VW, VMAX, ELS, EFR, QST and the marks, which read as zero on a root core (R28). -/
def vectorReg (n : Nat) : Bool := [0x010, 0x011, 0x012, 0x013, 0x014, 0x017].contains n || isHwm n

/-! ### Reading -/

/-- FCFG of member `i` (Table 01.4). -/
def Hart.fcfg (h : Hart) (i : Nat) : Nat := i % 128 * 512 + b2n h.ringf * 256 + h.len

/-- TLOC of a tiller (Table 01.4). -/
def tloc (t : Nat) : Nat := dieOf t * 65536 + tileY t * 256 + tileX t

/-- LRET of a member (Table 12.7). -/
def Member.lret (m : Member) : Nat := m.events.toNat * 2 ^ 32 + m.groups.toNat

/-- The furrow registers (Tables 01.3 to 01.5). -/
def Hart.furrowReg (h : Hart) (n : Nat) : Word :=
  if n = 0x000 then h.status
  else if n = 0x001 then h.vec
  else if n = 0x002 then h.tcause
  else if n = 0x003 then h.tpc
  else if n = 0x004 then h.tval
  else if n = 0x005 then h.tmem
  else if n = 0x010 then h.vl.setWidth 64
  else if n = 0x011 then h.vw.setWidth 64
  else if n = 0x012 then h.vmax.setWidth 64
  else if n = 0x013 then h.els.setWidth 64
  else if n = 0x014 then h.efr.setWidth 64
  else if n = 0x017 then h.qst
  else if isHwm n then (lookupD h.hwm (n - 0x20) 0).setWidth 64
  else if n = 0x019 then h.axo.setWidth 64
  else if n = 0x060 then h.ctx
  else if n = 0x061 then h.ptroot0
  else if n = 0x062 then h.ptroot1
  else if n = 0x071 then h.tmr
  else if n = 0x082 then h.prio
  else if n = 0x0A3 then h.lhold.setWidth 64
  else 0

/-- What MFS of register `n` returns to member `i`. TLBINV, CXSAVE and CXLOAD read as zero. -/
def State.sysRead (s : State) (i n : Nat) : Word :=
  let h := s.hart
  let m := h.member i
  if h.root.isSome && vectorReg n then 0
  else if isTxw n then (s.channel m.chset (n - 0x40)).txw
  else if isTxn n then (s.channel m.chset (n - 0x48)).txn
  else if n = 0x015 then m.wmode.setWidth 64
  else if n = 0x016 then BitVec.ofNat 64 m.accg
  else if n = 0x018 then BitVec.ofNat 64 m.ixst
  else if n = 0x064 then m.pcx.setWidth 64
  else if n = 0x070 then s.cyc
  else if n = 0x080 then (s.sheaf (sheafOf m.tile)).thw.setWidth 64
  else if n = 0x081 then BitVec.ofNat 64 (h.fcfg i)
  else if n = 0x083 then BitVec.ofNat 64 (tloc m.tile)
  else if n = 0x090 then (match h.root with | some g => (s.rootOf g).rwin.setWidth 64 | none => 0)
  else if n = 0x091 then (match h.root with | some g => (s.rootOf g).mpc.setWidth 64 | none => 0)
  else if n = 0x0A2 then BitVec.ofNat 64 m.lret
  else h.furrowReg n

/-- MFS (R118). -/
def execMfs (d : Reg) (i : BitVec 12) (s : State) : Result :=
  let n := i.toNat
  if !s.sysExists n then s.illegal
  else if !s.hart.priv && !userReads n then s.protection 3 (BitVec.ofNat 64 n)
  else if sysLate n then (s.asyncRegs d fun k => s.sysRead k n).ok
  else (s.setRegs d fun k => s.sysRead k n).ok

/-! ### Writing -/

/-- The furrow with VL and VW set: VL within VMAX of the width, elements distributed anew (R30, R31, R37). -/
def Hart.setVector (h : Hart) (vl : Nat) (vw : BitVec 2) : Hart :=
  let w := widthBits vw
  let vl := min vl (h.vmax.toNat / (w / 8))
  { h with vl := BitVec.ofNat 19 vl, vw := vw, shares := sharesFor (h.members.map Member.capNow) vl w }

/-- MTS to STATUS; one that sets IE while a pre-emption request is pending has it taken at the next bundle (R119,
log 20). -/
def Hart.setStatus (h : Hart) (v : Word) : Hart :=
  let h : Hart := { h with status := (h.status &&& ~~~statusWritable) ||| (v &&& statusWritable) }
  { h with enabled := h.ie && h.preq }

/-- MTS to a furrow register (Tables 01.3 to 01.5, R30). Read-only registers keep their values. -/
def Hart.setFurrowReg (h : Hart) (n : Nat) (v : Word) : Hart :=
  if n = 0x000 then h.setStatus v
  else if n = 0x001 then { h with vec := v &&& 0x00FFFFFFFFFFFF80 }
  else if n = 0x002 then { h with tcause := v &&& 0x1FFFF }
  else if n = 0x003 then { h with tpc := v &&& 0x00FFFFFFFFFFFFF8 }
  else if n = 0x004 then { h with tval := v }
  else if n = 0x005 then { h with tmem := v &&& 0x7F }
  else if n = 0x010 then h.setVector (field v 18 0) h.vw
  else if n = 0x011 then h.setVector h.vl.toNat (BitVec.ofNat 2 (min (field v 1 0) 2))
  else if n = 0x013 then { h with els := BitVec.ofNat 19 (field v 18 0) }
  else if n = 0x014 then { h with efr := BitVec.ofNat 32 (field v 31 0) }
  else if n = 0x017 then { h with qst := sanitiseQst v }
  else if isHwm n then { h with hwm := insert h.hwm (n - 0x20) (BitVec.ofNat 19 (field v 18 0)) }
  else if n = 0x019 then { h with axo := BitVec.ofNat 13 (field v 12 0) }
  else if n = 0x060 then { h with ctx := v &&& 0xFFF }
  else if n = 0x061 then { h with ptroot0 := v &&& rootMask }
  else if n = 0x062 then { h with ptroot1 := v &&& rootMask }
  else if n = 0x071 then { h with tmr := v }
  else if n = 0x082 then { h with prio := v &&& 3, prioSet := true }
  else if n = 0x0A3 then { h with lhold := BitVec.ofNat 8 (field v 7 0) }
  else h

/-- THW as stored: a written 0 is 1 (Table 01.4). -/
def thwStored (v : Word) : W32 :=
  BitVec.ofNat 32 ((numsFrom 0 8).map fun k => max 1 (field v (4 * k + 3) (4 * k)) * 16 ^ k).sum

/-- The index pairs after DROP bits are cleared (R181). -/
def clearDrop (v : Word) (ix : List IxPair) : List IxPair :=
  mapPos (fun n (p : IxPair) => if bit v (60 + n) then { p with drop := false } else p) ix

/-- MTS: the effect on each register (R118, R119, R30). -/
def State.sysWrite (s : State) (n : Nat) (v : Nat → Word) : State :=
  if s.hart.root.isSome && vectorReg n then s
  else if n = 0x018 then
    s.modHart fun h => h.mapMembers fun i m => { m with ix := clearDrop (v i) m.ix }
  else if n = 0x064 then
    s.modHart fun h => h.mapMembers fun i m => { m with pcx := BitVec.ofNat 32 (field (v i) 31 0) }
  else if n = 0x080 then
    s.hart.members.foldl (fun (s : State) m => s.modSheaf (sheafOf m.tile) fun sh => { sh with thw := thwStored (v 0) }) s
  else if n = 0x090 then
    (match s.hart.root with
      | some g => s.modRoot g fun r => { r with rwin := BitVec.ofNat 8 (max 1 (field (v 0) 7 0)) }
      | none => s)
  else if n = 0x091 then
    (match s.hart.root with
      | some g => s.modRoot g fun r => { r with mpc := BitVec.ofNat 16 (field (v 0) 15 0) }
      | none => s)
  else s.modHart fun h => h.setFurrowReg n (v 0)

/-- MTS (R118, R119). -/
def execMts (i : BitVec 12) (a : Reg) (s : State) : Result :=
  let n := i.toNat
  if !s.sysExists n then s.illegal
  else if !s.hart.priv && !userWrites n then s.protection 3 (BitVec.ofNat 64 n)
  else (s.commitChunk.sysWrite n fun k => s.reg k a).ok

/-! ### TLBINV -/

/-- An entry matches a TLBINV value (R271). -/
def tlbMatches (v : Word) (e : TlbEntry) : Bool :=
  (bit v 60 || e.ctx == field v 11 0) &&
    (e.ptr || bit v 59 || e.covers (BitVec.ofNat 64 (field v 55 16 * 65536)))

/-- The scope code of a TLBINV value; 7 acts as 6. -/
def tlbScope (v : Word) : Nat := min (field v 63 61) 6

/-- The engines of a die lie in the scope instance of a tiller. -/
def engineIn (code tile die : Nat) : Bool := decide (4 ≤ code) || (code == 3 && dieOf tile == die)

/-- A sheaf holds a tiller of the scope instance of `tile`. -/
def sheafIn (code tile sheaf : Nat) : Bool :=
  sheaf == sheafOf tile || (numsFrom (8 * sheaf) 8).any fun t => sameInstance code tile t

/-- A block holds a tiller of the scope instance of `tile`. -/
def blockIn (code tile block : Nat) : Bool :=
  block == blockOf tile || sameInstance code tile (block % 16 * 16 + block / 16 * 4096)

/-- TLBINV of one member's value (R271). -/
def State.tlbInv (s : State) (tile : Nat) (v : Word) : State :=
  let code := tlbScope v
  let ids := (s.others.filter fun h => h.members.any fun m => sameInstance code tile m.tile).map (·.id)
  let s := ids.foldl (fun (s : State) id => s.onHart id fun s => s.endChunk.drainVector) s.drainVector
  let keep := fun (l : List TlbEntry) => l.filter fun e => !tlbMatches v e
  let s := s.mapAll fun m => if sameInstance code tile m.tile then { m with tlb := keep m.tlb } else m
  { s with
    sheaves := s.sheaves.map fun p => (p.1, if sheafIn code tile p.1 then { p.2 with tlb := keep p.2.tlb } else p.2)
    walks := s.walks.map fun p => (p.1, if blockIn code tile p.1 then keep p.2 else p.2)
    etlb := s.etlb.filter fun p => !(engineIn code tile p.1 && tlbMatches v p.2) }

/-- A supervisor register of tillers alone. -/
def State.tillerRegister (s : State) (n : Nat) (f : State → Result) : Result :=
  if s.hart.root.isSome then s.illegal else s.supervisor (BitVec.ofNat 64 n) f

/-- MTS to TLBINV (R271). -/
def execTlbinv (a : Reg) (s : State) : Result :=
  s.tillerRegister 0x063 fun s =>
    ((numsFrom 0 s.hart.len).foldl (fun (s' : State) i => s'.tlbInv (s.hart.member i).tile (s.reg i a)) s.commitChunk).ok

/-! ### CXSAVE and CXLOAD -/

/-- The page of an offset, at that offset. -/
def pageAt (l : List (Nat × Xlat)) (off : Nat) : Option Xlat :=
  ((l.filter fun p => decide (p.1 ≤ off)).getLast?).map fun p => { p.2 with pa := p.2.pa + off - p.1 }

/-- The first byte of each run in a sector. -/
def runSectors (runs : List (Nat × List Byte)) : List Nat :=
  runs.flatMap fun r => (numsFrom (r.1 / 32) ((r.1 + r.2.length + 31) / 32 - r.1 / 32)).map fun k => max r.1 (32 * k)

/-- A save that writes part of a sector of host memory which fails its check: the least such offset (R338, R375). -/
def State.saveFails (s : State) (l : List (Nat × Xlat)) (runs : List (Nat × List Byte)) : Option Nat :=
  if l.any fun p => inHost p.2.pa then
    ((runSectors runs).filter fun o => match pageAt l o with
      | some x => s.partFails x && !coversSector (runs.map fun r => (r.1, r.2.length)) o
      | none => false).min?
  else none

/-- Sectors of host memory that a save wrote whole stand under their keys (R374). -/
def State.sealRuns (s : State) (l : List (Nat × Xlat)) (runs : List (Nat × List Byte)) : State :=
  if l.any fun p => inHost p.2.pa then
    (runSectors runs).foldl (fun (s : State) o => match pageAt l o with
      | some x => if inHost x.pa && coversSector (runs.map fun r => (r.1, r.2.length)) o then s.seal (sectorOf x.pa) else s
      | none => s) s
  else s

/-- The pages are used; DIRTY is set where a run of bytes is written in one (R269, R336). -/
def State.usePages (s : State) (l : List (Nat × Xlat)) (runs : List (Nat × List Byte)) : State :=
  l.foldl (fun s p => s.use 0 p.2 (runs.any fun r =>
    !r.2.isEmpty && decide (p.1 ≤ r.1) && decide (r.1 < p.1 + (65536 - p.2.pa % 65536)))) s

/-- The pages of a frame of `n` bytes are read coherently (R254). -/
def State.cleanPages (s : State) (l : List (Nat × Xlat)) (n : Nat) : State :=
  s.cleanRuns (· == (s.hart.member 0).tile) (l.map fun p => (p.2.pa, min (n - p.1) (65536 - p.2.pa % 65536)))

/-- CXSAVE (R338). -/
def execCxsave (a : Reg) (s : State) : Result :=
  s.tillerRegister 0x0A0 fun s =>
    let va := frameAddress (s.reg0 a)
    let n := frameBytes s.hart.len
    let s := (s.commitChunk.drainVector).drainThresher
    match framePages s 0 .write (n / 65536 + 2) va 0 n with
    | .error t => s.trap t
    | .ok l =>
      let runs := frameRuns s s.hart 0 true
      match s.saveFails l runs with
      | some o => s.trap { cause := 8, sub := 4, val := va + BitVec.ofNat 64 o }
      | none =>
        (((s.usePages l runs).putRuns (.scalar (s.hart.member 0).tile) (l.map fun p => (p.1, p.2.pa)) runs).sealRuns l runs).ok

/-- The frame's own FHDR.LEN, which says how far the frame reaches (Table 12.5). -/
def State.frameLen (s : State) (fm : FrameMap) : Nat := field (s.frameWord fm 0) 7 0

/-- The pages of the frame at `va`, readable in all its bytes: first those of the header, then those of as many blocks as
FHDR.LEN says (R339, log 121). -/
def State.framePagesAt (s : State) (va : Word) : Except TrapInfo (List (Nat × Xlat)) :=
  match framePages s 0 .read 2 va 0 0x1000 with
  | .error t => .error t
  | .ok l =>
    let n := frameBytes (s.frameLen (l.map fun p => (p.1, p.2.pa)))
    framePages s 0 .read (n / 65536 + 2) va 0 n

/-- CXLOAD (R339, R341). -/
def execCxload (a : Reg) (s : State) : Result :=
  s.tillerRegister 0x0A1 fun s =>
    let va := frameAddress (s.reg0 a)
    let s := (s.commitChunk.drainVector).drainThresher
    match s.framePagesAt va with
    | .error t => s.trap t
    | .ok l =>
      let fm := l.map fun p => (p.1, p.2.pa)
      match loadFails s s.hart fm with
      | some (sub, i) => s.trap { cause := 0x0B, sub := sub, val := va, member := i }
      | none => (((s.usePages l []).cleanPages l (frameBytes s.hart.len)).loadFrame fm).ok

end Sys2Proof.Machine
end

