-- ==== Sys2Proof/Machine/ThreadEvents.lean ====
section
/-! DEFINITION. Steps of the current furrow or root core besides its bundles: results that arrive (R74), vector
memory (R137, R140, R145), chunks (R283), asynchronous traps (R120, R321), WAITA (R117), the moves of a
root core's thread (R346, R347), row microprograms (R364, R365), and the background copy (R345). -/

namespace Sys2Proof.Machine

/-- A furrow or a root core stands in `State.hart` and executes. -/
def State.acting (s : State) : Bool := s.hart.id != 0 && s.hart.run == .running && !s.hart.moving

/-! ### Results and vector memory -/

/-- ASYNC_RESULT_WRITE (R74). -/
def execAsyncResultWrite (mem idx : Nat) (s : State) : Result :=
  if idx < (s.hart.member mem).pend.length && decide (mem < s.hart.len) then
    (s.modHart fun h => h.modMember mem fun m => m.arrive idx).ok
  else notEnabled

/-- A vector operation of the current furrow. -/
def State.vop? (s : State) (id : Nat) : Option VOp := s.hart.vops.find? (·.id == id)

/-- VECTOR_SECTOR_REQUEST: the elements of one request are performed (R137, R138, R148). -/
def execVectorSectorRequest (op req : Nat) (s : State) : Result :=
  let s := s.endChunk
  match s.vop? op with
  | none => notEnabled
  | some o =>
    let es := o.request req
    if es.isEmpty || es.any (vblocked s.hart.vops o) then notEnabled
    else s.bankGate op (es.map (·.pa)) (o.todo.map (·.pa)) fun s => (s.vrun o es).ok

/-- VECTOR_MEMORY_RETIRE (R140). -/
def execVectorMemoryRetire (op : Nat) (s : State) : Result :=
  let s := s.endChunk
  match s.vop? op with
  | none => notEnabled
  | some o => if o.todo.isEmpty && o.got.isEmpty then (s.vretire op).ok else notEnabled

/-- QUEUE_ENTRY_ARRIVAL (R145). -/
def execQueueEntryArrival (op : Nat) (s : State) : Result :=
  let s := s.endChunk
  match s.vop? op with
  | none => notEnabled
  | some o => if o.todo.isEmpty && !o.got.isEmpty then (s.varrive o).ok else notEnabled

/-! ### Chunks -/

/-- CHUNK_COMMIT (R281, R283): the open chunks are committed, or squashed where they conflict. -/
def execChunkCommit (s : State) : Result :=
  if !s.chunkOpen then notEnabled
  else if s.hart.chunk.conflict then .next s.squash
  else s.commitChunk.ok

/-! ### Asynchronous traps -/

/-- An asynchronous trap may be taken at the bundle at the program counter: it executes here, and no trap of the
bundle before it is pending (R84, R113, R328). -/
def State.boundary (s : State) : Bool :=
  s.acting && s.hart.after.isNone && !s.hart.chunk.conflict &&
    match s.nextBundle with
    | some (_, b) => s.hart.executes b
    | none => false

/-- TIMER_TRAP (R120); a pending cancel is taken before it (R84). -/
def execTimerTrap (s : State) : Result :=
  if s.boundary && s.timerDue && !s.hart.cancelDue then s.takeTimer else notEnabled

/-- CANCEL_TRAP (R321 step 3). -/
def execCancelTrap (s : State) : Result :=
  if s.boundary && s.hart.cancelDue then s.takeCancel else notEnabled

/-- WAITA_REREAD: the parked WAITA executes again at once (R117). -/
def execWaitaReread (s : State) : Result :=
  match s.hart.park with
  | some (.waita _) => ({ s with agenda := .bundle :: s.agenda } : State).ok
  | _ => notEnabled

/-! ### Threads of root cores -/

/-- The bundle at the program counter is one that R83 sends to a tiller. -/
def State.mustShip (s : State) : Option State :=
  match s.nextBundle with
  | some (t, b) => if rootBundle b then none else some t
  | none => none

/-- RETURN_TRAP (R83, R346). -/
def execReturnTrap (s : State) : Result :=
  if s.acting && s.hart.root.isSome && s.hart.after.isNone && !s.hart.chunk.conflict then
    match s.mustShip with
    | some t => t.ship
    | none => notEnabled
  else notEnabled

/-- ROOT_CORE_TRAP_MIGRATION (R347). -/
def execRootCoreTrapMigration (s : State) : Result :=
  if s.hart.root.isSome && s.hart.moving then (s.moveThread true).ok else notEnabled

/-! ### Row microprograms -/

/-- The rows of a step, checked before any effect (R247, R249): x, and y where the step reads or writes it. -/
def State.stepRows (s : State) (g : Nat) (p : BkProg) (xa ya : Word) : Except TrapInfo (Xlat × Option Xlat) :=
  match s.rowCheck g .read xa with
  | .error t => .error t
  | .ok x =>
    if p.opr = 2 then .ok (x, none)
    else
      match (if p.opr = 0 then s.rowCheck g .read ya else .ok x) with
      | .error t => .error t
      | .ok _ =>
        match s.rowCheck g .write ya with
        | .error t => .error t
        | .ok y => .ok (x, some y)

/-- One row-step of a microprogram on its rows (R248). -/
def State.rowStep (s : State) (g : Nat) (p : BkProg) (x : Xlat) (y : Option Xlat) : State :=
  let (s, bx) := s.readRow x
  let (s, by') := match y with
    | some y => if p.opr = 0 then s.readRow y else (s, (s.rootOf g).accBytes 1)
    | none => (s, (s.rootOf g).accBytes 1)
  let res := p.rowStep by' bx
  let s := s.modRoot g fun r => (r.setAcc 0 bx).setAcc 1 res
  let s := match y with | some y => s.writeRow y res | none => s
  s.modRoot g fun r => { r with mpc := r.mpc + 1, steps := r.steps + 1 }

/-- The microprogram of the current root core, and its pseudo-channel. -/
def State.program (s : State) : Option (Nat × BkProg) :=
  match s.hart.root with
  | none => none
  | some g => (match (s.rootOf g).prog with | some p => some (g, p) | none => none)

/-- BKSEQ_ROW_STEP (R248, R249, R364). -/
def execBkseqRowStep (s : State) : Result :=
  match s.program with
  | none => notEnabled
  | some (g, p) =>
    let r := s.rootOf g
    if p.n ≤ r.mpc.toNat || r.suspended || r.rwin.toNat ≤ r.steps || s.hart.moving then notEnabled
    else
      let off := BitVec.ofNat 64 (1024 * r.mpc.toNat)
      match s.stepRows g p (p.xb + off) (p.yb + off) with
      | .error t => s.trap t
      | .ok (x, y) => (s.rowStep g p x y).ok

/-- BKSEQ_WINDOW_END: the sequencer suspends for the requests that wait, or goes on (R365). -/
def execBkseqWindowEnd (s : State) : Result :=
  match s.program with
  | none => notEnabled
  | some (g, p) =>
    let r := s.rootOf g
    if p.n ≤ r.mpc.toNat || r.suspended || decide (r.steps < r.rwin.toNat) then notEnabled
    else (s.modRoot g fun r =>
      { r with steps := 0, suspended := !r.queue.isEmpty, serving := r.serving ++ r.queue, queue := [] }).ok

/-- BKSEQ_RESUME: every request that waited at the suspension has been served (R365). -/
def execBkseqResume (s : State) : Result :=
  match s.program with
  | none => notEnabled
  | some (g, _) =>
    let r := s.rootOf g
    if r.suspended && !(r.serving.any s.stillWaits) then
      (s.modRoot g fun r => { r with suspended := false, serving := [] }).ok
    else notEnabled

/-! ### Background copies -/

/-- TRAINING_CLASS_COPY: no state changes (R345). -/
def execTrainingClassCopy (s : State) : Result :=
  if s.acting && s.hart.training && s.hart.unit.isSome then s.ok else notEnabled

end Sys2Proof.Machine
end

