-- ==== Sys2Proof/Machine/Thresher.lean ====
section
/-! DEFINITION. The thresher's instructions: WLD (R191 to R194), MMA and MMAG (R195 to R198), AEXT (R202)
and AZERO (R203). -/

namespace Sys2Proof.Machine

/-! ### WLD -/

/-- Bytes that WLD loads (R192). -/
def latchSize (f : LatchFmt) : Nat := if f = .i4 then 16384 else 32768

/-- The checks of WLD by member `i` (R192): its pages, or the trap. -/
def State.checkWld (s : State) (va : Word) (n i : Nat) : Except TrapInfo (List (Nat × Xlat)) :=
  if field va 63 56 != 0 then .error { cause := 5, val := va, member := i }
  else if va.toNat % 128 != 0 then .error { cause := 3, val := va, member := i }
  else framePages s i .read 3 va 0 n

/-- The checks of every member in turn. -/
def State.checkWlds (s : State) (va : Word) (n : Nat) : List Nat → Except TrapInfo (List (Nat × List (Nat × Xlat)))
  | [] => .ok []
  | i :: l =>
    match s.checkWld va n i with
    | .error t => .error t
    | .ok ps =>
      match s.checkWlds va n l with
      | .error t => .error t
      | .ok rest => .ok ((i, ps) :: rest)

/-- Physical runs of pages at offsets: (address, length). -/
def runsOf (n : Nat) : List (Nat × Xlat) → List (Nat × Nat)
  | [] => []
  | [(off, x)] => [(x.pa, n - off)]
  | (off, x) :: (off', x') :: l => (x.pa, off' - off) :: runsOf n ((off', x') :: l)

/-- The engine command of one member's WLD (R193): its entry, its count. -/
def wldOp (s : State) (id i : Nat) (va : Word) (n : Nat) : EngOp :=
  let h := s.hart
  { id := id, kind := .wld, chset := 0, chan := 0, ident := 0, launch := h.launchOf
    tile := (h.member i).tile, die := dieOf (h.member i).tile, ctx := h.ctx, pt0 := h.ptroot0, pt1 := h.ptroot1, priv := h.priv
    args := [va], todo := [], prog := 0, path := 0, pattern := none, ended := none, cancelled := false
    entry := true, rlo := va.toNat, rhi := va.toNat + n - 1, wlo := 1, whi := 0 }

/-- The load enters the arrival order of sheaf `sh` (R194). -/
def State.addLoad (s : State) (sh : Nat) (w : WLoad) : State :=
  s.modSheaf sh fun x => { x with order := x.order ++ [.wld w] }

/-- WLD after its checks: every member's command, and one load for each sheaf (R193, R194). -/
def State.issueWld (s : State) (slot : Nat) (f : LatchFmt) (va sw : Word) (ps : List (Nat × List (Nat × Xlat))) :
    State :=
  let n := (latchSize f)
  let h := s.hart
  let base := s.nextId
  let ops := h.len
  let s := ps.foldl (fun (s : State) p => p.2.foldl (fun s q => s.use p.1 q.2 false) s) s
  let s : State := { s with
    ops := s.ops ++ (numsFrom 0 ops).map fun i => wldOp s (base + i) i va n
    nextId := base + 2 * ops }
  let s := s.countUp h.launchOf ops
  let shs := (h.members.map fun m => sheafOf m.tile).eraseDups
  shs.foldl (fun (s : State) sh =>
    let mine := (numsFrom 0 ops).filter fun i => sheafOf (h.member i).tile == sh
    let first := mine.headD 0
    s.addLoad sh {
      id := base + ops + first, slot := slot, fmt := f
      sw0 := BitVec.ofNat 32 (field sw 31 0), sw1 := BitVec.ofNat 32 (field sw 63 32)
      runs := runsOf n ((ps.find? fun p => p.1 == first).elim [] (·.2))
      ops := mine.map (base + ·) }) s

/-- WLD (R191 to R194). -/
def execWld (slot : BitVec 1) (f : LatchFmt) (a b : Reg) (s : State) : Result :=
  s.onTiller fun s =>
    let va := s.reg0 a
    match s.checkWlds va (latchSize f) s.ids with
    | .error t => s.trap t
    | .ok ps => s.commitChunk.withEntry s.ids fun s' => (s'.issueWld slot.toNat f va (s.reg0 b) ps).ok

/-! ### MMA -/

/-- The checks of R196 that concern beds and the tile. -/
def Hart.badTile (h : Hart) (n : Nat) : Bool :=
  h.members.any fun m => m.beds == 0 || decide (2 ^ m.geo.toNat ≤ n)

/-- The register lies in a bound queue run (R196). -/
def Hart.inRun (h : Hart) (n : Nat) : Bool := (queueOf h.qst n).isSome

/-- The member part of a register (R190). -/
def Member.part (m : Member) (n : Nat) : List Byte := m.vbytes n 0 m.partBytes

/-- A word of a member part; zero beyond the part. -/
def partWord (l : List Byte) (r : Nat) : W32 := BitVec.ofNat 32 (ofBytes ((l.drop (4 * r)).take 4))

/-- The activation scales (R190). -/
def Member.scalesFor (m : Member) (f : FormatWord) : List W32 :=
  if f.scl then (let l := m.part f.sv; (numsFrom 0 m.mt).map (partWord l)) else []

/-- A command for member `m`, without its tile. -/
def Member.command (m : Member) (id tile slot : Nat) (fw : Word) (f : FormatWord) : ThCmd :=
  { id := id, tile := tile, geo := m.geo.toNat, slot := slot, fw := fw, mt := m.mt, a := []
    scales := m.scalesFor f, rows := [], ready := true, lo := 1, hi := 0 }

/-- A dispatch to a full command queue waits until the thresher has completed its oldest command (R196, R200). -/
def State.queueRoom (s : State) (i : Nat) : State :=
  let m := s.hart.member i
  if m.tq.length < 4 then s
  else match m.tq.head? with
    | some c => s.drainArrivals m.tile (Arrival.isCmd m.tile c.id)
    | none => s

/-- A command enters its member's queue and its sheaf's arrival order (R194, R196). -/
def State.enqueue (s : State) (i : Nat) (c : ThCmd) : State :=
  let s := s.queueRoom i
  let tile := (s.hart.member i).tile
  (s.modHart fun h => h.modMember i fun m => { m with tq := m.tq ++ [c] }).modSheaf (sheafOf tile) fun sh =>
    { sh with order := sh.order ++ [.cmd tile c.id c.slot] }

/-- The commands of all members. -/
def State.enqueueAll (s : State) (cs : List (Nat × ThCmd)) : State :=
  cs.foldl (fun (s : State) c => s.enqueue c.1 c.2) { s with nextId := s.nextId + cs.length }

/-- The shared checks of MMA and MMAG (R196, R48). -/
def State.thresher (s : State) (n : Nat) (regs : List Nat) (r : Reg) (f : FormatWord → State → Result) : Result :=
  s.onTiller fun s =>
    if s.hart.badTile n || regs.any s.hart.inRun then s.illegal 0 true
    else s.withFormat .thresher r fun fw =>
      if fw.scl && s.hart.inRun fw.sv then s.illegal 0 true
      else f fw ((s.awaitRegs (fw.sv :: regs) []).commitChunk)

/-- MMA (R195 to R197). -/
def execMma (d : BitVec 2) (a : VReg) (slot : BitVec 1) (r : Reg) (s : State) : Result :=
  s.thresher d.toNat [a.toNat, a.toNat + 1] r fun f s =>
    (s.enqueueAll (s.ids.map fun i =>
      let m := s.hart.member i
      let c := m.command (s.nextId + i) d.toNat slot.toNat (s.aScalar r) f
      (i, { c with a := m.part a.toNat ++ m.part (a.toNat + 1) }))).ok

/-! ### MMAG -/

/-- The bytes of a row: one or two runs; or the trap (R198). -/
def State.rowRuns (s : State) (i : Nat) (a : Word) : Except TrapInfo (List (Nat × Xlat)) :=
  if field a 63 56 != 0 then .error { cause := 5, val := a, member := i, eside := true }
  else if a.toNat % 32 != 0 then .error { cause := 3, val := a, member := i, eside := true }
  else match framePages s i .read 2 a 0 128 with
    | .error t => .error { t with eside := true }
    | .ok l => .ok l

/-- The rows of member `i` in increasing order (R198): address and pages, none for a zero row. -/
def State.memberRows (s : State) (i : Nat) (base pitch : Word) (l : List Byte) :
    List Nat → Except TrapInfo (List (Option (Word × List (Nat × Xlat))))
  | [] => .ok []
  | r :: rs =>
    let idx := partWord l r
    let rest := s.memberRows i base pitch l rs
    if idx = 0xFFFFFFFF then rest.map fun t => none :: t
    else
      let a := base + idx.setWidth 64 * pitch
      match s.rowRuns i a with
      | .error t => .error t
      | .ok ps => rest.map fun t => some (a, ps) :: t

/-- The rows of every member, in member order. -/
def State.allRows (s : State) (v : Nat) (base pitch : Word) :
    List Nat → Except TrapInfo (List (Nat × List (Option (Word × List (Nat × Xlat)))))
  | [] => .ok []
  | i :: l =>
    let m := s.hart.member i
    match s.memberRows i base pitch (m.part v) (numsFrom 0 m.mt) with
    | .error t => .error t
    | .ok rows =>
      match s.allRows v base pitch l with
      | .error t => .error t
      | .ok rest => .ok ((i, rows) :: rest)

/-- The command of a member of an MMAG: its rows, and the range of its scoreboard entry. -/
def gatherCommand (c : ThCmd) (rows : List (Option (Word × List (Nat × Xlat)))) : ThCmd :=
  let addrs := rows.filterMap fun r => match r with | some (a, _) => some a.toNat | none => none
  let (lo, hi) := match span addrs with | some (lo, hi) => (lo, hi + 127) | none => (1, 0)
  { c with
    rows := rows.map fun r => match r with | some (_, ps) => runsOf 128 ps | none => []
    ready := false, lo := lo, hi := hi }

/-- MMAG (R195, R196, R198). -/
def execMmag (d : BitVec 2) (a b : VReg) (slot : BitVec 1) (r : Reg) (s : State) : Result :=
  s.thresher d.toNat [a.toNat] r fun f s =>
    let base := s.aScalar (b.setWidth 6)
    match s.allRows a.toNat base (BitVec.ofNat 64 f.aux) s.ids with
    | .error t => s.trap t
    | .ok rows => s.withEntry s.ids fun s =>
      let s := rows.foldl (fun (s : State) p => p.2.foldl (fun s q => match q with
        | some (_, ps) => ps.foldl (fun s x => s.use p.1 x.2 false) s
        | none => s) s) s
      let group := rows.map fun p => ((s.hart.member p.1).tile, s.nextId + p.1)
      (s.enqueueAll (rows.map fun p =>
        (p.1, { gatherCommand ((s.hart.member p.1).command (s.nextId + p.1) d.toNat slot.toNat (s.aScalar r) f) p.2 with
          group := group }))).ok

/-! ### AEXT and AZERO -/

/-- The exact value that AEXT rounds (R202). -/
def extractValue (f : FormatWord) (x : Nat) : Ex :=
  let v := f.fa.decode x
  if f.fa.isInt && f.fd.isInt then v.shiftDown f.aux
  else Ex.mul v (if f.aux = 0 then .fin false 1 1 else Fmt.f32.decode f.aux)

/-- The accumulator element that element `i` receives; none beyond the tile (R202). -/
def Hart.accFor (h : Hart) (n i : Nat) : Option W32 :=
  let (mb, p) := h.place i
  let m := h.member mb
  let wt := tileCols m.geo.toNat
  let t := h.axo.toNat + p
  if t < m.mt * wt then some (m.accElem (t / wt * 256 + n * wt + t % wt)) else none

/-- AEXT (R202). -/
def execAext (d : VReg) (a : BitVec 2) (r : Reg) (m : MReg) (s : State) : Result :=
  s.formatted { dsts := [d], masks := [m] } (s.hart.badTile a.toNat) .extract r fun f s =>
    let s := s.awaitThresher
    let h := s.hart
    s.convert f d ((h.active m).filterMap fun i =>
      match h.accFor a.toNat i with
      | some x => some (i, extractValue f x.toNat)
      | none => none)

/-- The member with a tile cleared and live (R203). -/
def Member.zeroTile (m : Member) (n : Nat) : Member :=
  let wt := tileCols m.geo.toNat
  let cells := (numsFrom 0 m.mt).flatMap fun r => (numsFrom (n * wt) wt).map fun c => r * 256 + c
  { m with acc := cells.foldl (fun (acc : SMap W32) k => insert acc k 0) m.acc
           live := m.live ||| BitVec.ofNat 4 (2 ^ n) }

/-- AZERO (R203). -/
def execAzero (d : BitVec 2) (s : State) : Result :=
  s.dispatch {} (s.hart.badTile d.toNat) fun s =>
    (s.commitChunk.drainThresher.modHart fun h => h.mapMembers fun _ m => m.zeroTile d.toNat).ok

end Sys2Proof.Machine
end

