-- ==== Sys2Proof/Machine/ThresherEvents.lean ====
section
/-! DEFINITION. The steps of a sheaf's thresher and weight latch: arbitration (R200), the completion of a
command (R197, R199), the gather of MMAG (R198), and the load of a slot (R192, R194). -/

namespace Sys2Proof.Machine

/-- An arrival names a slot. -/
def Arrival.names (slot : Nat) : Arrival → Bool
  | .wld w => w.slot == slot
  | .cmd _ _ k => k == slot

/-- THRESHER_ARBITRATION (R200). -/
def execThresherArbitration (sheaf : Nat) (s : State) : Result :=
  if (s.sheaf sheaf).busy.isSome then notEnabled
  else match s.arbitrate sheaf with
    | none => notEnabled
    | some c => (s.startCmd sheaf c).ok

/-- THRESHER_COMMAND_COMPLETE (R197). -/
def execThresherCommandComplete (sheaf : Nat) (s : State) : Result :=
  match (s.sheaf sheaf).busy with
  | none => notEnabled
  | some (t, id) => ((s.endChunkOf t).completeCmd t id).ok

/-- MMAG_GATHER (R198). -/
def execMmagGather (tiller : Nat) (s : State) : Result :=
  match s.memberOf tiller with
  | none => notEnabled
  | some m =>
    match m.tq.find? fun c => !c.ready with
    | none => notEnabled
    | some c => s.bankGate c.id (c.rows.flatten.flatMap fun r => blocksOf r.1 r.2) [] fun s => (s.gather tiller c.id).ok

/-- The oldest load of a slot, where no earlier arrival names the slot (R194). -/
def Sheaf.firstLoad (sh : Sheaf) (slot : Nat) : Option WLoad :=
  match sh.order.find? (Arrival.names slot) with
  | some (.wld w) => some w
  | _ => none

/-- WLD_SLOT_LOAD (R192, R194). -/
def execWldSlotLoad (sheaf slot : Nat) (s : State) : Result :=
  match (s.sheaf sheaf).firstLoad slot with
  | none => notEnabled
  | some w => s.bankGate w.id (w.runs.flatMap fun r => blocksOf r.1 r.2) [] fun s => (s.completeLoad sheaf w).ok

end Sys2Proof.Machine
end

