-- ==== Sys2Proof/Machine/Dispatch.lean ====
section
/-! DEFINITION. One arm per step: the direct call of its meaning. -/

namespace Sys2Proof.Machine

def exec (i : Instr) (s : State) : Host.Outcome State Fault Refusal :=
  match i with
  | .nop => Sys2Proof.Machine.execNop s
  | .trap n => Sys2Proof.Machine.execTrap n s
  | .tret => Sys2Proof.Machine.execTret s
  | .yield => Sys2Proof.Machine.execYield s
  | .endUnit => Sys2Proof.Machine.execEndUnit s
  | .dbg n => Sys2Proof.Machine.execDbg n s
  | .waita a b => Sys2Proof.Machine.execWaita a b s
  | .chend => Sys2Proof.Machine.execChend s
  | .mfs d n => Sys2Proof.Machine.execMfs d n s
  | .mts n a => Sys2Proof.Machine.execMts n a s
  | .tlbinv a => Sys2Proof.Machine.execTlbinv a s
  | .cxsave a => Sys2Proof.Machine.execCxsave a s
  | .cxload a => Sys2Proof.Machine.execCxload a s
  | .add d a b => Sys2Proof.Machine.execAdd d a b s
  | .sub d a b => Sys2Proof.Machine.execSub d a b s
  | .and d a b => Sys2Proof.Machine.execAnd d a b s
  | .or d a b => Sys2Proof.Machine.execOr d a b s
  | .xor d a b => Sys2Proof.Machine.execXor d a b s
  | .sll d a b => Sys2Proof.Machine.execSll d a b s
  | .srl d a b => Sys2Proof.Machine.execSrl d a b s
  | .sra d a b => Sys2Proof.Machine.execSra d a b s
  | .slt d a b => Sys2Proof.Machine.execSlt d a b s
  | .sltn d a b => Sys2Proof.Machine.execSltn d a b s
  | .min d a b => Sys2Proof.Machine.execMin d a b s
  | .max d a b => Sys2Proof.Machine.execMax d a b s
  | .minn d a b => Sys2Proof.Machine.execMinn d a b s
  | .maxn d a b => Sys2Proof.Machine.execMaxn d a b s
  | .clz d a => Sys2Proof.Machine.execClz d a s
  | .ctz d a => Sys2Proof.Machine.execCtz d a s
  | .popc d a => Sys2Proof.Machine.execPopc d a s
  | .ext d a b => Sys2Proof.Machine.execExt d a b s
  | .mul d a b => Sys2Proof.Machine.execMul d a b s
  | .mulh d a b => Sys2Proof.Machine.execMulh d a b s
  | .mulhn d a b => Sys2Proof.Machine.execMulhn d a b s
  | .div d a b => Sys2Proof.Machine.execDiv d a b s
  | .divn d a b => Sys2Proof.Machine.execDivn d a b s
  | .rem d a b => Sys2Proof.Machine.execRem d a b s
  | .remn d a b => Sys2Proof.Machine.execRemn d a b s
  | .fadd d a b => Sys2Proof.Machine.execFadd d a b s
  | .fsub d a b => Sys2Proof.Machine.execFsub d a b s
  | .fmul d a b => Sys2Proof.Machine.execFmul d a b s
  | .fma d a b => Sys2Proof.Machine.execFma d a b s
  | .fmin d a b => Sys2Proof.Machine.execFmin d a b s
  | .fmax d a b => Sys2Proof.Machine.execFmax d a b s
  | .fcmp d a b => Sys2Proof.Machine.execFcmp d a b s
  | .fcvt k d a => Sys2Proof.Machine.execFcvt k d a s
  | .fabs d a => Sys2Proof.Machine.execFabs d a s
  | .fneg d a => Sys2Proof.Machine.execFneg d a s
  | .fdiv d a b => Sys2Proof.Machine.execFdiv d a b s
  | .fsqrt d a => Sys2Proof.Machine.execFsqrt d a s
  | .addi d a n => Sys2Proof.Machine.execAddi d a n s
  | .andi d a n => Sys2Proof.Machine.execAndi d a n s
  | .ori d a n => Sys2Proof.Machine.execOri d a n s
  | .xori d a n => Sys2Proof.Machine.execXori d a n s
  | .slti d a n => Sys2Proof.Machine.execSlti d a n s
  | .sltin d a n => Sys2Proof.Machine.execSltin d a n s
  | .shi k d a n => Sys2Proof.Machine.execShi k d a n s
  | .lis d n => Sys2Proof.Machine.execLis d n s
  | .li d lit => Sys2Proof.Machine.execLi d lit s
  | .ldb p d a o => Sys2Proof.Machine.execLdb p d a o s
  | .ldbn p d a o => Sys2Proof.Machine.execLdbn p d a o s
  | .ldh p d a o => Sys2Proof.Machine.execLdh p d a o s
  | .ldhn p d a o => Sys2Proof.Machine.execLdhn p d a o s
  | .ldw p d a o => Sys2Proof.Machine.execLdw p d a o s
  | .ldwn p d a o => Sys2Proof.Machine.execLdwn p d a o s
  | .ldd p d a o => Sys2Proof.Machine.execLdd p d a o s
  | .stb p d a o => Sys2Proof.Machine.execStb p d a o s
  | .sth p d a o => Sys2Proof.Machine.execSth p d a o s
  | .stw p d a o => Sys2Proof.Machine.execStw p d a o s
  | .std p d a o => Sys2Proof.Machine.execStd p d a o s
  | .ldbX d a b => Sys2Proof.Machine.execLdbX d a b s
  | .ldbnX d a b => Sys2Proof.Machine.execLdbnX d a b s
  | .ldhX d a b => Sys2Proof.Machine.execLdhX d a b s
  | .ldhnX d a b => Sys2Proof.Machine.execLdhnX d a b s
  | .ldwX d a b => Sys2Proof.Machine.execLdwX d a b s
  | .ldwnX d a b => Sys2Proof.Machine.execLdwnX d a b s
  | .lddX d a b => Sys2Proof.Machine.execLddX d a b s
  | .stbX d a b => Sys2Proof.Machine.execStbX d a b s
  | .sthX d a b => Sys2Proof.Machine.execSthX d a b s
  | .stwX d a b => Sys2Proof.Machine.execStwX d a b s
  | .stdX d a b => Sys2Proof.Machine.execStdX d a b s
  | .ldl d a => Sys2Proof.Machine.execLdl d a s
  | .stc d a b => Sys2Proof.Machine.execStc d a b s
  | .fence k x => Sys2Proof.Machine.execFence k x s
  | .br c a b disp slot => Sys2Proof.Machine.execBr c a b disp slot s
  | .brn c a b disp slot => Sys2Proof.Machine.execBrn c a b disp slot s
  | .jmp disp slot => Sys2Proof.Machine.execJmp disp slot s
  | .call disp slot => Sys2Proof.Machine.execCall disp slot s
  | .jr d a => Sys2Proof.Machine.execJr d a s
  | .fid d => Sys2Proof.Machine.execFid d s
  | .flen d => Sys2Proof.Machine.execFlen d s
  | .sende a => Sys2Proof.Machine.execSende a s
  | .recvw d => Sys2Proof.Machine.execRecvw d s
  | .voteAdd d a => Sys2Proof.Machine.execVoteAdd d a s
  | .voteMin d a => Sys2Proof.Machine.execVoteMin d a s
  | .voteMax d a => Sys2Proof.Machine.execVoteMax d a s
  | .voteOr d a => Sys2Proof.Machine.execVoteOr d a s
  | .voteMinn d a => Sys2Proof.Machine.execVoteMinn d a s
  | .voteMaxn d a => Sys2Proof.Machine.execVoteMaxn d a s
  | .voteFadd d a => Sys2Proof.Machine.execVoteFadd d a s
  | .voteFmin d a => Sys2Proof.Machine.execVoteFmin d a s
  | .voteFmax d a => Sys2Proof.Machine.execVoteFmax d a s
  | .ipost a => Sys2Proof.Machine.execIpost a s
  | .iwait a => Sys2Proof.Machine.execIwait a s
  | .viwait d a b => Sys2Proof.Machine.execViwait d a b s
  | .irset => Sys2Proof.Machine.execIrset s
  | .setvl w d a => Sys2Proof.Machine.execSetvl w d a s
  | .wcfg p0 p1 p2 p3 => Sys2Proof.Machine.execWcfg p0 p1 p2 p3 s
  | .accfg g => Sys2Proof.Machine.execAccfg g s
  | .vld p v a m => Sys2Proof.Machine.execVld p v a m s
  | .vlds p v a b m => Sys2Proof.Machine.execVlds p v a b m s
  | .vldx p w v a b m => Sys2Proof.Machine.execVldx p w v a b m s
  | .vldq p q a b m => Sys2Proof.Machine.execVldq p q a b m s
  | .vst p v a m => Sys2Proof.Machine.execVst p v a m s
  | .vsts p v a b m => Sys2Proof.Machine.execVsts p v a b m s
  | .vstx p w v a b m => Sys2Proof.Machine.execVstx p w v a b m s
  | .vglk p w v a b m => Sys2Proof.Machine.execVglk p w v a b m s
  | .vstc p w v a b m => Sys2Proof.Machine.execVstc p w v a b m s
  | .qbind q base depth => Sys2Proof.Machine.execQbind q base depth s
  | .qfree q => Sys2Proof.Machine.execQfree q s
  | .qdrain q => Sys2Proof.Machine.execQdrain q s
  | .qstat q a => Sys2Proof.Machine.execQstat q a s
  | .wld slot f a b => Sys2Proof.Machine.execWld slot f a b s
  | .copy d a h => Sys2Proof.Machine.execCopy d a h s
  | .rcpy d a h => Sys2Proof.Machine.execRcpy d a h s
  | .rfil d a h => Sys2Proof.Machine.execRfil d a h s
  | .rand d a h => Sys2Proof.Machine.execRand d a h s
  | .ror d a h => Sys2Proof.Machine.execRor d a h s
  | .rxor d a h => Sys2Proof.Machine.execRxor d a h s
  | .rnot d a h => Sys2Proof.Machine.execRnot d a h s
  | .rmaj d a h => Sys2Proof.Machine.execRmaj d a h s
  | .rdc d a h => Sys2Proof.Machine.execRdc d a h s
  | .spred d a h => Sys2Proof.Machine.execSpred d a h s
  | .txwait a h => Sys2Proof.Machine.execTxwait a h s
  | .txread d h => Sys2Proof.Machine.execTxread d h s
  | .txstat d a h => Sys2Proof.Machine.execTxstat d a h s
  | .rstart d a b h => Sys2Proof.Machine.execRstart d a b h s
  | .rgo a => Sys2Proof.Machine.execRgo a s
  | .bkld n a => Sys2Proof.Machine.execBkld n a s
  | .bkst n a => Sys2Proof.Machine.execBkst n a s
  | .bkseq a b => Sys2Proof.Machine.execBkseq a b s
  | .bkset n a b => Sys2Proof.Machine.execBkset n a b s
  | .launch d a => Sys2Proof.Machine.execLaunch d a s
  | .cancel a b => Sys2Proof.Machine.execCancel a b s
  | .wstat d a => Sys2Proof.Machine.execWstat d a s
  | .cflush a b => Sys2Proof.Machine.execCflush a b s
  | .cinv a b => Sys2Proof.Machine.execCinv a b s
  | .cpref a b => Sys2Proof.Machine.execCpref a b s
  | .vnop => Sys2Proof.Machine.execVnop s
  | .vadd d a b x m => Sys2Proof.Machine.execVadd d a b x m s
  | .vsub d a b x m => Sys2Proof.Machine.execVsub d a b x m s
  | .vmul d a b x m => Sys2Proof.Machine.execVmul d a b x m s
  | .vma d a b x m => Sys2Proof.Machine.execVma d a b x m s
  | .vmin d a b x m => Sys2Proof.Machine.execVmin d a b x m s
  | .vmax d a b x m => Sys2Proof.Machine.execVmax d a b x m s
  | .vabs d a x m => Sys2Proof.Machine.execVabs d a x m s
  | .vneg d a x m => Sys2Proof.Machine.execVneg d a x m s
  | .vnot d a x m => Sys2Proof.Machine.execVnot d a x m s
  | .vrcp d a x m => Sys2Proof.Machine.execVrcp d a x m s
  | .vdiv d a b x m => Sys2Proof.Machine.execVdiv d a b x m s
  | .vsqrt d a x m => Sys2Proof.Machine.execVsqrt d a x m s
  | .vcvt d a x m => Sys2Proof.Machine.execVcvt d a x m s
  | .vand d a b x m => Sys2Proof.Machine.execVand d a b x m s
  | .vor d a b x m => Sys2Proof.Machine.execVor d a b x m s
  | .vxor d a b x m => Sys2Proof.Machine.execVxor d a b x m s
  | .vshl d a b x m => Sys2Proof.Machine.execVshl d a b x m s
  | .vshr d a b x m => Sys2Proof.Machine.execVshr d a b x m s
  | .vcmp c d a b x m => Sys2Proof.Machine.execVcmp c d a b x m s
  | .vsel d a b x m => Sys2Proof.Machine.execVsel d a b x m s
  | .vadds d a b x m => Sys2Proof.Machine.execVadds d a b x m s
  | .vmuls d a b x m => Sys2Proof.Machine.execVmuls d a b x m s
  | .vmas d a b x m => Sys2Proof.Machine.execVmas d a b x m s
  | .vsplat d x m => Sys2Proof.Machine.execVsplat d x m s
  | .viota d m => Sys2Proof.Machine.execViota d m s
  | .vslup d a b x m => Sys2Proof.Machine.execVslup d a b x m s
  | .vsldn d a b x m => Sys2Proof.Machine.execVsldn d a b x m s
  | .vperm d a b x m => Sys2Proof.Machine.execVperm d a b x m s
  | .vcomp d a m => Sys2Proof.Machine.execVcomp d a m s
  | .vred o d a x m => Sys2Proof.Machine.execVred o d a x m s
  | .vscan o d a x m => Sys2Proof.Machine.execVscan o d a x m s
  | .vget d a x => Sys2Proof.Machine.execVget d a x s
  | .vput d b x => Sys2Proof.Machine.execVput d b x s
  | .vconf d a m => Sys2Proof.Machine.execVconf d a m s
  | .mlog o d a b => Sys2Proof.Machine.execMlog o d a b s
  | .mcntPop d a => Sys2Proof.Machine.execMcntPop d a s
  | .mcntFirst d a => Sys2Proof.Machine.execMcntFirst d a s
  | .ixins n a b m => Sys2Proof.Machine.execIxins n a b m s
  | .ixfnd n d a m => Sys2Proof.Machine.execIxfnd n d a m s
  | .ixadd n a b x m => Sys2Proof.Machine.execIxadd n a b x m s
  | .ixout n d a x => Sys2Proof.Machine.execIxout n d a x s
  | .ixclr n => Sys2Proof.Machine.execIxclr n s
  | .mma d a slot x => Sys2Proof.Machine.execMma d a slot x s
  | .mmag d a b slot x => Sys2Proof.Machine.execMmag d a b slot x s
  | .aext d a x m => Sys2Proof.Machine.execAext d a x m s
  | .azero d => Sys2Proof.Machine.execAzero d s
  | .qpop q => Sys2Proof.Machine.execQpop q s
  | .asyncResultWrite mem idx => Sys2Proof.Machine.execAsyncResultWrite mem idx s
  | .vectorSectorRequest op req => Sys2Proof.Machine.execVectorSectorRequest op req s
  | .vectorMemoryRetire op => Sys2Proof.Machine.execVectorMemoryRetire op s
  | .queueEntryArrival op => Sys2Proof.Machine.execQueueEntryArrival op s
  | .chunkCommit => Sys2Proof.Machine.execChunkCommit s
  | .timerTrap => Sys2Proof.Machine.execTimerTrap s
  | .cancelTrap => Sys2Proof.Machine.execCancelTrap s
  | .preemptionRequest hart => Sys2Proof.Machine.execPreemptionRequest hart s
  | .lholdDeferralExpiry hart => Sys2Proof.Machine.execLholdDeferralExpiry hart s
  | .priorityAging saved id => Sys2Proof.Machine.execPriorityAging saved id s
  | .furrowDonation => Sys2Proof.Machine.execFurrowDonation s
  | .watchWake id => Sys2Proof.Machine.execWatchWake id s
  | .waitaReread => Sys2Proof.Machine.execWaitaReread s
  | .savedUnitResume id tiller => Sys2Proof.Machine.execSavedUnitResume id tiller s
  | .unitStart launch tiller slot => Sys2Proof.Machine.execUnitStart launch tiller slot s
  | .unitCompletion hart => Sys2Proof.Machine.execUnitCompletion hart s
  | .launchReady launch => Sys2Proof.Machine.execLaunchReady launch s
  | .launchEnd launch => Sys2Proof.Machine.execLaunchEnd launch s
  | .phaseStart job => Sys2Proof.Machine.execPhaseStart job s
  | .jobStart job => Sys2Proof.Machine.execJobStart job s
  | .jobEnd job => Sys2Proof.Machine.execJobEnd job s
  | .thresherArbitration sheaf => Sys2Proof.Machine.execThresherArbitration sheaf s
  | .thresherCommandComplete sheaf => Sys2Proof.Machine.execThresherCommandComplete sheaf s
  | .mmagGather tiller => Sys2Proof.Machine.execMmagGather tiller s
  | .wldSlotLoad sheaf slot => Sys2Proof.Machine.execWldSlotLoad sheaf slot s
  | .copyTransfer op sector => Sys2Proof.Machine.execCopyTransfer op sector s
  | .plowRowStep op => Sys2Proof.Machine.execPlowRowStep op s
  | .rdcReduction op => Sys2Proof.Machine.execRdcReduction op s
  | .spredMergeWrite merge => Sys2Proof.Machine.execSpredMergeWrite merge s
  | .rstartOperation op => Sys2Proof.Machine.execRstartOperation op s
  | .engineOperationComplete op => Sys2Proof.Machine.execEngineOperationComplete op s
  | .iterationPostDelivery ring => Sys2Proof.Machine.execIterationPostDelivery ring s
  | .bkseqRowStep => Sys2Proof.Machine.execBkseqRowStep s
  | .bkseqWindowEnd => Sys2Proof.Machine.execBkseqWindowEnd s
  | .bkseqResume => Sys2Proof.Machine.execBkseqResume s
  | .returnTrap => Sys2Proof.Machine.execReturnTrap s
  | .rootCoreTrapMigration => Sys2Proof.Machine.execRootCoreTrapMigration s
  | .laneRetirement tiller bed => Sys2Proof.Machine.execLaneRetirement tiller bed s
  | .trainingClassCopy => Sys2Proof.Machine.execTrainingClassCopy s
  | .dramRefresh pc bank => Sys2Proof.Machine.execDramRefresh pc bank s
  | .moduleRegisterWrite pa value => Sys2Proof.Machine.execModuleRegisterWrite pa value s
  | .jobp value => Sys2Proof.Machine.execJobp value s
  | .jobc value => Sys2Proof.Machine.execJobc value s
  | .start g value => Sys2Proof.Machine.execStart g value s
  | .own g bank value => Sys2Proof.Machine.execOwn g bank value s
  | .rmfrac value => Sys2Proof.Machine.execRmfrac value s
  | .hostAccess r => Sys2Proof.Machine.execHostAccess r s
  | .peerAccess link r => Sys2Proof.Machine.execPeerAccess link r s
  | .spdmMessage m => Sys2Proof.Machine.execSpdmMessage m s
  | .moduleReset fw => Sys2Proof.Machine.execModuleReset fw s
  | .stageMemory trained pcmap csbase cssize evbase evsize => Sys2Proof.Machine.execStageMemory trained pcmap csbase cssize evbase evsize s
  | .stageCompute tmap lanes => Sys2Proof.Machine.execStageCompute tmap lanes s
  | .stageLinks up => Sys2Proof.Machine.execStageLinks up s
  | .linkDown link => Sys2Proof.Machine.execLinkDown link s
  | .machineCheck kind loss => Sys2Proof.Machine.execMachineCheck kind loss s
  | .thermalThrottle draw celsius => Sys2Proof.Machine.execThermalThrottle draw celsius s
  | .wearUpdate wear days => Sys2Proof.Machine.execWearUpdate wear days s

end Sys2Proof.Machine
end

