-- ==== Sys2Proof/Machine/Step.lean ====
section
/-! DEFINITION. One step of the module. -/

namespace Sys2Proof.Machine

/-- One step: the agenda's next act, or one that the module chooses (log 1). -/
def step (s : State) : Host.Outcome State Fault Refusal := s.stepWith exec

/-- `s` with the instruction whose bits are `w` placed where the next step fetches it (log 9). -/
def State.withFetchWord (s : State) (_nbits w : Nat) : State :=
  s.place (BitVec.ofNat 64 w) (BitVec.ofNat 64 (w / 2 ^ 64))

end Sys2Proof.Machine
end

