-- ==== Sys2Proof/Safety.lean ====
section
/-! DEFINITION. What counts as a safe run, and the words in which statements say what an instruction
changes and what it leaves unchanged. -/

namespace Sys2Proof.Safety

open Sys2Proof.Machine

/-! ### A safe run -/

/-- Memory stands in its canonical form, and so does the memory that a RECVW ahead of its SENDE may go back
to (log 8). -/
def MemoryCanonical (s : State) : Prop :=
  Memory.wf s.mem = true ∧ ∀ m, s.undo = some m → Memory.wf m.mem = true

/-- The outcome is a state, or the stop of a step that does not exist where the agenda named it. -/
def Allowed : Result → Prop
  | .next s => MemoryCanonical s
  | .fault .notEnabled => True
  | .refused _ => False

/-- The module runs (R369), and the current agent begins its next bundle: no trap of the bundle before, no move, no access
of a member left to make, and no chunk to squash stands before it (R84, R281, R283). -/
def Begins (s : State) : Prop :=
  s.err = 0 ∧ s.hart.id ≠ 0 ∧ s.hart.run = .running ∧ s.hart.moving = false ∧ s.hart.chunk.conflict = false ∧
    s.hart.parts = none ∧ s.hart.after = none

/-- The agent begins bundle `b`, which is fetched and decodes; the fetch made no chunk conflict. -/
def AtBundle (s : State) (f : Fetch) (b : Bundle) : Prop :=
  Begins s ∧ s.fetchBundle = .ok f ∧ f.st.hart.chunk.conflict = false ∧ Decode.slot f.slot f.lit = .ok b

/-- The bundle may execute on this core: no BANK word on a tiller, and on a root core one of the bundles of R83. -/
def Executes (s : State) (b : Bundle) : Prop :=
  (s.hart.root = none → isBank b.c = false) ∧ (s.hart.root ≠ none → rootBundle b = true)

/-- No RECVW stands ahead of its SENDE (R209; log 8), and no bundle is under way (R281; log 93). -/
def Settled (s : State) : Prop := s.hart.owed = [] ∧ s.hart.parts = none

/-- A cancel is due (R321), a timer is due (R120), or a pre-emption: one that an MTS enabled, which SETVL takes itself, or
one that reaches a unit parked at a wait (R119, R131, R320; log 20). -/
def CancelDue (s : State) : Prop := Settled s ∧ s.hart.cancel = true ∧ s.hart.ie = true
def TimerDue (s : State) : Prop :=
  Settled s ∧ s.hart.tmr ≠ 0 ∧ s.hart.ie = true ∧ s.hart.tmr.toNat ≤ s.cyc.toNat
def PreemptionDue (s : State) (b : Bundle) : Prop :=
  Settled s ∧ s.hart.preemptable = true ∧ ((s.hart.enabled = true ∧ isSetvl b.c = false) ∨ s.hart.waitsParked = true)

/-- The current agent is about to execute the words of bundle `b` (R84): nothing stands before them. -/
def Ready (s : State) (f : Fetch) (b : Bundle) : Prop :=
  AtBundle s f b ∧ Executes f.st b ∧ ¬ CancelDue f.st ∧ ¬ TimerDue f.st ∧ ¬ PreemptionDue f.st b ∧ f.st.mustEnd b = false

/-- The words of the bundle are executed in one step: its members' accesses are not made apart (R281; log 93). -/
def Reaches (s : State) (f : Fetch) (b : Bundle) : Prop := Ready s f b ∧ f.st.beginApart exec f b = none

/-- An access of member `i` to a sector begins no new chunk: the member's chunk stays open, or no other member's holds an access
that conflicts with it (R281, R283; log 8). -/
def OneChunk (h : Hart) (i sec : Nat) (wr : Bool) : Prop := h.ahead i = true ∨ h.dueChunk.meets i sec wr = false

/-- In memory `mem` ACC stands in every leaf entry that the accesses would set it in (R269). -/
def Accessed (mem : List Host.Cell) (as : List MAcc) : Prop :=
  ∀ c ∈ as, ∀ q ∈ c.x.marks, (Memory.get mem q).getLsbD 5 = true

/-! ### Scalar results -/

/-- The value of an exact number that is no NaN, with the infinities at the ends (R49, R53). -/
def valueOf : Ex → Option (WithBot (WithTop ℚ))
  | .nan => none
  | .inf true => some ⊥
  | .inf false => some ((⊤ : WithTop ℚ) : WithBot (WithTop ℚ))
  | .fin s n d => some (((Ex.snum s n : ℚ) / d : ℚ) : WithTop ℚ)

/-- The value of a bit pattern of a floating-point format; none for an infinity or a NaN (R43). -/
def floatVal (f : Fmt) (bits : Nat) : Option ℚ :=
  match f.decode bits with
  | .fin g n d => some ((Ex.snum g n : ℚ) / d)
  | _ => none

/-- `k` is the integer that mode `rm` selects for `x`: 0 RNE, 1 RTZ, 2 RDN, 3 RUP (Table 02.3, R51). -/
def RoundsTo (rm : Nat) (x : ℚ) (k : Int) : Prop :=
  (rm = 0 → |(k : ℚ) - x| ≤ 1 / 2 ∧ (|(k : ℚ) - x| = 1 / 2 → k % 2 = 0)) ∧
  (rm = 1 → (k : ℚ) * k ≤ x * k ∧ |x| < |(k : ℚ)| + 1) ∧
  (rm = 2 → (k : ℚ) ≤ x ∧ x < (k : ℚ) + 1) ∧ (rm = 3 → x ≤ (k : ℚ) ∧ (k : ℚ) - 1 < x)

/-- The pattern `bits` of format `f` is the finite value that mode `rm` selects for `x`, with the sign of `x`; a tie goes to the
even mantissa field (R50). -/
def Selects (f : Fmt) (rm : Nat) (x : ℚ) (bits : Nat) : Prop :=
  bits < 2 ^ f.width ∧ (2 ^ (f.width - 1) ≤ bits ↔ x < 0) ∧ ∃ v, floatVal f bits = some v ∧
    ∀ b w, floatVal f b = some w →
      (rm = 0 → |v - x| ≤ |w - x| ∧ (|v - x| = |w - x| → w ≠ v → bits % 2 = 0)) ∧
      (rm = 1 → |v| ≤ |x| ∧ (|w| ≤ |x| → |w| ≤ |v|)) ∧
      (rm = 2 → v ≤ x ∧ (w ≤ x → w ≤ v)) ∧ (rm = 3 → x ≤ v ∧ (x ≤ w → v ≤ w))

/-- A value whose denominator, if it has one, is not 0. -/
def Denominated : Ex → Prop
  | .fin _ _ d => 0 < d
  | _ => True

/-- `z` is the finite value of sign `g` and magnitude `q`. -/
def Magnitude (z : Ex) (g : Bool) (q : ℚ) : Prop := ∃ k c : Nat, 0 < c ∧ z = .fin g k c ∧ (k : ℚ) / c = q

/-- `z` is the exact sum of `x` and `y`; mode `rm` gives a zero its sign (R52). -/
def SumOf (rm : Nat) (x y z : Ex) : Prop :=
  ((x = .nan ∨ y = .nan ∨ ∃ g, x = .inf g ∧ y = .inf (!g)) → z = .nan) ∧
  (∀ g, (x = .inf g ∧ y ≠ .nan ∧ y ≠ .inf (!g)) ∨ (y = .inf g ∧ x ≠ .nan ∧ x ≠ .inf (!g)) → z = .inf g) ∧
  ∀ g n d h m e, x = .fin g n d → y = .fin h m e → ∃ s k c, 0 < c ∧ z = .fin s k c ∧
    (Ex.snum s k : ℚ) / c = (Ex.snum g n : ℚ) / d + (Ex.snum h m : ℚ) / e ∧
    (k = 0 → s = if n = 0 ∧ m = 0 ∧ g = h then g else decide (rm = 2))

/-- `z` is the exact product of `x` and `y` (R52). -/
def ProductOf (x y z : Ex) : Prop :=
  let zero (u : Ex) : Prop := ∃ g d, u = .fin g 0 d
  let infinite (u : Ex) : Prop := ∃ g, u = .inf g
  ((x = .nan ∨ y = .nan ∨ zero x ∧ infinite y ∨ infinite x ∧ zero y) → z = .nan) ∧
  (x ≠ .nan → y ≠ .nan → ¬ zero x → ¬ zero y → infinite x ∨ infinite y → z = .inf (x.neg? != y.neg?)) ∧
  ∀ g n d h m e, x = .fin g n d → y = .fin h m e → Magnitude z (g != h) ((n : ℚ) / d * ((m : ℚ) / e))

/-- `z` is the exact quotient of `x` and `y` (R52). -/
def QuotientOf (x y z : Ex) : Prop :=
  let zero (u : Ex) : Prop := ∃ g d, u = .fin g 0 d
  let infinite (u : Ex) : Prop := ∃ g, u = .inf g
  ((x = .nan ∨ y = .nan ∨ zero x ∧ zero y ∨ infinite x ∧ infinite y) → z = .nan) ∧
  (x ≠ .nan → y ≠ .nan → infinite x ∧ ¬ infinite y ∨ zero y ∧ ¬ zero x → z = .inf (x.neg? != y.neg?)) ∧
  (∀ g n d h, x = .fin g n d → y = .inf h → Magnitude z (g != h) 0) ∧
  ∀ g n d h m e, x = .fin g n d → y = .fin h m e → m ≠ 0 → Magnitude z (g != h) ((n : ℚ) / d / ((m : ℚ) / e))

/-- `z` stands for the square root of `x` (R52): it compares with every multiple of 2^-200 as the root does, so that no rounding
can tell the two apart. -/
def RootOf (x z : Ex) : Prop :=
  (x = .nan ∨ x = .inf true ∨ (∃ n d, x = .fin true n d ∧ n ≠ 0) → z = .nan) ∧ (x = .inf false → z = .inf false) ∧
  (∀ g d, x = .fin g 0 d → Magnitude z g 0) ∧
  ∀ n d, x = .fin false n d → n ≠ 0 → ∃ q : ℚ, Magnitude z false q ∧ ∀ j : Nat,
    let t : ℚ := (j : ℚ) / 2 ^ 200
    (t < q ↔ t * t < (n : ℚ) / d) ∧ (t = q ↔ t * t = (n : ℚ) / d)

/-- `z` is the least, or with `most` the greatest, of `x` and `y` (R53): a NaN gives way, and −0 lies below +0. -/
def ExtremeOf (most : Bool) (x y z : Ex) : Prop :=
  (x = .nan → z = y) ∧ (y = .nan → z = x) ∧ (z = x ∨ z = y) ∧ ∀ u v w, valueOf x = some u → valueOf y = some v →
    valueOf z = some w → (w = if most then max u v else min u v) ∧
      (u = v → z.neg? = if most then x.neg? && y.neg? else x.neg? || y.neg?)

/-- A member without its scalar registers and its outstanding results. -/
def exceptScalars (m : Member) : Member := { m with regs := [], pend := [] }

/-- `t` differs from `s` in the scalar registers and outstanding results of the current members alone: memory,
caches, status, special registers, trap registers, vectors, masks, accumulators, index pairs, queues,
engines and work are as before. -/
def OnlyScalars (s t : State) : Prop :=
  t = { s with hart := { s.hart with members := t.hart.members }, signal := .done } ∧
    t.hart.members.map exceptScalars = s.hart.members.map exceptScalars

/-- The outcome is a next state in which register `d` of every member `i` has received `v i` at once (R19, R73,
R90); s0 discards it. Where an older result is still outstanding for `d`, that one may arrive later (R74). -/
def Writes (s : State) (d : Reg) (v : Nat → Word) (r : Result) : Prop :=
  ∃ t, r = .next t ∧ OnlyScalars s t ∧ ∀ i < s.hart.len,
    (d = 0 → t.hart.member i = s.hart.member i) ∧
    (d ≠ 0 → lookup (t.hart.member i).regs d.toNat = some (v i)) ∧
    (d ≠ 0 → (∀ p ∈ (s.hart.member i).pend, p.1 ≠ d.toNat) → t.reg i d = v i) ∧
    ∀ q, q ≠ d → t.reg i q = s.reg i q

/-- The outcome is a next state in which `v i` is outstanding for register `d` of every member `i` (R73, R74); s0
discards it. -/
def Delivers (s : State) (d : Reg) (v : Nat → Word) (r : Result) : Prop :=
  ∃ t, r = .next t ∧ OnlyScalars s t ∧ ∀ i < s.hart.len,
    (t.hart.member i).regs = (s.hart.member i).regs ∧
    (t.hart.member i).pend = (s.hart.member i).pend ++ (if d = 0 then [] else [(d.toNat, v i)]) ∧
    ∀ q, q ≠ d → t.reg i q = s.reg i q

/-- The state with ELS := 0, as a word that acts on elements leaves it (R32). -/
def withEls0 (s : State) : State := s.modHart fun h => { h with els := 0 }

/-! ### Vector results -/

/-- Every element has a place of its own among the bytes of a register (R20, R36, R37). -/
def Placed (h : Hart) : Prop :=
  h.shares.length = h.len ∧ (∀ x ∈ h.shares, x ≤ 64) ∧ h.vl.toNat ≤ h.shares.sum * (256 / h.w)

/-- A member without its vector registers. -/
def exceptVectors (m : Member) : Member := { m with vreg := [] }

/-- A member without its masks. -/
def exceptMasks (m : Member) : Member := { m with mask := [] }

/-- Byte `p` of member `k` belongs to element `i`. -/
def holdsByte (h : Hart) (i k p : Nat) : Prop :=
  (h.place i).1 = k ∧ (h.place i).2 * h.e ≤ p ∧ p < (h.place i).2 * h.e + h.e

/-- The outcome is a next state in which each element `i` of register `d` that `act` lists holds the low bits of
`v i`. ELS is 0, the mark of `d` covers VL elements (R32, R33), and every other byte of every register,
memory and all other state are as before. -/
def Fills (s : State) (d : Nat) (act : List Nat) (v : Nat → Nat) (r : Result) : Prop :=
  ∃ t, r = .next t ∧
    t = { s with
      hart := { s.hart with
        members := t.hart.members, els := 0
        hwm := insert s.hart.hwm d
          (BitVec.ofNat 19 (max (lookupD s.hart.hwm d 0).toNat (s.hart.vl.toNat * s.hart.e))) }
      signal := .done } ∧
    t.hart.members.map exceptVectors = s.hart.members.map exceptVectors ∧
    (∀ i ∈ act, t.hart.elem d i = v i % 2 ^ s.hart.w) ∧
    ∀ n k p, n < 32 → k < s.hart.len → p < 2048 → (n = d → ∀ i ∈ act, ¬ holdsByte s.hart i k p) →
      (t.hart.member k).vbyte n p = (s.hart.member k).vbyte n p

/-- The outcome is a next state in which each bit `i` of mask `d` that `act` lists is `b i`; ELS is 0, and every
other mask bit, memory and all other state are as before (R21, R32). -/
def FillsMask (s : State) (d : Nat) (act : List Nat) (b : Nat → Bool) (r : Result) : Prop :=
  ∃ t, r = .next t ∧
    t = { s with hart := { s.hart with members := t.hart.members, els := 0 }, signal := .done } ∧
    t.hart.members.map exceptMasks = s.hart.members.map exceptMasks ∧
    (∀ i ∈ act, t.hart.melem d i = b i) ∧
    ∀ n k p, n < 8 → k < s.hart.len → p < 2048 → (n = d → ∀ i ∈ act, s.hart.place i ≠ (k, p)) →
      (t.hart.member k).mbit n p = (s.hart.member k).mbit n p

/-- An A word with these operands dispatches on a tiller (R22, R82, R158). -/
def Dispatches (s : State) (o : AOps) : Prop := s.hart.root = none ∧ o.bad s.hart = false

/-- The state after the wait for the registers and masks that an A word names (R140, R145, R148). -/
def awaited (s : State) (o : AOps) : State := s.awaitRegs (o.regs s.hart) (o.masks.map (·.toNat))

/-! ### Scalar memory and transfers -/

/-- The leaf `e` at `a` decides an access of kind `k` to `pa`: the protection trap where it does not permit it (R266), where
the address is reserved (R263) or where the key slot refuses it (R375), and otherwise the translation, with the memory
type of R267. -/
def LeafGives (s : State) (priv : Bool) (k : AKind) (a : Nat) (e : Word) (pa : Nat) (r : Except (Nat × Nat) Xlat) : Prop :=
  let allowed : Prop := (priv = true ∨ bit e 4 = false) ∧ (k = .read → bit e 1 = true) ∧ (k = .write → bit e 2 = true) ∧
    (k = .exec → bit e 3 = true) ∧ (k = .atomRead ∨ k = .atomWrite → bit e 1 = true ∧ bit e 2 = true)
  let keyed := s.keyAccepts (field e 15 14) pa (decide (k ≠ .write))
  let mt := field e 10 8
  (¬ allowed → r = .error (8, 0)) ∧ (allowed → s.reserved pa = true → r = .error (8, 2)) ∧
  (allowed → s.reserved pa = false → keyed = false → r = .error (8, 4)) ∧
  (allowed → s.reserved pa = false → keyed = true → ∃ x, r = .ok x ∧ x.pa = pa ∧ x.leaf = a ∧ x.pte = e ∧
    x.coh = field e 13 11 ∧
    x.mt = if inRegs pa then 2 else if inPeer pa then (if mt = 0 ∨ mt = 3 then 1 else mt)
      else if mt = 3 ∧ rowMapped s.rmF.toNat pa = false then 0 else mt)

/-- A valid pointer entry (R265). -/
def IsPointer (e : Word) : Prop := bit e 0 = true ∧ field e 15 1 = 0 ∧ field e 63 52 = 0

/-- A valid leaf entry (R264, R265). -/
def IsLeaf (e : Word) : Prop :=
  bit e 0 = true ∧ field e 3 1 ≠ 0 ∧ field e 63 52 = 0 ∧ field e 10 8 ≤ 3 ∧ field e 13 11 ≤ 5

/-- A scalar access form: the instruction, its address by member, its bytes, sign extension, its policy. -/
structure AccessForm where
  instr : Instr
  ea : Nat → Word
  size : Nat
  signed : Bool
  policy : Policy

/-- The scalar loads (R100). -/
def loadForms (s : State) (p : Policy) (d a b : Reg) (o : BitVec 10) : List AccessForm :=
  let imm (n : Int) (i : Nat) : Word := s.reg i a + BitVec.ofInt 64 (o.toInt * n)
  let rx (i : Nat) : Word := s.reg i a + s.reg i b
  [⟨.ldb p d a o, imm 1, 1, true, p⟩, ⟨.ldbn p d a o, imm 1, 1, false, p⟩, ⟨.ldh p d a o, imm 2, 2, true, p⟩,
    ⟨.ldhn p d a o, imm 2, 2, false, p⟩, ⟨.ldw p d a o, imm 4, 4, true, p⟩, ⟨.ldwn p d a o, imm 4, 4, false, p⟩,
    ⟨.ldd p d a o, imm 8, 8, false, p⟩, ⟨.ldbX d a b, rx, 1, true, .norm⟩, ⟨.ldbnX d a b, rx, 1, false, .norm⟩,
    ⟨.ldhX d a b, rx, 2, true, .norm⟩, ⟨.ldhnX d a b, rx, 2, false, .norm⟩, ⟨.ldwX d a b, rx, 4, true, .norm⟩,
    ⟨.ldwnX d a b, rx, 4, false, .norm⟩, ⟨.lddX d a b, rx, 8, false, .norm⟩]

/-- The scalar stores (R100). -/
def storeForms (s : State) (p : Policy) (d a b : Reg) (o : BitVec 10) : List AccessForm :=
  let imm (n : Int) (i : Nat) : Word := s.reg i a + BitVec.ofInt 64 (o.toInt * n)
  let rx (i : Nat) : Word := s.reg i a + s.reg i b
  [⟨.stb p d a o, imm 1, 1, false, p⟩, ⟨.sth p d a o, imm 2, 2, false, p⟩, ⟨.stw p d a o, imm 4, 4, false, p⟩,
    ⟨.std p d a o, imm 8, 8, false, p⟩, ⟨.stbX d a b, rx, 1, false, .norm⟩, ⟨.sthX d a b, rx, 2, false, .norm⟩,
    ⟨.stwX d a b, rx, 4, false, .norm⟩, ⟨.stdX d a b, rx, 8, false, .norm⟩]

/-- Every byte of memory outside `l` reads as before. -/
def KeepsBytes (m m' : List Host.Cell) (out : Nat → Prop) : Prop := ∀ q, ¬ out q → Memory.get m' q = Memory.get m q

/-- A taken transfer to `target` from `s`: with the line at hand it is checked first, and then `after` has happened;
where the line cannot be fetched the transfer is complete and the checks come with the fetch (R70, R111). -/
def Jumps (s : State) (target : Word) (check : Bool) (after : State → State) (r : Result) : Prop :=
  (∀ x line, fetchLine (after s) target = .ok (x, line) → entryOk (slotsOf line) (slotIx target) check = true →
    ∃ t, r = .next t ∧ t.signal = .done ∧ t.hart.npc = target ∧ t.hart.entry = .inLine ∧
      t.hart.hdr = (slotsOf line).getD 0 0 ∧ ∀ k q, t.reg k q = (after s).reg k q) ∧
  (∀ x line, fetchLine (after s) target = .ok (x, line) → entryOk (slotsOf line) (slotIx target) check = false →
    r = s.trap { cause := 4, val := target }) ∧
  ∀ e, fetchLine (after s) target = .error e →
    ∃ t, r = .next t ∧ t.signal = .done ∧ t.hart.npc = target ∧ t.hart.entry = .jump check ∧
      t.mem = (after s).mem ∧ ∀ k q, t.reg k q = (after s).reg k q

/-! ### Reductions and error feedback -/

/-- `e` is the exact sum of the list (R64): NaN where the list holds a NaN or infinities of both signs, else an infinity that
it holds, else the rational sum. -/
def SumIs (l : List Ex) (e : Ex) : Prop :=
  let val : Ex → ℚ := fun x => match x with | .fin g n d => (Ex.snum g n : ℚ) / d | _ => 0
  (.nan ∈ l ∨ (.inf true ∈ l ∧ .inf false ∈ l) → e = .nan) ∧
  (.nan ∉ l → ∀ g, .inf g ∈ l → .inf (!g) ∉ l → e = .inf g) ∧
  (.nan ∉ l → .inf true ∉ l → .inf false ∉ l → (∃ g n d, e = .fin g n d) ∧ val e = (l.map val).sum)

/-- `e` is the least, or with `most` the greatest, of the list's values that are no NaN, and NaN where all are (R53, R64). -/
def BestIs (most : Bool) (l : List Ex) (e : Ex) : Prop :=
  e ∈ l ∧ ((∃ x ∈ l, x ≠ .nan) → e ≠ .nan) ∧ ∀ x ∈ l, ∀ u v, valueOf e = some u → valueOf x = some v →
    if most then v ≤ u else u ≤ v

/-- What an integer reduction rounds once (R64): the exact value of a nonempty list under the operator. -/
def ReducesTo (o : RedOp) (l : List Ex) (e : Ex) : Prop :=
  match o with
  | .add | .or => SumIs l e
  | .min => BestIs false l e
  | .max => BestIs true l e

/-- The operator of a floating-point reduction on exact values, and its identity for a destination format (R63, R176). -/
def reduceOp (o : RedOp) (rm : Nat) (x y : Ex) : Ex :=
  match o with
  | .add | .or => .add rm x y
  | .min => .min x y
  | .max => .max x y
def reduceUnit (o : RedOp) (fd : Fmt) : Ex :=
  match o with
  | .add | .or => if fd.isInt then .ofInt 0 else .fin true 0 1
  | .min => if fd.isInt then .ofInt fd.maxInt else .inf false
  | .max => if fd.isInt then .ofInt fd.minInt else .inf true

/-- `rnd` under a format word, and the exact value of its result. -/
def roundBits (f : FormatWord) (x : Ex) : Nat := rnd f.fd f.rm f.sat x
def roundEx (f : FormatWord) (x : Ex) : Ex := f.fd.decode (roundBits f x)

/-- The positions of a reduction of the elements `x` over `h`'s VL positions (R176): an active one holds its value, rounded to a
floating-point FD, and the others the identity. -/
def reduceList (o : RedOp) (f : FormatWord) (h : Hart) (m : MReg) (x : Nat → Ex) : List Ex :=
  (List.range h.vl.toNat).map fun i =>
    if h.els.toNat ≤ i ∧ h.melem m.toNat i = true then (if f.fd.isInt then x i else roundEx f (x i))
    else reduceUnit o f.fd

/-- The chain of R55 over the elements `act` with exact values `x`: `v i` is written to element `i`, and the residual goes from
`first` to `last`. -/
def Feedback (f : FormatWord) (w first : Nat) (act : List Nat) (x : Nat → Ex) (v : Nat → Nat) (last : Nat) : Prop :=
  ∃ res : Nat → Nat, res 0 = first ∧ res act.length = last ∧ ∀ j i, act[j]? = some i →
    let xp := rnd32 (.add 0 (x i) (Fmt.f32.decode (res j)))
    let y := roundBits f xp
    v i = widen f.fd w y ∧
    res (j + 1) = match f.fd.decode y with
      | .fin g n d => rnd .f32 0 false (.add 0 xp (.fin (!g) n d))
      | _ => 0

/-- The accumulator bits after one K-group update of `old` with the products of `a` and `b` over `n` positions (R59 to R61):
the exact sum, which is +0 where it is zero, rounded to f32, scaled under SCL by the rounded product of the scales, and
added with one rounding; for an i32 accumulator the exact sum is added. -/
def KUpdates (f : FormatWord) (old : Nat) (n : Nat) (a b : Nat → Ex) (sa sw : W32) (new : Nat) : Prop :=
  ∃ p, SumIs ((List.range n).map fun k => .mul (a k) (b k)) p ∧ (∀ g d, p = .fin g 0 d → g = false) ∧
    (f.fd = .i32 → new = rnd .i32 0 f.sat (.add 0 (Fmt.i32.decode old) p)) ∧
    (f.fd ≠ .i32 →
      let t := rnd32 (.mul (Fmt.f32.decode sa.toNat) (Fmt.f32.decode sw.toNat))
      let s := if f.scl then rnd32 (.mul (rnd32 p) t) else rnd32 p
      new = rnd .f32 0 f.sat (.add 0 (Fmt.f32.decode old) s))

/-- a[r][k] of a command, and B[k][c] of a weight slot (R190, Table 07.1). -/
def aValue (c : ThCmd) (f : FormatWord) (r k : Nat) : Ex :=
  let byte (j : Nat) : Nat := (c.a.getD (128 * r + j) 0).toNat
  if f.fa = .bf16 then Fmt.bf16.decode (byte (2 * k) + 256 * byte (2 * k + 1)) else f.fa.decode (byte k)
def bValue (byte : Nat → Nat) (f : FormatWord) (k c : Nat) : Ex :=
  if f.fb = .i4 then Fmt.i4.decode (byte (128 * k + c / 2) / 16 ^ (c % 2) % 16)
  else if f.fb = .bf16 then Fmt.bf16.decode (byte (512 * k + 2 * c) + 256 * byte (512 * k + 2 * c + 1))
  else f.fb.decode (byte (256 * k + c))

/-! ### Unit indices -/

/-- The indices of unit `u` as R314 computes them: orders 0, 1 and 3 whole, and i2 and i3 of orders 2 to 4. -/
def UnitIndices (order n0 n1 n2 n3 u : Nat) (i : Nat → Nat) : Prop :=
  let r := u % (n2 * n3)
  let q := u / (n2 * n3)
  (order = 0 → i 3 = u % n3 ∧ i 2 = u / n3 % n2 ∧ i 1 = u / (n3 * n2) % n1 ∧ i 0 = u / (n3 * n2 * n1)) ∧
  (order = 1 → i 0 = u % n0 ∧ i 1 = u / n0 % n1 ∧ i 2 = u / (n0 * n1) % n2 ∧ i 3 = u / (n0 * n1 * n2)) ∧
  (2 ≤ order → i 3 = r % n3 ∧ i 2 = r / n3) ∧
  (order = 3 → i 0 = q / n1 ∧ i 1 = if i 0 % 2 = 0 then q % n1 else n1 - 1 - q % n1)

/-- The pairs within the bounds are taken one after another: `pair q` rises under the order for q below their number, so it is the
q-th. -/
def Enumerates (n0 n1 : Nat) (before : Nat × Nat → Nat × Nat → Prop) (pair : Nat → Nat × Nat) : Prop :=
  ∀ q < n0 * n1, (pair q).1 < n0 ∧ (pair q).2 < n1 ∧ ∀ q' < q, before (pair q') (pair q)

/-- Increasing i0 + i1, and within one sum increasing i0 (R314, order 2). -/
def DiagonalBefore (a b : Nat × Nat) : Prop :=
  a.1 + a.2 < b.1 + b.2 ∨ a.1 + a.2 = b.1 + b.2 ∧ a.1 < b.1

/-- Increasing Morton code: at the highest bit in which the codes differ, `a` has 0; bit 2k is bit k of i1, and bit 2k + 1 bit k
of i0 (R314, order 4). -/
def MortonBefore (a b : Nat × Nat) : Prop :=
  ∃ k, (∀ j, k < j → a.1.testBit j = b.1.testBit j ∧ a.2.testBit j = b.2.testBit j) ∧
    ((a.1.testBit k = false ∧ b.1.testBit k = true) ∨
      (a.1.testBit k = b.1.testBit k ∧ a.2.testBit k = false ∧ b.2.testBit k = true))

/-! ### Frames -/

/-- The doublewords of a frame's header that a CXSAVE of `h` writes: offset and value (Tables 12.3 and 12.5). -/
def headerWords (h : Hart) : List (Nat × Nat) :=
  [(0x000, h.len + 2 ^ 13 + b2n h.training * 2 ^ 14 + b2n h.ringf * 2 ^ 15 + (h.member 0).wmode.toNat * 2 ^ 16),
    (0x008, h.vmax.toNat), (0x010, h.status.toNat), (0x018, h.tcause.toNat), (0x020, h.tpc.toNat), (0x028, h.tval.toNat),
    (0x030, h.tmem.toNat), (0x038, h.vec.toNat), (0x040, h.ctx.toNat), (0x048, h.ptroot0.toNat), (0x050, h.ptroot1.toNat),
    (0x058, h.tmr.toNat), (0x060, h.prio.toNat), (0x068, h.vl.toNat), (0x070, h.vw.toNat), (0x078, h.els.toNat),
    (0x080, h.efr.toNat), (0x088, h.qst.toNat), (0x090, h.axo.toNat), (0x098, h.lhold.toNat),
    (0x0A0, (h.bal % 2 ^ 64).toNat), (0x0A8, h.origin.toNat)] ++
  (List.range 32).map fun n => (0x100 + 8 * n, (lookupD h.hwm n 0).toNat)

/-- Beds of a pair mode word (Table 01.5). -/
def bedsOf (wm : Nat) : Nat := (List.range 4).countP fun p => wm / 4 ^ p % 4 = 1

/-- A tiller lacks a working pair for a pair mode word (R257, R315): it is mapped out, or its stacked half is missing and a
pair is not in cache mode. -/
def LacksPairs (s : State) (wm tile : Nat) : Prop := s.tmapOf tile ≠ 1 ∧ (s.tmapOf tile ≠ 2 ∨ wm ≠ 0)

/-- Offset of a member's block, and of the bytes of a tile's row in it (R335, Table 12.4). -/
def blockAt (k : Nat) : Nat := 0x1000 + k * 0x29000
def tileRowAt (geo r n : Nat) : Nat := 0x11000 + 4 * (r * 256 + n * (256 / 2 ^ geo))

/-- The RES0 fields of the header's registers (Tables 01.4, 01.5, 12.3): offset, highest and lowest bit. -/
def headerFields : List (Nat × Nat × Nat) :=
  [(0x000, 10, 8), (0x000, 63, 24), (0x008, 63, 19), (0x010, 7, 5), (0x010, 63, 12), (0x018, 63, 17), (0x020, 2, 0),
    (0x020, 63, 56), (0x030, 63, 7), (0x038, 6, 0), (0x038, 63, 56), (0x040, 63, 12), (0x048, 15, 1), (0x048, 63, 52),
    (0x050, 15, 1), (0x050, 63, 52), (0x060, 63, 2), (0x068, 63, 19), (0x070, 63, 2), (0x078, 63, 19), (0x080, 63, 32),
    (0x090, 63, 13), (0x098, 63, 8), (0x0A8, 61, 10)]

/-- The frame with words `w` has a nonzero RES0 field, in as many blocks as FHDR.LEN says, or the reserved KIND (R341). -/
def FrameReserved (w : Nat → Word) : Prop :=
  (∃ x ∈ headerFields, field (w x.1) x.2.1 x.2.2 ≠ 0) ∨ field (w 0) 12 11 = 3 ∨ (∃ k < 10, w (0x0B0 + 8 * k) ≠ 0) ∨
    (∃ k < 448, w (0x200 + 8 * k) ≠ 0) ∨ (∃ n < 32, field (w (0x100 + 8 * n)) 63 19 ≠ 0) ∨
    ∃ i < field (w 0) 7 0, field (w (blockAt i + 0x288)) 3 2 ≠ 0 ∨ field (w (blockAt i + 0x288)) 63 8 ≠ 0 ∨
      field (w (blockAt i + 0x290)) 59 48 ≠ 0 ∨ field (w (blockAt i + 0x298)) 63 24 ≠ 0

/-- The bytes of its part of register `n` that member `k` saves: its elements below the mark (R336). -/
def savedLength (h : Hart) (k n : Nat) : Nat :=
  min (cntOf h.shares h.w h.vl.toNat k) ((lookupD h.hwm n 0).toNat / h.e - startOf h.shares h.w k) * h.e

/-- The runs of a save hold the block of member `k` (Table 12.4, R336). -/
def BlockSaved (q : State) (k : Nat) (runs : List (Nat × List Byte)) : Prop :=
  let m := q.hart.member k
  let word (off v : Nat) : Prop := (blockAt k + off, bytesOf 8 v) ∈ runs
  let set := q.channel m.chset
  (∀ r : Reg, word (8 * r.toNat) (q.reg k r).toNat) ∧
  (∀ n < 8, word (0x200 + 8 * n) (set n).txn.toNat ∧ word (0x240 + 8 * n) (set n).txw.toNat ∧
    word (0x2A8 + 8 * n) (m.sende.getD n 0).toNat) ∧
  word 0x280 m.chset ∧ word 0x288 m.accg ∧ word 0x290 m.ixst ∧
  word 0x298 (q.hart.shares.getD k 0 + m.groups.toNat * 65536) ∧
  word 0x2A0 ((q.sheaf (m.tile / 8)).thw.toNat / 16 ^ (m.tile % 8) % 16) ∧
  (∀ n, 1 ≤ n → n < 8 → ∃ bs, (blockAt k + 0x800 + (n - 1) * 0x100, bs) ∈ runs ∧ bs.length = 256 ∧
    ∀ p < 2048, (bs.getD (p / 8) 0).getLsbD (p % 8) = m.mbit n p) ∧
  (∀ n < 32, ∃ bs, (blockAt k + 0x1000 + n * 0x800, bs) ∈ runs ∧ bs.length = savedLength q.hart k n ∧
    ∀ p < bs.length, bs.getD p 0 = m.vbyte n p) ∧
  (∀ n r, n < 2 ^ m.geo.toNat → m.live.getLsbD n = true → r < m.mt →
    ∃ bs, (blockAt k + tileRowAt m.geo.toNat r n, bs) ∈ runs ∧ bs.length = 4 * (256 / 2 ^ m.geo.toNat) ∧
      ∀ c < 256 / 2 ^ m.geo.toNat, ofBytes ((bs.drop (4 * c)).take 4) =
        (m.accElem (r * 256 + n * (256 / 2 ^ m.geo.toNat) + c)).toNat) ∧
  ∀ (j : Nat) p, m.ix[j]? = some p → ∀ (e : Nat) kv, p.entries[e]? = some kv →
    (blockAt k + 0x19000 + j * 0x4000 + 8 * e, bytesOf 4 kv.1.toNat ++ bytesOf 4 kv.2.toNat) ∈ runs

/-- `h` holds the header of the frame at `fm` in `u` (R339). -/
def HeaderLoaded (u : State) (fm : FrameMap) (h : Hart) : Prop :=
  let w := u.frameWord fm
  h.status = w 0x010 ∧ h.tcause = w 0x018 ∧ h.tpc = w 0x020 ∧ h.tval = w 0x028 ∧ h.tmem = w 0x030 ∧ h.vec = w 0x038 ∧
  h.ctx = w 0x040 ∧ h.ptroot0 = w 0x048 ∧ h.ptroot1 = w 0x050 ∧ h.tmr = w 0x058 ∧ h.prio = w 0x060 ∧
  h.vw.toNat = min ((w 0x070).toNat % 4) 2 ∧ h.efr.toNat = (w 0x080).toNat % 2 ^ 32 ∧
  h.axo.toNat = (w 0x090).toNat % 2 ^ 13 ∧ h.lhold.toNat = (w 0x098).toNat % 2 ^ 8 ∧ h.bal = (w 0x0A0).toInt ∧
  h.origin = w 0x0A8 ∧ h.ringf = bit (w 0) 15 ∧
  (bit (w 0) 13 = true → h.vmax.toNat = (w 0x008).toNat % 2 ^ 19 ∧ h.vl.toNat = (w 0x068).toNat % 2 ^ 19 ∧
    h.els.toNat = (w 0x078).toNat % 2 ^ 19 ∧ h.qst = w 0x088 ∧
    (∀ n < 32, (lookupD h.hwm n 0).toNat = (w (0x100 + 8 * n)).toNat % 2 ^ 19) ∧
    ∀ k < h.len, h.shares.getD k 0 = (w (blockAt k + 0x298)).toNat % 2 ^ 16) ∧
  (bit (w 0) 13 = false → h.vmax.toNat = h.capacity % 2 ^ 19 ∧ h.vl = 0 ∧ h.els = 0 ∧ h.qst = 0 ∧
    ∀ n, lookupD h.hwm n 0 = 0)

/-- Member `k` of the current furrow of `t` holds its block of the frame at `fm` in `u` (R336, R339, R342). -/
def BlockLoaded (u : State) (fm : FrameMap) (t : State) (k : Nat) : Prop :=
  let m := t.hart.member k
  let at_ (off : Nat) : Word := u.frameWord fm (blockAt k + off)
  let bytes (off n : Nat) : List Byte := u.peekBytes (frameAddr fm (blockAt k + off)) n
  let hd := u.frameWord fm 0
  (∀ r, 1 ≤ r → r < 64 → lookup m.regs r = some (at_ (8 * r))) ∧ m.pend = [] ∧ m.link = (u.hart.member k).link ∧
  m.chset = (at_ 0x280).toNat % 2 ^ 32 ∧ m.wmode.toNat = field hd 23 16 ∧
  (∀ n < 8, t.channel m.chset n = u.channel m.chset n) ∧
  (∀ n : Nat, n < 8 → (k ≠ 0 ∨ bit hd 15 = true) → (n : Int) < t.hart.bal → m.sende[n]? = some (at_ (0x2A8 + 8 * n))) ∧
  ((u.hart.members.map (·.tile)).Nodup →
    (t.sheaf (m.tile / 8)).thw.toNat / 16 ^ (m.tile % 8) % 16 = max 1 (field (at_ 0x2A0) 3 0)) ∧
  m.geo.toNat = (at_ 0x288).toNat % 4 ∧ m.live.toNat = field (at_ 0x288) 7 4 ∧
  (bit hd 13 = true →
    (∀ n p, 1 ≤ n → n < 8 → p < 2048 →
      m.mbit n p = ((bytes (0x800 + (n - 1) * 0x100) 256).getD (p / 8) 0).getLsbD (p % 8)) ∧
    ∀ n p, n < 32 → p < savedLength t.hart k n →
      m.vbyte n p = (bytes (0x1000 + n * 0x800) (savedLength t.hart k n)).getD p 0) ∧
  (∀ n r c, n < 2 ^ m.geo.toNat → m.live.getLsbD n = true → r < m.mt → c < 256 / 2 ^ m.geo.toNat →
    (m.accElem (r * 256 + n * (256 / 2 ^ m.geo.toNat) + c)).toNat = ofBytes (bytes (tileRowAt m.geo.toNat r n + 4 * c) 4)) ∧
  m.ix.length = ((List.range 4).countP fun p => field hd (17 + 2 * p) (16 + 2 * p) = 2) ∧
  ∀ (j : Nat) p, m.ix[j]? = some p → p.drop = bit (at_ 0x290) (60 + j) ∧
    p.entries.length = field (at_ 0x290) (12 * j + 11) (12 * j) ∧
    ∀ (e : Nat) kv, p.entries[e]? = some kv →
      kv.1.toNat = (at_ (0x19000 + j * 0x4000 + 8 * e)).toNat % 2 ^ 32 ∧
      kv.2.toNat = (at_ (0x19000 + j * 0x4000 + 8 * e)).toNat / 2 ^ 32

/-! ### Engines -/

/-- A request that must wait has its entry in the queue of its pseudo-channel, or the queue's 64 entries are taken (R356; log 73). -/
def Queued (t : State) (id : Nat) (x : Nat × Nat) : Prop :=
  let r := t.rootOf x.1
  (id, x.2) ∈ r.queue ∨ (id, x.2) ∈ r.serving ∨ 64 ≤ r.queue.length + r.serving.length

/-- A step of `id` that makes requests at `pas`: where row microprograms work in windows there, or an older request to a bank
waits, these requests stand in the queues of their pseudo-channels and no memory changes; otherwise `next` holds of the
state in which it takes place (R356, R365). -/
def Gated (s : State) (id : Nat) (pas : List Nat) (r : Result) (next : State → Prop) : Prop :=
  (s.windowsAt id pas ≠ [] → ∃ t, r = .next t ∧ t.signal = .done ∧ t.mem = s.mem ∧
    ∀ x ∈ s.windowsAt id pas, Queued t id x) ∧
  (s.windowsAt id pas = [] → next (s.leaveQueues fun q => q.1 == id && pas.contains q.2))

/-- The status of an operation that a stop ends (R223, R224). -/
def stopStatus (x : Stop) : EngStatus := { code := x.code, sub := x.sub, opnd := x.opnd, detail := x.off }

/-- The operation waits to complete with a status. -/
def EndsAs (t : State) (op : Nat) (e : EngStatus) : Prop := ∀ p ∈ t.ops, p.id = op → p.ended = some e

/-- The outcome is a next state in which the operation has ended with `e`, and memory is `m`. -/
def StopsWith (r : Result) (op : Nat) (e : EngStatus) (m : List Host.Cell) : Prop :=
  ∃ t, r = .next t ∧ t.signal = .done ∧ t.mem = m ∧ EndsAs t op e

/-- Element `j` of `e` bytes. -/
def element (e : Nat) (bs : List Byte) (j : Nat) : Nat := ofBytes ((bs.drop (e * j)).take e)

/-- `v` is the value of an RDC's destination element from the bit patterns `xs` of its sources (R237): the sum, exact and
rounded once for integers and over the canonical tree for floats, the least or the greatest. -/
def Reduces (b : RdcBlock) (xs : List Nat) (v : Nat) : Prop :=
  let f := b.fmt
  let vs := xs.map f.decode
  (b.opr = 0 → f.isInt = true → ∃ e, SumIs vs e ∧ v = rnd f 0 b.sat e) ∧
  (b.opr = 0 → f.isInt = false →
    v = rnd f 0 false (canonSum (fun x y => f.decode (rnd f 0 false (.add 0 x y))) (.fin true 0 1) vs)) ∧
  (b.opr = 1 → ∃ e, BestIs false vs e ∧ v = rnd f 0 false e) ∧ (b.opr = 2 → ∃ e, BestIs true vs e ∧ v = rnd f 0 false e)

/-- `v` is the word that a reducing COPY under control word `c` leaves where `x` stood and `y` arrives (R230): bitwise for OPR 4 to
6; for i32 and n32 the exact result, wrapped, or for a sum under SAT clamped; for f32 the rounded one. -/
def CopyReduces (c : Word) (x y v : Nat) : Prop :=
  let opr := c.toNat % 8
  let fmt := c.toNat / 16 % 16
  let val (z : Nat) : Int := if fmt = 0 then signedOf 32 z else z
  let lo : Int := if fmt = 0 then -2 ^ 31 else 0
  let hi : Int := if fmt = 0 then 2 ^ 31 - 1 else 2 ^ 32 - 1
  (opr = 4 → v = x &&& y) ∧ (opr = 5 → v = x ||| y) ∧ (opr = 6 → v = x ^^^ y) ∧
  (fmt ≠ 8 →
    (opr = 1 → bit c 11 = false → (v : Int) = (val x + val y) % 2 ^ 32) ∧
    (opr = 1 → bit c 11 = true → (v : Int) = max lo (min hi (val x + val y)) % 2 ^ 32) ∧
    (opr = 2 → (v : Int) = min (val x) (val y) % 2 ^ 32) ∧ (opr = 3 → (v : Int) = max (val x) (val y) % 2 ^ 32)) ∧
  (fmt = 8 → opr = 1 ∨ opr = 2 ∨ opr = 3 → ∃ z, v = rnd .f32 0 false z ∧
    (opr = 1 → SumOf 0 (Fmt.f32.decode x) (Fmt.f32.decode y) z) ∧
    (opr = 2 → ExtremeOf false (Fmt.f32.decode x) (Fmt.f32.decode y) z) ∧
    (opr = 3 → ExtremeOf true (Fmt.f32.decode x) (Fmt.f32.decode y) z))

/-- `n` is a merge node with children `a` and `b` (R240): indices rise, an index that both carry holds the rounded or clamped sum,
and the flags follow its rules. -/
def NodeOf (g : Group) (a b n : MNode) : Prop :=
  let f := g.fmt
  let sum (x y : Nat) : Ex := .add 0 (f.decode x) (f.decode y)
  (n.pairs.Pairwise fun x y => x.1 < y.1) ∧
  (∀ i v, (i, v) ∈ n.pairs ↔
    (∃ x y, (i, x) ∈ a.pairs ∧ (i, y) ∈ b.pairs ∧ v = rnd f 0 f.isInt (sum x y)) ∨
    (∃ x, (i, x) ∈ a.pairs ∧ (∀ y, (i, y) ∉ b.pairs) ∧ v = rnd f 0 false (f.decode x)) ∨
    ∃ y, (i, y) ∈ b.pairs ∧ (∀ x, (i, x) ∉ a.pairs) ∧ v = rnd f 0 false (f.decode y)) ∧
  (n.dense = true ↔ (1 ≤ g.thr ∧ g.thr * (g.hi - g.lo) ≤ 256 * n.pairs.length) ∨ g.cap < n.pairs.length ∨
    a.dense = true ∨ b.dense = true) ∧
  (n.force = true ↔ g.cap < n.pairs.length ∨ a.force = true ∨ b.force = true) ∧
  (n.ovf = true ↔ a.ovf = true ∨ b.ovf = true ∨ f.isInt = true ∧ ∃ i x y, (i, x) ∈ a.pairs ∧ (i, y) ∈ b.pairs ∧
    (f.decode (rnd f 0 f.isInt (sum x y))).eq (sum x y) = false)

/-- The bytes at DST for the result `r` of a merge (Table 08.10). -/
def ImageOf (g : Group) (r : MNode) (bad : Bool) (bs : List Byte) : Prop :=
  let k := g.fmt.width / 8
  let count := if r.dense then g.hi - g.lo else r.pairs.length
  let num (o n : Nat) : Nat := ofBytes ((bs.drop o).take n)
  bs.length = 16 + (if r.dense then k else 8) * count ∧
  num 0 4 = (if r.dense then 2 else 1) + 256 * b2n r.ovf + 512 * b2n bad + 1024 * b2n r.force ∧ num 4 4 = count ∧
  num 8 4 = g.lo ∧ num 12 4 = g.hi ∧
  (r.dense = true → ∀ j < count, (∀ v, (g.lo + j, v) ∈ r.pairs → num (16 + k * j) k = v) ∧
    ((∀ v, (g.lo + j, v) ∉ r.pairs) → num (16 + k * j) k = 0)) ∧
  (r.dense = false → ∀ (j : Nat) p, r.pairs[j]? = some p → num (16 + 8 * j) 4 = p.1 ∧ num (16 + 8 * j + 4) 4 = p.2)

/-- `v` is the valid stream of `l` and whether it was truncated (R240): the longest prefix whose indices rise within the
range. -/
def ValidStream (lo hi : Nat) (l : List (Nat × Nat)) (v : List (Nat × Nat) × Bool) : Prop :=
  ∃ n ≤ l.length, v.1 = l.take n ∧ (v.2 = true ↔ n < l.length) ∧ (v.1.Pairwise fun x y => x.1 < y.1) ∧
    (∀ p ∈ v.1, lo ≤ p.1 ∧ p.1 < hi) ∧ ∀ p, l[n]? = some p → ¬ (lo ≤ p.1 ∧ p.1 < hi ∧ ∀ q ∈ v.1, q.1 < p.1)

/-- The bytes of a row after row operation `f` on the old row `d` and the source rows `a` and `b` (Table 08.6). -/
def RowOp (f : Nat) (d a b r : List Byte) : Prop :=
  ∀ (k : Nat) (x : Byte), a[k]? = some x →
    (f = 0 ∨ f = 1 → r[k]? = some x) ∧ (f = 5 → r[k]? = some (~~~x)) ∧ ∀ y, b[k]? = some y →
      (f = 2 → r[k]? = some (x &&& y)) ∧ (f = 3 → r[k]? = some (x ||| y)) ∧ (f = 4 → r[k]? = some (x ^^^ y)) ∧
      ∀ z, d[k]? = some z → f = 6 → ∃ m : Byte, r[k]? = some m ∧ ∀ n, n < 8 →
        m.getLsbD n = decide (2 ≤ (z.getLsbD n).toNat + (x.getLsbD n).toNat + (y.getLsbD n).toNat)

/-- A row of `n` elements of `e` bytes after a row-step of a microprogram on ba1 `ys` and ba0 `xs` (R248): each expression is
exact before its one rounding. -/
def RowStepOf (p : BkProg) (ys xs r : List Byte) : Prop :=
  let f : Fmt := if p.fmt = 8 then .f32 else if p.fmt = 9 then .bf16 else .i32
  let e := f.width / 8
  let a := Fmt.f32.decode p.scale.toNat
  r.length = 1024 ∧ ∀ j < 1024 / e, element e r j =
    rnd f 0 false (match p.opr with
      | 0 => .add 0 (f.decode (element e ys j)) (.mul a (f.decode (element e xs j)))
      | 1 => .mul a (f.decode (element e xs j))
      | _ => .add 0 (f.decode (element e ys j)) (f.decode (element e xs j))) % 256 ^ e

/-! ### Vector memory and the array -/

/-- Bytes of a register in which an element of the list lies. -/
def coversReg (es : List VElem) (k p : Nat) : Prop := ∃ e ∈ es, e.member = k ∧ e.pos ≤ p ∧ p < e.pos + e.data.length

/-- The elements lie apart within the registers of the furrow's members. -/
def LieApart (h : Hart) (es : List VElem) : Prop :=
  (∀ e ∈ es, e.member < h.len ∧ e.pos + e.data.length ≤ 2048) ∧
  es.Pairwise fun a b => a.member ≠ b.member ∨ a.pos + a.data.length ≤ b.pos ∨ b.pos + b.data.length ≤ a.pos

/-- The byte of memory at `x` is one that the element holds. -/
def VElem.covers (e : VElem) (x : Nat) : Prop := e.pa ≤ x ∧ x < e.pa + e.data.length

/-- A vector memory form: the instruction, its kind, its operands, its mask, its policy and its addresses, which an index
register of the furrow `h` may take part in. -/
structure VectorForm where
  instr : Instr
  kind : VKind
  args : VArgs
  mask : MReg
  policy : Policy
  addr : Hart → Nat → Option Word

/-- The vector memory instructions but VLDQ (R133, R147, R148): element `i` lies at s(A) plus `i` elements, plus `i` times
s(B), or plus the index times the element size; a sentinel index names no element. -/
def vectorForms (s : State) (p : Policy) (w : IdxW) (v : VReg) (a b : Reg) (n : VReg) (m : MReg) : List VectorForm :=
  let flat : Hart → Nat → Option Word := fun h i => some (s.reg 0 a + BitVec.ofNat 64 (i * h.e))
  let stride : Hart → Nat → Option Word := fun _ i => some (s.reg 0 a + BitVec.ofNat 64 i * s.reg 0 b)
  let index : Hart → Nat → Option Word := fun h i =>
    let bits := if w = .n16 then 16 else 32
    let x := h.elem (h.src n.toNat) i % 2 ^ bits
    if x = 2 ^ bits - 1 then none else some (s.reg 0 a + BitVec.ofNat 64 (x * h.e))
  let ix := some (w, n)
  [⟨.vld p v a m, .load, ⟨v, true, none⟩, m, p, flat⟩, ⟨.vlds p v a b m, .load, ⟨v, true, none⟩, m, p, stride⟩,
    ⟨.vldx p w v a n m, .load, ⟨v, true, ix⟩, m, p, index⟩, ⟨.vst p v a m, .store, ⟨v, false, none⟩, m, p, flat⟩,
    ⟨.vsts p v a b m, .store, ⟨v, false, none⟩, m, p, stride⟩, ⟨.vstx p w v a n m, .store, ⟨v, false, ix⟩, m, p, index⟩,
    ⟨.vglk p w v a n m, .glk, ⟨v, true, ix⟩, m, p, index⟩, ⟨.vstc p w v a n m, .stc, ⟨v, false, ix⟩, m, p, index⟩]

/-- A vector word with a format word: it is illegal where an operand breaks R22 or R158; a format word that its class
refuses is the illegal-format trap with TVAL the word; and otherwise the elements that `act` lists receive `v`. -/
def FormatFills (s : State) (o : AOps) (c : FmtClass) (x : Reg) (d : VReg) (act : Hart → List Nat)
    (v : FormatWord → State → Nat → Nat) (r : Result) : Prop :=
  s.hart.root = none →
    (o.bad s.hart = true → r = s.illegal 0 true) ∧
    (o.bad s.hart = false →
      let q := awaited s o
      (decodeFmt c (q.aScalar x) q.hart.w = none → r = q.trap { cause := 2, val := q.aScalar x, eside := true }) ∧
      ∀ f, decodeFmt c (q.aScalar x) q.hart.w = some f → Placed q.hart → Fills q d.toNat (act q.hart) (v f q) r)

/-- A vector word without a format word. -/
def PlainFills (s : State) (o : AOps) (d : VReg) (act : Hart → List Nat) (v : State → Nat → Nat) (r : Result) : Prop :=
  s.hart.root = none →
    (o.bad s.hart = true → r = s.illegal 0 true) ∧
    (o.bad s.hart = false → Placed (awaited s o).hart →
      Fills (awaited s o) d.toNat (act (awaited s o).hart) (v (awaited s o)) r)

end Sys2Proof.Safety
end

