-- ==== Sys2Proof/Certificates/Slice0/Obligations.lean ====
section
/-! DEFINITION. The statements for the provers: what the machine does, rule by rule of the spec. -/

section

open Sys2Proof Sys2Proof.Machine Sys2Proof.Safety

/-! ### Reset and memory -/

/-- O1. After module reset no furrow runs, no work exists and the stage is SAFE; tillers, channels, root cores, sheaves
and a fresh furrow hold the reset values below (R39, R368, R26, the Reset columns of Tables 01.3 to 01.5, 13.3 and 14.1). -/
def Obligations.ResetLeavesModuleIdle : Prop :=
  State.reset.stage = 1 ∧ State.reset.err = 0 ∧ State.reset.linkup = 0 ∧ State.reset.rmLock = false ∧
  State.reset.limit = 3800 ∧ State.reset.eol = 0xFFFFFFFF ∧ State.reset.mcValid = false ∧
  State.reset.hart.id = 0 ∧ State.reset.others = [] ∧ State.reset.jobs = [] ∧ State.reset.ops = [] ∧
  State.reset.saved = [] ∧
  (∀ t, let m := State.reset.idleMember t
    m.tile = t ∧ m.chset = t ∧ m.wmode = 0 ∧ m.geo = 0 ∧ m.live = 0 ∧ m.pcx = 0 ∧ m.link = none ∧ m.ix = [] ∧ m.tq = []) ∧
  (∀ set n, (State.reset.channel set n).txn = 1 ∧ (State.reset.channel set n).txw = 1) ∧
  (∀ g, (State.reset.rootOf g).state = 0 ∧ (State.reset.rootOf g).rwin = 4 ∧ (State.reset.rootOf g).mpc = 0) ∧
  (∀ n, (State.reset.sheaf n).thw = 0x11111111) ∧
  ∀ h : Hart, h = { id := 1 } → h.status = 1 ∧ h.vec = 0 ∧ h.tcause = 0 ∧ h.tpc = 0 ∧ h.tval = 0 ∧ h.tmem = 0 ∧
    h.ctx = 0 ∧ h.ptroot0 = 0 ∧ h.ptroot1 = 0 ∧ h.prio = 3 ∧ h.tmr = 0 ∧ h.vl = 0 ∧ h.vw = 0 ∧ h.vmax = 0 ∧ h.els = 0 ∧
    h.efr = 0 ∧ h.qst = 0 ∧ h.axo = 0 ∧ h.lhold = 0 ∧ h.ringf = false ∧ ∀ n, lookupD h.hwm n 0 = 0

/-- O2. The memory after reset stands in the canonical form. -/
def Obligations.ResetMemoryCanonical : Prop := MemoryCanonical State.reset

/-- O3. Every step of the module keeps the canonical form of memory, whatever moves next; it is never refused, and
its one fault is `notEnabled`. -/
def Obligations.StepKeepsMemoryCanonical : Prop := ∀ s, MemoryCanonical s → Allowed (step s)

/-- O4. Bytes written to memory are read back, and every other byte stays (R283, R260). -/
def Obligations.MemoryWriteThenRead : Prop :=
  ∀ (m : List Host.Cell) (pa : Nat) (bs : List Byte), Memory.wf m = true →
    (∀ k (hk : k < bs.length), Memory.get (Memory.write m pa bs) (pa + k) = bs[k]) ∧
    (∀ q, (q < pa ∨ pa + bs.length ≤ q) → Memory.get (Memory.write m pa bs) q = Memory.get m q) ∧
    Memory.read (Memory.write m pa bs) pa bs.length = bs ∧
    Memory.wf (Memory.write m pa bs) = true

/-! ### Steps, slots and encodings -/

/-- O5. Where the slot at the program counter decodes to a bundle and nothing comes before it, the step executes
the C word, then the A word, and moves to the next bundle; a word that traps or waits decides the step instead, the
lowest member's trap first, and SETVL, WCFG and ACCFG stand beside an A word that fails a dispatch check (R72, R84,
R329, R332). A bundle whose members make their scalar accesses apart begins with every member's access still to be made
(R281). An error halts the module: it takes no act of its own (R369). The model's own choices here: the agenda that names a bundle, an event or a switch (log 1), the furrow that
parks at its bundle (log 7), a word behind which the module went back (log 8), which C words stand (log 11), the value of a register that both words write (`settleBoth`,
log 105), which accesses are made apart (`beginApart`, log 93), the steps that come too early behind a RECVW (`tooEarly`,
log 8), and the wait for a row microprogram (`heldBack`, log 73), which is nothing where none runs. -/
def Obligations.StepRunsDecodedBundle : Prop :=
  (∀ s rest f b, s.agenda = .bundle :: rest → Reaches { s.advance with agenda := rest } f b →
    let q : State := { s.advance with agenda := rest }
    let old := f.st.hart
    let s0 := (f.st.openChunk b).begin f.hdr f.slot
    let ends (r : Result) : Prop := step s = q.heldBack .bundle r
    let stepTrap (t : State) : State := t.modHart fun h => { h with after := h.stepTrap s0.hart.priv }
    ∀ t, exec b.c s0 = .next t →
      (t.signal = .done → t.hart.id = old.id → b.a = .vnop → ends (.next (t.finish b.sw s0.hart.priv))) ∧
      (t.signal = .done → t.hart.id = old.id → b.a ≠ .vnop → ∀ u, exec b.a t = .next u →
        (u.signal = .done → ends (.next ((u.settleBoth b).finish b.sw s0.hart.priv))) ∧
        (∀ i, u.signal = .trapped i → ends (.next (if stands b.c i then u else s0.takeTrap i))) ∧
        (u.signal = .stalled → ends (.next (s0.stallAt old))) ∧ (u.signal = .undone → ends (.next u))) ∧
      (t.signal = .done → t.hart.id ≠ old.id →
        (b.a = .vnop → ends (.next (stepTrap t))) ∧
        (b.a ≠ .vnop → ∀ u, exec b.a s0 = .next u →
          (∀ i, u.signal = .trapped i → ends (.next u)) ∧ (u.signal = .stalled → ends (.next (s0.stallAt old))) ∧
          ∀ v, u.signal = .done → exec b.c u = .next v → ends (.next (stepTrap v)))) ∧
      (∀ i, t.signal = .trapped i →
        (i.member = 0 ∨ b.a = .vnop → ends (.next t)) ∧
        (i.member ≠ 0 → b.a ≠ .vnop → ∀ u, exec b.a s0 = .next u →
          (∀ j, u.signal = .trapped j → ends (.next (if j.member < i.member then u else t))) ∧
          ((∀ j, u.signal ≠ .trapped j) → ends (.next t)))) ∧
      (t.signal = .stalled → ends (.next { t with hart := t.hart.rewind old })) ∧
      (t.signal = .undone → ends (.next t))) ∧
  (∀ s rest f b t, s.agenda = .bundle :: rest → Ready { s.advance with agenda := rest } f b →
    f.st.beginApart exec f b = some t →
    let q : State := { s.advance with agenda := rest }
    step s = q.heldBack .bundle (.next t) ∧ t.signal = .done ∧ t.chunkOpen = false ∧
      ∃ p, t.hart.parts = some p ∧ p.word = b.c ∧ p.todo.map (fun x => x.1.i) = List.range f.st.hart.len) ∧
  (∀ (q : State) a r, q.calm = true → q.heldBack a r = r) ∧
  (∀ (q : State) b, bothWrite b = none → q.settleBoth b = q) ∧
  (∀ c t, stands c t = true ↔ t.cause ≤ 2 ∧ ((∃ w d a, c = .setvl w d a) ∨ (∃ a b d e, c = .wcfg a b d e) ∨ ∃ g, c = .accfg g)) ∧
  (∀ s i rest, s.agenda = .event i :: rest →
    let q : State := { s.advance with agenda := rest }
    ((s.err = 0 ∨ fromOutside i = true) → q.tooEarly i = false → step s = q.heldBack (.event i) (exec i q)) ∧
    (q.tooEarly i = true → step s = .fault .notEnabled) ∧
    (s.err ≠ 0 → fromOutside i = false → step s = .fault .notEnabled)) ∧
  (∀ s rest, s.agenda = .bundle :: rest → s.err ≠ 0 → step s = .fault .notEnabled) ∧
  (∀ s id rest t, s.agenda = .switch id :: rest → ({ s.advance with agenda := rest } : State).switchTo id = some t →
    step s = .next { t with signal := .done })

/-- O6. A bundle that completes hands over to the next bundle of its line, or to slot 1 of the next line where the
line is used up; a literal slot is passed over (R66, R69, R96). -/
def Obligations.BundleCompletionAdvances : Prop :=
  (∀ (s : State) hdr slot, (s.begin hdr slot).hart.pc = s.hart.pc ∧
    (s.begin hdr slot).hart.npc = (successor s.hart.pc hdr).1) ∧
  (∀ (s : State) sw began, (s.finish sw began).hart.pc = s.hart.npc) ∧
  (∀ pc hdr : Word, slotIx pc + 1 ≤ hdrLast hdr → hdrStart hdr (slotIx pc + 1) = true →
    successor pc hdr = (lineOf pc + BitVec.ofNat 64 (8 * (slotIx pc + 1)), .inLine)) ∧
  (∀ pc hdr : Word, slotIx pc + 2 ≤ hdrLast hdr → hdrStart hdr (slotIx pc + 1) = false →
    successor pc hdr = (lineOf pc + BitVec.ofNat 64 (8 * (slotIx pc + 2)), .inLine)) ∧
  ∀ pc hdr : Word, (hdrLast hdr ≤ slotIx pc ∨ (hdrLast hdr = slotIx pc + 1 ∧ hdrStart hdr (slotIx pc + 1) = false)) →
    successor pc hdr = (lineOf pc + 136, .fall)

/-- O7. What the decoder accepts is well formed (R81). -/
def Obligations.DecodedIsWellFormed : Prop :=
  ∀ slot lit b, Decode.slot slot lit = .ok b → b.c.wf = true ∧ b.a.wf = true

/-- O8. Words that the spec writes out decode to the instructions they stand for. -/
def Obligations.PublishedWordsDecode : Prop :=
  decodeTableWord 32 0xDC384340 = some (.stc 14 4 13) ∧
  decodeTableWord 32 0x9E380401 = some (.br .ne 14 0 0 1) ∧
  decodeTableWord 32 0x9D00000D = some (.fence .acq .die) ∧
  decodeTableWord 64 (0x04400D04 * 2 ^ 32) = some (.vadd 2 0 1 40 1) ∧
  decodeTableWord 64 (0x54000001 * 2 ^ 32) = some (.viota 0 0) ∧
  decodeTableWord 64 (0xA8010000 * 2 ^ 32) = some (.qpop 1) ∧
  decodeTableWord 64 (0xA4400000 * 2 ^ 32) = some (.azero 2)

/-- O9. Every C word that an instruction encodes to decodes to that instruction, with every operand at every value
that the encoding admits. -/
def Obligations.EncodedCWordsDecode : Prop :=
  ∀ (i : Instr) (x : BitVec 6 × BitVec 24), i.wf = true → Encode.cWord i = some x →
    Decode.cWord x.1 x.2 (Encode.literal i) = .ok i

/-- O10. Every A word that an instruction encodes to decodes to that instruction, with every operand at every value
that the encoding admits. -/
def Obligations.EncodedAWordsDecode : Prop :=
  ∀ (i : Instr) (w : BitVec 32), i.wf = true → Encode.aWord i = some w → Decode.aWord w = .ok i

/-- O11. A slot that is no instruction raises the illegal-instruction trap with TVAL the slot, and executes
neither word (R81, R84); reserved major opcodes, LONE with an A word, RGO with an A word and m0 as a destination
are no instructions. `heldBack` is log 73, and nothing where no row microprogram runs. -/
def Obligations.ReservedSlotsTrap : Prop :=
  (∀ s rest f e, s.agenda = .bundle :: rest →
    let u : State := { s.advance with agenda := rest }
    Begins u → u.fetchBundle = .ok f → f.st.hart.chunk.conflict = false → Decode.slot f.slot f.lit = .error e →
    step s = u.heldBack .bundle (f.st.trap { cause := 1, val := f.slot })) ∧
  (∀ op w lit, 0x3C ≤ BitVec.toNat op → Decode.cWord op w lit = .error .reservedMajor) ∧
  (∀ w : BitVec 32, 0x2B ≤ w.toNat / 2 ^ 26 → Decode.aWord w = .error .reservedMajor) ∧
  (∀ slot lit : Word, slot.getLsbD 31 = true → slot.toNat / 2 ^ 32 ≠ 0 → Decode.slot slot lit = .error .loneWithAWord) ∧
  (∀ slot lit b, Decode.slot slot lit = .ok b → ∀ a, b.c = .rgo a → b.a = .vnop) ∧
  ∀ (w : BitVec 32), w.toNat / 2 ^ 26 ∈ [0x10, 0x1E, 0x1F] → w.toNat / 2 ^ 21 % 32 = 0 →
    ∀ i, Decode.aWord w ≠ .ok i

/-! ### Traps and their return -/

/-- O12. Trap entry on a tiller ends older work, breaks the links, saves cause, address, value and member, puts
PRIV and IE into PPRIV and PIE, enters supervisor mode with traps disabled, clears ORIGIN[62], and continues at slot 1
of VEC.LINE (R38, R331, R333, Table 12.3). Where the chunk before the bundle conflicts it is squashed, and no trap is taken
(R283, R299). Where a RECVW stands ahead of its SENDE no trap is taken either: the module goes back to that RECVW (R209;
`goBack`, log 8). -/
def Obligations.TrapEntrySavesAndEnters : Prop :=
  ∀ (s : State) (i : TrapInfo) (x : Xlat) (line : List Byte),
    let q := s.quiesce.breakLinks
    let q' := q.modHart fun h => h.enters i
    (s.hart.chunk.conflict = true → s.trap i = .next s.squash) ∧
    (s.hart.chunk.conflict = false → s.hart.owed ≠ [] → s.trap i = .next (s.goBack s.hart.seen)) ∧
    (s.hart.chunk.conflict = false → s.hart.owed = [] → q.hart.root = none → stopsJob q.hart i = false →
    fetchLine q' (lineOf q.hart.vec + 8) = .ok (x, line) → headerOk (slotsOf line) = true →
    ∃ t, s.trap i = .next t ∧ t.signal = .trapped i ∧
      t.hart.pc = lineOf q.hart.vec + 8 ∧
      field t.hart.tcause 7 0 = i.cause % 256 ∧ field t.hart.tcause 15 8 = i.sub % 256 ∧ bit t.hart.tcause 16 = i.eside ∧
      t.hart.tpc = q.hart.pc ∧ t.hart.tval = i.val ∧ t.hart.tmem = BitVec.ofNat 64 i.member ∧
      (∀ n, n < 64 → bit t.hart.status n =
        if n = 0 then true else if n = 1 then false else if n = 2 then bit q.hart.status 1
        else if n = 3 then bit q.hart.status 0 else bit q.hart.status n) ∧
      (∀ n, n < 64 → bit t.hart.origin n = (if n = 62 then false else bit q.hart.origin n)) ∧
      t.hart.vec = q.hart.vec ∧ t.hart.ctx = q.hart.ctx ∧ t.hart.ptroot0 = q.hart.ptroot0 ∧
      t.hart.ptroot1 = q.hart.ptroot1 ∧ t.hart.tmr = q.hart.tmr ∧ t.hart.vl = q.hart.vl ∧ t.hart.els = q.hart.els ∧
      t.hart.after = none ∧ t.hart.park = none ∧ t.hart.run = q.hart.run ∧
      (∀ k, (t.hart.member k).link = none) ∧ (∀ k, (t.hart.member k).regs = (q.hart.member k).regs))

/-- O13. TRET of a supervisor returns to TPC and takes PRIV and IE from PPRIV and PIE, with no TARGET check; where the
line of TPC cannot be fetched, TRET completes and the fetch is still to come, and where the line at hand may not be
entered at TPC the trap has cause 4 (R114, R70, R111). In user mode it is refused with the protection trap, SUB 3 and TVAL 0
(Table 12.2). A thread whose last trap was raised on its root core goes back there (R347); that this entry too makes no
TARGET check is the model's reading (log 22). -/
def Obligations.TrapReturnRestores : Prop :=
  ∀ s : State,
    (s.hart.priv = false → exec .tret s = s.trap { cause := 8, sub := 3, val := 0 }) ∧
    (s.hart.priv = true → bit s.hart.origin 62 = false →
      let q := s.commitChunk
      let back (u : State) : State := u.modHart fun h => { h with status := statusReturn h.status }
      (∀ x line, fetchLine (back q) s.hart.tpc = .ok (x, line) → entryOk (slotsOf line) (slotIx s.hart.tpc) false = true →
        ∃ t, exec .tret s = .next t ∧ t.signal = .done ∧ t.hart.npc = s.hart.tpc ∧ t.hart.entry = .inLine ∧
          (∀ n, n < 64 → bit t.hart.status n =
            if n = 0 then bit s.hart.status 3 else if n = 1 then bit s.hart.status 2 else bit s.hart.status n) ∧
          (∀ k r, t.reg k r = q.reg k r)) ∧
      (∀ x line, fetchLine (back q) s.hart.tpc = .ok (x, line) → entryOk (slotsOf line) (slotIx s.hart.tpc) false = false →
        exec .tret s = q.trap { cause := 4, val := s.hart.tpc }) ∧
      (∀ e, fetchLine (back q) s.hart.tpc = .error e →
        ∃ t, exec .tret s = .next t ∧ t.signal = .done ∧ t.hart.npc = s.hart.tpc ∧ t.hart.entry = .jump false)) ∧
    (s.hart.priv = true → bit s.hart.origin 62 = true →
      exec .tret s = ((s.commitChunk.modHart fun h => { h with status := statusReturn h.status }).quiesce.returnToRoot
        s.hart.tpc (.jump false)).ok)

/-- O14. TRAP and DBG complete; their trap follows the bundle, so the next step of the furrow is trap entry with
cause 0x14 or 0x13 and TVAL n. Single step gives cause 0x13 after a bundle that began in user mode, unless TRAP or
DBG already asks for a trap (R113). That this trap comes ahead of everything else of the next bundle is the model's choice
(log 97). -/
def Obligations.TrapWordsFollowTheirBundle : Prop :=
  (∀ n (s : State), exec (.trap n) s = .next { s with
    hart := { s.hart with after := some { cause := 0x14, sub := 0, val := n.setWidth 64 } }, signal := .done }) ∧
  (∀ n (s : State), exec (.dbg n) s = .next { s with
    hart := { s.hart with after := some { cause := 0x13, sub := 1, val := n.setWidth 64 } }, signal := .done }) ∧
  (∀ (s : State) sw began, (s.finish sw began).hart.after =
    if s.hart.after.isSome then s.hart.after
    else if s.hart.sstep && !began && s.hart.run == .running then some { cause := 0x13 } else none) ∧
  ∀ s rest i, s.agenda = .bundle :: rest → s.err = 0 → s.hart.id ≠ 0 → s.hart.run = .running → s.hart.moving = false →
    s.hart.chunk.conflict = false → s.hart.parts = none → s.hart.after = some i →
    let u : State := { s.advance with agenda := rest }
    step s = u.heldBack .bundle (u.trap i)

/-- O15. At a bundle that decodes and may execute where it stands, with no trap of the bundle before it pending, the cancel
trap has cause 0x12 and comes once (R321), and the timer trap, due while TMR is not 0, IE is 1 and CYC has reached TMR,
has cause 0x11 and TVAL CYC (R120); a cancel that is due comes first, and both come before the words (R84, R328). Neither
event exists while a trap of the bundle before is pending (log 97), while the open chunk is to be squashed, while the slot cannot be fetched, decoded
or executed here, or while it is not due. A RECVW ahead of its SENDE puts them off (log 8). -/
def Obligations.AsynchronousTraps : Prop :=
  (∀ (s : State) f b, AtBundle s f b → Executes s b →
    (CancelDue s →
      exec .cancelTrap s = .next ((s.modHart fun h => { h with cancel := false }).takeTrap { cause := 0x12 }) ∧
      exec .timerTrap s = .fault .notEnabled) ∧
    (TimerDue s → ¬ CancelDue s → exec .timerTrap s = .next (s.takeTrap { cause := 0x11, val := s.cyc }))) ∧
  (∀ s : State, ¬ CancelDue s → exec .cancelTrap s = .fault .notEnabled) ∧
  (∀ s : State, ¬ TimerDue s → exec .timerTrap s = .fault .notEnabled) ∧
  (∀ s : State, (s.hart.after ≠ none ∨ s.hart.id = 0 ∨ s.hart.run ≠ .running ∨ s.hart.moving = true ∨
      s.hart.chunk.conflict = true ∨ (∃ e, s.fetchBundle = .error e) ∨ (∃ f e, s.fetchBundle = .ok f ∧ Decode.slot f.slot f.lit = .error e) ∨
      ∃ f b, s.fetchBundle = .ok f ∧ Decode.slot f.slot f.lit = .ok b ∧ ¬ Executes s b) →
    exec .timerTrap s = .fault .notEnabled ∧ exec .cancelTrap s = .fault .notEnabled) ∧
  ∀ s rest f b, s.agenda = .bundle :: rest → AtBundle { s.advance with agenda := rest } f b → Executes f.st b →
    let q : State := { s.advance with agenda := rest }
    (CancelDue f.st → step s =
      q.heldBack .bundle (.next ((f.st.modHart fun h => { h with cancel := false }).takeTrap { cause := 0x12 }))) ∧
    (TimerDue f.st → ¬ CancelDue f.st → step s = q.heldBack .bundle (.next (f.st.takeTrap { cause := 0x11, val := f.st.cyc })))

/-- O16. In user mode, a privileged register or instruction raises the protection trap with SUB 3 and TVAL the
register number (R27, R118, R271, R338, R339), on a core that has the register. -/
def Obligations.UserModeIsProtected : Prop :=
  ∀ s : State, s.hart.priv = false →
    (∀ d i, s.sysExists i.toNat = true → userReads i.toNat = false →
      exec (.mfs d i) s = s.trap { cause := 8, sub := 3, val := BitVec.ofNat 64 i.toNat }) ∧
    (∀ i a, s.sysExists i.toNat = true → userWrites i.toNat = false →
      exec (.mts i a) s = s.trap { cause := 8, sub := 3, val := BitVec.ofNat 64 i.toNat }) ∧
    (s.hart.root = none → ∀ a,
      exec (.tlbinv a) s = s.trap { cause := 8, sub := 3, val := 0x063 } ∧
      exec (.cxsave a) s = s.trap { cause := 8, sub := 3, val := 0x0A0 } ∧
      exec (.cxload a) s = s.trap { cause := 8, sub := 3, val := 0x0A1 })

/-- O17. NOP, YIELD and VNOP change nothing that a program can see (R112, R115, R80); CHEND ends the chunk and does
nothing else (R112, R282). The chunks of members that wait for a SENDE stay open (log 8). -/
def Obligations.WordsWithoutEffect : Prop :=
  ∀ s : State,
    exec .nop s = .next { s with signal := .done } ∧ exec .yield s = .next { s with signal := .done } ∧
    exec .vnop s = .next { s with signal := .done } ∧ exec .chend s = .next { s.commitChunk with signal := .done } ∧
    (s.hart.owed = [] → s.commitChunk.hart.chunk = {}) ∧ (rising s.ckpts = true → lookup s.commitChunk.ckpts s.hart.id = none) ∧
    ∀ k r, s.commitChunk.reg k r = s.reg k r


/-! ### Scalar arithmetic -/

/-- O18. The two-operand ALU functions on 64-bit values, wrapping modulo 2^64, with shift counts of six bits, in
every member; every other register and all other state stay (R90, R92, Table 04.2). -/
def Obligations.IntegerResults : Prop :=
  ∀ (s : State) (d a b : Reg),
    let x i := s.reg i a
    let y i := s.reg i b
    Writes s d (fun i => BitVec.ofNat 64 ((x i).toNat + (y i).toNat)) (exec (.add d a b) s) ∧
    Writes s d (fun i => BitVec.ofInt 64 ((x i).toInt - (y i).toInt)) (exec (.sub d a b) s) ∧
    (∃ v, Writes s d v (exec (.and d a b) s) ∧ ∀ i n, n < 64 → bit (v i) n = (bit (x i) n && bit (y i) n)) ∧
    (∃ v, Writes s d v (exec (.or d a b) s) ∧ ∀ i n, n < 64 → bit (v i) n = (bit (x i) n || bit (y i) n)) ∧
    (∃ v, Writes s d v (exec (.xor d a b) s) ∧ ∀ i n, n < 64 → bit (v i) n = (bit (x i) n != bit (y i) n)) ∧
    Writes s d (fun i => BitVec.ofNat 64 ((x i).toNat * 2 ^ ((y i).toNat % 64))) (exec (.sll d a b) s) ∧
    Writes s d (fun i => BitVec.ofNat 64 ((x i).toNat / 2 ^ ((y i).toNat % 64))) (exec (.srl d a b) s) ∧
    Writes s d (fun i => BitVec.ofInt 64 ((x i).toInt / 2 ^ ((y i).toNat % 64))) (exec (.sra d a b) s) ∧
    Writes s d (fun i => if (x i).toInt < (y i).toInt then 1 else 0) (exec (.slt d a b) s) ∧
    Writes s d (fun i => if (x i).toNat < (y i).toNat then 1 else 0) (exec (.sltn d a b) s) ∧
    Writes s d (fun i => BitVec.ofInt 64 (min (x i).toInt (y i).toInt)) (exec (.min d a b) s) ∧
    Writes s d (fun i => BitVec.ofInt 64 (max (x i).toInt (y i).toInt)) (exec (.max d a b) s) ∧
    Writes s d (fun i => BitVec.ofNat 64 (min (x i).toNat (y i).toNat)) (exec (.minn d a b) s) ∧
    Writes s d (fun i => BitVec.ofNat 64 (max (x i).toNat (y i).toNat)) (exec (.maxn d a b) s)

/-- O19. CLZ, CTZ and POPC count the leading zeros, the trailing zeros and the ones; 64 for a zero (R92). -/
def Obligations.BitCountResults : Prop :=
  ∀ (s : State) (d a : Reg),
    (∃ v : Nat → Nat, Writes s d (fun i => BitVec.ofNat 64 (v i)) (exec (.clz d a) s) ∧ ∀ i, v i ≤ 64 ∧
      (∀ n, 64 - v i ≤ n → n < 64 → bit (s.reg i a) n = false) ∧ (v i < 64 → bit (s.reg i a) (63 - v i) = true)) ∧
    (∃ v : Nat → Nat, Writes s d (fun i => BitVec.ofNat 64 (v i)) (exec (.ctz d a) s) ∧ ∀ i, v i ≤ 64 ∧
      (∀ n, n < v i → bit (s.reg i a) n = false) ∧ (v i < 64 → bit (s.reg i a) (v i) = true)) ∧
    Writes s d (fun i => BitVec.ofNat 64 ((List.range 64).countP fun n => bit (s.reg i a) n)) (exec (.popc d a) s)

/-- O20. EXT: the field of s(A) from bit lsb = s(B)[5:0] on, of wid = s(B)[13:8] + 1 bits, with bits above bit 63 read
as zero and, where s(B)[15] is set, the highest bit taken copied upward (R93). -/
def Obligations.FieldExtract : Prop :=
  ∀ (s : State) (d a b : Reg), ∃ v, Writes s d v (exec (.ext d a b) s) ∧
    ∀ i n, n < 64 →
      let lsb := (s.reg i b).toNat % 64
      let wid := (s.reg i b).toNat / 256 % 64 + 1
      let top := min wid (64 - lsb) - 1
      bit (v i) n =
        if n ≤ top then bit (s.reg i a) (lsb + n)
        else if bit (s.reg i b) 15 then bit (s.reg i a) (lsb + top) else false

/-- O21. The immediate forms compute the ALU function with the immediate sign-extended; SHI shifts by its count; LIS
sign-extends 18 bits and LI takes the literal (R95, R96). -/
def Obligations.ImmediateResults : Prop :=
  ∀ (s : State) (d a : Reg) (imm : BitVec 12),
    let x i := s.reg i a
    let y : Word := BitVec.ofInt 64 imm.toInt
    Writes s d (fun i => BitVec.ofInt 64 ((x i).toInt + imm.toInt)) (exec (.addi d a imm) s) ∧
    (∃ v, Writes s d v (exec (.andi d a imm) s) ∧ ∀ i n, n < 64 → bit (v i) n = (bit (x i) n && bit y n)) ∧
    (∃ v, Writes s d v (exec (.ori d a imm) s) ∧ ∀ i n, n < 64 → bit (v i) n = (bit (x i) n || bit y n)) ∧
    (∃ v, Writes s d v (exec (.xori d a imm) s) ∧ ∀ i n, n < 64 → bit (v i) n = (bit (x i) n != bit y n)) ∧
    Writes s d (fun i => if (x i).toInt < imm.toInt then 1 else 0) (exec (.slti d a imm) s) ∧
    Writes s d (fun i => if (x i).toNat < y.toNat then 1 else 0) (exec (.sltin d a imm) s) ∧
    (∀ n : BitVec 6,
      Writes s d (fun i => BitVec.ofNat 64 ((x i).toNat * 2 ^ n.toNat)) (exec (.shi .sll d a n) s) ∧
      Writes s d (fun i => BitVec.ofNat 64 ((x i).toNat / 2 ^ n.toNat)) (exec (.shi .srl d a n) s) ∧
      Writes s d (fun i => BitVec.ofInt 64 ((x i).toInt / 2 ^ n.toNat)) (exec (.shi .sra d a n) s)) ∧
    (∀ k : BitVec 18, Writes s d (fun _ => BitVec.ofInt 64 k.toInt) (exec (.lis d k) s)) ∧
    ∀ lit, Writes s d (fun _ => lit) (exec (.li d lit) s)

/-- O22. Products, quotients and remainders, delivered asynchronously; a division by zero gives all ones and the
dividend, and the signed overflow gives −2^63 and 0 (R94, Table 04.3). -/
def Obligations.MultiplyDivideResults : Prop :=
  ∀ (s : State) (d a b : Reg),
    let x i := s.reg i a
    let y i := s.reg i b
    Delivers s d (fun i => BitVec.ofInt 64 ((x i).toInt * (y i).toInt)) (exec (.mul d a b) s) ∧
    (∃ v, Delivers s d v (exec (.mulh d a b) s) ∧ ∀ i,
      (v i).toInt * 2 ^ 64 + ((x i * y i).toNat : Int) = (x i).toInt * (y i).toInt) ∧
    (∃ v, Delivers s d v (exec (.mulhn d a b) s) ∧ ∀ i,
      (v i).toNat * 2 ^ 64 + (x i * y i).toNat = (x i).toNat * (y i).toNat) ∧
    (∃ q r, Delivers s d q (exec (.div d a b) s) ∧ Delivers s d r (exec (.rem d a b) s) ∧ ∀ i,
      (y i = 0 → q i = BitVec.allOnes 64 ∧ r i = x i) ∧
      (y i ≠ 0 → x i = q i * y i + r i) ∧
      ((x i).toInt = -(2 ^ 63) → (y i).toInt = -1 → (q i).toInt = -(2 ^ 63) ∧ r i = 0) ∧
      (y i ≠ 0 → ¬((x i).toInt = -(2 ^ 63) ∧ (y i).toInt = -1) →
        (x i).toInt = (q i).toInt * (y i).toInt + (r i).toInt ∧ (r i).toInt.natAbs < (y i).toInt.natAbs ∧
        (r i = 0 ∨ ((r i).toInt < 0 ↔ (x i).toInt < 0)))) ∧
    ∃ q r, Delivers s d q (exec (.divn d a b) s) ∧ Delivers s d r (exec (.remn d a b) s) ∧ ∀ i,
      (y i = 0 → q i = BitVec.allOnes 64 ∧ r i = x i) ∧
      (y i ≠ 0 → (x i).toNat = (q i).toNat * (y i).toNat + (r i).toNat ∧ (r i).toNat < (y i).toNat)

/-- O23. FALU takes the f32 in bits [31:0] of its sources and delivers the exact result rounded to f32 under RNE, bits
[63:32] zero; FMA adds the product to the old s(D) with one rounding (R97, Table 04.4, R49 to R54). The rounding `rnd` to a
floating-point format gives the representable value that the mode selects among the two neighbours, ties to even, the
overflow results of R50 and the canonical NaN; to an integer format, the rounded integer wrapped, or clamped under SAT,
0 for NaN and the ends of the range for the infinities (R51). The operations before it are exact, with the zeros and special
values of R52 and R53. -/
def Obligations.FloatResults : Prop :=
  (∀ x y, Denominated x → Denominated y → (∀ rm, SumOf rm x y (.add rm x y)) ∧ ProductOf x y (.mul x y) ∧
    QuotientOf x y (.div x y) ∧ RootOf x x.sqrt ∧ ExtremeOf false x y (.min x y) ∧ ExtremeOf true x y (.max x y)) ∧
  (∀ (f : Fmt) (rm : Nat) (sat : Bool), f.isInt = false → rm < 4 →
    rnd f rm sat .nan = f.nanBits ∧
    (∀ g, rnd f rm sat (.inf g) = if sat then f.maxBits g else if f = .e4m3 then f.nanBits else f.infBits g) ∧
    (∀ g (d : Nat), 0 < d → rnd f rm sat (.fin g 0 d) = f.signBit g) ∧
    ∀ g (n d : Nat), 0 < n → 0 < d →
      let x : ℚ := (Ex.snum g n : ℚ) / d
      let top : ℚ := f.maxFinite
      let exceeds : Prop := (rm = 0 ∧ top + f.halfUlp ≤ |x|) ∨ (rm = 2 ∧ x < -top) ∨ (rm = 3 ∧ top < x)
      (exceeds → rnd f rm sat (.fin g n d) = if sat then f.maxBits g else if f = .e4m3 then f.nanBits else f.infBits g) ∧
      (¬ exceeds → top < |x| → rnd f rm sat (.fin g n d) = f.maxBits g) ∧
      (|x| ≤ top → Selects f rm x (rnd f rm sat (.fin g n d)))) ∧
  (∀ (f : Fmt) (rm : Nat) (sat : Bool), f.isInt = true → rm < 4 →
    rnd f rm sat .nan = 0 ∧
    (∀ g, rnd f rm sat (.inf g) = ((if g then f.minInt else f.maxInt) % 2 ^ f.width).toNat) ∧
    ∀ g (n d : Nat), 0 < d → ∃ k : Int, RoundsTo rm ((Ex.snum g n : ℚ) / d) k ∧
      rnd f rm sat (.fin g n d) = ((if sat then max f.minInt (min f.maxInt k) else k) % 2 ^ f.width).toNat) ∧
  ∀ (s : State) (d a b : Reg),
    let x i := Fmt.f32.decode ((s.reg i a).toNat % 2 ^ 32)
    let y i := Fmt.f32.decode ((s.reg i b).toNat % 2 ^ 32)
    let z i := Fmt.f32.decode ((s.reg i d).toNat % 2 ^ 32)
    let out (f : Nat → Ex) (r : Result) : Prop :=
      ∃ v, Delivers s d v r ∧ ∀ i, (v i).toNat = rnd .f32 0 false (f i) ∧ (v i).toNat < 2 ^ 32
    out (fun i => .add 0 (x i) (y i)) (exec (.fadd d a b) s) ∧
    out (fun i => .add 0 (x i) (y i).negate) (exec (.fsub d a b) s) ∧
    out (fun i => .mul (x i) (y i)) (exec (.fmul d a b) s) ∧
    out (fun i => .add 0 (z i) (.mul (x i) (y i))) (exec (.fma d a b) s) ∧
    out (fun i => .min (x i) (y i)) (exec (.fmin d a b) s) ∧ out (fun i => .max (x i) (y i)) (exec (.fmax d a b) s) ∧
    out (fun i => .div (x i) (y i)) (exec (.fdiv d a b) s) ∧ out (fun i => (x i).sqrt) (exec (.fsqrt d a) s) ∧
    out (fun i => (x i).abs) (exec (.fabs d a) s) ∧ out (fun i => (x i).negate) (exec (.fneg d a) s)

/-- O24. FCMP delivers 1, 2, 4 or 8 as a < b, a = b, a > b, or one of them is NaN, on exact values (R98). -/
def Obligations.FloatCompare : Prop :=
  ∀ (s : State) (d a b : Reg), ∃ v, Delivers s d v (exec (.fcmp d a b) s) ∧ ∀ i,
    match valueOf (f32Of (s.reg i a)), valueOf (f32Of (s.reg i b)) with
    | some x, some y => (x < y → v i = 1) ∧ (x = y → v i = 2) ∧ (y < x → v i = 4)
    | _, _ => v i = 8

/-- O25. FCVT: to an integer, the nearest (ties to even) or the integer part, clamped to the destination, 0 for NaN;
to f32, the exact integer rounded under RNE; `.rint` gives the nearest integral value (R99), with the operand's sign where it
is zero (log 15). -/
def Obligations.FloatConversions : Prop :=
  ∀ (s : State) (d a : Reg),
    let w i := s.reg i a
    let near (q : ℚ) (z : Int) : Prop := |(z : ℚ) - q| ≤ 1 / 2 ∧ (|(z : ℚ) - q| = 1 / 2 → z % 2 = 0)
    let part (q : ℚ) (z : Int) : Prop := (z : ℚ) * z ≤ q * z ∧ |q| < |(z : ℚ)| + 1
    let toInt (lo hi : Int) (sel : ℚ → Int → Prop) (v : Int) : Ex → Prop
      | .nan => v = 0
      | .inf n => v = if n then lo else hi
      | .fin n k e => ∃ z, sel ((Ex.snum n k : ℚ) / e) z ∧ v = max lo (min hi z)
    (∃ v, Delivers s d v (exec (.fcvt .f2i d a) s) ∧ ∀ i, toInt (-(2 ^ 63)) (2 ^ 63 - 1) near (v i).toInt (f32Of (w i))) ∧
    (∃ v, Delivers s d v (exec (.fcvt .f2n d a) s) ∧ ∀ i, toInt 0 (2 ^ 64 - 1) near (v i).toNat (f32Of (w i))) ∧
    (∃ v, Delivers s d v (exec (.fcvt .f2it d a) s) ∧ ∀ i, toInt (-(2 ^ 63)) (2 ^ 63 - 1) part (v i).toInt (f32Of (w i))) ∧
    (∃ v, Delivers s d v (exec (.fcvt .f2nt d a) s) ∧ ∀ i, toInt 0 (2 ^ 64 - 1) part (v i).toNat (f32Of (w i))) ∧
    Delivers s d (fun i => BitVec.ofNat 64 (rnd .f32 0 false (.ofInt (w i).toInt))) (exec (.fcvt .i2f d a) s) ∧
    Delivers s d (fun i => BitVec.ofNat 64 (rnd .f32 0 false (.ofInt (w i).toNat))) (exec (.fcvt .n2f d a) s) ∧
    ∃ v, Delivers s d v (exec (.fcvt .rint d a) s) ∧ ∀ i, match f32Of (w i) with
      | .nan => v i = 0x7FC00000
      | .inf n => v i = if n then 0xFF800000 else 0x7F800000
      | .fin n k e => ∃ z, near ((Ex.snum n k : ℚ) / e) z ∧ v i = BitVec.ofNat 64 (rnd .f32 0 false (.fin n z.natAbs 1))

/-- O26. An outstanding result that arrives is in its register, whatever single-cycle result came before it, and no
other register changes (R73, R74); one that is not outstanding does not arrive. -/
def Obligations.AsynchronousResultArrives : Prop :=
  ∀ (s : State) (i k : Nat),
    (∀ r v, (s.hart.member i).pend[k]? = some (r, v) →
      ∃ t, exec (.asyncResultWrite i k) s = .next t ∧ OnlyScalars s t ∧
        lookup (t.hart.member i).regs r = some v ∧
        (t.hart.member i).pend = (s.hart.member i).pend.eraseIdx k ∧
        (∀ q, q ≠ r → lookup (t.hart.member i).regs q = lookup (s.hart.member i).regs q) ∧
        ∀ j, j ≠ i → t.hart.member j = s.hart.member j) ∧
    ((s.hart.member i).pend[k]? = none → exec (.asyncResultWrite i k) s = .fault .notEnabled)

/-! ### System words and system registers -/

/-- O27. END on a tiller stops the unit: the furrow issues nothing more, its chunk is committed, its queues are
released, data still under way into a queue is discarded, its links and vector links are gone, and its registers
stay (R116, R146, R149); the unit is complete once its work has drained. Where a RECVW stands ahead of its SENDE the
module goes back to that RECVW (R209, log 8). On a root core the thread is over: STATE is 0 and no microprogram runs; its RSTART ends OK, or
FAULT with operand 4 and the cause where the DONE flag cannot be written (R361, Table 08.2). The flags are written
with the thread's own rights (log 18), and not on an IO page (log 31). -/
def Obligations.EndStopsTheUnit : Prop :=
  (∀ s : State, s.hart.root = none → s.hart.owed = [] →
    ∃ t, exec .endUnit s = .next t ∧ t.signal = .done ∧ t.hart.run = .ending ∧ t.hart.qst = 0 ∧ t.hart.chunk = {} ∧
      (∀ k, (t.hart.member k).link = none) ∧ (∀ p ∈ t.vlinks, ∀ m ∈ s.hart.members, p.1 ≠ m.tile) ∧
      (∀ o ∈ t.hart.vops, ∀ q, o.kind = .ldq q → o.discard = true) ∧ (∀ k r, t.reg k r = s.reg k r) ∧
      t.hart.status = s.hart.status ∧ t.hart.pc = s.hart.pc ∧ t.hart.npc = s.hart.npc) ∧
  (∀ s : State, s.hart.root = none → s.hart.owed ≠ [] → exec .endUnit s = .next (s.goBack s.hart.seen)) ∧
  ∀ (s : State) g, s.hart.root = some g →
    ∃ t, exec .endUnit s = .next t ∧ t.signal = .done ∧ t.hart = Hart.absent ∧
      (t.rootOf g).state = 0 ∧ (t.rootOf g).prog = none ∧ (t.rootOf g).rstart = none ∧
      ∀ id, (s.rootOf g).rstart = some id → ∀ o ∈ t.ops, o.id = id →
        ((s.rootOf g).flaga = 0 → o.ended = some { code := 1 }) ∧
        (o.ended = some { code := 1 } ∨ ∃ c, o.ended = some { code := 3, sub := c, opnd := 4 })

/-- O28. WAITA reads the doubleword at s(A) of member 0. Where it equals s(B), WAITA completes; where it does not,
the furrow parks on the sector (R117). It checks as a read of size 8, an IO page is refused, and an engine command or a
row microprogram that holds the address back makes it wait (R142, R365). On a write-back page the read is coherent, so a copy
that another tiller holds dirty is written back (R254, R278). How a wait shows is log 7. -/
def Obligations.WaitaReadsAndParks : Prop :=
  (∀ (s : State) (a b : Reg) e, s.checkWaita (s.reg0 a) = .error e → exec (.waita a b) s = s.trap e) ∧
  (∀ (s : State) (a b : Reg) (acc : MAcc), s.checkWaita (s.reg0 a) = .ok acc → s.engineHolds [acc] 8 false = true →
    ∃ t, exec (.waita a b) s = .next t ∧ t.signal = .stalled ∧ t.mem = s.mem ∧ ∀ k r, t.reg k r = s.reg k r) ∧
  ∀ (s : State) (a b : Reg) (acc : MAcc), s.checkWaita (s.reg0 a) = .ok acc → s.engineHolds [acc] 8 false = false →
    let q0 := (s.commitChunk.joinScalar [acc] 8 false).use 0 acc.x false
    let q := if acc.x.wb then q0.readCoherent (q0.hart.member 0).tile acc.x.pa 8 else q0
    acc.ea = s.reg0 a ∧ acc.i = 0 ∧ acc.x.io = false ∧ acc.ea.toNat % 8 = 0 ∧
    (q.peekWord acc.x.pa = s.reg0 b → ∃ t, exec (.waita a b) s = .next t ∧ t.signal = .done ∧
      t.mem = q.mem ∧ t.hart = q.hart) ∧
    (q.peekWord acc.x.pa ≠ s.reg0 b →
      ∃ t, exec (.waita a b) s = .next t ∧ t.signal = .stalled ∧
        t.hart = { q.hart with woken := false, park := some (.waita (sectorOf acc.x.pa)) } ∧ t.mem = q.mem)

/-- O29. FENCE ends the chunk and waits until every vector memory instruction of the furrow has retired. A release
or full fence of scope S leaves no dirty copy of a page of narrower scope in reach of the furrow's own instance; on a
root core, S is at least the die. Scalar registers stay (R107, R108, R289). The chunks of members that wait for a SENDE stay
open (log 8). -/
def Obligations.FenceOrdersMemory : Prop :=
  ∀ (s : State) (k : FenceKind) (sc : Scope), ∃ t, exec (.fence k sc) s = .next t ∧ t.signal = .done ∧
    (s.hart.owed = [] → t.hart.chunk = {}) ∧ t.hart.vops = [] ∧ (∀ i r, t.reg i r = s.reg i r) ∧ t.hart.npc = s.hart.npc ∧
    (k ≠ .acq → ∀ m ∈ t.allMembers, ∀ l ∈ m.lines,
      l.coh < (if s.hart.root.isSome then max (Decode.scopeCode sc).toNat 3 else (Decode.scopeCode sc).toNat) →
      (∃ u ∈ t.hart.members, sameInstance l.coh u.tile m.tile = true) → l.dirty0 = false ∧ l.dirty1 = false)

/-- O30. MFS delivers the register's value to each member, late registers asynchronously and the others at once; a
number that is not assigned on the core is an illegal instruction (R27, R28, R118, Tables 01.3 to 01.5 and 06.2). That a late register is read at issue
is the model's reading (log 44), and PRIO of a root core is its choice (log 19). -/
def Obligations.SystemRegisterReads : Prop :=
  (∀ (s : State) (d : Reg) (i : BitVec 12), s.sysExists i.toNat = true →
    (s.hart.priv = true ∨ userReads i.toNat = true) →
    let n := i.toNat
    let late := n ∈ [0x13, 0x14, 0x17, 0x18, 0x91] ∨ (0x20 ≤ n ∧ n < 0x48)
    (late → Delivers s d (fun k => s.sysRead k n) (exec (.mfs d i) s)) ∧
    (¬late → Writes s d (fun k => s.sysRead k n) (exec (.mfs d i) s))) ∧
  (∀ (s : State) (d : Reg) (i : BitVec 12), s.sysExists i.toNat = false → exec (.mfs d i) s = s.illegal) ∧
  (∀ (s : State) k, s.sysRead k 0x000 = s.hart.status ∧ s.sysRead k 0x001 = s.hart.vec ∧ s.sysRead k 0x002 = s.hart.tcause ∧
    s.sysRead k 0x003 = s.hart.tpc ∧ s.sysRead k 0x004 = s.hart.tval ∧ s.sysRead k 0x005 = s.hart.tmem ∧
    s.sysRead k 0x060 = s.hart.ctx ∧ s.sysRead k 0x061 = s.hart.ptroot0 ∧ s.sysRead k 0x062 = s.hart.ptroot1 ∧
    s.sysRead k 0x063 = 0 ∧ s.sysRead k 0x070 = s.cyc ∧ s.sysRead k 0x071 = s.hart.tmr ∧ s.sysRead k 0x082 = s.hart.prio ∧
    s.sysRead k 0x0A0 = 0 ∧ s.sysRead k 0x0A1 = 0 ∧
    (s.sysRead k 0x0A2).toNat = (s.hart.member k).events.toNat * 2 ^ 32 + (s.hart.member k).groups.toNat ∧
    (∀ n < 8, s.sysRead k (0x40 + n) = (s.channel (s.hart.member k).chset n).txw ∧
      s.sysRead k (0x48 + n) = (s.channel (s.hart.member k).chset n).txn)) ∧
  (∀ (s : State) k, s.hart.root = none →
    (s.sysRead k 0x010).toNat = s.hart.vl.toNat ∧ (s.sysRead k 0x011).toNat = s.hart.vw.toNat ∧
    (s.sysRead k 0x012).toNat = s.hart.vmax.toNat ∧ (s.sysRead k 0x013).toNat = s.hart.els.toNat ∧
    (s.sysRead k 0x014).toNat = s.hart.efr.toNat ∧ s.sysRead k 0x017 = s.hart.qst ∧
    (s.sysRead k 0x015).toNat = (s.hart.member k).wmode.toNat ∧ (s.sysRead k 0x019).toNat = s.hart.axo.toNat ∧
    (s.sysRead k 0x064).toNat = (s.hart.member k).pcx.toNat ∧ (s.sysRead k 0x0A3).toNat = s.hart.lhold.toNat ∧
    (∀ n < 32, (s.sysRead k (0x20 + n)).toNat = (lookupD s.hart.hwm n 0).toNat) ∧
    (let m := s.hart.member k
     let beds := (List.range 4).countP fun p => m.wmode.toNat / 4 ^ p % 4 = 1
     (s.sysRead k 0x016).toNat = 8 * beds * 2 ^ 8 + m.live.toNat * 2 ^ 4 + m.geo.toNat ∧
     (s.sysRead k 0x080).toNat = (s.sheaf (m.tile / 8)).thw.toNat ∧
     (k < 128 → s.hart.len ≤ 128 → (s.sysRead k 0x081).toNat = k * 2 ^ 9 + b2n s.hart.ringf * 2 ^ 8 + s.hart.len) ∧
     (m.tile < 65536 → (s.sysRead k 0x083).toNat =
       (m.tile % 256 / 128 + 2 * (m.tile / 256 / 64)) * 2 ^ 16 + m.tile / 256 * 2 ^ 8 + m.tile % 256) ∧
     (m.ix.length ≤ 4 → ∀ n < 4,
       bit (s.sysRead k 0x018) (60 + n) = (match m.ix[n]? with | some p => p.drop | none => false) ∧
       field (s.sysRead k 0x018) (12 * n + 11) (12 * n) =
         (match m.ix[n]? with | some p => p.entries.length % 4096 | none => 0)))) ∧
  ∀ (s : State) k g, s.hart.root = some g →
    (∀ n ∈ [0x010, 0x011, 0x012, 0x013, 0x014, 0x017], s.sysRead k n = 0) ∧ (∀ n < 32, s.sysRead k (0x20 + n) = 0) ∧
    (s.sysRead k 0x090).toNat = (s.rootOf g).rwin.toNat ∧ (s.sysRead k 0x091).toNat = (s.rootOf g).mpc.toNat

/-- O31. MTS of a well-formed word ends the chunk and writes the fields that the register lays open, from member 0 for a
furrow register and from each member's own operand for IXST and PCX; the other fields, every read-only register and every
register other than the one written keep their values, but that VW bounds VL. VL stays within VMAX of the width, VW 3 acts
as 2, a queue field whose run passes v31 or overlaps another bound run is stored as 0, a thresher weight of 0 and an RWIN of
0 are stored as 1, and on a root core the vector registers ignore the write (R28, R30, R31, R118, R119, R181). HEAD and COUNT
of a queue beyond its depth are stored as written (log 96); an MTS that sets IE beside a pending pre-emption marks the next
bundle (log 20); PRIO of a root core is log 19. -/
def Obligations.SystemRegisterWrites : Prop :=
  (∀ (s : State) (i : BitVec 12) (a : Reg), (Instr.mts i a).wf = true → s.sysExists i.toNat = true →
    (s.hart.priv = true ∨ userWrites i.toNat = true) →
    exec (.mts i a) s = .next { s.commitChunk.sysWrite i.toNat (fun k => s.reg k a) with signal := .done }) ∧
  (∀ (s : State) (i : BitVec 12) (a : Reg), s.sysExists i.toNat = false → exec (.mts i a) s = s.illegal) ∧
  (∀ (s : State) (v : Nat → Word),
    let w n := (s.sysWrite n v).hart
    let x := v 0
    (∀ n < 64, bit (w 0x000).status n = if n ∈ [0, 1, 2, 3, 11] then bit x n else bit s.hart.status n) ∧
    (w 0x000).enabled = (bit x 1 && bit s.hart.status 4) ∧
    (∀ n < 64, bit (w 0x001).vec n = (decide (7 ≤ n ∧ n < 56) && bit x n)) ∧
    (w 0x002).tcause.toNat = x.toNat % 2 ^ 17 ∧ (∀ n < 64, bit (w 0x003).tpc n = (decide (3 ≤ n ∧ n < 56) && bit x n)) ∧
    (w 0x004).tval = x ∧ (w 0x005).tmem.toNat = x.toNat % 128 ∧ (w 0x060).ctx.toNat = x.toNat % 4096 ∧
    (∀ n < 64, bit (w 0x061).ptroot0 n = (decide (n = 0 ∨ (16 ≤ n ∧ n < 52)) && bit x n)) ∧
    (∀ n < 64, bit (w 0x062).ptroot1 n = (decide (n = 0 ∨ (16 ≤ n ∧ n < 52)) && bit x n)) ∧
    (w 0x071).tmr = x ∧ (w 0x082).prio.toNat = x.toNat % 4 ∧ (w 0x082).prioSet = true) ∧
  (∀ (s : State) (v : Nat → Word), s.hart.root = none →
    let w n := (s.sysWrite n v).hart
    let x := v 0
    (w 0x013).els.toNat = x.toNat % 2 ^ 19 ∧ (w 0x014).efr.toNat = x.toNat % 2 ^ 32 ∧
    (w 0x019).axo.toNat = x.toNat % 2 ^ 13 ∧ (w 0x0A3).lhold.toNat = x.toNat % 256 ∧
    (∀ n < 32, (lookupD (w (0x20 + n)).hwm n 0).toNat = x.toNat % 2 ^ 19) ∧
    (w 0x010).vl.toNat = min (x.toNat % 2 ^ 19) (s.hart.vmax.toNat / (s.hart.w / 8)) ∧ (w 0x010).vw = s.hart.vw ∧
    (w 0x011).vw.toNat = min (x.toNat % 4) 2 ∧
    (w 0x011).vl.toNat = min s.hart.vl.toNat (s.hart.vmax.toNat / ((w 0x011).w / 8)) ∧
    (let base q := field x (16 * q + 4) (16 * q)
     let depth q := field x (16 * q + 7) (16 * q + 5) + 1
     let bound q := bit x (16 * q + 8)
     ∀ q < 4, field (w 0x017).qst (16 * q + 15) (16 * q) =
       if 32 < base q + depth q ∨ (bound q = true ∧ ∃ r < 4, r ≠ q ∧ bound r = true ∧ base q < base r + depth r ∧
         base r < base q + depth q) then 0 else field x (16 * q + 15) (16 * q)) ∧
    (∀ k < s.hart.len, ((w 0x064).member k).pcx.toNat = (v k).toNat % 2 ^ 32) ∧
    (∀ k < s.hart.len, ∀ n (p : IxPair), (s.hart.member k).ix[n]? = some p → ((w 0x018).member k).ix[n]? =
      some { p with drop := p.drop && !bit (v k) (60 + n) }) ∧
    (∀ m ∈ s.hart.members, ∀ k < 8,
      ((s.sysWrite 0x080 v).sheaf (sheafOf m.tile)).thw.toNat / 16 ^ k % 16 = max 1 (x.toNat / 16 ^ k % 16)) ∧
    (∀ n, n ∈ [0x012, 0x015, 0x016, 0x070, 0x081, 0x083, 0x0A2] ∨ (0x40 ≤ n ∧ n < 0x50) → s.sysWrite n v = s)) ∧
  (∀ (s : State) g (v : Nat → Word), s.hart.root = some g →
    ((s.sysWrite 0x090 v).rootOf g).rwin.toNat = max 1 ((v 0).toNat % 256) ∧
    ((s.sysWrite 0x091 v).rootOf g).mpc.toNat = (v 0).toNat % 65536 ∧
    ∀ n, n ∈ [0x010, 0x011, 0x012, 0x013, 0x014, 0x017] ∨ (0x20 ≤ n ∧ n < 0x50) → s.sysWrite n v = s) ∧
  (∀ (s : State) n (v : Nat → Word) k q, q ≠ n → ¬(n = 0x011 ∧ q = 0x010) →
    (s.sysWrite n v).sysRead k q = s.sysRead k q) ∧
  ∀ (s : State) n (v : Nat → Word), (s.sysWrite n v).mem = s.mem ∧ ∀ k r, (s.sysWrite n v).reg k r = s.reg k r

/-- O32. TLBINV of a supervisor on a tiller completes. Where no other furrow runs, the translations that the value of each
member names are gone from every instance of its scope: from its tillers and root cores, its sheaves' TLBs, its blocks'
walk caches and its engines; every other translation of the furrow and of the engines stays (R271). -/
def Obligations.TranslationsInvalidated : Prop :=
  (∀ (s : State) (a : Reg), s.hart.root = none → s.hart.priv = true →
    ∃ t, exec (.tlbinv a) s = .next t ∧ t.signal = .done) ∧
  ∀ (s : State) (a : Reg), s.hart.root = none → s.hart.priv = true → s.others = [] →
    s.hart.chunk = {} → s.hart.vops = [] →
    ∃ t, exec (.tlbinv a) s = .next t ∧ t.mem = s.mem ∧ (∀ k r, t.reg k r = s.reg k r) ∧
      (∀ i < s.hart.len,
        let tile := (s.hart.member i).tile
        let v := s.reg i a
        let code := tlbScope v
        (∀ m ∈ t.allMembers, sameInstance code tile m.tile = true → ∀ e ∈ m.tlb, tlbMatches v e = false) ∧
        (∀ p ∈ t.sheaves, sheafIn code tile p.1 = true → ∀ e ∈ p.2.tlb, tlbMatches v e = false) ∧
        (∀ p ∈ t.walks, blockIn code tile p.1 = true → ∀ e ∈ p.2, tlbMatches v e = false) ∧
        (∀ p ∈ t.etlb, engineIn code tile p.1 = true → tlbMatches v p.2 = false)) ∧
      (∀ p ∈ s.etlb, (∀ i < s.hart.len, tlbMatches (s.reg i a) p.2 = false) → p ∈ t.etlb) ∧
      ∀ k e, e ∈ (s.hart.member k).tlb → (∀ i < s.hart.len, tlbMatches (s.reg i a) e = false) → e ∈ (t.hart.member k).tlb

/-- O33. CXSAVE of a supervisor on a tiller drains the furrow's chunk, vector memory and thresher commands, checks the
frame's pages and writes the frame: every field of its header and of each member's block, with KIND 0 and VST 1, the seven masks,
the vector bytes below the marks, the live tiles and the valid entries of the index pairs; registers stay. CXLOAD checks first
that the frame can be read, and then its conditions in the order of R341: a reserved field or KIND gives SUB 4, another LEN SUB 1,
the lowest member without working pairs SUB 2, the lowest whose capacity lies below its share SUB 3, and a channel set that is
named twice, held elsewhere or newer than the frame SUB 5, each with TVAL the frame's address. A frame that passes them all gives
the furrow what it holds, with VST = 0 no vectors, masks, VL, ELS, QST or marks (R336, R338 to R342, Tables 12.3 to 12.5). The
model's own choices here: member 0 is the agent that writes the frame (log 83), what a drain performs (log 42), a save that
writes part of a host sector which fails its check traps at that sector (log 79), a pair mode or geometry of 3 is loaded as
written (log 117), CXLOAD reads as far as FHDR.LEN says (log 121), and which sets count as held elsewhere (`setHeld`, log 115). -/
def Obligations.ContextSaveAndLoad : Prop :=
  ∀ (s : State) (a : Reg), s.hart.root = none → s.hart.priv = true →
    let q := s.commitChunk.drainVector.drainThresher
    let va := s.reg0 a &&& 0xFFFFFFFFFFFFF000
    let pages (k : AKind) (n : Nat) := framePages q 0 k (n / 65536 + 2) va 0 n
    let n := 0x1000 + s.hart.len * 0x29000
    (∀ l, pages .write n = .ok l →
      let runs := frameRuns q q.hart 0 true
      (∀ p ∈ headerWords q.hart, (p.1, bytesOf 8 p.2) ∈ runs) ∧ (∀ k, k < q.hart.len → BlockSaved q k runs) ∧
      (∀ o, q.saveFails l runs = some o →
        exec (.cxsave a) s = q.trap { cause := 8, sub := 4, val := va + BitVec.ofNat 64 o } ∧
          ∃ x, pageAt l o = some x ∧ q.partFails x = true) ∧
      ((q.saveFails l runs = none ∨ ∀ p ∈ l, inHost p.2.pa = false) →
        ∃ t, exec (.cxsave a) s = .next t ∧ t.signal = .done ∧ (∀ k r, t.reg k r = q.reg k r) ∧
          t.mem = ((q.usePages l runs).putRuns (.scalar (q.hart.member 0).tile) (l.map fun p => (p.1, p.2.pa)) runs).mem)) ∧
    (∀ e, pages .write n = .error e → exec (.cxsave a) s = q.trap e) ∧
    (∀ e, framePages q 0 .read 2 va 0 0x1000 = .error e → exec (.cxload a) s = q.trap e) ∧
    ∀ hd, framePages q 0 .read 2 va 0 0x1000 = .ok hd →
      let len := field (q.frameWord (hd.map fun p => (p.1, p.2.pa)) 0) 7 0
      (∀ e, pages .read (0x1000 + len * 0x29000) = .error e → exec (.cxload a) s = q.trap e) ∧
      ∀ l, pages .read (0x1000 + len * 0x29000) = .ok l →
        let fm := l.map fun p => (p.1, p.2.pa)
        let w := q.frameWord fm
        let f := q.hart.len
        let fails (sub i : Nat) : Prop :=
          exec (.cxload a) s = q.trap { cause := 0x0B, sub := sub, val := va, member := i }
        let passes : Prop := ∃ t u, exec (.cxload a) s = .next t ∧ t.signal = .done ∧
          u = (q.usePages l []).cleanPages l n ∧ HeaderLoaded u fm t.hart ∧ ∀ k, k < s.hart.len → BlockLoaded u fm t k
        let same := field (w 0) 7 0 = f
        let lacks (i : Nat) := LacksPairs q (field (w 0) 23 16) (q.hart.member i).tile
        let small (i : Nat) := bit (w 0) 13 = true ∧
          (512 * bedsOf (field (w 0) 23 16) - 4 * (q.hart.member i).groups.toNat) / 32 < field (w (blockAt i + 0x298)) 15 0
        let detached : Prop := ∀ i < f, ∀ j < f, let set (i : Nat) := field (w (blockAt i + 0x280)) 31 0
          (set i = set j → i = j) ∧ q.setHeld (set i) (q.hart.members.map fun m => m.tile) = false ∧
            ∀ c < 8, (q.channel (set i) c).txn = w (blockAt i + 0x200 + 8 * c)
        (FrameReserved w → fails 4 0) ∧ (¬ FrameReserved w → ¬ same → fails 1 0) ∧
        (¬ FrameReserved w → same →
          (∀ i < f, lacks i → (∀ j < i, ¬ lacks j) → fails 2 i) ∧
          ((∀ i < f, ¬ lacks i) →
            (∀ i < f, small i → (∀ j < i, ¬ small j) → fails 3 i) ∧
            ((∀ i < f, ¬ small i) → (¬ detached → fails 5 0) ∧ (detached → passes))))

/-! ### Scalar memory -/

/-- O34. Where every member's access passes its checks and no engine command holds it back, a load completes and leaves
every other register; where the walk for it conflicts with the open chunk, the chunk is squashed and the load with it. Each
member receives the bytes at its own address as it sees them, lowest address first, sign-extended or
zero-extended, and no byte of memory changes but the ACC bits of the translation; a UC access stands outside every
chunk (R100, R101, R103, R269, R283). The values of several members are stated where their translations already have ACC set.
That the accesses of the members are made one after another in this one step is log 93; that members ahead of a SENDE keep
their chunks (`Hart.ahead`) is log 8. -/
def Obligations.ScalarLoads : Prop :=
  ∀ (s : State) (p : Policy) (d a b : Reg) (o : BitVec 10), ∀ f ∈ loadForms s p d a b o,
    (∀ as, checkAll (fun k => (s.checkAccess k .read (f.ea k) f.size).map fun x => ⟨k, f.ea k, x⟩) s.ids = .ok as →
      s.engineHolds as f.size false = false →
      let u := (s.joinScalar as f.size false).useAll (fun _ => false) as
      (u.hart.chunk.conflict = true → exec f.instr s = .next u.squash) ∧
      (u.hart.chunk.conflict = false →
        ∃ t, exec f.instr s = .next t ∧ t.signal = .done ∧ (∀ k r, r ≠ d → t.reg k r = s.reg k r) ∧
          t.hart.status = s.hart.status ∧ t.hart.npc = s.hart.npc)) ∧
    (∀ as, checkAll (fun k => (s.checkAccess k .read (f.ea k) f.size).map fun x => ⟨k, f.ea k, x⟩) s.ids = .ok as →
      s.engineHolds as f.size false = false → s.hart.vops = [] → Accessed s.mem as → s.hart.chunk.conflict = false →
      let value (bs : List Byte) : Word := if f.signed then (BitVec.ofNat (8 * f.size) (ofBytes bs)).signExtend 64
        else BitVec.ofNat 64 (ofBytes bs)
      let pend (i : Nat) (v : Word) := (s.hart.member i).pend ++ (if d = 0 then [] else [(d.toNat, v)])
      ((∀ c ∈ as, c.x.wb = true ∧ OneChunk s.hart c.i (sectorOf c.x.pa) false) →
        ∃ t, exec f.instr s = .next t ∧ t.mem = s.mem ∧
          ∀ c ∈ as, (t.hart.member c.i).pend = pend c.i (value (s.viewBytes c.i c.x.pa f.size))) ∧
      ((∀ c ∈ as, c.x.wb = false ∧ inRegs c.x.pa = false) → as ≠ [] →
        ∃ t, exec f.instr s = .next t ∧ t.mem = s.commitChunk.mem ∧
          ∀ c ∈ as, (t.hart.member c.i).pend = pend c.i (value (s.commitChunk.peekBytes c.x.pa f.size)))) ∧
    ∀ x, s.hart.len = 1 → s.hart.vops = [] → Memory.wf s.mem = true →
      s.checkAccess 0 .read (f.ea 0) f.size = .ok x → s.engineHolds [⟨0, f.ea 0, x⟩] f.size false = false →
      let u := s.use 0 x false
      u.hart.chunk.conflict = false →
      let value (bs : List Byte) : Word := if f.signed then (BitVec.ofNat (8 * f.size) (ofBytes bs)).signExtend 64
        else BitVec.ofNat 64 (ofBytes bs)
      let pend (v : Word) := (s.hart.member 0).pend ++ (if d = 0 then [] else [(d.toNat, v)])
      (x.wb = true → OneChunk u.hart 0 (sectorOf x.pa) false →
        ∃ t, exec f.instr s = .next t ∧ (t.hart.member 0).pend = pend (value (u.viewBytes 0 x.pa f.size)) ∧
          t.hart.chunk.wbuf = s.hart.chunk.wbuf ∧ KeepsBytes s.mem t.mem fun q => q ∈ x.marks) ∧
      (x.wb = false →
        let u := u.commitChunk
        ∃ t, exec f.instr s = .next t ∧ t.mem = u.mem ∧ (s.hart.owed = [] → t.hart.chunk = {}) ∧
          (t.hart.member 0).pend = pend (value (if inRegs x.pa then u.readReg x.pa f.size else u.peekBytes x.pa f.size)))

/-- O35. The first member whose access fails a check decides the trap: an address outside the space or a failed walk
is the page fault of the access, and a misaligned address the alignment trap, with TVAL the address and the member
in TMEM (R101, R329, Table 12.2). Where no cached translation takes part, the walk reads an entry of each level,
8192 to a node (R264): the root that VA[55] selects must be valid (SUB 1), an entry must lie in HBM and in no mapped-out pseudo-channel (SUB 3; the latter is log 122), an entry
must be valid (SUB 0), a level-1 leaf must be aligned; and the leaf, one that no CONTIG group holds, decides the
access (R265 to R267). Which stale translations there are is log 35. -/
def Obligations.ScalarAccessTraps : Prop :=
  (∀ (s : State) (p : Policy) (d a b : Reg) (o : BitVec 10) k e, k < s.hart.len →
    (∀ f ∈ loadForms s p d a b o,
      (∀ j < k, ∃ x, s.checkAccess j .read (f.ea j) f.size = .ok x) → s.checkAccess k .read (f.ea k) f.size = .error e →
      exec f.instr s = s.trap e) ∧
    ∀ f ∈ storeForms s p d a b o,
      (∀ j < k, ∃ x, s.checkStore f.size f.ea j = .ok x) → s.checkStore f.size f.ea k = .error e →
      exec f.instr s = s.trap e) ∧
  (∀ (s : State) i (k : AKind) (ea : Word) size,
    (ea.toNat / 2 ^ 56 ≠ 0 → s.checkAccess i k ea size = .error { cause := k.cause, val := ea, member := i }) ∧
    (ea.toNat / 2 ^ 56 = 0 → ea.toNat % size ≠ 0 → s.checkAccess i k ea size = .error { cause := 3, val := ea, member := i }) ∧
    (ea.toNat / 2 ^ 56 = 0 → ea.toNat % size = 0 → ∀ c sub, s.xlat i k ea = .error (c, sub) →
      s.checkAccess i k ea size = .error { cause := c, sub := sub, val := ea, member := i }) ∧
    ((k = .read → k.cause = 5) ∧ (k = .write → k.cause = 6))) ∧
  ∀ (s : State) (t : TCtx) (k : AKind) (va : Word), t.cands = [] → k ≠ .hint → k ≠ .look →
    let r := translate s t k va
    let root := if bit va 55 then t.pt1 else t.pt0
    let node (e : Word) := field e 51 16 * 65536
    let stands (n a : Nat) : Prop := inHbm n = true ∧ s.reserved a = false
    let a2 := node root + 8 * field va 54 42
    let e2 := s.peekWord a2
    let a1 := node e2 + 8 * field va 41 29
    let e1 := s.peekWord a1
    let a0 := node e1 + 8 * field va 28 16
    let e0 := s.peekWord a0
    (va.toNat / 2 ^ 56 ≠ 0 → r = .error (k.cause, 0)) ∧
    (va.toNat / 2 ^ 56 = 0 →
      (bit root 0 = false → r = .error (k.cause, 1)) ∧
      (bit root 0 = true → ¬ stands (node root) a2 → r = .error (k.cause, 3)) ∧
      (bit root 0 = true → stands (node root) a2 →
        (bit e2 0 = false ∨ (bit e2 0 = true ∧ field e2 3 1 ≠ 0) → r = .error (k.cause, 0)) ∧
        (IsPointer e2 → ¬ stands (node e2) a1 → r = .error (k.cause, 3)) ∧
        (IsPointer e2 → stands (node e2) a1 →
          (bit e1 0 = false → r = .error (k.cause, 0)) ∧
          (IsLeaf e1 → field e1 51 16 % 8192 ≠ 0 → r = .error (k.cause, 0)) ∧
          (IsLeaf e1 → field e1 51 16 % 8192 = 0 → LeafGives s t.priv k a1 e1 (node e1 + va.toNat % 2 ^ 29) r) ∧
          (IsPointer e1 → ¬ stands (node e1) a0 → r = .error (k.cause, 3)) ∧
          (IsPointer e1 → stands (node e1) a0 →
            (∀ j < 32, bit (s.peekWord (a0 / 256 * 256 + 8 * j)) 0 = false ∨
              bit (s.peekWord (a0 / 256 * 256 + 8 * j)) 7 = false) →
            (bit e0 0 = false ∨ field e0 3 1 = 0 → r = .error (k.cause, 0)) ∧
            (IsLeaf e0 → LeafGives s t.priv k a0 e0 (node e0 + va.toNat % 65536) r)))))

/-- O36. Where every member's access passes its checks and no engine command holds it back, a store completes and
leaves every register; where the walk for it conflicts with the open chunk, the chunk is squashed and the store with it. With one member on a cached page, the furrow then reads the low bytes of s(D) at the address
and every other byte as before, and memory itself changes only in the translation's ACC bits until the chunk is
committed, which sets DIRTY first; on a UC page the bytes are in memory at once, after the chunk (R100, R101, R103,
R269, R283). Several members that write different sectors each write theirs, stated where their translations
already have ACC and DIRTY set; that the accesses of the members are made one after another in this one step is log 93. That a narrow store to a module register is refused is log 24. -/
def Obligations.ScalarStores : Prop :=
  ∀ (s : State) (p : Policy) (d a b : Reg) (o : BitVec 10), ∀ f ∈ storeForms s p d a b o,
    (∀ as, checkAll (s.checkStore f.size f.ea) s.ids = .ok as → s.engineHolds as f.size true = false →
      let u := (s.joinScalar as f.size true).useAll (fun c => !c.x.wb) as
      (u.hart.chunk.conflict = true → exec f.instr s = .next u.squash) ∧
      (u.hart.chunk.conflict = false → ∃ t, exec f.instr s = .next t ∧ t.signal = .done ∧
        ((∀ m ∈ s.hart.members, m.tq = []) → (∀ k r, t.reg k r = s.reg k r) ∧ t.hart.npc = s.hart.npc))) ∧
    (∀ as, checkAll (s.checkStore f.size f.ea) s.ids = .ok as → s.engineHolds as f.size true = false → s.hart.vops = [] →
      (∀ m ∈ s.hart.members, m.tq = []) → Memory.wf s.mem = true → (as.map fun c => sectorOf c.x.pa).Nodup →
      (∀ c ∈ as, Pte.dirty c.x.pte = true) → Accessed s.mem as → s.hart.chunk.conflict = false →
      let byte (c : MAcc) (q : Nat) : Byte := BitVec.ofNat 8 ((s.reg c.i d).toNat / 256 ^ (q - c.x.pa))
      let inside (c : MAcc) (q : Nat) : Prop := c.x.pa ≤ q ∧ q < c.x.pa + f.size
      ((∀ c ∈ as, c.x.wb = true ∧ OneChunk s.hart c.i (sectorOf c.x.pa) true) →
        ∃ t, exec f.instr s = .next t ∧ t.mem = s.mem ∧ (∀ c ∈ as, ∀ q, inside c q → t.view c.i q = byte c q) ∧
          ∀ k q, (∀ c ∈ as, ¬ inside c q) → t.view k q = s.view k q) ∧
      ((∀ c ∈ as, c.x.wb = false ∧ inRegs c.x.pa = false) → as ≠ [] →
        ∃ t, exec f.instr s = .next t ∧ (∀ c ∈ as, ∀ q, inside c q → Memory.get t.mem q = byte c q) ∧
          KeepsBytes s.commitChunk.mem t.mem fun q => ∃ c ∈ as, inside c q)) ∧
    ∀ x, s.hart.len = 1 → s.hart.vops = [] → (s.hart.member 0).tq = [] → Memory.wf s.mem = true →
      s.checkStore f.size f.ea 0 = .ok ⟨0, f.ea 0, x⟩ → s.engineHolds [⟨0, f.ea 0, x⟩] f.size true = false →
      let u := s.use 0 x false
      let w := s.use 0 x true
      let c := w.commitChunk
      let byte (q : Nat) : Byte := BitVec.ofNat 8 ((s.reg 0 d).toNat / 256 ^ (q - x.pa))
      let inside (q : Nat) : Prop := x.pa ≤ q ∧ q < x.pa + f.size
      (x.wb = true → u.hart.chunk.conflict = false → OneChunk u.hart 0 (sectorOf x.pa) true →
        ∃ t, exec f.instr s = .next t ∧ (∀ q, inside q → t.view 0 q = byte q) ∧ (∀ q, ¬ inside q → t.view 0 q = u.view 0 q) ∧
          KeepsBytes s.mem t.mem (fun q => q ∈ x.marks) ∧
          (Pte.dirty x.pte = false → (0, sectorOf x.pa, x.leaf) ∈ t.hart.chunk.leaves)) ∧
      (x.wb = false → w.hart.chunk.conflict = false → inRegs x.pa = false →
        ∃ t, exec f.instr s = .next t ∧ (∀ q, inside q → Memory.get t.mem q = byte q) ∧ KeepsBytes c.mem t.mem inside) ∧
      (inRegs x.pa = true → x.wb = false → w.hart.chunk.conflict = false →
        exec f.instr s = ((c.countPcx 0 f.policy).writeReg x.pa (BitVec.ofNat 64 ((s.reg 0 d).toNat % 256 ^ f.size))).ok)

/-- O37. LDL links the sector and delivers the doubleword; STC delivers 0 and stores where the link is intact, and
otherwise delivers 1 and stores nothing; it always clears the link. A write of another party to the sector breaks a
link, one of the tiller's own scalar stores does not. An IO page is refused (R104, R105). The same write makes the open
chunk conflict that has the sector in a read or write set of another member (R283), and wakes a WAITA parked on the sector
(R322). -/
def Obligations.LinkedLoadAndConditionalStore : Prop :=
  (∀ (s : State) (d a b : Reg),
    (∀ as, checkAll (fun i => s.checkAtomic .atomRead (s.reg i a) i) s.ids = .ok as → s.engineHolds as 8 false = false →
      ∃ t, exec (.ldl d a) s = .next t ∧ t.signal = .done ∧ ∀ k r, r ≠ d → t.reg k r = s.reg k r) ∧
    (∀ as, checkAll (fun i => s.checkAtomic .atomWrite (s.reg i a) i) s.ids = .ok as → s.engineHolds as 8 true = false →
      ∃ t, exec (.stc d a b) s = .next t ∧ t.signal = .done ∧
        ((∀ m ∈ s.hart.members, m.tq = []) → ∀ k r, r ≠ d → t.reg k r = s.reg k r)) ∧
    (∀ x, s.checkAccess 0 .atomRead (s.reg 0 a) 8 = .ok x → x.io = true → 0 < s.hart.len →
      exec (.ldl d a) s = s.trap { cause := 8, val := s.reg 0 a }) ∧
    (∀ x, s.checkAccess 0 .atomWrite (s.reg 0 a) 8 = .ok x → x.io = true → 0 < s.hart.len →
      exec (.stc d a b) s = s.trap { cause := 8, val := s.reg 0 a })) ∧
  (∀ (s : State) (d a b : Reg) (x : Xlat), s.hart.len = 1 → s.hart.vops = [] → (s.hart.member 0).tq = [] →
    Memory.wf s.mem = true →
    let acc : MAcc := ⟨0, s.reg 0 a, x⟩
    let pend (m : Member) (v : Word) := m.pend = (s.hart.member 0).pend ++ (if d = 0 then [] else [(d.toNat, v)])
    (s.checkAtomic .atomRead (s.reg 0 a) 0 = .ok acc → s.engineHolds [acc] 8 false = false →
      let u := (s.commitChunk.use 0 x false).atHome acc false
      ∃ t, exec (.ldl d a) s = .next t ∧ (t.hart.member 0).link = some (sectorOf x.pa) ∧
        pend (t.hart.member 0) (u.peekWord x.pa) ∧ t.mem = u.mem) ∧
    (s.checkAtomic .atomWrite (s.reg 0 a) 0 = .ok acc → s.engineHolds [acc] 8 true = false →
      let u := s.commitChunk
      ((u.hart.member 0).link = some (sectorOf x.pa) →
        ∃ t, exec (.stc d a b) s = .next t ∧ (t.hart.member 0).link = none ∧ pend (t.hart.member 0) 0 ∧
          Memory.dword t.mem x.pa = s.reg 0 b ∧
          KeepsBytes ((u.use 0 x true).atHome acc true).mem t.mem fun q =>
            x.pa ≤ q ∧ q < x.pa + 8) ∧
      ((u.hart.member 0).link ≠ some (sectorOf x.pa) →
        ∃ t, exec (.stc d a b) s = .next t ∧ (t.hart.member 0).link = none ∧ pend (t.hart.member 0) 1 ∧
          t.mem = (u.use 0 x false).mem))) ∧
  (∀ (s : State) w sec k, k < s.hart.len → (s.hart.member k).link = some sec →
    ((s.wrote w sec).hart.member k).link = (if w = .scalar (s.hart.member k).tile then some sec else none) ∧
    ∀ sec', sec' ≠ sec → ((s.wrote w sec').hart.member k).link = some sec) ∧
  ∀ (s : State) w sec,
    let c := s.hart.chunk
    ((s.wrote w sec).hart.chunk.conflict = true ↔ c.conflict = true ∨
      ∃ p ∈ c.rset ++ c.wset, p.2 = sec ∧ w ≠ .scalar (s.hart.member p.1).tile) ∧
    ((s.wrote w sec).hart.woken = true ↔ s.hart.woken = true ∨ s.hart.park = some (.waita sec))

/-! ### Control transfer -/

/-- O38. BR and BRN compare member 0's registers, signed and unsigned; where the condition fails nothing happens,
and where it holds control goes to the line of the branch plus 128 bytes for each line of displacement, at the slot.
JMP and CALL go there without a condition; CALL writes the return address to s1, JR to s(D), and JR checks the form
of its target (R109, R110, R111, R76). The SUB of JR to a bad target is log 82. -/
def Obligations.ControlTransfers : Prop :=
  ∀ (s : State) (d a b : Reg) (slot : BitVec 4),
    let target (disp : Int) : Word := BitVec.ofInt 64 ((s.hart.pc.toNat / 128 * 128 : Nat) + 128 * disp + (8 * slot.toNat : Nat))
    let x := s.reg 0 a
    let y := s.reg 0 b
    let holds (c : Cond) (signed : Bool) : Prop := match c with
      | .eq => x = y
      | .ne => x ≠ y
      | .lt => if signed then x.toInt < y.toInt else x.toNat < y.toNat
      | .ge => if signed then y.toInt ≤ x.toInt else y.toNat ≤ x.toNat
    let stay : Result := .next { s with signal := .done }
    (∀ c disp, (¬ holds c true → exec (.br c a b disp slot) s = stay) ∧
      (holds c true → Jumps s (target disp.toInt) true id (exec (.br c a b disp slot) s))) ∧
    (∀ c disp, (¬ holds c false → exec (.brn c a b disp slot) s = stay) ∧
      (holds c false → Jumps s (target disp.toInt) true id (exec (.brn c a b disp slot) s))) ∧
    (∀ disp, Jumps s (target disp.toInt) true id (exec (.jmp disp slot) s)) ∧
    (∀ disp, Jumps s (target disp.toInt) true (fun u => u.setRegAll 1 s.hart.npc) (exec (.call disp slot) s)) ∧
    ((x.toNat % 8 = 0 ∧ x.toNat / 2 ^ 56 = 0) → Jumps s x true (fun u => u.setRegAll d s.hart.npc) (exec (.jr d a) s)) ∧
    ((x.toNat % 8 ≠ 0 ∨ x.toNat / 2 ^ 56 ≠ 0) → exec (.jr d a) s = s.trap { cause := 4, sub := 2, val := x })

/-! ### The furrow -/

/-- O39. FID writes FCFG.MEMBER and FLEN writes F, each to s(D) of its own member (R208). A furrow has at most 128
members. -/
def Obligations.FurrowIdentity : Prop :=
  ∀ (s : State) (d : Reg), s.hart.root = none → s.hart.len ≤ 128 →
    (∃ v, Writes s d v (exec (.fid d) s) ∧ ∀ i < s.hart.len, (v i).toNat = (s.sysRead i 0x081).toNat / 2 ^ 9 % 2 ^ 7 ∧
      (v i).toNat = i) ∧
    ∃ v, Writes s d v (exec (.flen d) s) ∧ ∀ i < s.hart.len, (v i).toNat = s.hart.len ∧
      (v i).toNat = (s.sysRead i 0x081).toNat % 2 ^ 8

/-- O40. SENDE sends each member's value to its eastern neighbour, the last one's to member 0 in a furrow whose ring is
closed, and RECVW takes the oldest value held, 0 in member 0 of an open row; the balance follows, and a ninth SENDE
or a RECVW without one in a closed ring is illegal (R209, R210). A RECVW ahead of its SENDE takes a value in advance, a
free one where none is known, and the module's way back stands; the SENDE then either finds every such value right, or the
module goes back with the value that it sends (R209; log 8). VOTE delivers the reduction of the members' values to every
member (R211). -/
def Obligations.FurrowCommunication : Prop :=
  (∀ (s : State) (d a : Reg), s.hart.root = none →
    (8 ≤ s.hart.bal → exec (.sende a) s = s.illegal 1) ∧
    (s.hart.bal < 8 →
      let takes i : Prop := 0 < i ∨ s.hart.ringf = true
      let sent i := if 0 < i then s.reg (i - 1) a else s.reg (s.hart.len - 1) a
      let due i := s.hart.owed.find? fun p => p.1 == i
      ((∀ i < s.hart.len, takes i → ∀ p, due i = some p → p.2 = sent i) →
        ∃ t, exec (.sende a) s = .next t ∧ t.signal = .done ∧ t.hart.bal = s.hart.bal + 1 ∧
          (∀ k r, t.reg k r = s.reg k r) ∧ ∀ i < s.hart.len, takes i →
            (t.hart.owed.filter fun p => p.1 == i) = (s.hart.owed.filter fun p => p.1 == i).tail ∧
            (t.hart.member i).sende = (s.hart.member i).sende ++ (if due i = none then [sent i] else [])) ∧
      ∀ i < s.hart.len, takes i → ∀ p, due i = some p → p.2 ≠ sent i →
        ∃ (u : State) (known : List (Nat × Word)) (j : Nat), exec (.sende a) s = .next (u.goBack known) ∧
          u.undo = s.undo ∧ u.hart.id = s.hart.id ∧ j < s.hart.len ∧ known.getLast? = some (j, sent j) ∧
          ∃ p, due j = some p ∧ p.2 ≠ sent j) ∧
    (s.hart.bal < 8 → s.hart.owed = [] → ∃ t, exec (.sende a) s = .next t ∧ t.signal = .done ∧
      t.hart.bal = s.hart.bal + 1 ∧ (∀ k r, t.reg k r = s.reg k r) ∧ ∀ i < s.hart.len,
        (t.hart.member i).sende = (s.hart.member i).sende ++
          (if 0 < i then [s.reg (i - 1) a] else if s.hart.ringf then [s.reg (s.hart.len - 1) a] else [])) ∧
    (s.hart.ringf = true → s.hart.bal ≤ 0 → exec (.recvw d) s = s.illegal 1) ∧
    ((s.hart.ringf = false ∨ 0 < s.hart.bal) → ∃ t, exec (.recvw d) s = .next t ∧ t.signal = .done ∧
      t.hart.bal = s.hart.bal - 1 ∧ (∀ k r, r ≠ d → t.reg k r = s.reg k r) ∧ ∀ i < s.hart.len,
        (i = 0 → s.hart.ringf = false → (t.hart.member i).sende = (s.hart.member i).sende ∧
          (t.hart.member i).pend = (s.hart.member i).pend ++ (if d = 0 then [] else [(d.toNat, 0)])) ∧
        (∀ v l, (0 < i ∨ s.hart.ringf = true) → (s.hart.member i).sende = v :: l → (t.hart.member i).sende = l ∧
          (t.hart.member i).pend = (s.hart.member i).pend ++ (if d = 0 then [] else [(d.toNat, v)])) ∧
        ((0 < i ∨ s.hart.ringf = true) → (s.hart.member i).sende = [] → ∃ v,
          (t.hart.member i).pend = (s.hart.member i).pend ++ (if d = 0 then [] else [(d.toNat, v)]) ∧
          (t.hart.owed.filter fun p => p.1 == i) = (s.hart.owed.filter fun p => p.1 == i) ++ [(i, v)] ∧
          (∀ p, (s.hart.foreseen.find? fun p => p.1 == i) = some p → v = p.2) ∧
          t.undo = some (s.undo.getD s.snapshot)))) ∧
  ∀ (s : State) (d a : Reg), s.hart.root = none → 0 < s.hart.len →
    let x i := s.reg i a
    let all (op : Instr) (ok : Word → Prop) : Prop := ∃ v, ok v ∧ Delivers s d (fun _ => v) (exec op s)
    let least (le : Word → Word → Prop) (v : Word) : Prop := (∃ i < s.hart.len, v = x i) ∧ ∀ i < s.hart.len, le v (x i)
    let floats := (List.range s.hart.len).map fun i => f32Of (x i)
    all (.voteAdd d a) (fun v => v = BitVec.ofNat 64 (((List.range s.hart.len).map fun i => (x i).toNat).sum)) ∧
    all (.voteOr d a) (fun v => ∀ n < 64, bit v n = (List.range s.hart.len).any fun i => bit (x i) n) ∧
    all (.voteMin d a) (least fun v w => v.toInt ≤ w.toInt) ∧ all (.voteMax d a) (least fun v w => w.toInt ≤ v.toInt) ∧
    all (.voteMinn d a) (least fun v w => v.toNat ≤ w.toNat) ∧ all (.voteMaxn d a) (least fun v w => w.toNat ≤ v.toNat) ∧
    all (.voteFadd d a) (fun v => v = f32Word (canonSum (fun p q => rnd32 (.add 0 p q)) (.fin true 0 1) floats)) ∧
    all (.voteFmin d a) (fun v => v = f32Word (fold1 .nan Ex.min floats)) ∧
    all (.voteFmax d a) (fun v => v = f32Word (fold1 .nan Ex.max floats))

/-- O41. The iteration ring: its words are illegal without STATUS.RING (R212). IPOST of an iteration within the map posts
it, of one below LOW or from N on does nothing, and of one 4,096 above LOW waits; IWAIT completes where the iteration is
posted and otherwise arms it and parks; VIWAIT delivers the length of its prefix where nothing in it is open, and
otherwise arms at most 16 open iterations and parks; IRSET clears the map (R213 to R217). A post that is delivered is
in the map, LOW moves on over posted iterations, and the waits for it are over. IRSET acts after the unit's own posts, and after
those that the map it leaves would not take, of which none is left in the map, and before the other posts of other units that
are under way: that these act after it (log 25), and which open iterations a VIWAIT's prefix takes in (log 26), are the
model's. -/
def Obligations.IterationRing : Prop :=
  (∀ (s : State) (d a b : Reg), s.hart.root = none → s.hart.ring = false →
    exec (.ipost a) s = s.illegal ∧ exec (.iwait a) s = s.illegal ∧ exec (.viwait d a b) s = s.illegal ∧
    exec .irset s = s.illegal) ∧
  (∀ (s : State) (a : Reg) (r : Ring), s.hart.root = none → s.hart.ring = true →
    let q := s.commitChunk.drainVector.writeBackNarrow 3
    let n := (s.reg 0 a).toNat
    q.ringOf = some r → ∀ u, q.hart.unit = some u →
    ((n < r.low ∨ q.ringN ≤ n) → exec (.ipost a) s = .next { q with signal := .done }) ∧
    (r.low ≤ n → n < q.ringN → n < r.low + 4096 → ∃ t, exec (.ipost a) s = .next t ∧ t.signal = .done ∧
      t.ringOf = some { r with posts := r.posts ++ [(u.ordinal, n)] } ∧ t.mem = q.mem ∧ t.hart = q.hart) ∧
    (r.low + 4096 ≤ n → n < q.ringN → q.hart.park = none → exec (.ipost a) s = q.wait .ipost)) ∧
  (∀ (s : State) (d a b : Reg) (r : Ring), s.hart.root = none → s.hart.ring = true → s.ringOf = some r → s.hart.park = none →
    let n := (s.reg 0 a).toNat
    let c := (s.reg 0 b).toNat
    (∀ k, s.posted k = true ↔ (s.ringN ≤ k ∨ k < r.low ∨ k ∈ r.posted)) ∧
    (s.posted n = true → ∃ t, exec (.iwait a) s = .next t ∧ t.signal = .done ∧ t.hart = { s.hart with waits := [] }) ∧
    (s.posted n = false → exec (.iwait a) s = .next { s with
      hart := { s.hart with waits := [n], park := some .iwait }, signal := .stalled }) ∧
    ((∀ j < c, s.posted (n + j) = true) → ∃ t, exec (.viwait d a b) s = .next t ∧ t.signal = .done ∧ t.hart.waits = [] ∧
      ∀ i < s.hart.len, (t.hart.member i).pend = (s.hart.member i).pend ++ (if d = 0 then [] else [(d.toNat, s.reg 0 b)])) ∧
    ((s.prefixOf n c).2 ≠ [] → ∃ t, exec (.viwait d a b) s = .next t ∧ t.signal = .stalled ∧
      t.hart.waits = (s.prefixOf n c).2 ∧ t.hart.waits.length ≤ 16 ∧ ∀ k ∈ t.hart.waits, s.posted k = false ∧ n ≤ k ∧ k < n + c) ∧
    ∀ u, s.hart.unit = some u → ∃ t, exec .irset s = .next t ∧ t.signal = .done ∧
      let older (p : Nat × Nat) : Prop := p.1 = u.ordinal ∨ 4096 ≤ p.2
      (∃ r', t.ringOf = some r' ∧ r' = { r with low := 0, posted := [], posts := r'.posts } ∧
        r'.posts.Sublist r.posts ∧ (∀ p ∈ r.posts, p ∈ r'.posts ↔ ¬ older p)) ∧
      ∀ k, k ∈ t.hart.waits ↔ k ∈ s.hart.waits ∧ ∀ p ∈ r.posts, older p → p.2 ≠ k) ∧
  ∀ (s : State) (r : Ring) o n rest, s.rings.find? (fun x => x.launch == r.launch) = some r → r.posts = (o, n) :: rest →
    r.low ∉ r.posted →
    ∃ t r', exec (.iterationPostDelivery r.launch) s = .next t ∧ t.signal = .done ∧
      t.rings.find? (fun x => x.launch == r.launch) = some r' ∧ r'.posts = rest ∧ r.low ≤ r'.low ∧
      (∀ k, (k < r'.low ∨ k ∈ r'.posted) ↔ (k < r.low ∨ k ∈ r.posted ∨ k = n)) ∧ r'.low ∉ r'.posted ∧
      ∀ u, s.hart.unit = some u → u.launch = r.launch → n ∉ t.hart.waits

/-! ### Vector configuration and queues -/

/-- O42. SETVL grants the smaller of s(A) and VMAX of the width, with every lane of the furrow counted, and writes the
grant to s(D): VL, VW and VMAX are set, ELS, the marks and the queues are cleared, data in flight is discarded and every
granted element has a place (R129 to R132, R36, R37). Where a pre-emption request is acted on, the unit is saved at it, with
the cancel that it holds (R321), or waits while the context store has no room (log 29); behind a RECVW ahead of its SENDE the
module goes back (log 8). A unit parked at a wait is saved at its next execution with SUB 1, and otherwise executes again
(R320, R343); a pre-emption that an MTS to STATUS enabled is taken at the next bundle other than SETVL (R119; log 20). -/
def Obligations.VectorLengthGranted : Prop :=
  (∀ (s : State) (w : Width) (d a : Reg), s.hart.root = none →
    let bytes := if w = .w8 then 1 else if w = .w16 then 2 else 4
    let capacity := 32 * (s.hart.members.map fun m => (512 * m.beds - 4 * m.groups.toNat) / 32).sum
    let n := min (s.reg 0 a).toNat (capacity / bytes)
    (s.hart.preemptable = true → s.hart.owed ≠ [] → exec (.setvl w d a) s = .next (s.goBack s.hart.seen)) ∧
    (s.hart.preemptable = false → s.hart.len ≤ 128 →
      ∃ t, exec (.setvl w d a) s = .next t ∧ t.signal = .done ∧ t.hart.vl.toNat = n ∧ t.hart.w = 8 * bytes ∧
        t.hart.vmax.toNat = capacity ∧ t.hart.els = 0 ∧ t.hart.qst = 0 ∧ t.hart.hwm = [] ∧ Placed t.hart ∧
        (∀ o ∈ t.hart.vops, o.discard = true) ∧ (∀ k r, r ≠ d → t.reg k r = s.reg k r) ∧ t.mem = s.mem ∧
        ∀ k < s.hart.len, d ≠ 0 → lookup (t.hart.member k).regs d.toNat = some (BitVec.ofNat 64 n)) ∧
    (s.hart.preemptable = true → s.hart.owed = [] →
      (∀ t, s.saveUnit 1 0 (s.reg 0 a) false none true = some t → exec (.setvl w d a) s = .next t ∧
        t.signal = .trapped { cause := 0x10, sub := 0, val := s.reg 0 a } ∧ t.hart = Hart.absent ∧
        ∃ u, t.saved.getLast? = some u ∧ u.cancel = s.hart.cancel ∧ u.unit = s.hart.unit ∧ u.len = s.hart.len) ∧
      (s.saveUnit 1 0 (s.reg 0 a) false none true = none → exec (.setvl w d a) s = s.wait .drain))) ∧
  ∀ s rest f b, s.agenda = .bundle :: rest → AtBundle { s.advance with agenda := rest } f b → Executes f.st b →
    ¬ CancelDue f.st → ¬ TimerDue f.st → PreemptionDue f.st b →
    let q : State := { s.advance with agenda := rest }
    (f.st.hart.waitsParked = true → ∀ t, f.st.saveUnit 2 1 0 true none true = some t → step s = q.heldBack .bundle (.next t)) ∧
    (f.st.hart.waitsParked = false →
      (∀ t, f.st.saveUnit 2 0 0 true none true = some t → step s = q.heldBack .bundle (.next t)) ∧
      (f.st.saveUnit 2 0 0 true none true = none → step s = q.heldBack .bundle (f.st.wait .drain)))

/-- O43. WCFG sets the modes of every member once the furrow's memory and thresher work is done: VL, ELS, the marks and
the queues are cleared, VMAX is that of the new beds (R35, R36), lines of pairs that left cache mode are gone, with their bytes
written back to the home, and every other line stays; accumulators stay live only where the beds are the
same, a pair that stays in index mode keeps its entries and one that enters it is empty; a member without its stacked half refuses bed and index modes (R152 to R155, R257). ACCFG sets the geometry, and a
new geometry ends the accumulators (R156). -/
def Obligations.VectorConfiguration : Prop :=
  (∀ (s : State) (p0 p1 p2 p3 : PairMode), s.hart.root = none →
    let wm := Decode.modeCode p3 ++ Decode.modeCode p2 ++ Decode.modeCode p1 ++ Decode.modeCode p0
    let q := s.commitChunk.drainVector.drainThresher
    (∀ i, (s.ids.find? fun i => s.tmapOf (s.hart.member i).tile == 2 && wm != 0) = some i →
      exec (.wcfg p0 p1 p2 p3) s = s.trap { cause := 1, sub := 5, val := s.slotWord, member := i }) ∧
    ((∀ i < s.hart.len, s.tmapOf (s.hart.member i).tile = 2 → wm = 0) →
      ∃ t, exec (.wcfg p0 p1 p2 p3) s = .next t ∧ t.signal = .done ∧ t.hart.vl = 0 ∧ t.hart.els = 0 ∧ t.hart.qst = 0 ∧
        t.hart.hwm = [] ∧ t.mem = q.mem ∧ (∀ k r, t.reg k r = q.reg k r) ∧
        (let beds := (List.range 4).countP fun p => wm.toNat / 4 ^ p % 4 = 1
         s.hart.len ≤ 128 →
           t.hart.vmax.toNat = 32 * (q.hart.members.map fun m => (512 * beds - 4 * m.groups.toNat) / 32).sum) ∧
        (∀ pa, (∀ m ∈ t.allMembers, ∀ l ∈ m.lines, ∀ p ∈ l.home, p.1 ≠ pa) → t.homeByte pa = t.peek pa) ∧ ∀ k < s.hart.len,
          (t.hart.member k).wmode = wm ∧
          (t.hart.member k).lines = ((q.hart.member k).lines.filter fun l => decide (pairMode wm (l.way % 4) = 0)) ∧
          (pairsIn (q.hart.member k).wmode 1 = pairsIn wm 1 →
            (t.hart.member k).live = (q.hart.member k).live ∧ (t.hart.member k).vreg = (q.hart.member k).vreg) ∧
          (pairsIn (q.hart.member k).wmode 1 ≠ pairsIn wm 1 →
            (t.hart.member k).live = 0 ∧ (t.hart.member k).vreg = [] ∧ (t.hart.member k).acc = []) ∧
          (t.hart.member k).ix.length = (pairsIn wm 2).length ∧
          ∀ (j p : Nat), (pairsIn wm 2)[j]? = some p →
            (∀ n, (pairsIn (q.hart.member k).wmode 2)[n]? = some p →
              (t.hart.member k).ix[j]? = some ((q.hart.member k).ix.getD n {})) ∧
            (p ∉ pairsIn (q.hart.member k).wmode 2 → (t.hart.member k).ix[j]? = some ({} : IxPair)))) ∧
  ∀ (s : State) (g : BitVec 2), s.hart.root = none →
    ∃ t, exec (.accfg g) s = .next t ∧ t.signal = .done ∧ t.mem = s.awaitThresher.mem ∧
      (∀ k r, t.reg k r = s.awaitThresher.reg k r) ∧ ∀ k < s.awaitThresher.hart.len,
        let m := s.awaitThresher.hart.member k
        (t.hart.member k).geo = g ∧ (t.hart.member k).vreg = m.vreg ∧
        (t.hart.member k).live = if m.geo = g then m.live else 0

/-- O44. The queue words: QBIND binds an unbound queue to a free run of registers, empty; QDRAIN empties a bound queue and
QFREE releases it; QSTAT delivers the queue's field of QST; QPOP steps over the head entry. QBIND of a bound queue, of a
run past v31 or over a bound run, and QPOP of an unbound or empty queue are illegal (R143, R145). -/
def Obligations.QueueWords : Prop :=
  ∀ (s : State) (q : BitVec 2), s.hart.root = none →
    let w := s.hart.qst
    let n := q.toNat
    let is (t : State) (head count : Nat) (bound : Bool) (depth base : Nat) : Prop :=
      t.signal = .done ∧ qHead t.hart.qst n = head ∧ qCount t.hart.qst n = count ∧ qBound t.hart.qst n = bound ∧
      qDepth t.hart.qst n = depth ∧ qBase t.hart.qst n = base ∧
      (∀ k < 64, k / 16 ≠ n → bit t.hart.qst k = bit w k) ∧ ∀ k r, t.reg k r = s.reg k r
    (∀ (base : VReg) (depth : BitVec 3),
      let fails := qBound w n = true ∨ 31 < base.toNat + depth.toNat ∨
        ∃ r, base.toNat ≤ r ∧ r ≤ base.toNat + depth.toNat ∧ (queueOf w r).isSome = true
      (fails → exec (.qbind q base depth) s = s.illegal) ∧
      (¬ fails → ∃ t, exec (.qbind q base depth) s = .next t ∧ is t 0 0 true (depth.toNat + 1) base.toNat)) ∧
    (qBound w n = true → (∃ t, exec (.qfree q) s = .next t ∧ is t 0 0 false (qDepth w n) (qBase w n)) ∧
      ∃ t, exec (.qdrain q) s = .next t ∧ is t 0 0 true (qDepth w n) (qBase w n)) ∧
    (qBound w n = false → exec (.qfree q) s = .next { s with signal := .done } ∧
      exec (.qdrain q) s = .next { s with signal := .done }) ∧
    (∀ a, Delivers s a (fun _ => BitVec.ofNat 64 (w.toNat / 2 ^ (16 * n) % 2 ^ 16)) (exec (.qstat q a) s)) ∧
    ((qBound w n = false ∨ qCount w n = 0) → exec (.qpop q) s = s.illegal 0 true) ∧
    (qBound w n = true → qCount w n ≠ 0 → ∃ t, exec (.qpop q) s = .next t ∧
      is t ((qHead w n + 1) % qDepth w n) (qCount w n - 1) true (qDepth w n) (qBase w n))

/-! ### Vector memory -/

/-- O45. A vector memory instruction with legal operands and room on the range scoreboard waits for the data of its
registers and goes into flight with its active elements, in element order, once all of them pass their checks: ELS
is 0, no scalar register changes, and a load's mark covers VL elements. At the first element k that fails, its trap
is taken with ELS = k, every element in flight performed, and a load's mark at max(HWM, k elements) (R32, R33, R133
to R136, R140, R147, R148). VLDQ pushes into a bound queue that is not full; a fault discards the push and leaves
ELS 0 and QST as it was (R144, R146). That the elements from k on are free, and which of them are performed, is log
43; a VSTC without an active element is log 40; a store of part of a host sector that fails its check traps (log 79). A
trap behind a RECVW ahead of its SENDE is log 8. -/
def Obligations.VectorMemoryIssues : Prop :=
  (∀ (s : State) (p : Policy) (w : IdxW) (v : VReg) (a b : Reg) (n : VReg) (m : MReg),
    ∀ f ∈ vectorForms s p w v a b n m, s.hart.root = none →
      (f.args.bad s.hart = true → exec f.instr s = s.illegal) ∧
      (f.args.bad s.hart = false → s.commitChunk.full s.ids = false →
        let q := s.commitChunk.awaitRegs (f.args.regs s.hart) [m.toNat]
        let act := (q.hart.range.filter fun i => q.hart.melem m.toNat i).filterMap fun i => (f.addr q.hart i).map fun x => (i, x)
        (∀ cs, q.checkElems f.kind.access act act = (cs, none) →
          ∃ t, exec f.instr s = .next t ∧ t.signal = .done ∧ t.hart.els = 0 ∧ t.hart.vl = s.hart.vl ∧
            (∀ k r, t.reg k r = s.reg k r) ∧
            (f.args.dest = true → (lookupD t.hart.hwm v.toNat 0).toNat =
              (max (lookupD q.hart.hwm v.toNat 0).toNat (q.hart.vl.toNat * q.hart.e)) % 2 ^ 19) ∧
            (cs ≠ [] → ∃ o ∈ t.hart.vops, o.kind = f.kind ∧ o.discard = false ∧ o.todo.map (·.i) = act.map (·.1) ∧
              o.todo.map (·.pa) = cs.map (·.x.pa))) ∧
        ∀ cs k e rest, q.checkElems f.kind.access act act = (cs, some (k, e, rest)) →
          ∃ u : State, exec f.instr s = .next (u.takeTrap e) ∧ u.hart.owed = s.hart.owed ∧ u.hart.els.toNat = k ∧
            u.hart.vops = [] ∧
            (f.args.dest = true → (lookupD u.hart.hwm v.toNat 0).toNat =
              (max (lookupD q.hart.hwm v.toNat 0).toNat (k * q.hart.e)) % 2 ^ 19))) ∧
  ∀ (s : State) (p : Policy) (q : BitVec 2) (a b : Reg) (m : MReg), s.hart.root = none →
    let w := s.hart.qst
    let n := q.toNat
    (qBound w n = false → exec (.vldq p q a b m) s = s.illegal) ∧
    (qBound w n = true → qDepth w n ≤ qCount w n → exec (.vldq p q a b m) s = s.illegal 6) ∧
    (qBound w n = true → qCount w n < qDepth w n → s.commitChunk.full s.ids = false →
      let u := s.commitChunk.awaitRegs [qBase w n + (qHead w n + qCount w n) % qDepth w n] [m.toNat]
      let act := (u.hart.range.filter fun i => u.hart.melem m.toNat i).map fun i =>
        (i, s.reg 0 a + BitVec.ofNat 64 i * s.reg 0 b)
      (∀ cs, u.checkElems .read act act = (cs, none) → ∃ t, exec (.vldq p q a b m) s = .next t ∧ t.signal = .done ∧
        qCount t.hart.qst n = qCount w n + 1 ∧ qHead t.hart.qst n = qHead w n ∧ qBound t.hart.qst n = true ∧
        t.hart.els = 0 ∧ ∀ k r, t.reg k r = s.reg k r) ∧
      ∀ cs k e rest, u.checkElems .read act act = (cs, some (k, e, rest)) →
        ∃ t : State, exec (.vldq p q a b m) s = .next (t.takeTrap e) ∧ t.hart.els = 0 ∧ t.hart.qst = w)

/-- O46. The elements of one request of an operation in flight, those in one sector, are performed and leave it. A load or a
VGLK brings the bytes of memory into its register, a VGLK then holds the link of the sector, a VLDQ keeps the bytes for its
arrival, and a store puts its bytes there, the highest element's last, and nowhere else. A VSTC stores one element where its
tiller holds the link, which then is gone, and with its last element writes which ones failed into its mask. A request that
a row microprogram holds back waits in the queue, and what lies behind a link that went down is neither read nor written
(R376; log 118) (R137, R138, R140, R147, R148, R365). An operation with no element left
retires, and the data of a VLDQ arrives in its entry register, unless it is discarded (R140, R145, R146). -/
def Obligations.VectorMemoryPerformed : Prop :=
  ∀ (s : State) op k (o : VOp), s.endChunk.vop? op = some o →
    let q := s.endChunk
    let es := o.request k
    let gone : VOp := { o with todo := o.todo.filter fun e => !es.contains e }
    let data (e : VElem) := q.peekBytes e.pa e.data.length
    let may := es ≠ [] ∧ ∀ e ∈ es, vblocked q.hart.vops o e = false
    let clear := q.windowsAt op (es.map (·.pa)) = []
    ((es = [] ∨ ∃ e ∈ es, vblocked q.hart.vops o e = true) → exec (.vectorSectorRequest op k) s = .fault .notEnabled) ∧
    (may → ¬ clear → ∃ t, exec (.vectorSectorRequest op k) s = .next t ∧ t.signal = .done ∧ t.mem = q.mem ∧
      t.hart = q.hart ∧ ∀ x ∈ q.windowsAt op (es.map (·.pa)),
        Queued t op x) ∧
    (may → clear → o.kind = .store → (∀ e ∈ es, q.lost e.pa = true) →
      (∀ e ∈ es, inHost e.pa = true → coversSector (es.map fun x => (x.pa, x.data.length)) e.pa = false) →
      ∃ t, exec (.vectorSectorRequest op k) s = .next t ∧ t.signal = .done ∧ t.vop? op = some gone ∧ t.mem = q.mem) ∧
    (may → clear → (o.kind = .load ∨ o.kind = .glk) → LieApart q.hart es → (∀ e ∈ es, q.lost e.pa = false) →
      ∃ t, exec (.vectorSectorRequest op k) s = .next t ∧ t.signal = .done ∧ t.mem = q.mem ∧ t.vop? op = some gone ∧
        (∀ i r, t.reg i r = q.reg i r) ∧
        (o.discard = false → ∀ e ∈ es, (t.hart.member e.member).vbytes o.reg e.pos e.data.length = data e) ∧
        (∀ n m p, n < 32 → p < 2048 → (n = o.reg → o.discard = true ∨ ¬ coversReg es m p) →
          (t.hart.member m).vbyte n p = (q.hart.member m).vbyte n p) ∧
        (o.kind = .load → t.vlinks = q.vlinks) ∧
        (o.kind = .glk → ∀ e ∈ es, (es.getLast? = some e ∨ es.length ≤ 8) →
          ((q.hart.member e.member).tile, sectorOf e.pa) ∈ t.vlinks)) ∧
    (may → clear → o.kind = .store → (∀ e ∈ es, q.lost e.pa = false) → Memory.wf q.mem = true →
      ∃ t, exec (.vectorSectorRequest op k) s = .next t ∧ t.signal = .done ∧ t.vop? op = some gone ∧
        (∀ i r, t.reg i r = q.reg i r) ∧ (∀ m n p, (t.hart.member m).vbyte n p = (q.hart.member m).vbyte n p) ∧
        (∀ l e r, es = l ++ e :: r → ∀ x, VElem.covers e x → (∀ e' ∈ r, ¬ VElem.covers e' x) →
          e.data[x - e.pa]? = some (Memory.get t.mem x)) ∧
        KeepsBytes q.mem t.mem fun x => ∃ e ∈ es, VElem.covers e x) ∧
    (may → clear → (∀ e ∈ es, q.lost e.pa = false) → ∀ n, o.kind = .ldq n → ∃ t, exec (.vectorSectorRequest op k) s = .next t ∧ t.signal = .done ∧
      t.mem = q.mem ∧ t.vop? op = some { gone with got := o.got ++ es.map fun e => { e with data := data e } } ∧
      ∀ i r, t.reg i r = q.reg i r) ∧
    (may → clear → o.kind = .stc → Memory.wf q.mem = true → ∀ e, es = [e] → e.data ≠ [] → e.member < q.hart.len →
      let linked := ((q.hart.member e.member).tile, sectorOf e.pa) ∈ q.vlinks ∧ q.lost e.pa = false
      let fails (ok : Bool) := o.fails ++ [(e.member, e.pos / e.data.length, !ok)]
      ∃ t ok, exec (.vectorSectorRequest op k) s = .next t ∧ t.signal = .done ∧ (ok = true ↔ linked) ∧
        t.vop? op = some { gone with fails := fails ok } ∧ (∀ i r, t.reg i r = q.reg i r) ∧
        (linked → Memory.read t.mem e.pa e.data.length = e.data ∧ (∀ p ∈ t.vlinks, p.2 ≠ sectorOf e.pa) ∧
          KeepsBytes q.mem t.mem fun x => VElem.covers e x ∨ e.leaf = some x) ∧
        (¬ linked → t.mem = q.mem) ∧
        (o.todo = [e] → o.discard = false → o.mask ≠ 0 → ((fails ok).map fun f => (f.1, f.2.1)).Nodup →
          (∀ f ∈ fails ok, f.1 < q.hart.len) →
          ∀ f ∈ fails ok, (t.hart.member f.1).mbit o.mask f.2.1 = f.2.2)) ∧
    (o.todo = [] → o.got = [] → ∃ t, exec (.vectorMemoryRetire op) s = .next t ∧ t.signal = .done ∧
      t.hart.vops = q.hart.vops.filter (fun o => o.id != op) ∧ t.mem = q.mem) ∧
    (o.todo = [] → o.got ≠ [] → LieApart q.hart o.got →
      ∃ t, exec (.queueEntryArrival op) s = .next t ∧ t.signal = .done ∧ t.mem = q.mem ∧
        t.vop? op = some { o with got := [] } ∧ (∀ i r, t.reg i r = q.reg i r) ∧
        (o.discard = false → ∀ e ∈ o.got, (t.hart.member e.member).vbytes o.reg e.pos e.data.length = e.data) ∧
        ∀ n m p, n < 32 → p < 2048 → (n = o.reg → o.discard = true ∨ ¬ coversReg o.got m p) →
          (t.hart.member m).vbyte n p = (q.hart.member m).vbyte n p)

/-! ### The array -/

/-- O47. Elementwise arithmetic: each active element is the exact result on the elements' values under FA and FB, a
scalar operand's value for VADDS, VMULS and VMAS, rounded once to FD and widened; VMA and VMAS add to the old
element. VCVT with EF = 1 carries the residual from EFR over its elements and back into EFR (R55). Every inactive
element and all other state stay (R162 to R166, R47, R49). That VCVT refuses FB = i4 is the model's reading (log
107). That VNEG of an integer zero gives −0 is log 39, and that the operand checks come before the format word's log
37. -/
def Obligations.ElementwiseArithmetic : Prop :=
  ∀ (s : State) (d a b : VReg) (r : Reg) (m : MReg),
    let act (h : Hart) := h.range.filter fun i => h.melem m.toNat i
    let x (n : VReg) (f : Fmt) (q : State) (i : Nat) : Ex := f.decode (q.hart.elem (q.hart.src n.toNat) i % 2 ^ f.width)
    let old (f : FormatWord) (q : State) (i : Nat) : Ex := f.fd.decode (q.hart.elem d.toNat i % 2 ^ f.fd.width)
    let sc (f : FormatWord) (q : State) : Ex := f.fb.decode ((q.aScalar (b.setWidth 6)).toNat % 2 ^ f.fb.width)
    let out (f : FormatWord) (q : State) (e : Ex) : Nat := widen f.fd q.hart.w (rnd f.fd f.rm f.sat e)
    let two (op : FormatWord → Ex → Ex → Ex) := FormatFills s { srcs := [a, b], dsts := [d], masks := [m] } (.generic true) r d act
      (fun f q i => out f q (op f (x a f.fa q i) (x b f.fb q i)))
    let one (op : Ex → Ex) := FormatFills s { srcs := [a], dsts := [d], masks := [m] } (.generic false) r d act
      (fun f q i => out f q (op (x a f.fa q i)))
    let scalar (op : FormatWord → Ex → Ex → Ex) := FormatFills s { srcs := [a], dsts := [d], masks := [m] } (.generic false) r d act
      (fun f q i => out f q (op f (x a f.fa q i) (sc f q)))
    two (fun f u v => .add f.rm u v) (exec (.vadd d a b r m) s) ∧ two (fun f u v => .add f.rm u v.negate) (exec (.vsub d a b r m) s) ∧
    two (fun _ u v => .mul u v) (exec (.vmul d a b r m) s) ∧ two (fun _ u v => .div u v) (exec (.vdiv d a b r m) s) ∧
    two (fun _ u v => .min u v) (exec (.vmin d a b r m) s) ∧ two (fun _ u v => .max u v) (exec (.vmax d a b r m) s) ∧
    FormatFills s { srcs := [a, b], dsts := [d], masks := [m] } (.generic true) r d act
      (fun f q i => out f q (.add f.rm (old f q i) (.mul (x a f.fa q i) (x b f.fb q i)))) (exec (.vma d a b r m) s) ∧
    one Ex.abs (exec (.vabs d a r m) s) ∧ one Ex.negate (exec (.vneg d a r m) s) ∧ one Ex.sqrt (exec (.vsqrt d a r m) s) ∧
    one recip (exec (.vrcp d a r m) s) ∧
    scalar (fun f u v => .add f.rm u v) (exec (.vadds d a b r m) s) ∧ scalar (fun _ u v => .mul u v) (exec (.vmuls d a b r m) s) ∧
    FormatFills s { srcs := [a], dsts := [d], masks := [m] } (.generic false) r d act
      (fun f q i => out f q (.add f.rm (old f q i) (.mul (x a f.fa q i) (sc f q)))) (exec (.vmas d a b r m) s) ∧
    ∀ f, s.hart.root = none → AOps.bad { srcs := [a], dsts := [d], masks := [m] } s.hart = false →
      let q := awaited s { srcs := [a], dsts := [d], masks := [m] }
      decodeFmt .convert (q.aScalar r) q.hart.w = some f → Placed q.hart →
      let y (i : Nat) : Ex := (x a f.fa q i).shiftDown (if f.fa.isInt && f.fd.isInt then f.aux else 0)
      (f.ef = false → Fills q d.toNat (act q.hart) (fun i => out f q (y i)) (exec (.vcvt d a r m) s)) ∧
      (f.ef = true → ∃ v last, Feedback f q.hart.w q.hart.efr.toNat (act q.hart) y v last ∧
        Fills (q.modHart fun h => { h with efr := BitVec.ofNat 32 last }) d.toNat (act q.hart) v (exec (.vcvt d a r m) s))

/-- O48. The bitwise words work on the sources' patterns brought to the width of FD; shifts by the width or more give
zeros, or copies of the sign for VSHR of a signed format; VSEL takes each element of the range from one source or the
other under its mask; VSPLAT and VIOTA fill (R167, R168, R170). That the operand checks come before the format word's is the
model's choice (log 37). -/
def Obligations.BitwiseSelectAndFill : Prop :=
  ∀ (s : State) (d a b : VReg) (r : Reg) (m : MReg),
    let act (h : Hart) := h.range.filter fun i => h.melem m.toNat i
    let x (n : VReg) (q : State) (i : Nat) : Nat := q.hart.elem (q.hart.src n.toNat) i
    let pat (n : VReg) (fs : Fmt) (f : FormatWord) (q : State) (i : Nat) : Nat := bring fs f.fd.width (x n q i)
    let o : AOps := { srcs := [a, b], dsts := [d], masks := [m] }
    let two (op : FormatWord → Nat → Nat → Nat) := FormatFills s o .bitwise r d act
      (fun f q i => widen f.fd q.hart.w (op f (pat a f.fa f q i) (pat b f.fb f q i)))
    two (fun f u v => (u &&& v) % 2 ^ f.fd.width) (exec (.vand d a b r m) s) ∧
    two (fun f u v => (u ||| v) % 2 ^ f.fd.width) (exec (.vor d a b r m) s) ∧
    two (fun f u v => (u ^^^ v) % 2 ^ f.fd.width) (exec (.vxor d a b r m) s) ∧
    two (fun f u v => if f.fd.width ≤ v then 0 else u * 2 ^ v % 2 ^ f.fd.width) (exec (.vshl d a b r m) s) ∧
    two (fun f u v => if f.fd.isSigned then wrapNat f.fd.width (signedOf f.fd.width u / 2 ^ (min v f.fd.width)) % 2 ^ f.fd.width
      else if f.fd.width ≤ v then 0 else u / 2 ^ v % 2 ^ f.fd.width) (exec (.vshr d a b r m) s) ∧
    FormatFills s { srcs := [a], dsts := [d], masks := [m] } .notClass r d act
      (fun f q i => widen f.fd q.hart.w (2 ^ f.fd.width - 1 - pat a f.fa f q i)) (exec (.vnot d a r m) s) ∧
    FormatFills s o .select r d (fun h => h.range)
      (fun f q i => widen f.fd q.hart.w ((if q.hart.melem m.toNat i then x a q i else x b q i) % 2 ^ f.fd.width))
      (exec (.vsel d a b r m) s) ∧
    PlainFills s { dsts := [d], masks := [m] } d act (fun q _ => (q.aScalar r).toNat) (exec (.vsplat d r m) s) ∧
    PlainFills s { dsts := [d], masks := [m] } d act (fun _ i => i) (exec (.viota d m) s)

/-- O49. Permutations take each active element from its source element or the fill value (R171 to R173); VCOMP moves
the selected elements to the front of the range (R174); VGET and VPUT read and write one element (R175). VRED
delivers to every member, and VSCAN gives each active element: for a floating-point FD the canonical tree, or the
log-step scan, over the VL positions with every node rounded; for an integer FD the exact value, rounded once; for
or the bits of the rounded elements (R62 to R65, R176, R177). The model's own choices here: VPUT at or above VL is log 41, the width of FD in
VRED log 92, the operand checks before the format word's log 37, and the least or the greatest of identities alone under SAT = 1
log 112. -/
def Obligations.MovesAndReductions : Prop :=
  (∀ (node : Ex → Ex → Ex) (e : Ex) (l : List Ex),
    canonSum node e [] = e ∧ (∀ x, canonSum node e [x] = x) ∧
    (2 ≤ l.length → let h := 2 ^ (Nat.clog 2 l.length - 1)
      canonSum node e l = node (canonSum node e (l.take h)) (canonSum node e (l.drop h))) ∧
    ∃ y : Nat → Nat → Ex, (∀ i, y 0 i = l.getD i e) ∧
      (∀ j i, y (j + 1) i = if 2 ^ j ≤ i then node (y j i) (y j (i - 2 ^ j)) else y j i) ∧
      ∀ i < l.length, (logScan node l)[i]? = some (y l.length i)) ∧
  ∀ (s : State) (d a b : VReg) (r : Reg) (m : MReg),
    let act (h : Hart) := h.range.filter fun i => h.melem m.toNat i
    let x (n : VReg) (q : State) (i : Nat) : Nat := q.hart.elem (q.hart.src n.toNat) i
    let o : AOps := { srcs := [a], dsts := [d], masks := [m] }
    let fill (q : State) := (q.aScalar r).toNat
    let k (q : State) := (q.aScalar (b.setWidth 6)).toNat
    PlainFills s o d act (fun q i => if k q ≤ i then x a q (i - k q) else fill q) (exec (.vslup d a b r m) s) ∧
    PlainFills s o d act (fun q i => if i + k q < q.hart.vl.toNat then x a q (i + k q) else fill q) (exec (.vsldn d a b r m) s) ∧
    PlainFills s { srcs := [a, b], dsts := [d], masks := [m] } d act
      (fun q i => if x b q i < q.hart.vl.toNat then x a q (x b q i) else fill q) (exec (.vperm d a b r m) s) ∧
    PlainFills s o d (fun h => (List.range (act h).length).map fun j => h.els.toNat + j)
      (fun q i => x a q ((act q.hart).getD (i - q.hart.els.toNat) 0)) (exec (.vcomp d a m) s) ∧
    (s.hart.root = none → AOps.bad { srcs := [a] } s.hart = false →
      let q := awaited s { srcs := [a] }
      let j := (q.aScalar r).toNat
      Delivers (withEls0 q) (d.setWidth 6) (fun _ => if j < q.hart.vl.toNat then BitVec.ofNat 64 (x a q j) else 0)
        (exec (.vget d a r) s)) ∧
    (s.hart.root = none → AOps.bad { dsts := [d] } s.hart = false →
      let q := awaited s { dsts := [d] }
      let j := (q.aScalar (b.setWidth 6)).toNat
      ((q.hart.els.toNat ≤ j ∧ j < q.hart.vl.toNat) → Placed q.hart →
        Fills q d.toNat [j] (fun _ => (q.aScalar r).toNat) (exec (.vput d b r) s)) ∧
      (¬ (q.hart.els.toNat ≤ j ∧ j < q.hart.vl.toNat) → exec (.vput d b r) s = .next { withEls0 q with signal := .done })) ∧
    (∀ op f, s.hart.root = none → AOps.bad { srcs := [a], masks := [m] } s.hart = false →
      let q := awaited s { srcs := [a], masks := [m] }
      decodeFmt .reduce (q.aScalar r) q.hart.w = some f →
      let val (i : Nat) : Ex := f.fa.decode (x a q i % 2 ^ f.fa.width)
      let l := reduceList op f q.hart m val
      ∃ bits, Delivers (withEls0 q) (d.setWidth 6) (fun _ => BitVec.ofNat 64 (widen f.fd 64 bits)) (exec (.vred op d a r m) s) ∧
        (op = .or → ∀ n, bits.testBit n = (act q.hart).any fun i => (roundBits f (val i)).testBit n) ∧
        (op ≠ .or → f.fd.isInt = false → bits = roundBits f
          (canonSum (fun u v => roundEx f (reduceOp op f.rm u v)) (reduceUnit op f.fd) l)) ∧
        (op ≠ .or → f.fd.isInt = true → l = [] → bits = roundBits f (reduceUnit op f.fd)) ∧
        (op ≠ .or → f.fd.isInt = true → l ≠ [] → ∃ e, ReducesTo op l e ∧ bits = roundBits f e)) ∧
    ∀ op, ∃ bits : FormatWord → State → Nat → Nat,
      FormatFills s o (.generic false) r d act (fun f q i => widen f.fd q.hart.w (bits f q i)) (exec (.vscan op d a r m) s) ∧
      ∀ (f : FormatWord) (q : State) i, i < q.hart.vl.toNat →
        let val (i : Nat) : Ex := f.fa.decode (x a q i % 2 ^ f.fa.width)
        let l := reduceList op f q.hart m val
        (op = .or → ∀ n, (bits f q i).testBit n =
          (act q.hart).any fun j => decide (j ≤ i) && (roundBits f (val j)).testBit n) ∧
        (op ≠ .or → f.fd.isInt = false → bits f q i = roundBits f
          ((logScan (fun u v => roundEx f (reduceOp op f.rm u v)) l).getD i .nan)) ∧
        (op ≠ .or → f.fd.isInt = true → ∃ e, ReducesTo op (l.take (i + 1)) e ∧ bits f q i = roundBits f e)

/-- O50. VCMP sets each active bit by comparing exact values; VCONF sets it where a lower active element has the same
value; MLOG combines two masks over the range; MCNT delivers the count of set bits and the lowest of them, VL where there
is none (R169, R178, R179, R180). -/
def Obligations.MaskWords : Prop :=
  ∀ (s : State) (a b : VReg) (r : Reg) (m d e : MReg), s.hart.root = none → d ≠ 0 →
    let act (n : MReg) (h : Hart) := h.range.filter fun i => h.melem n.toNat i
    let x (n : VReg) (q : State) (i : Nat) : Nat := q.hart.elem (q.hart.src n.toNat) i
    (∀ c f, AOps.bad { srcs := [a, b], masks := [m, d] } s.hart = false →
      let q := awaited s { srcs := [a, b], masks := [m, d] }
      decodeFmt .compare (q.aScalar r) q.hart.w = some f → Placed q.hart →
      let u i := f.fa.decode (x a q i % 2 ^ f.fa.width)
      let v i := f.fb.decode (x b q i % 2 ^ f.fb.width)
      FillsMask q d.toNat (act m q.hart) (fun i => match c with
        | .eq => (u i).eq (v i) | .ne => !(u i).eq (v i) | .lt => (u i).lt (v i) | .ge => (v i).lt (u i) || (u i).eq (v i))
        (exec (.vcmp c d a b r m) s)) ∧
    (AOps.bad { srcs := [a], masks := [m, d] } s.hart = false →
      let q := awaited s { srcs := [a], masks := [m, d] }
      Placed q.hart → FillsMask q d.toNat (act m q.hart)
        (fun i => (act m q.hart).any fun j => decide (j < i) && x a q j == x a q i) (exec (.vconf d a m) s)) ∧
    (∀ op, let q := awaited s { masks := [m, e, d] }
      Placed q.hart → FillsMask q d.toNat q.hart.range (fun i => match op with
        | .and => q.hart.melem m.toNat i && q.hart.melem e.toNat i | .or => q.hart.melem m.toNat i || q.hart.melem e.toNat i
        | .xor => q.hart.melem m.toNat i != q.hart.melem e.toNat i | .andn => q.hart.melem m.toNat i && !q.hart.melem e.toNat i)
        (exec (.mlog op d m e) s)) ∧
    let q := awaited s { masks := [m] }
    (Delivers (withEls0 q) (a.setWidth 6) (fun _ => BitVec.ofNat 64 (act m q.hart).length) (exec (.mcntPop a m) s) ∧
      Delivers (withEls0 q) (a.setWidth 6) (fun _ => BitVec.ofNat 64 ((act m q.hart).headD q.hart.vl.toNat))
        (exec (.mcntFirst a m) s))

/-- O51. Index pairs: IXINS and IXADD find the entry of an element's key, change its value or append an entry, and a full
pair sets DROP; the key 0xFFFFFFFF does nothing (R182, R183, R185). IXFND delivers the values (R184), IXOUT lists entries
and IXCLR empties the pair (R186). The elements of a member act on its pair one after another, in increasing order (R182,
R183). A pair that does not exist, a width other than 32, an operand that R22 or R158 refuses, or IXOUT with D = A, is illegal. That
these words end the chunk (log 13), and that the operand checks come before IXADD's format word (log 37), are the model's
readings. -/
def Obligations.IndexPairs : Prop :=
  ∀ (s : State) (n : BitVec 2) (d a b : VReg) (r : Reg) (m : MReg), s.hart.root = none →
    let bad := s.hart.w ≠ 32 ∨ (s.hart.member 0).ix.length ≤ n.toNat
    let act (h : Hart) := h.range.filter fun i => h.melem m.toNat i
    let x (v : VReg) (q : State) (i : Nat) : Nat := q.hart.elem (q.hart.src v.toNat) i
    let pair (q : State) (i : Nat) : IxPair := (q.hart.member (q.hart.place i).1).ix.getD n.toNat {}
    let puts (p p' : IxPair) (k : Nat) (merge : Nat → Nat) (fresh : Nat) : Prop :=
      (k = 0xFFFFFFFF → p' = p) ∧
      (k ≠ 0xFFFFFFFF → (∃ e ∈ p.entries, e.1.toNat = k) → p' = { p with
        entries := p.entries.map fun e => if e.1.toNat = k then (e.1, BitVec.ofNat 32 (merge e.2.toNat)) else e }) ∧
      (k ≠ 0xFFFFFFFF → (∀ e ∈ p.entries, e.1.toNat ≠ k) → p.entries.length < 2048 →
        p' = { p with entries := p.entries ++ [(BitVec.ofNat 32 k, BitVec.ofNat 32 fresh)] }) ∧
      (k ≠ 0xFFFFFFFF → (∀ e ∈ p.entries, e.1.toNat ≠ k) → 2048 ≤ p.entries.length → p' = { p with drop := true })
    let runs (q : State) (k : Nat) (P : Nat → IxPair) (last : IxPair) (one : Nat → IxPair → IxPair → Prop) : Prop :=
      let mine := (act q.hart).filter fun i => (q.hart.place i).1 == k
      P 0 = (q.hart.member k).ix.getD n.toNat {} ∧ P mine.length = last ∧
        ∀ (j i : Nat), mine[j]? = some i → one i (P j) (P (j + 1))
    (bad → exec (.ixins n a b m) s = s.illegal 0 true ∧ exec (.ixfnd n d a m) s = s.illegal 0 true ∧
      exec (.ixadd n a b r m) s = s.illegal 0 true ∧ exec (.ixout n d a r) s = s.illegal 0 true) ∧
    (AOps.bad { srcs := [a, b], masks := [m] } s.hart = true →
      exec (.ixins n a b m) s = s.illegal 0 true ∧ exec (.ixadd n a b r m) s = s.illegal 0 true) ∧
    ((d = a ∨ AOps.bad { dsts := [d, a] } s.hart = true) → exec (.ixout n d a r) s = s.illegal 0 true) ∧
    (¬ bad → AOps.bad { srcs := [a, b], masks := [m] } s.hart = false →
      let q := awaited s { srcs := [a, b], masks := [m] }
      (∃ t, exec (.ixins n a b m) s = .next t ∧ t.signal = .done ∧ t.hart.els = 0 ∧ ∀ k r, t.reg k r = q.reg k r) ∧
      (∀ k < q.hart.len, n.toNat < (q.hart.member k).ix.length →
        ∃ t P, exec (.ixins n a b m) s = .next t ∧ t.mem = q.commitChunk.mem ∧
          runs q k P ((t.hart.member k).ix.getD n.toNat {}) fun i p p' =>
            puts p p' (x a q i) (fun _ => x b q i) (x b q i)) ∧
      (decodeFmt .index (q.aScalar r) q.hart.w = none →
        exec (.ixadd n a b r m) s = q.trap { cause := 2, val := q.aScalar r, eside := true }) ∧
      ∀ f, decodeFmt .index (q.aScalar r) q.hart.w = some f →
        (∃ t, exec (.ixadd n a b r m) s = .next t ∧ t.signal = .done ∧ t.hart.els = 0 ∧ ∀ k r, t.reg k r = q.reg k r) ∧
        ∀ k < q.hart.len, n.toNat < (q.hart.member k).ix.length →
          let v (i : Nat) := f.fd.decode (x b q i % 2 ^ f.fd.width)
          ∃ t P, exec (.ixadd n a b r m) s = .next t ∧ t.mem = q.commitChunk.mem ∧
            runs q k P ((t.hart.member k).ix.getD n.toNat {}) fun i p p' =>
              puts p p' (x a q i) (fun old => rnd f.fd f.rm f.sat (.add f.rm (f.fd.decode old) (v i)))
                (rnd f.fd f.rm f.sat (v i))) ∧
    (¬ bad → PlainFills s { srcs := [a], dsts := [d], masks := [m] } d act
      (fun q i => if x a q i = 0xFFFFFFFF then 0xFFFFFFFF
        else match (pair q i).entries.find? fun e => e.1.toNat == x a q i with
          | some e => e.2.toNat
          | none => 0xFFFFFFFF) (exec (.ixfnd n d a m) s)) ∧
    (¬ bad → d ≠ a → AOps.bad { dsts := [d, a] } s.hart = false →
      let q := awaited s { dsts := [d, a] }
      Placed q.hart → ∃ t, exec (.ixout n d a r) s = .next t ∧ t.signal = .done ∧ t.hart.els = 0 ∧ t.mem = q.mem ∧
        ∀ i ∈ q.hart.range,
          let e := (pair q i).entries[(q.aScalar r).toNat + (q.hart.place i).2]?
          t.hart.elem a.toNat i = (match e with | some e => e.1.toNat | none => 0xFFFFFFFF) ∧
          t.hart.elem d.toNat i = (match e with | some e => e.2.toNat | none => 0)) ∧
    ((s.hart.member 0).ix.length ≤ n.toNat → exec (.ixclr n) s = s.illegal 0 true) ∧
    (n.toNat < (s.hart.member 0).ix.length → ∃ t, exec (.ixclr n) s = .next t ∧ t.signal = .done ∧
      ∀ k < s.hart.len, n.toNat < (s.hart.member k).ix.length →
        (t.hart.member k).ix.getD n.toNat {} = { (s.hart.member k).ix.getD n.toNat {} with entries := [] })

/-- O52. The thresher's words and steps. MMA and MMAG put a command behind the others of each member's queue and of
its sheaf's order, MMAG's with its rows still to be gathered and the commands of all members as one group; WLD puts
one load at the end of the order of every sheaf of the furrow and of no other; AZERO clears a tile and marks it
live; AEXT rounds accumulator elements into a register, with EF = 1 in the chain of R55 (R192 to R203). A command
that completes updates every element of its tile as R59 to R61 say, makes the tile live, leaves every other element,
and leaves its queue; one whose unit is gone updates nothing (R197, R318; log 17). The arbiter keeps its position
while it has credit and a ready command, and otherwise takes the next ready position with its weight (R200). A
gather brings its rows and makes its command ready; a load fills its slot with bytes, format and scales; a request
that a row microprogram holds back waits (R194, R198, R365). A tile that does not exist, an operand or a scale register in a bound run, is illegal (R196). The model's own readings here:
MMA, MMAG and AZERO end the chunk (log 13), the operand checks come before the format word's (log 37), waits for a row
microprogram are log 73, AZERO waits for the commands before it (log 42), the moment of a choice is log 110, the translation of WLD log 54, a
gather or a load in one step log 69, and what it reads behind a link that went down log 118. -/
def Obligations.ThresherWords : Prop :=
  (∀ (s : State) (d : BitVec 2) (a b : VReg) (slot : BitVec 1) (r : Reg), s.hart.root = none →
    let n := d.toNat
    let badTile := ∃ m ∈ s.hart.members, m.beds = 0 ∨ 2 ^ m.geo.toNat ≤ n
    let run (k : Nat) := (queueOf s.hart.qst k).isSome = true
    ((badTile ∨ run a.toNat ∨ run (a.toNat + 1)) → exec (.mma d a slot r) s = s.illegal 0 true) ∧
    ((badTile ∨ run a.toNat) → exec (.mmag d a b slot r) s = s.illegal 0 true) ∧
    (badTile → exec (.azero d) s = s.illegal 0 true) ∧
    (decodeFmt .thresher (s.aScalar r) s.hart.w = none → ¬ badTile → ¬ run a.toNat →
      exec (.mmag d a b slot r) s = s.trap { cause := 2, val := s.aScalar r, eside := true } ∧
      (¬ run (a.toNat + 1) → exec (.mma d a slot r) s = s.trap { cause := 2, val := s.aScalar r, eside := true })) ∧
    (∀ f, decodeFmt .thresher (s.aScalar r) s.hart.w = some f → f.scl = true → run f.sv →
      exec (.mma d a slot r) s = s.illegal 0 true ∧ exec (.mmag d a b slot r) s = s.illegal 0 true) ∧
    (∀ f, ¬ badTile → decodeFmt .thresher (s.aScalar r) s.hart.w = some f → (f.scl = true → ¬ run f.sv) →
      (¬ run a.toNat → ¬ run (a.toNat + 1) →
        let q := (s.awaitRegs [f.sv, a.toNat, a.toNat + 1] []).commitChunk
        ∃ t, exec (.mma d a slot r) s = .next t ∧ t.signal = .done ∧
          ((∀ k < q.hart.len, (q.hart.member k).tq.length < 4) → (∀ k r, t.reg k r = q.reg k r) ∧ t.mem = q.mem ∧
            ∀ k < q.hart.len, ∃ c, (t.hart.member k).tq = (q.hart.member k).tq ++ [c] ∧ c.tile = n ∧ c.slot = slot.toNat ∧
              c.ready = true ∧ c.gone = false ∧ c.fw = q.aScalar r ∧ c.mt = 8 * (q.hart.member k).beds ∧
              c.geo = (q.hart.member k).geo.toNat ∧
              c.a = (q.hart.member k).part a.toNat ++ (q.hart.member k).part (a.toNat + 1) ∧
              .cmd (q.hart.member k).tile c.id c.slot ∈ (t.sheaf (sheafOf (q.hart.member k).tile)).order)) ∧
      (¬ run a.toNat →
        let q := (s.awaitRegs [f.sv, a.toNat] []).commitChunk
        let rows := q.allRows a.toNat (q.aScalar (b.setWidth 6)) (BitVec.ofNat 64 f.aux) q.ids
        (∀ e, rows = .error e → exec (.mmag d a b slot r) s = q.trap e) ∧
        (∀ l, rows = .ok l → q.full q.ids = false → ∃ t, exec (.mmag d a b slot r) s = .next t ∧ t.signal = .done ∧
          ((∀ k < q.hart.len, (q.hart.member k).tq.length < 4) → (∀ k r, t.reg k r = q.reg k r) ∧
            ∀ k x, (k, x) ∈ l → k < q.hart.len → ∃ c, (t.hart.member k).tq = (q.hart.member k).tq ++ [c] ∧ c.tile = n ∧
              c.slot = slot.toNat ∧ c.ready = false ∧ c.fw = q.aScalar r ∧ c.mt = 8 * (q.hart.member k).beds ∧
              c.rows = x.map (fun y => match y with | some z => runsOf 128 z.2 | none => []) ∧
              c.group = q.ids.map fun i => ((q.hart.member i).tile, q.nextId + i))))) ∧
    (¬ badTile → let q := s.commitChunk.drainThresher
      ∃ t, exec (.azero d) s = .next t ∧ t.signal = .done ∧ t.mem = q.mem ∧ ∀ k < q.hart.len,
        let m := q.hart.member k
        let wt := 256 / 2 ^ m.geo.toNat
        (t.hart.member k).live = m.live ||| BitVec.ofNat 4 (2 ^ n) ∧
        ∀ i c, i < 8 * m.beds → c < wt → (t.hart.member k).accElem (i * 256 + n * wt + c) = 0)) ∧
  (∀ (s : State) (d : VReg) (a : BitVec 2) (r : Reg) (m : MReg) f, s.hart.root = none →
    (∀ m ∈ s.hart.members, m.beds ≠ 0 ∧ a.toNat < 2 ^ m.geo.toNat) → AOps.bad { dsts := [d], masks := [m] } s.hart = false →
    let q := awaited s { dsts := [d], masks := [m] }
    decodeFmt .extract (q.aScalar r) q.hart.w = some f →
    let act := q.hart.range.filter fun i => q.hart.melem m.toNat i && (q.hart.accFor a.toNat i).isSome
    let x (i : Nat) : Ex := extractValue f ((q.hart.accFor a.toNat i).getD 0).toNat
    (∃ t, exec (.aext d a r m) s = .next t ∧ t.signal = .done ∧ t.hart.els = 0) ∧
    ((∀ m ∈ q.hart.members, m.tq = []) → Placed q.hart →
      (f.ef = false → Fills q d.toNat act (fun i => widen f.fd q.hart.w (rnd f.fd f.rm f.sat (x i))) (exec (.aext d a r m) s)) ∧
      (f.ef = true → ∃ v last, Feedback f q.hart.w q.hart.efr.toNat act x v last ∧
        Fills (q.modHart fun h => { h with efr := BitVec.ofNat 32 last }) d.toNat act v (exec (.aext d a r m) s)))) ∧
  (∀ (s : State) (slot : BitVec 1) (f : LatchFmt) (a b : Reg), s.hart.root = none →
    let n := if f = .i4 then 16384 else 32768
    let checks := s.checkWlds (s.reg 0 a) n s.ids
    let home (i : Nat) := sheafOf (s.hart.member i).tile
    (∀ e, checks = .error e → exec (.wld slot f a b) s = s.trap e) ∧
    ∀ ps, checks = .ok ps → s.commitChunk.full s.ids = false →
      ∃ t, exec (.wld slot f a b) s = .next t ∧ t.signal = .done ∧ (∀ k r, t.reg k r = s.reg k r) ∧
        t.ops.length = s.ops.length + s.hart.len ∧
        (∀ sh, (∀ i < s.hart.len, home i ≠ sh) → (t.sheaf sh).order = (s.sheaf sh).order) ∧
        ∀ i < s.hart.len, (∀ j < i, home j ≠ home i) → ∃ w p, (t.sheaf (home i)).order = (s.sheaf (home i)).order ++ [.wld w] ∧
          w.slot = slot.toNat ∧ w.fmt = f ∧ w.sw0.toNat = (s.reg 0 b).toNat % 2 ^ 32 ∧ w.sw1.toNat = (s.reg 0 b).toNat / 2 ^ 32 ∧
          (i, p) ∈ ps ∧ w.runs = runsOf n p) ∧
  ∀ (s : State) (n : Nat),
    let sh := s.sheaf n
    (∀ k c t id, sh.busy = none → s.arbitrate n = some (k, c, t, id) →
      (∃ u, exec (.thresherArbitration n) s = .next u ∧ u.signal = .done ∧ (u.sheaf n).busy = some (t, id) ∧
        (u.sheaf n).k = k ∧ (u.sheaf n).credit = c ∧ u.mem = s.mem) ∧ s.readyHead n k = some (t, id) ∧
      ((k = sh.k ∧ 0 < sh.credit ∧ c + 1 = sh.credit) ∨
        ((s.readyHead n sh.k = none ∨ sh.credit = 0) ∧ c = sh.thw.toNat / 16 ^ k % 16 - 1 ∧
          ∃ j, 1 ≤ j ∧ j ≤ 8 ∧ k = (sh.k + j) % 8 ∧ ∀ i, 1 ≤ i → i < j → s.readyHead n ((sh.k + i) % 8) = none))) ∧
    (∀ t id, sh.busy = some (t, id) →
      let q := s.endChunkOf t
      let home := q.sheaf (sheafOf t)
      ∃ u, exec (.thresherCommandComplete n) s = .next u ∧ u.signal = .done ∧ u.mem = q.mem ∧
        (∀ m ∈ u.allMembers, m.tile = t → ∀ c ∈ m.tq, c.id ≠ id) ∧ (u.sheaf (sheafOf t)).busy ≠ some (t, id) ∧
        (u.nextReady (sheafOf t) 0 = none → (u.sheaf (sheafOf t)).credit = 0) ∧
        ∀ m c f, q.memberOf t = some m → m.tq.find? (fun c => c.id == id) = some c → formatFields c.fw = some f →
          c.geo ≤ 2 → c.tile < 2 ^ c.geo →
          let w := home.slot c.slot
          let name := slotName (sheafOf t) c.slot
          let wt := 256 / 2 ^ c.geo
          ∃ m', u.memberOf t = some m' ∧
            (c.gone = true → m'.live = m.live ∧ ∀ k, m'.accElem k = m.accElem k) ∧
            (c.gone = false → m'.live = m.live ||| BitVec.ofNat 4 (2 ^ c.tile) ∧
              (∀ r < c.mt, ∀ j < wt, let col := c.tile * wt + j
                KUpdates f (m.accElem (256 * r + col)).toNat (if f.fa = .bf16 then 64 else 128) (aValue c f r)
                  (fun k => bValue (w.byte name) f k col) (c.scales.getD r 0) (w.scale name (col / 128))
                  (m'.accElem (256 * r + col)).toNat) ∧
              ∀ k, (∀ r < c.mt, ∀ j < wt, k ≠ 256 * r + (c.tile * wt + j)) → m'.accElem k = m.accElem k)) ∧
    (∀ tile m c, s.memberOf tile = some m → (m.tq.find? fun c => !c.ready) = some c →
      let held := s.windowsAt c.id (c.rows.flatten.flatMap fun r => blocksOf r.1 r.2)
      (held ≠ [] → ∃ u, exec (.mmagGather tile) s = .next u ∧ u.signal = .done ∧ u.mem = s.mem ∧ u.hart = s.hart ∧
        ∀ x ∈ held, Queued u c.id x) ∧
      (held = [] → ∃ u, exec (.mmagGather tile) s = .next u ∧ u.signal = .done ∧
        let q := s.endChunkOf tile
        (∀ m ∈ u.allMembers, m.tile = tile → ∀ c' ∈ m.tq, c'.id = c.id → c'.ready = true) ∧
        ∀ m2, q.memberOf tile = some m2 → c ∈ m2.tq → ∃ m3, u.memberOf tile = some m3 ∧
          { c with a := c.rows.flatMap (fun r => (q.runBytes r ++ List.replicate 128 0).take 128), ready := true } ∈ m3.tq)) ∧
    ∀ slot w, sh.firstLoad slot = some w →
      let held := s.windowsAt w.id (w.runs.flatMap fun r => blocksOf r.1 r.2)
      (held ≠ [] → ∃ u, exec (.wldSlotLoad n slot) s = .next u ∧ u.signal = .done ∧ u.mem = s.mem ∧
        ∀ x ∈ held, Queued u w.id x) ∧
      (held = [] → ∃ u, exec (.wldSlotLoad n slot) s = .next u ∧ u.signal = .done ∧ u.mem = s.mem ∧
        ((u.sheaf n).slot w.slot).fmt = some w.fmt ∧ ((u.sheaf n).slot w.slot).sw = some (w.sw0, w.sw1) ∧
        (∀ k v, (s.runBytes w.runs)[k]? = some v → lookup ((u.sheaf n).slot w.slot).bytes k = some v) ∧
        (∀ o ∈ u.ops, o.id ∉ w.ops) ∧ .wld w ∉ (u.sheaf n).order)

/-! ### Engines and root cores -/

/-- O53. An engine command that finds room on the range scoreboard completes at once: for every member the next
identifier of its channel goes to s(D) and TXN moves on; an operation of its kind with that member's operands is
then in flight, and a command whose first operand is 0 is complete already, with status OK (R220, R221, R225). That
vector memory in flight is not drained first is log 58. -/
def Obligations.EngineCommandsIssue : Prop :=
  ∀ (s : State) (d a b : Reg) (h : Chan),
    let group (i : Nat) : List Word := [s.reg i a, s.reg i (a + 1), s.reg i (a + 2), s.reg i (a + 3)]
    let pair (i : Nat) : List Word := [s.reg i a, s.reg i b]
    let rows : List (Instr × EngKind × (Nat → List Word)) := [(.rcpy d a h, .plow 0, group), (.rfil d a h, .plow 1, group),
      (.rand d a h, .plow 2, group), (.ror d a h, .plow 3, group), (.rxor d a h, .plow 4, group), (.rnot d a h, .plow 5, group),
      (.rmaj d a h, .plow 6, group), (.rdc d a h, .rdc, group), (.spred d a h, .spred, group), (.rstart d a b h, .rstart, pair)]
    ∀ f ∈ (.copy d a h, .copy, group) :: rows, (f.1 = .copy d a h ∨ s.hart.root = none) →
      s.commitChunk.full (s.ids.filter fun i => (f.2.2 i).getD 0 0 != 0) = false →
      ∃ t, exec f.1 s = .next t ∧ t.signal = .done ∧
        ((∀ i < s.hart.len, ∀ j < s.hart.len, (s.hart.member i).chset = (s.hart.member j).chset → i = j) → ∀ i < s.hart.len,
          let set := (s.hart.member i).chset
          let id := (s.channel set h.toNat).txn
          (t.channel set h.toNat).txn = id + 1 ∧
          (d ≠ 0 → lookup (t.hart.member i).regs d.toNat = some id) ∧
          (s.reg i a ≠ 0 → ∃ o ∈ t.ops, s.nextId ≤ o.id ∧ o.kind = f.2.1 ∧ o.ident = id.toNat ∧ o.chset = set ∧
            o.chan = h.toNat ∧ o.args = f.2.2 i ∧ o.tile = (s.hart.member i).tile) ∧
          (s.reg i a = 0 → id ≠ 0 → id ≠ BitVec.allOnes 64 → ∀ pend, (t.channel set h.toNat).status id.toNat pend = 1))

/-- O54. TXWAIT of an identifier that was never assigned traps; it completes where every member's identifier is
below the watermark, and parks where some member's is not. TXREAD delivers the watermark and TXSTAT the status of an identifier, 6
where it is unknown and the progress and path of its operation while it is pending (R225 to R228). An operation that
ends leaves its status with its channel, and the watermark moves over every identifier that is complete (R26, R222);
one that does not end with OK may leave an event record (log 104). An identifier whose word is no longer kept reads
UNKNOWN by log 51, and TXREAD and TXSTAT are read at issue (log 44). -/
def Obligations.TransactionCompletion : Prop :=
  (∀ (s : State) (d a : Reg) (h : Chan),
    let c i := s.channel (s.hart.member i).chset h.toNat
    (∀ k < s.hart.len, (∀ j < k, (s.reg j a).toNat < (c j).txn.toNat) → (c k).txn.toNat ≤ (s.reg k a).toNat →
      exec (.txwait a h) s = s.trap { cause := 0x0A, val := s.reg k a, member := k }) ∧
    ((∀ k < s.hart.len, (s.reg k a).toNat < (c k).txn.toNat) →
      ((∀ k < s.hart.len, (s.reg k a).toNat < (c k).txw.toNat) →
        exec (.txwait a h) s = .next { s.commitChunk with signal := .done }) ∧
      ((∃ k < s.hart.len, (c k).txw.toNat ≤ (s.reg k a).toNat) → exec (.txwait a h) s = s.commitChunk.wait .txwait)) ∧
    Delivers s d (fun i => (c i).txw) (exec (.txread d h) s) ∧
    Delivers s d (fun i => (c i).status (s.reg i a).toNat (s.pendingWord (s.hart.member i).chset h.toNat (s.reg i a).toNat))
      (exec (.txstat d a h) s)) ∧
  (∀ (c : Channel) id pend, (c.txn.toNat ≤ id ∨ id = 0 ∨ id + 256 < c.txn.toNat) → c.status id pend = 6) ∧
  (∀ (c : Channel) id pend, 0 < id → id < c.txn.toNat → c.txn.toNat ≤ id + 256 → c.txw.toNat ≤ id → lookup c.stat id = none →
    c.status id pend = pend) ∧
  (∀ (s : State) (o : EngOp), o ∈ s.ops → o.kind ≠ .wld →
    (∀ p ∈ s.ops, p.kind ≠ .wld → p.chset = o.chset → p.chan = o.chan → p.ident = o.ident → p = o) →
    let w := s.pendingWord o.chset o.chan o.ident
    field w 7 0 = 0 ∧ field w 15 8 = 0 ∧ field w 19 16 = 0 ∧ field w 23 20 = o.path % 16 ∧
    field w 63 24 = if o.kind = .rstart then 0 else o.prog % 2 ^ 40) ∧
  ∀ (s : State) op (o : EngOp) e, s.ops.find? (fun o => o.id == op) = some o → o.finalStatus = some e →
    let c := s.channel o.chset o.chan
    ∃ t, exec (.engineOperationComplete op) s = .next t ∧ t.signal = .done ∧ (∀ p ∈ t.ops, p.id ≠ op) ∧
      (e.code = 1 ∨ s.evsize = 0 → t.mem = s.mem) ∧
      (t.channel o.chset o.chan).txn = c.txn ∧
      (0 < o.ident → o.ident < c.txn.toNat → c.txn.toNat ≤ o.ident + 256 →
        ∀ pend, (t.channel o.chset o.chan).status o.ident pend = e.word o.path) ∧
      (c.done = [] → c.txw.toNat = o.ident → (t.channel o.chset o.chan).txw = c.txw + 1) ∧
      (c.txw.toNat + c.done.length + 2 < 2 ^ 64 →
        let w := (t.channel o.chset o.chan).txw.toNat
        c.txw.toNat ≤ w ∧ w ∉ c.done ∧ w ≠ o.ident ∧ ∀ j, c.txw.toNat ≤ j → j < w → j ∈ c.done ∨ j = o.ident) ∧
      (c.txw.toNat ∉ c.done → c.txw.toNat ≠ o.ident → (t.channel o.chset o.chan).txw = c.txw)

/-- O55. The steps of the engines complete on every operation in progress, at once or in the queue of a row
microprogram's window. A COPY whose sector is read and written leaves that sector's bytes, a reducing COPY each word
combined with the word at its home; a row-step leaves Table
08.6's row; an RDC leaves each reduced element, its flag and its status; an RSTART finds its root core busy and ends
with BUSY, or starts it with its mailbox; a merge whose members have all sent leaves Table 08.10's image and each
member's status (R223, R230, R232, R237, R240, R241, R244, R300, R359, R365; the first member's translation of DST is log
98, the engine that acts log 108). A write of part of a sector of host memory that fails its check ends with FAULT SUB 8 (R375,
log 79). A member of a merge whose entry in the record has changed ends MALFORMED (R220, R239; log 47). A lone value at a node is
log 71, the clamp of an i32 sum at each node log 127, an RDC, a row-step or the write of a merge in one step log 69, the operand of MALFORMED log 50. -/
def Obligations.EngineSteps : Prop :=
  (∀ (s : State) (o : EngOp) (k : AKind) opnd base off x, s.opXlat o k opnd base off = .ok x →
    (∀ n, k = .read → 0 < n → (base + BitVec.ofNat 64 off).toNat % 32 + n ≤ 32 → s.ownerRefuses x.pa o.ctx = false →
      ∃ u, s.opRead o opnd base off n = .ok (u, (s.useXlat .other x false).peekBytes x.pa n) ∧
        u.mem = (s.useXlat .other x false).mem) ∧
    (∀ n, k = .read → 0 < n → s.ownerRefuses x.pa o.ctx = true → s.opRead o opnd base off n = .error ⟨2, 0, opnd, off⟩) ∧
    ∀ bs, k = .write → bs ≠ [] → (base + BitVec.ofNat 64 off).toNat % 32 + bs.length ≤ 32 →
      (s.ownerRefuses x.pa o.ctx = true → s.opWrite o opnd base off bs = (s, some ⟨2, 0, opnd, off⟩)) ∧
      (s.ownerRefuses x.pa o.ctx = false → bs.length ≠ 32 → s.partFails x = true →
        s.opWrite o opnd base off bs = (s, some ⟨3, 8, opnd, off⟩)) ∧
      (s.ownerRefuses x.pa o.ctx = false → (bs.length = 32 ∨ s.partFails x = false) → Memory.wf s.mem = true →
        ∃ v, s.opWrite o opnd base off bs = (v, none) ∧ Memory.read v.mem x.pa bs.length = bs ∧
          KeepsBytes (s.useXlat .other x true).mem v.mem fun q => x.pa ≤ q ∧ q < x.pa + bs.length)) ∧
  (∀ (s : State) op k (o : EngOp) off, s.activeOp op (fun k => k == .copy) = some o → o.todo[k]? = some off →
    (∃ t, exec (.copyTransfer op k) s = .next t ∧ t.signal = .done) ∧
    Gated s op (s.copyHomes o off) (exec (.copyTransfer op k) s) fun q =>
      let n := min ((o.arg 2).toNat - off) (32 - (o.arg 0 + BitVec.ofNat 64 off).toNat % 32)
      let p := q.placed o .read (o.arg 1 + BitVec.ofNat 64 off)
      (∀ x, q.opRead p 1 (o.arg 1) off n = .error x → StopsWith (exec (.copyTransfer op k) s) op (stopStatus x) s.mem) ∧
      ∀ u bs, q.opRead p 1 (o.arg 1) off n = .ok (u, bs) →
       ((o.arg 3).toNat % 8 ≠ 0 →
        (∀ x, u.opXlat p .atomWrite 0 (o.arg 0) off = .error x →
          StopsWith (exec (.copyTransfer op k) s) op (stopStatus x) u.mem) ∧
        ∀ x, u.opXlat p .atomWrite 0 (o.arg 0) off = .ok x →
          (u.ownerRefuses x.pa o.ctx = true →
            StopsWith (exec (.copyTransfer op k) s) op { code := 2, opnd := 0, detail := off } u.mem) ∧
          (u.ownerRefuses x.pa o.ctx = false → Memory.wf s.mem = true → n % 4 = 0 →
            let w := u.useXlat .other x true
            ∃ t, exec (.copyTransfer op k) s = .next t ∧ t.signal = .done ∧
              (∀ j, 4 * j < n → CopyReduces (o.arg 3) (ofBytes (w.peekBytes (x.pa + 4 * j) 4)) (element 4 bs j)
                (ofBytes (Memory.read t.mem (x.pa + 4 * j) 4))) ∧
              KeepsBytes w.mem t.mem (fun q => x.pa ≤ q ∧ q < x.pa + n) ∧ ∀ p ∈ t.ops, p.id = op → off ∉ p.todo ∧
                (o.todo.length ≤ 1 → p.ended = some { code := 1, detail := o.prog + 1 }))) ∧
       ((o.arg 3).toNat % 8 = 0 →
        (∀ v x, u.opWrite p 0 (o.arg 0) off bs = (v, some x) → StopsWith (exec (.copyTransfer op k) s) op (stopStatus x) v.mem) ∧
        ∀ v, u.opWrite p 0 (o.arg 0) off bs = (v, none) →
          ∃ t, exec (.copyTransfer op k) s = .next t ∧ t.mem = v.mem ∧ ∀ p ∈ t.ops, p.id = op → off ∉ p.todo ∧
            (o.todo.length ≤ 1 → p.ended = some { code := 1, detail := o.prog + 1 }))) ∧
  (∀ (s : State) op (o : EngOp) f, s.activeOp op (fun k => k.plowCode.isSome) = some o → o.kind = .plow f →
    (∃ t, exec (.plowRowStep op) s = .next t ∧ t.signal = .done) ∧
    Gated s op ((plowRowsAt o f o.prog).flatMap fun r =>
        s.homesOf o (rowAccessKind f r.1) (r.2.1 + BitVec.ofNat 64 r.2.2) 1024) (exec (.plowRowStep op) s) fun q0 =>
      let p := q0.placed o .write (o.arg 0 + BitVec.ofNat 64 (1024 * o.prog))
      let path := q0.plowPath p f (plowRowsAt p f o.prog)
      let q := q0.modOp op fun x => { x with path := max x.path path }
      (∀ x, q.plowReads p f o.prog = .error x → StopsWith (exec (.plowRowStep op) s) op (stopStatus x) s.mem) ∧
      ∀ u d a b, q.plowReads p f o.prog = .ok (u, d, a, b) →
        let row := plowResult f d a b
        RowOp f d a b row ∧
        (∀ v x, u.opWrite p 0 (o.arg 0) (1024 * o.prog) row = (v, some x) →
          StopsWith (exec (.plowRowStep op) s) op (stopStatus x) v.mem) ∧
        ∀ v, u.opWrite p 0 (o.arg 0) (1024 * o.prog) row = (v, none) →
          ∃ t, exec (.plowRowStep op) s = .next t ∧ t.mem = v.mem ∧ ∀ x ∈ t.ops, x.id = op →
            x.prog = o.prog + 1 ∧ path ≤ x.path ∧
            (plowRows o.args ≤ o.prog + 1 → x.ended = some { code := 1, detail := o.prog + 1 })) ∧
  (∀ (s : State) op (o : EngOp), s.activeOp op (fun k => k == .rdc) = some o →
    (∃ t, exec (.rdcReduction op) s = .next t ∧ t.signal = .done) ∧
    Gated s op (s.rdcHomes o) (exec (.rdcReduction op) s) fun c =>
      (∀ e, c.rdcChecks o = .error e → StopsWith (exec (.rdcReduction op) s) op e s.mem) ∧
      ∀ q b srcs, c.rdcChecks o = .ok (q, b, srcs) →
        let p := q.placed o .write b.dst
        let bad := q.rdcOwner p b srcs
        let (u, bufs) := q.rdcRead p b.bytes srcs
        let e := b.fmt.width / 8
        let res := b.reduce e b.len bufs
        res.length = e * b.len ∧
        (∀ j < b.len, ∃ v, Reduces b (bufs.map fun l => element e l j) v ∧ element e res j = v % 256 ^ e) ∧
        (bad ≠ [] → ∃ r ∈ bad, ∃ t, exec (.rdcReduction op) s = .next t ∧
          EndsAs t op { code := 2, opnd := r.opnd, detail := r.detail }) ∧
        ∀ v x, bad = [] → u.opWrite p 0 b.dst 0 res = (v, x) →
          let done : EngStatus := { code := 1, detail := b.len }
          (∀ y, x = some y → StopsWith (exec (.rdcReduction op) s) op (stopStatus y) v.mem) ∧
          (x = none → b.flag = 0 → StopsWith (exec (.rdcReduction op) s) op done v.mem) ∧
          ∀ w y, x = none → b.flag ≠ 0 → v.opWrite p 4 b.flag 0 (bytesOf 8 b.fval.toNat) = (w, y) →
            StopsWith (exec (.rdcReduction op) s) op (match y with | some y => stopStatus y | none => done) w.mem) ∧
  (∀ (s : State) op (o : EngOp), s.activeOp op (fun k => k == .rstart) = some o → o.prog = 0 →
    (∃ t, exec (.rstartOperation op) s = .next t ∧ t.signal = .done) ∧
    (∀ x, s.rstartChecks o = .error x → StopsWith (exec (.rstartOperation op) s) op (stopStatus x) s.mem) ∧
    ∀ u g bs, s.rstartChecks o = .ok (u, g, bs) →
      Gated u op (u.homesOf o .read (o.arg 1) 64) (exec (.rstartOperation op) s) fun _ =>
        ((u.rootOf g).state ≠ 0 → StopsWith (exec (.rstartOperation op) s) op { code := 7 } u.mem) ∧
        ((u.rootOf g).state = 0 → ∃ t, exec (.rstartOperation op) s = .next t ∧ (t.rootOf g).state = 2 ∧
          (∀ k < 8, lookupD (t.rootOf g).mbox k 0 = wordAt bs k) ∧
          ∃ h ∈ t.others, h.root = some g ∧ h.run = .running ∧ h.pc = BitVec.ofNat 64 ((o.arg 0).toNat / 128 * 128) + 8 ∧
            h.ctx = o.ctx ∧ h.ptroot0 = o.pt0 ∧ h.ptroot1 = o.pt1 ∧ h.status = 0)) ∧
  (∀ (g : Group) (a b : MNode), (a.pairs.Pairwise fun x y => x.1 < y.1) → (b.pairs.Pairwise fun x y => x.1 < y.1) →
    NodeOf g a b (g.node a b)) ∧
  (∀ lo hi l, ValidStream lo hi l (validStream lo hi none l)) ∧
  (∀ (g : Group) (r : MNode) bad, g.fmt = .i32 ∨ g.fmt = .f32 ∨ g.fmt = .bf16 → g.lo < 2 ^ 32 → g.hi < 2 ^ 32 →
    (r.pairs.Pairwise fun x y => x.1 < y.1) → (∀ p ∈ r.pairs, p.1 < 2 ^ 32 ∧ p.2 < 2 ^ g.fmt.width) →
    r.pairs.length < 2 ^ 32 → ImageOf g r bad (g.image r bad)) ∧
  ∀ (s : State) merge (m : Merge) x l (o : EngOp), s.merges.find? (fun m => m.id == merge) = some m → m.members = x :: l →
    s.ops.find? (fun o => o.id == x.2) = some o →
    (∀ e, s.readGroup o m.raw = .error e → ∃ t, exec (.spredMergeWrite merge) s = .next t ∧ t.signal = .done ∧ t.mem = s.mem ∧
      (∀ y ∈ t.merges, y.id ≠ merge) ∧ ∀ p ∈ s.mergeOps m 256, EndsAs t p.id e) ∧
    ∀ c g raw, s.readGroup o m.raw = .ok (c, g, raw) →
      let src := s.mergeSources m g.g
      (∀ p, p ∈ s.strays m g ↔ ∃ x ∈ m.members, s.ops.find? (fun p => p.id == x.2) = some p ∧ p.ended = none ∧
        g.list[x.1]? ≠ some (p.tile, 0)) ∧
      (s.strays m g ≠ [] → ∃ t, exec (.spredMergeWrite merge) s = .next t ∧ t.signal = .done ∧ t.mem = c.mem ∧
        (∀ p ∈ s.strays m g, EndsAs t p.id { code := 4, sub := 0, opnd := 3 }) ∧
        ∀ y ∈ t.merges, y.id = merge → ∀ z ∈ y.members, ∀ p ∈ s.strays m g, p.id ≠ z.2) ∧
      (s.strays m g = [] → src.length ≠ g.g → exec (.spredMergeWrite merge) s = .fault .notEnabled) ∧
      (s.strays m g = [] → src.length = g.g → (∃ t, exec (.spredMergeWrite merge) s = .next t ∧ t.signal = .done) ∧
        Gated c merge (c.mergeHomes g src) (exec (.spredMergeWrite merge) s) fun q =>
          (∀ p y, q.readStreams g src = .error (p, y) → StopsWith (exec (.spredMergeWrite merge) s) p.id (stopStatus y) c.mem) ∧
          ∀ u raws p, q.readStreams g src = .ok (u, raws) → (src.filterMap Source.op?).head? = some p →
            let streams := raws.map (validStream g.lo g.hi none)
            let bad := streams.any fun r => r.2
            let root := canonSum g.node {} (streams.map fun r => { pairs := r.1 })
            (∀ v y, u.opWrite p 0 g.dst 0 (g.image root bad) = (v, some y) → ∃ t, exec (.spredMergeWrite merge) s = .next t ∧
              t.mem = v.mem ∧ (∀ y ∈ t.merges, y.id ≠ merge) ∧ ∀ z ∈ src.filterMap Source.op?, EndsAs t z.id (stopStatus y)) ∧
            ∀ v, u.opWrite p 0 g.dst 0 (g.image root bad) = (v, none) → ∃ t, exec (.spredMergeWrite merge) s = .next t ∧
              t.mem = v.mem ∧ (∀ y ∈ t.merges, y.id ≠ merge) ∧
              (((src.filterMap Source.op?).map fun z => z.id).Nodup → ∀ (k : Nat) z r, src[k]? = some (.own z) → streams[k]? = some r →
                EndsAs t z.id { code := 1, sub := b2n root.ovf + 2 * b2n bad + 4 * b2n root.force, detail := r.1.length }))

/-- O56. The BANK words are illegal on a tiller (R81). On a root core, BKLD and BKST move a row between the memory
home and a bank accumulator once its checks pass, BKSET writes one doubleword, and BKSEQ runs its program row-step
by row-step, each as R248 gives it, and ends with SUMR's final write; a failed check traps (R246 to R249, R364).
Windows let the requests that wait pass, and no others, and those of one bank in their order (R356, R365). RGO takes a thread back to its root core (R245).
Windows are log 73, and the moment at which BKSEQ reads its descriptor log 53. -/
def Obligations.RootCoreWords : Prop :=
  let acc (u : State) (g n k : Nat) : Byte := lookupD (u.rootOf g).ba (n * 1024 + k) 0
  (∀ (s : State) (n : BitVec 1) (a b : Reg), s.hart.root = none →
    exec (.bkld n a) s = s.illegal ∧ exec (.bkst n a) s = s.illegal ∧ exec (.bkseq a b) s = s.illegal ∧
    exec (.bkset n a b) s = s.illegal) ∧
  (∀ (s : State) g (n : BitVec 1) (a b : Reg), s.hart.root = some g →
    (∀ e, s.rowCheck g .read (s.reg 0 a) = .error e → exec (.bkld n a) s = s.trap e) ∧
    (∀ e, s.rowCheck g .write (s.reg 0 a) = .error e → exec (.bkst n a) s = s.trap e) ∧
    (∀ x, s.rowCheck g .read (s.reg 0 a) = .ok x → rising (s.rootOf g).ba = true →
      let u := s.commitChunk.use 0 x false
      ∃ t, exec (.bkld n a) s = .next t ∧ t.signal = .done ∧ t.mem = u.mem ∧
        ∀ k < 1024, acc t g n.toNat k = u.peek (x.pa + k)) ∧
    (∀ x, s.rowCheck g .write (s.reg 0 a) = .ok x →
      let u := s.commitChunk.use 0 x true
      ∃ t, exec (.bkst n a) s = .next t ∧ t.signal = .done ∧ (Memory.wf s.mem = true →
        (∀ k < 1024, Memory.get t.mem (x.pa + k) = acc s g n.toNat k) ∧
        KeepsBytes u.mem t.mem fun q => x.pa ≤ q ∧ q < x.pa + 1024)) ∧
    (rising (s.rootOf g).ba = true → ∃ t, exec (.bkset n a b) s = .next t ∧ t.signal = .done ∧ ∀ k < 1024,
      let w := (s.reg 0 a).toNat % 128
      (k / 8 = w → acc t g n.toNat k = BitVec.ofNat 8 ((s.reg 0 b).toNat / 256 ^ (k % 8))) ∧
      (k / 8 ≠ w → acc t g n.toNat k = acc s g n.toNat k)) ∧
    ((s.rootOf g).prog = none → ∀ e, s.commitChunk.startProg g (s.reg 0 a) (s.reg 0 b) = .error e →
      exec (.bkseq a b) s = s.trap e) ∧
    (∀ u p, (s.rootOf g).prog = none → s.commitChunk.startProg g (s.reg 0 a) (s.reg 0 b) = .ok (u, p) →
      ((u.rootOf g).mpc.toNat < p.n → ∃ t, exec (.bkseq a b) s = .next t ∧ t.signal = .stalled ∧
        (t.rootOf g).prog = some p ∧ (t.rootOf g).mpc = (u.rootOf g).mpc) ∧
      (p.n ≤ (u.rootOf g).mpc.toNat → exec (.bkseq a b) s = u.endProg g p)) ∧
    (∀ p, (s.rootOf g).prog = some p → (s.rootOf g).mpc.toNat < p.n → exec (.bkseq a b) s = s.wait .drain) ∧
    (∀ p, (s.rootOf g).prog = some p → p.n ≤ (s.rootOf g).mpc.toNat → exec (.bkseq a b) s = s.endProg g p) ∧
    ∀ p, (p.opr ≠ 2 → ∃ t, s.endProg g p = .next t ∧ t.signal = .done ∧ (t.rootOf g).mpc = 0 ∧ (t.rootOf g).prog = none ∧
        t.mem = s.mem) ∧
      (p.opr = 2 → (∀ e, s.rowCheck g .write p.yb = .error e → s.endProg g p = s.trap e) ∧
        ∀ y, s.rowCheck g .write p.yb = .ok y → ∃ t, s.endProg g p = .next t ∧ t.signal = .done ∧ (t.rootOf g).mpc = 0 ∧
          (t.rootOf g).prog = none ∧ (Memory.wf s.mem = true →
            (∀ k < 1024, Memory.get t.mem (y.pa + k) = acc s g 1 k) ∧
            KeepsBytes (s.use 0 y true).mem t.mem fun q => y.pa ≤ q ∧ q < y.pa + 1024))) ∧
  (∀ (s : State) g p, s.hart.root = some g → (s.rootOf g).prog = some p →
    let r := s.rootOf g
    let off := BitVec.ofNat 64 (1024 * r.mpc.toNat)
    (r.mpc.toNat < p.n → r.suspended = false → r.steps < r.rwin.toNat → s.hart.moving = false →
      (∀ e, s.stepRows g p (p.xb + off) (p.yb + off) = .error e → exec .bkseqRowStep s = s.trap e) ∧
      ∀ x y, s.stepRows g p (p.xb + off) (p.yb + off) = .ok (x, y) →
        (∀ y', y = some y' ↔ p.opr ≠ 2 ∧ s.rowCheck g .write (p.yb + off) = .ok y') ∧
        let bx := (s.readRow x).2
        let read := match y with | some y => (s.readRow x).1.readRow y | none => s.readRow x
        let by' := if p.opr = 0 then read.2 else (s.rootOf g).accBytes 1
        ∃ t, exec .bkseqRowStep s = .next t ∧ t.signal = .done ∧ (t.rootOf g).mpc = r.mpc + 1 ∧
          (t.rootOf g).steps = r.steps + 1 ∧ RowStepOf p by' bx (p.rowStep by' bx) ∧
          (rising r.ba = true → ∀ k < 1024, some (acc t g 0 k) = bx[k]? ∧ some (acc t g 1 k) = (p.rowStep by' bx)[k]?) ∧
          (y = none → t.mem = (s.readRow x).1.mem) ∧
          ∀ y', y = some y' → Memory.wf s.mem = true →
            ∀ k < 1024, some (Memory.get t.mem (y'.pa + k)) = (p.rowStep by' bx)[k]?) ∧
    (r.mpc.toNat < p.n → r.suspended = false → r.rwin.toNat ≤ r.steps →
      ∃ t, exec .bkseqWindowEnd s = .next t ∧ t.signal = .done ∧ (t.rootOf g).steps = 0 ∧ (t.rootOf g).mpc = r.mpc ∧
        (t.rootOf g).ba = r.ba ∧ ((t.rootOf g).suspended = true ↔ r.queue ≠ []) ∧
        (t.rootOf g).serving = r.serving ++ r.queue ∧ (t.rootOf g).queue = []) ∧
    (r.suspended = true → (∃ i ∈ r.serving, s.stillWaits i = true) → exec .bkseqResume s = .fault .notEnabled) ∧
    (r.suspended = true → (∀ i ∈ r.serving, s.stillWaits i = false) →
      ∃ t, exec .bkseqResume s = .next t ∧ t.signal = .done ∧ (t.rootOf g).suspended = false ∧
        (t.rootOf g).mpc = r.mpc ∧ (t.rootOf g).ba = r.ba ∧ (t.rootOf g).prog = some p)) ∧
  (∀ (s : State) id pas x, x ∈ s.windowsAt id pas ↔ x.2 ∈ pas ∧ s.pcAt x.2 = some x.1 ∧ ∃ r, lookup s.roots x.1 = some r ∧
    ((∃ p, r.prog = some p ∧ r.mpc.toNat < p.n ∧ ¬ (r.suspended = true ∧ (id, x.2) ∈ r.serving)) ∨
      ∃ e ∈ r.serving.takeWhile (fun e => e != (id, x.2)), e.1 ≠ id ∧ ∃ b, s.bankAt x.2 = some b ∧ s.bankAt e.2 = some b ∧
        s.waitsOnly x.1 e = true)) ∧
  ∀ (s : State) (a : Reg), s.hart.root = none →
    let x := s.aScalar a
    (bit s.hart.origin 63 = false → exec (.rgo a) s = s.illegal 2) ∧
    (bit s.hart.origin 63 = true → (s.hart.len ≠ 1 ∨ s.hart.vl ≠ 0) → exec (.rgo a) s = s.illegal 3) ∧
    (bit s.hart.origin 63 = true → s.hart.len = 1 → s.hart.vl = 0 →
      ((x.toNat % 8 ≠ 0 ∨ x.toNat / 2 ^ 56 ≠ 0) → exec (.rgo a) s = s.trap { cause := 4, sub := 2, val := x }) ∧
      (x.toNat % 8 = 0 → x.toNat / 2 ^ 56 = 0 → s.hart.chunk.conflict = false →
        let g := s.hart.origin.toNat % 1024
        ∃ t, exec (.rgo a) s = .next t ∧ t.signal = .done ∧ t.hart.root = some g ∧ t.hart.pc = x ∧ t.hart.run = .running ∧
          t.hart.status = (if s.hart.priv = true then statusReturn s.hart.status else s.hart.status) ∧
          (t.rootOf g).state = 2))

/-! ### Work and caches -/

/-- O57. LAUNCH forms a launch of the record at s(A) in the job of the issuing unit and writes its handle to s(D);
with 4,096 such launches open it waits (R125). CANCEL leaves the work that its handle names ended or CANCELLING
(R126, R321), and WSTAT delivers that work's status word, whose OUT is the counter's low 32 bits (R310; log 120), 0 for no work (R127). CFLUSH writes the bytes that a
member names back and CINV drops them in the page's scope, and CPREF changes no register (R121, R122). That the
record is checked with the issuer's permissions is log 100, which phases a handle names log 99, and the reason that
older cancelled work keeps log 101. A thread without a launch is log 55, two records at one address log 56, a phase
under a cancel log 57. -/
def Obligations.WorkAndCacheWords : Prop :=
  (∀ (s : State) (d a b : Reg), s.hart.root = none →
    (∀ e, s.checkLaunch (s.reg 0 a) = .error e → exec (.launch d a) s = s.trap e) ∧
    (∀ x, s.checkLaunch (s.reg 0 a) = .ok x →
      let handle := BitVec.ofNat 64 (2 ^ 60 + (s.reg 0 a).toNat % 2 ^ 56)
      (s.ownLaunch = none → ∃ t, exec (.launch d a) s = .next t ∧ t.signal = .done ∧ t.launches = s.launches ∧
        ∀ k < s.hart.len, d ≠ 0 → lookup (t.hart.member k).regs d.toNat = some handle) ∧
      (∀ l, s.ownLaunch = some l → s.children l.job < 4096 →
        ∃ t, exec (.launch d a) s = .next t ∧ t.signal = .done ∧ (∀ k r, r ≠ d → t.reg k r = s.reg k r) ∧
          (∃ y ∈ t.launches, y.id = s.nextId + 1 ∧ y.child = true ∧ y.addr = s.reg 0 a ∧ y.job = l.job) ∧
          t.launches.length = s.launches.length + 1 ∧
          ∀ k < s.hart.len, d ≠ 0 → lookup (t.hart.member k).regs d.toNat = some handle) ∧
      (∀ l, s.ownLaunch = some l → 4096 ≤ s.children l.job → s.hart.park = none →
        exec (.launch d a) s = s.commitChunk.wait .launch)) ∧
    (∀ w, s.handleWork (s.reg 0 a) = some w → ∃ t, exec (.cancel a b) s = .next t ∧ t.signal = .done ∧
      (t.workEnded w = true ∨ t.workCancelling w = true) ∧ ∀ k r, t.reg k r = s.reg k r) ∧
    (s.handleWork (s.reg 0 a) = none → exec (.cancel a b) s = .next { s.commitChunk with signal := .done }) ∧
    (∀ w, s.handleWork (s.reg 0 a) = some w → Delivers s d (fun _ => s.workWord w) (exec (.wstat d a) s)) ∧
    (s.handleWork (s.reg 0 a) = none → Delivers s d (fun _ => 0) (exec (.wstat d a) s))) ∧
  (∀ (st : WState) out reason, reason < 256 →
    (workStatus out reason st).toNat / 2 ^ 32 = out % 2 ^ 32 ∧ (workStatus out reason st).toNat / 2 ^ 8 % 2 ^ 24 = reason ∧
    (workStatus out reason st).toNat % 2 ^ 8 = match st with
      | .waiting | .ready => 1 | .running | .draining | .cancelling => 2 | .done => 3 | .cancelled => 4 | .rejected => 5
      | .faulted => 6) ∧
  ∀ (s : State) (a b : Reg), s.hart.root = none →
    (∃ t, exec (.cpref a b) s = .next t ∧ t.signal = .done ∧ ∀ k r, t.reg k r = s.reg k r) ∧
    (∃ t, exec (.cflush a b) s = .next t) ∧ (∃ t, exec (.cinv a b) s = .next t) ∧
    let q := s.commitChunk
    ((∀ k < s.hart.len, s.reg k b = 0) →
      exec (.cflush a b) s = .next { q with signal := .done } ∧ exec (.cinv a b) s = .next { q with signal := .done }) ∧
    ∀ i < s.hart.len, (∀ k < s.hart.len, k ≠ i → s.reg k b = 0) →
      let va := s.reg i a
      let n := (s.reg i b).toNat
      let tile := (s.hart.member i).tile
      0 < n → va.toNat % 65536 + n ≤ 65536 →
        (∀ c sub, q.xlat i .read va = .error (c, sub) →
          exec (.cflush a b) s = q.trap { cause := c, sub := sub, val := va, member := i }) ∧
        (∀ c sub, q.xlat i .write va = .error (c, sub) →
          exec (.cinv a b) s = q.trap { cause := c, sub := sub, val := va, member := i }) ∧
        (∀ x, q.xlat i .read va = .ok x → ∃ t, exec (.cflush a b) s = .next t ∧ t.signal = .done ∧
          t.mem = (q.use i x false).mem ∧ (∀ k r, t.reg k r = s.reg k r) ∧
          (x.wb = true → ∀ m ∈ t.allMembers, sameInstance x.coh tile m.tile = true →
            ∀ l ∈ m.lines, ∀ p, x.pa ≤ p → p < x.pa + n → l.dirtyAt p = false)) ∧
        (∀ x, q.xlat i .write va = .ok x → ∃ t, exec (.cinv a b) s = .next t ∧ t.signal = .done ∧
          (∀ k r, t.reg k r = s.reg k r) ∧
          (x.wb = true → ∀ m ∈ t.allMembers, sameInstance x.coh tile m.tile = true →
            ∀ p, x.pa ≤ p → p < x.pa + n → m.holds p = false))

/-- O58. The record of a pending job is read once; a job whose record cannot be read or is malformed ends REJECTED,
and another one runs once it may. A running job whose phases so far have ended starts the next, and after the last
one it ends; a launch becomes READY when all before it are DONE, is cancelled when one of them ended otherwise, and
ends when its counter is 0; a flag receives the final status word (R305 to R312). The order of pending jobs is log
60, the states and reasons of work that ends with a part of it log 61, the moment of reading log 30, the flag of
work that never started log 59, and a phase whose place in the table cannot be read log 102. A flag in a
module register is log 31, a flag in a part of a host sector that fails its check log 79, a record on an IO page and ACC of the
walker's reads log 119, and a job record outside HBM log 122. -/
def Obligations.WalkerStartsAndEndsWork : Prop :=
  (∀ (s : State) id (j : Job), s.job? id = some j →
    (j.state = .waiting → j.taken = false → ∃ t, exec (.jobStart id) s = .next t ∧ t.signal = .done ∧
      (s.recordReadable j.record = false → t.mem = s.mem ∧ ∃ k, t.job? id = some k ∧ k.state = .rejected ∧ k.reason = 2) ∧
      (s.recordReadable j.record = true → s.jobRecordOk j.record = false →
        ∃ k, t.job? id = some k ∧ k.state = .rejected ∧ k.reason = 1) ∧
      (s.recordReadable j.record = true → s.jobRecordOk j.record = true → t.mem = s.mem ∧
        ∃ k, t.job? id = some k ∧ k = s.jobRecord id j.record .waiting ∧ k.taken = true ∧
          k.ctx.toNat = (s.peekWord j.record).toNat % 2 ^ 12 ∧ k.prio = (s.peekWord j.record).toNat / 2 ^ 12 % 4 ∧
          k.nph = (s.peekWord j.record).toNat / 2 ^ 16 % 2 ^ 16 ∧ k.pt0 = s.peekWord (j.record + 8) ∧
          k.pt1 = s.peekWord (j.record + 16) ∧ k.pht = s.peekWord (j.record + 24) ∧ k.vec = s.peekWord (j.record + 32) ∧
          k.flag = s.peekWord (j.record + 40))) ∧
    (j.state = .waiting → j.taken = true →
      (s.mayStart j = true → s.jobAhead j = false →
        ∃ t, exec (.jobStart id) s = .next t ∧ t.signal = .done ∧ t.mem = s.mem ∧
          t.job? id = some { j with state := .running, started := true }) ∧
      ((s.mayStart j = false ∨ s.jobAhead j = true) → exec (.jobStart id) s = .fault .notEnabled)) ∧
    (j.state ≠ .waiting → exec (.jobStart id) s = .fault .notEnabled) ∧
    (j.state = .running → j.phase < j.nph → s.phasesEnded id = true →
      ∃ t, exec (.phaseStart id) s = .next t ∧ t.signal = .done ∧ (∃ p ∈ t.phases, p.job = j.id ∧ p.index = j.phase) ∧
        ∃ k, t.job? id = some k ∧ k.phase = j.phase + 1) ∧
    (s.phasesEnded id = true → j.state = .running → j.phase = j.nph →
      let st := combine ((s.phases.filter fun p => p.job == id).map fun p => p.state)
      ∃ t k, exec (.jobEnd id) s = .next t ∧ t.signal = .done ∧ t.job? id = some k ∧ k.reason = 0 ∧ k.state = st ∧
        ∀ x, j.flag ≠ 0 → j.flag.toNat % 8 = 0 → translate (s.writeBackAll 5) j.tctx .write j.flag = .ok x →
          (s.writeBackAll 5).partFails x = false →
          if inRegs x.pa then t.agenda = .event (.moduleRegisterWrite x.pa (workStatus 0 0 st)) :: s.agenda
          else Memory.wf s.mem = true → Memory.read t.mem x.pa 8 = bytesOf 8 (workStatus 0 0 st).toNat) ∧
    (s.phasesEnded id = true → j.state = .cancelling → ∃ t k, exec (.jobEnd id) s = .next t ∧ t.signal = .done ∧
      t.job? id = some k ∧ k.reason = j.reason ∧ k.state = if j.faulted then .faulted else .cancelled) ∧
    (s.phasesEnded id = false → exec (.jobEnd id) s = .fault .notEnabled)) ∧
  (∀ l : List WState, (combine l = .done ↔ ∀ x ∈ l, x = .done) ∧
    (combine l = .faulted ↔ .faulted ∈ l) ∧ (combine l = .cancelled ↔ .faulted ∉ l ∧ ∃ x ∈ l, x ≠ .done)) ∧
  ∀ (s : State) id (l : Launch), s.launch? id = some l →
    let preds := l.preds.filterMap s.launch?
    (l.state = .waiting → (∃ p ∈ preds, p.state.ended = true ∧ p.state ≠ .done) →
      ∃ t k, exec (.launchReady id) s = .next t ∧ t.signal = .done ∧ t.launch? id = some k ∧ k.state = .cancelled ∧ k.reason = 0xFE) ∧
    (l.state = .waiting → (∀ p ∈ preds, p.state = .done) → l.addr.toNat % 64 = 0 → ∀ ws, s.launchWords l = some ws →
      launchOk ws = true → s.shapeExists (l.fill ws) = true →
      ∃ t k, exec (.launchReady id) s = .next t ∧ t.signal = .done ∧ t.launch? id = some k ∧ k.state = .ready ∧
        k.out = k.total ∧ k.rank = s.nextId) ∧
    (l.state = .waiting → (∀ p ∈ preds, p.state = .done) → ∀ reason,
      ((s.launchWords l = none ∧ reason = if l.addr.toNat % 64 = 0 then 2 else 1) ∨
        ∃ ws, s.launchWords l = some ws ∧ ((l.addr.toNat % 64 ≠ 0 ∨ launchOk ws = false) ∧ reason = 1 ∨
          l.addr.toNat % 64 = 0 ∧ launchOk ws = true ∧ s.shapeExists (l.fill ws) = false ∧ reason = 4)) →
      ∃ t k, exec (.launchReady id) s = .next t ∧ t.signal = .done ∧ t.launch? id = some k ∧ k.state = .rejected ∧ k.reason = reason) ∧
    (l.out = 0 → l.state = .draining →
      ∃ t k, exec (.launchEnd id) s = .next t ∧ t.signal = .done ∧ t.launch? id = some k ∧ k.state = .done ∧ k.reason = 0 ∧
        ∀ j x, s.job? l.job = some j → l.flag ≠ 0 → l.flag.toNat % 8 = 0 →
          translate (s.writeBackAll 4) j.tctx .write l.flag = .ok x → (s.writeBackAll 4).partFails x = false →
          if inRegs x.pa then t.agenda = .event (.moduleRegisterWrite x.pa 3) :: s.agenda
          else Memory.wf s.mem = true → Memory.read t.mem x.pa 8 = bytesOf 8 3) ∧
    (l.out = 0 → l.state = .cancelling → ∃ t k, exec (.launchEnd id) s = .next t ∧ t.signal = .done ∧
      t.launch? id = some k ∧ k.reason = l.reason ∧ k.state = if l.faulted then .faulted else .cancelled) ∧
    (l.out ≠ 0 → exec (.launchEnd id) s = .fault .notEnabled)

/-- O59. A unit starts, on free tillers or on those of a unit of its launch that has executed END, with the state of Table 01.7; it
is complete once its furrow has drained, and its tillers are idle then (R116, R316, R318). A request for pre-emption, its expiry,
aging and waking change their one mark; a parked unit that donates is saved, and a saved unit that fits is saved no more (R319 to
R322, R343, R344, R351). The steps of a thread: its chunk is committed or squashed, its WAITA reads again, a root core's thread
moves to a tiller (R281, R283, R117, R346). When a unit runs ahead is log 17, what starts with reset values log 16, that each start applies the record log 123, which furrow and
stack slot are taken logs 84 and 65, a thread that waits for its mailbox's tiller log 126, the order and the moments of service logs 62 to 64, the room for a frame log 29, that the members of a furrow make a bundle's accesses jointly or apart
log 93, what a chunk behind a RECVW does log 8, and the training copy log 89. A chunk commit makes memory what the furrow's
members see; where a member's accesses are made apart each one is a chunk of its own, and together they are the word's (R281, R283).
-/
def Obligations.UnitsAndThreads : Prop :=
  (∀ (s : State) id tiller slot (l : Launch) (j : Job), s.launch? id = some l → s.job? l.job = some j → l.handsOut = true →
    l.slotFree slot = true → s.dieAllows l (dieOf tiller) = true →
    let old := s.endingAt l tiller
    let level := s.launchLevel l
    let members := s.startMembers old tiller l.len
    let h := (s.unitHart l j members slot).runsAhead old
    (old.isSome = true ∨ s.furrowOk l.len l.pmode s.busyTiles tiller = true) →
      ((s.ahead level (some l.rank) l.id (dieOf tiller) = true ∨ s.held l (dieOf tiller) = true ∨ s.ringWaits l = true) →
        exec (.unitStart id tiller slot) s = .fault .notEnabled) ∧
      (s.ahead level (some l.rank) l.id (dieOf tiller) = false → s.held l (dieOf tiller) = false → s.ringWaits l = false →
        (∃ t, exec (.unitStart id tiller slot) s = .next t ∧ t.signal = .done ∧ (s.nextId ≠ 0 → h ∈ t.harts)) ∧
        h.pc = l.entry ∧ h.status.toNat = 2 + 2 ^ 8 * (bit l.ctl 26).toNat + 2 ^ 9 * (bit l.ctl 27).toNat + 2 ^ 10 * (bit l.ctl 24).toNat ∧
        h.ctx = j.ctx ∧ h.ptroot0 = j.pt0 ∧ h.ptroot1 = j.pt1 ∧ h.vec = j.vec ∧ h.vl = 0 ∧ h.els = 0 ∧ h.qst = 0 ∧ h.tmr = 0 ∧
        h.prio.toNat = s.effPrio l % 2 ^ 64 ∧ h.len = l.len ∧ h.vmax.toNat = h.capacity % 2 ^ 19 ∧
        ∀ k < l.len, (members[k]?).map (fun m => m.tile) = some (h.member k).tile ∧ (h.member k).wmode = l.pmode ∧ (h.member k).live = 0 ∧
          (h.member k).geo.toNat = l.geo ∧ (h.member k).link = none ∧ lookup (h.member k).regs 4 = some l.args ∧
          lookup (h.member k).regs 2 = some (if l.nslot = 0 ∨ l.stksz = 0 then 0
            else BitVec.ofNat 64 (l.stkb.toNat + (slot * l.len + k + 1) * l.stksz)) ∧
          (∀ x < 4, lookup (h.member k).regs (56 + x) = some (BitVec.ofNat 64 ((indices (field l.ctl 2 0) (l.bounds.getD 0 1)
            (l.bounds.getD 1 1) (l.bounds.getD 2 1) (l.bounds.getD 3 1) l.next).getD x 0))) ∧
          lookup (h.member k).regs 55 = some (BitVec.ofNat 64 l.next) ∧ lookup (h.member k).regs 1 = none)) ∧
  (∀ order n0 n1 n2 n3 u, UnitIndices order n0 n1 n2 n3 u fun x => (indices order n0 n1 n2 n3 u).getD x 0) ∧
  (∀ order n0 n1 n2 n3, 0 < n2 → 0 < n3 → n0 ≤ 2 ^ 32 → n1 ≤ 2 ^ 32 → order = 2 ∨ order = 4 →
    Enumerates n0 n1 (if order = 2 then DiagonalBefore else MortonBefore) fun q =>
      let l := indices order n0 n1 n2 n3 (q * (n2 * n3))
      (l.getD 0 0, l.getD 1 0)) ∧
  (∀ (s : State) id (h : Hart), id ≠ 0 → s.hart = h → h.id = id →
    (h.prior = [] → h.run = .ending → h.vops = [] → (∀ m ∈ h.members, m.tq = []) → h.root = none →
      ∃ t, exec (.unitCompletion id) s = .next t ∧ t.signal = .done ∧
        (h.unit.isSome = true → ∀ m ∈ h.members, ∃ x, lookup t.idle m.tile = some x)) ∧
    ∀ p, h.prior.find? h.finished = some p → ∃ t, exec (.unitCompletion id) s = .next t ∧ t.signal = .done ∧ t.hart.id = id ∧
      t.hart.run = h.run ∧ ∀ q ∈ t.hart.prior, q ∈ h.prior ∧ q.unit ≠ p.unit) ∧
  (∀ (s : State) id (h : Hart), s.harts.find? (fun h => h.id == id) = some h → h.unitRuns = true →
    (h.preq = false → s.starvedBy h = true → ∃ t, exec (.preemptionRequest id) s = .next t ∧ t.signal = .done ∧
      t.mem = s.mem ∧ ∀ g ∈ t.harts, g.id = id → g.preq = true) ∧
    (s.starvedBy h = false → exec (.preemptionRequest id) s = .fault .notEnabled) ∧
    (h.preq = true → h.lhold ≠ 0 → h.expired = false → ∃ t, exec (.lholdDeferralExpiry id) s = .next t ∧ t.signal = .done ∧
      t.mem = s.mem ∧ ∀ g ∈ t.harts, g.id = id → g.expired = true)) ∧
  (∀ (s : State) id (u : Saved), s.saved.find? (fun u => u.id == id) = some u →
    (u.ready = true → u.risen < u.prio → ∃ t, exec (.priorityAging true id) s = .next t ∧ t.signal = .done ∧
      t.saved.find? (fun u => u.id == id) = some { u with risen := u.risen + 1 }) ∧
    (u.watch.isSome = true → u.ready = false → ∃ t, exec (.watchWake id) s = .next t ∧ t.signal = .done ∧
      t.saved.find? (fun u => u.id == id) = some { u with ready := true }) ∧
    (∀ tiller, u.ready = true → s.savedFits s.busyTiles u tiller = true → s.ahead u.level none u.id (dieOf tiller) = false →
      s.passesOver u tiller = false →
      ∃ t, exec (.savedUnitResume id tiller) s = .next t ∧ t.signal = .done ∧ ∀ v ∈ t.saved, v.id ≠ id) ∧
    ∀ tiller x, u.unit.bind (fun r => s.launch? r.launch) = some x → x.iring = true → x.die ≠ some (dieOf tiller) →
      exec (.savedUnitResume id tiller) s = .fault .notEnabled) ∧
  (∀ (s : State) id (l : Launch), s.launch? id = some l → l.handsOut = true → l.risen < s.effPrio l →
    ∃ t, exec (.priorityAging false id) s = .next t ∧ t.signal = .done ∧ t.launch? id = some { l with risen := l.risen + 1 }) ∧
  (∀ (s : State) w t, s.hart.park.bind Park.donates = some w → s.hart.unitRuns = true → Settled s →
    ¬ CancelDue s → ¬ TimerDue s → s.hart.preemptable = false → s.fitsWithin s.hart = true → s.saveUnit 2 2 0 true w w.isNone = some t →
    exec .furrowDonation s = .next { t.noteGift (s.hart.members.map fun m => m.tile) s.jobOf with signal := .done } ∧
      t.hart = Hart.absent ∧ (s.hart.chunk.conflict = false →
        ∃ u ∈ t.saved, u.unit = s.hart.unit ∧ u.watch = w ∧ u.cancel = s.hart.cancel ∧ (s.hart.woken = true → u.ready = true))) ∧
  (∀ s : State, s.chunkOpen = true → s.hart.chunk.conflict = false →
    let c := s.hart.chunk
    ∃ t, exec .chunkCommit s = .next t ∧ t.signal = .done ∧ (∀ k r, t.reg k r = s.reg k r) ∧
      (s.hart.owed = [] → t.hart.chunk = {} ∧
        (c.leaves = [] → Memory.wf s.mem = true → 0 < s.hart.len → (∀ e ∈ c.wset, e.1 < s.hart.len) →
          (∀ i < s.hart.len, rising (lookupD c.wbuf i []) = true ∧ ∀ b ∈ lookupD c.wbuf i [], (i, sectorOf b.1) ∈ c.wset) →
          ∀ pa, Memory.get t.mem pa = (c.byte pa (s.hart.len - 1)).getD (Memory.get s.mem pa)))) ∧
  (∀ s : State, s.hart.chunk.conflict = true →
    (∀ c, lookup s.ckpts s.hart.id = some c → ∃ t, exec .chunkCommit s = .next t ∧ t.signal = .undone ∧ t.hart.pc = c.pc ∧
      t.mem = s.mem ∧ t.hart.chunk.wbuf = [] ∧ t.hart.chunk.conflict = false) ∧
    (lookup s.ckpts s.hart.id = none → s.hart.owed ≠ [] → exec .chunkCommit s = .next (s.goBack s.hart.seen))) ∧
  (∀ s : State, s.chunkOpen = false → exec .chunkCommit s = .fault .notEnabled) ∧
  (∀ i w (s : State) as t, scalarWord i = some w → w.atomic = false → w.start s = some (as, t) → t.hart.chunk.conflict = false →
    (as.map fun a => a.1.i) = List.range s.hart.len ∧
    exec i s = (as.foldl (fun (s : State) a => w.act s a.1 a.2) t).ok) ∧
  (∀ s rest p w, s.agenda = .bundle :: rest → s.err = 0 → s.hart.id ≠ 0 → s.hart.run = .running → s.hart.moving = false →
    s.hart.chunk.conflict = false → s.hart.parts = some p → scalarWord p.word = some w → s.calm = true → p.todo ≠ [] →
    ∃ (k : Nat) (a : MAcc × Word), p.todo[k]? = some a ∧
      let t := (w.act { s.advance with agenda := rest } a.1 a.2).commitChunk
      let left := p.todo.eraseIdx k
      (left ≠ [] → step s = (t.modHart fun h => { h with parts := some { p with todo := left } }).ok) ∧
      (left = [] → step s = ((t.modHart fun h => { h with parts := none }).finish p.sw p.began).ok)) ∧
  (∀ (s : State) k, s.hart.park = some (.waita k) → exec .waitaReread s = .next { s with
    agenda := .bundle :: s.agenda, signal := .done }) ∧
  (∀ s : State, s.hart.id ≠ 0 → s.hart.run = .running → s.hart.moving = false → s.hart.training = true → s.hart.unit.isSome = true →
    exec .trainingClassCopy s = .next { s with signal := .done }) ∧
  (∀ (s : State) g t, s.hart.id ≠ 0 → s.hart.run = .running → s.hart.moving = false → s.hart.root = some g →
    s.hart.after = none → s.hart.chunk.conflict = false → s.mustShip = some t → t.quiesce.hart.root = some g →
    ∃ u, exec .returnTrap s = .next u ∧ u.hart = Hart.absent ∧ (u.rootOf g).state = 4 ∧
      u.saved.length = t.quiesce.saved.length + 1) ∧
  ∀ (s : State) g, s.hart.root = some g → g < 1024 → s.hart.moving = true →
    ∃ u, exec .rootCoreTrapMigration s = .next u ∧ u.signal = .done ∧ u.hart = Hart.absent ∧ (u.rootOf g).state = 4 ∧
      ∃ v ∈ u.saved, ∃ th, v.thread = some th ∧ bit th.origin 63 = true ∧ bit th.origin 62 = true ∧ th.moving = false

/-! ### The module and its surroundings -/

/-- O60. The stages follow one another while no error halts the module, and a reset leaves memory to the next stage
MEMORY (R368, R369, R372). A write to a module register has its register's effect: RMFRAC holds until stage COMPUTE
fixes it, JOBP accepts or rejects, JOBC cancels, START begins an idle root core, and OWN stores the tag (R262, R321,
R359, R362, R367, R370, R378). The host, the peers and SPDM reach what their checks allow, and read all ones or
nothing elsewhere; power, wear and losses are recorded, and refresh does nothing (R302, R303, R349, R356, R371 to
R380). What the host and the peers may do is taken as acts of the surroundings (log 1); the figures of a stage are
log 4, memory that its owners fill log 5, ciphertext and tags log 79, the sources of events log 104, machine-check
kinds log 88, 125 degrees log 80, cryptography log 103, and messages in every stage log 81. Mapped-out parts of a
peer are log 27, streams from links log 52, CXL.mem under a dirty copy log 75, EVBASE log 23, what a module reset
keeps log 78, event records log 76, accesses that wait for a row microprogram log 73. A JOBP of an address that is in use already and whose
record cannot be read gives REASON 2, and host accesses to a mapped-out pseudo-channel count as outside the windows: these are
the model's readings (log 122). -/
def Obligations.ModuleAndSurroundings : Prop :=
  ∀ s : State,
    let reply (r : Result) (p : State → Prop) : Prop := ∃ t, r = .next t ∧ t.signal = .done ∧ p t
    let stays : State := { s with signal := .done }
    -- Reset and the stages.
    (∀ fw : Firmware, reply (exec (.moduleReset fw) s) fun t => t.stage = 1 ∧
      (t.err = 0 ↔ Config.sm3 fw.key = Config.fusedKey ∧ Config.sm2Accepts fw.key (Config.sm3 fw.image) fw.signature = true ∧
        Config.minVersion ≤ fw.version) ∧ (t.err ≠ 0 → t.err = 1) ∧
      t.mem = s.mem ∧ t.faultLog = s.faultLog ∧ t.hart = Hart.absent ∧ t.jobs = [] ∧ t.ops = [] ∧ t.rmLock = false) ∧
    (∀ trained pcmap a b c d, s.stage = 1 → s.err = 0 → stageFigures pcmap a b c d = true →
      reply (exec (.stageMemory trained pcmap a b c d) s) fun t => t.stage = 2 ∧ (trained = false → t.err = 2) ∧
        (trained = true → t.err = 0 ∧ t.csbase = a ∧ t.cssize = b ∧ t.evbase = c ∧ t.evsize = d ∧
          (∀ g, g ∈ t.pcmap ↔ g ∈ pcmap ∨ g ∈ s.nextOut) ∧
          (Memory.wf s.mem = true → ∀ p, Memory.get t.mem p = if p < Config.hbmSize then 0 else Memory.get s.mem p))) ∧
    (∀ tmap lanes, s.stage = 2 → s.err = 0 → (∀ p ∈ tmap, p.1 < Config.tillers ∧ p.2 ≤ 2) →
      (∀ p ∈ lanes, p.1 < Config.tillers ∧ p.2 < 256) →
      reply (exec (.stageCompute tmap lanes) s) fun t => t.stage = 3 ∧ t.rmLock = true ∧ t.mem = s.mem ∧
        (t.err = 0 ↔ t.someBeds = true) ∧ (t.err ≠ 0 → t.err = 3) ∧
        ((tmap.map fun p => p.1).Nodup → ∀ x c, ((x, c) ∈ tmap ∨ (∀ d, (x, d) ∉ tmap) ∧ c = 1) →
          t.tmapOf x = if x ∈ s.nextHalf ∧ c = 1 then 2 else c) ∧
        ((lanes.map fun p => p.1).Nodup → ∀ p ∈ lanes, (t.idleMember p.1).groups.toNat = p.2 ∧
          lookup t.laneMap p.1 = some p.2)) ∧
    (s.stage = 3 → s.err = 0 → ∀ up, reply (exec (.stageLinks up) s) fun t => t.stage = 4 ∧
      ∀ j < 16, t.linkup.getLsbD j = true ↔ j ∈ up) ∧
    (s.err ≠ 0 → ∀ b pcmap a c d e tmap lanes up, exec (.stageMemory b pcmap a c d e) s = .fault .notEnabled ∧
      exec (.stageCompute tmap lanes) s = .fault .notEnabled ∧ exec (.stageLinks up) s = .fault .notEnabled) ∧
    -- Module registers.
    (∀ v, reply (exec (.rmfrac v) s) fun t => t.rmF.toNat =
      if s.rmLock = true ∨ s.stage.toNat < 2 ∨ s.err ≠ 0 then s.rmF.toNat else min (v.toNat % 16) 8) ∧
    (∀ v, let pa := field v 51 6 * 64
      reply (exec (.jobp v) s) fun t =>
        ((s.stage.toNat < 3 ∨ s.err ≠ 0 ∨ 1024 ≤ s.pendingJobs) → t.rej = true ∧ t.jobs = s.jobs ∧ t.accepted = s.accepted) ∧
        (3 ≤ s.stage.toNat → s.err = 0 → s.pendingJobs < 1024 → t.accepted = s.accepted + 1 ∧
          ((∀ j ∈ s.jobs, j.record = pa → j.state.ended = true) →
            t.jobs = s.jobs ++ [{ id := s.nextId, record := pa, state := .waiting }]) ∧
          ((∃ j ∈ s.jobs, j.record = pa ∧ j.state.ended = false) → ∃ j ∈ t.jobs, j.id = s.nextId ∧ j.record = pa ∧
            j.state = .rejected ∧ j.reason = if s.recordReadable pa then 3 else 2))) ∧
    (∀ v, let named (j : Job) : Bool := j.record == field v 51 6 * 64 && !j.state.ended
      (s.jobs.find? named = none → exec (.jobc v) s = .next stays) ∧
      ∀ j, s.jobs.find? named = some j → s.job? j.id = some j →
        ((s.jobOver j = true ∨ j.state = .cancelling) → exec (.jobc v) s = .next stays) ∧
        (s.jobOver j = false → j.state ≠ .cancelling → reply (exec (.jobc v) s) fun t =>
          ∃ k, t.job? j.id = some k ∧ k.state = .cancelling ∧ k.reason = v.toNat % 64)) ∧
    (∀ g v, g < 1024 →
      (s.err ≠ 0 → exec (.start g v) s = .next stays) ∧
      (s.err = 0 → (s.rootOf g).state = 0 → reply (exec (.start g v) s) fun t => (t.rootOf g).state = 2 ∧
        (t.rootOf g).starts = (s.rootOf g).starts + 1 ∧
        ∃ h ∈ t.others, h.root = some g ∧ h.pc.toNat = v.toNat / 128 % 2 ^ 49 * 128 + 8 ∧ h.status = 0 ∧
          h.ctx = (s.rootOf g).hctx ∧ h.ptroot0 = (s.rootOf g).hpt0 ∧ h.ptroot1 = (s.rootOf g).hpt1 ∧
          ∀ m ∈ h.members, ∀ k < 8, lookup m.regs (k + 4) = some (lookupD (s.rootOf g).mbox k 0)) ∧
      (s.err = 0 → (s.rootOf g).state ≠ 0 → reply (exec (.start g v) s) fun t => (t.rootOf g).ref = true ∧
        (t.rootOf g).state = (s.rootOf g).state ∧ t.others = s.others) ∧
      ∀ b < 16,
        let id := s.outsideId (.own g b v)
        let held := s.windowsAt id [Config.regBase + 0x100000 + 0x1000 * g + 0x80 + 8 * b]
        (held = [] → reply (exec (.own g b v) s) fun t =>
          (lookupD (t.rootOf g).own b 0).toNat = v.toNat % 2 ^ 13 ∧ t.mem = s.mem) ∧
        (held ≠ [] → reply (exec (.own g b v) s) fun t => (t.rootOf g).own = (s.rootOf g).own ∧ t.mem = s.mem ∧
          (id, .own g b v) ∈ t.waiting ∧ ∀ x ∈ held, Queued t id x)) ∧
    (∀ v, let write (off : Nat) : Result := exec (.moduleRegisterWrite (Config.regBase + off) v) s
      (∀ off < Config.regSize, off % 8 = 0 → reply (write off) fun _ => True) ∧
      (∀ off, off % 8 ≠ 0 → write off = .fault .notEnabled) ∧ (s.calm = true → s.waiting = [] →
      write 0x100 = exec (.rmfrac v) s ∧ write 0x200 = exec (.jobp v) s ∧ write 0x208 = exec (.jobc v) s ∧
      write 0x210 = .next { stays with rej := s.rej && !bit v 0 } ∧
      reply (write 0x400) (fun t => t.limit.toNat = max 1000 (min (v.toNat % 2 ^ 16) 3800) ∧
        t.draw.toNat = min s.draw.toNat t.limit.toNat ∧ t.mem = s.mem) ∧
      write 0x500 = .next { stays with mcValid := s.mcValid && !bit v 0 } ∧
      write 0x600 = .next { stays with evbase := field v 39 12 * 4096, evpos := 0 } ∧
      write 0x608 = .next { stays with evsize := v.toNat, evpos := 0 } ∧
      (∀ off < 0x100000, off % 8 = 0 → off ∉ [0x100, 0x200, 0x208, 0x210, 0x400, 0x500, 0x600, 0x608] → write off = .next stays) ∧
      ∀ g < 1024, let at' (o : Nat) : Result := write (0x100000 + 0x1000 * g + o)
        let busy : Prop := (s.rootOf g).state ≠ 0
        at' 0x40 = (if s.err = 0 then exec (.start g v) s else .next stays) ∧ (∀ n < 16, at' (0x80 + 8 * n) = exec (.own g n v) s) ∧
        (∀ k < 8, reply (at' (8 * k)) fun t => (busy → (t.rootOf g).ref = true ∧ (t.rootOf g).mbox = (s.rootOf g).mbox) ∧
          (¬ busy → lookup (t.rootOf g).mbox k = some v)) ∧
        reply (at' 0x48) (fun t => (busy → (t.rootOf g).ref = true ∧ (t.rootOf g).flaga = (s.rootOf g).flaga) ∧
          (¬ busy → (t.rootOf g).flaga.toNat = v.toNat / 8 % 2 ^ 53 * 8)) ∧
        reply (at' 0x50) (fun t => ((t.rootOf g).ref = true ↔ (s.rootOf g).ref = true ∧ bit v 8 = false)) ∧
        reply (at' 0x60) (fun t => (t.rootOf g).hctx.toNat = v.toNat % 2 ^ 12) ∧
        reply (at' 0x68) (fun t => (t.rootOf g).hpt0 = v &&& rootMask) ∧
        reply (at' 0x70) (fun t => (t.rootOf g).hpt1 = v &&& rootMask))) ∧
    -- The host.
    (∀ r pa n, (r = .memRead pa n ∨ r = .cacheRead pa n ∨ ∃ bs : List Byte, n = bs.length ∧ (r = .memWrite pa bs ∨ r = .cacheWrite pa bs)) →
      let reaches := match r with | .memRead .. | .memWrite .. => s.hostReaches pa n | _ => s.hostCoherent pa n
      let id := s.outsideId (.hostAccess r)
      let held := s.windowsAt id (blocksOf pa n)
      (reaches = false → reply (exec (.hostAccess r) s) fun t => t.reply.refused = true ∧ (s.evsize = 0 → t.mem = s.mem) ∧
        ((∃ p, r = .memRead p n ∨ r = .cacheRead p n) → t.reply.bytes = List.replicate n 0xFF)) ∧
      (reaches = true → held ≠ [] → reply (exec (.hostAccess r) s) fun t => t.mem = s.mem ∧
        t.agenda = s.agenda ∧ (id, .hostAccess r) ∈ t.waiting ∧ ∀ x ∈ held, Queued t id x) ∧
      (reaches = true → held = [] → reply (exec (.hostAccess r) s) fun t => t.reply.refused = false ∧
        (r = .memRead pa n → t.mem = s.mem ∧ t.reply.bytes.length = n ∧ ∀ k < n, t.reply.bytes[k]? = some (s.homeByte (pa + k))) ∧
        (r = .cacheRead pa n → t.mem = s.mem ∧ t.reply.bytes.length = n ∧
          ∀ k < n, t.reply.bytes[k]? = some (if inHost pa then s.hostByte (pa + k) else s.peek (pa + k))) ∧
        ∀ bs : List Byte, bs ≠ [] → Memory.wf s.mem = true →
          (r = .cacheWrite pa bs ∨ r = .memWrite pa bs ∧
            ∀ m ∈ s.allMembers, ∀ l ∈ m.lines, ∀ p ∈ l.home, p.1 < pa ∨ pa + bs.length ≤ p.1) →
          Memory.read t.mem pa bs.length = bs ∧ KeepsBytes s.mem t.mem fun q => pa ≤ q ∧ q < pa + bs.length)) ∧
    (∀ pa b, s.hostReaches pa 1 = true →
      s.windowsAt (s.outsideId (.hostAccess (.memWrite pa [b]))) (blocksOf pa 1) = [] →
      (∃ m ∈ s.allMembers, ∃ l ∈ m.lines, l.coh ≠ 5 ∧ ∃ p ∈ l.home, p.1 = pa) →
      reply (exec (.hostAccess (.memWrite pa [b])) s) fun t => t.homeByte pa = b) ∧
    (∀ pa n, inRegs pa = true → (n = 1 ∨ n = 2 ∨ n = 4 ∨ n = 8) → pa % n = 0 →
      let off := pa - Config.regBase
      reply (exec (.hostAccess (.regRead pa n)) s) (fun t => t.mem = s.mem ∧ t.reply.bytes.length = n ∧
        ofBytes t.reply.bytes = s.readRegAt (off / 8 * 8) / 256 ^ (off % 8) % 256 ^ n) ∧
      (n ≠ 8 → reply (exec (.hostAccess (.regWriteNarrow pa n)) s) fun t => t.reply.refused = true ∧
        (s.evsize = 0 → t.mem = s.mem) ∧ t.jobs = s.jobs ∧ t.roots.map (fun p => (p.1, p.2.state)) = s.roots.map fun p => (p.1, p.2.state))) ∧
    (∀ pa bs, inHost pa = true → bs ≠ [] → inHost (pa + bs.length - 1) = true → Memory.wf s.mem = true →
      reply (exec (.hostAccess (.ownMemory pa bs)) s) fun t => Memory.read t.mem pa bs.length = bs ∧
        KeepsBytes s.mem t.mem (fun q => pa ≤ q ∧ q < pa + bs.length) ∧ ∀ k < bs.length, lookup t.sealed (sectorOf (pa + k)) = none) ∧
    (∀ pa n, inHost pa = true → 0 < n → inHost (pa + n - 1) = true →
      reply (exec (.hostAccess (.ownRead pa n)) s) fun t => t.mem = s.mem ∧ t.reply.bytes.length = n ∧
        ∀ k < n, t.reply.bytes[k]? = some (s.hostByte (pa + k))) ∧
    (∀ line, (∃ p ∈ s.sealed, p.1 / 2 = line) → reply (exec (.hostAccess (.tagRefused line)) s) fun t =>
      s.evsize = 0 → ∀ p ∈ t.sealed, p.1 / 2 ≠ line) ∧
    -- The peers.
    ((∀ k w, (k, w) ∈ s.kslots → ¬ (bit w.1 0 = true ∧ bit w.1 1 = true)) → ∀ pa n, s.peerAccepts pa n = false) ∧
    (∀ link r, (s.linkup.getLsbD link = false ∨ s.err ≠ 0) → exec (.peerAccess link r) s = .fault .notEnabled) ∧
    (∀ link, s.linkup.getLsbD link = true → s.err = 0 →
      (∀ pa n, (s.peerAccepts pa n = false → reply (exec (.peerAccess link (.read pa n)) s) fun t => t.reply.refused = true ∧ t.mem = s.mem) ∧
        (s.peerAccepts pa n = true → s.windowsAt (s.outsideId (.peerAccess link (.read pa n))) (blocksOf pa n) = [] → reply (exec (.peerAccess link (.read pa n)) s) fun t =>
          t.mem = s.mem ∧ t.reply.refused = false ∧ t.reply.bytes = s.peekBytes pa n)) ∧
      (∀ pa bs, (s.peerAccepts pa bs.length = false → reply (exec (.peerAccess link (.write pa bs)) s) fun t => t.mem = s.mem) ∧
        let id := s.outsideId (.peerAccess link (.write pa bs))
        let held := s.windowsAt id (blocksOf pa bs.length)
        (s.peerAccepts pa bs.length = true → held ≠ [] →
          reply (exec (.peerAccess link (.write pa bs)) s) fun t => t.mem = s.mem ∧ t.agenda = s.agenda ∧
            (id, .peerAccess link (.write pa bs)) ∈ t.waiting ∧ ∀ x ∈ held, Queued t id x) ∧
        (s.peerAccepts pa bs.length = true → held = [] → bs ≠ [] → Memory.wf s.mem = true →
          reply (exec (.peerAccess link (.write pa bs)) s) fun t => Memory.read t.mem pa bs.length = bs ∧
            KeepsBytes s.mem t.mem fun q => pa ≤ q ∧ q < pa + bs.length)) ∧
      (∀ pa, reply (exec (.peerAccess link (.badWrite pa)) s) fun t => t.reply.refused = true ∧ (s.evsize = 0 → t.mem = s.mem)) ∧
      (∀ pa bs, inPeer pa = true → linkOf pa = link → bs ≠ [] → linkOf (pa + bs.length - 1) = link → Memory.wf s.mem = true →
        reply (exec (.peerAccess link (.ownWrite pa bs)) s) fun t => Memory.read t.mem pa bs.length = bs) ∧
      (∀ op o, s.ops.find? (fun o => o.id == op) = some o →
        (s.farWrite o link ≠ none ↔ o.ended = none ∧ ∃ w ∈ s.writesOf o, ∃ x,
          translate s (o.tctx s) .write (w.2.1 + BitVec.ofNat 64 w.2.2) = .ok x ∧ inPeer x.pa = true ∧ linkOf x.pa = link) ∧
        (s.farWrite o link = none → exec (.peerAccess link (.failed op)) s = .fault .notEnabled) ∧
        ∀ e, s.farWrite o link = some e → e.code = 3 ∧ e.sub = 8 ∧
          ((o.kind ≠ .spred ∨ s.openMerge o = none) → StopsWith (exec (.peerAccess link (.failed op)) s) op e s.mem) ∧
          ∀ m g, o.kind = .spred → s.openMerge o = some (m, g) →
            reply (exec (.peerAccess link (.failed op)) s) fun t => t.mem = s.mem ∧ (∀ y ∈ t.merges, y.id ≠ m.id) ∧
              ∀ p ∈ s.mergeOps m g.g, EndsAs t p.id e) ∧
      (∀ merge m x l o c g raw k pairs, s.merges.find? (fun m => m.id == merge) = some m → m.members = x :: l →
        s.ops.find? (fun o => o.id == x.2) = some o → s.readGroup o m.raw = .ok (c, g, raw) →
        (g.list[k]?.map fun e => e.2) = some (link + 1) → (∀ y ∈ m.far, y.1 ≠ k) →
        reply (exec (.peerAccess link (.stream merge k pairs)) s) fun t => t.mem = s.mem ∧
          t.merges.find? (fun m => m.id == merge) = some { m with far := m.far ++ [(k, pairs)] }) ∧
      reply (exec (.linkDown link) s) fun t => t.linkup.getLsbD link = false ∧ (∀ j, j ≠ link → t.linkup.getLsbD j = s.linkup.getLsbD j) ∧
        (∀ o e, o ∈ s.ops → (∀ p ∈ s.ops, p.id = o.id → p = o) → s.overLink o link = some e → EndsAs t o.id e) ∧
        ∀ m ∈ s.merges, s.mergeOver m link = true → ∀ n ∈ t.merges, n.id ≠ m.id) ∧
    (∀ link, s.linkup.getLsbD link = false → exec (.linkDown link) s = .fault .notEnabled) ∧
    -- Uzoduja.
    (let guarded (m : SpdmMsg) : Prop := (∃ a b c d e, m = .installKey a b c d e) ∨ (∃ a b, m = .openWindow a b) ∨
        (∃ a, m = .closeWindow a) ∨ m = .readFaultLog ∨ m = .ideKeys ∨ m = .ideStop
      let answer (r : Reply) : Result := .next { stays with reply := r }
      (∀ m, guarded m → s.session = none → exec (.spdmMessage m) s = answer { refused := true }) ∧
      (∀ key, s.session = some key →
        let ok (bs : List Byte) : Reply := { bytes := Config.secured key bs }
        (∀ slot peer wbase tagb wsize,
          (slot < 4 → reply (exec (.spdmMessage (.installKey slot peer wbase tagb wsize)) s) fun t =>
            t.reply = ok [] ∧ lookup t.keys slot = some s.nextId ∧ ∃ w0 w1, lookup t.kslots slot = some (w0, w1) ∧
              bit w0 0 = true ∧ bit w0 1 = peer ∧ field w0 51 16 = wbase % 2 ^ 36 ∧ field w1 51 16 = tagb % 2 ^ 36 ∧
              field w1 15 0 = wsize % 2 ^ 16) ∧
          (4 ≤ slot → exec (.spdmMessage (.installKey slot peer wbase tagb wsize)) s = answer { refused := true })) ∧
        (∀ base size, base + size ≤ Config.hbmSize →
          exec (.spdmMessage (.openWindow base size)) s = .next { stays with reply := ok [], windows := s.windows ++ [(base, size)] }) ∧
        (∀ base size, Config.hbmSize < base + size → exec (.spdmMessage (.openWindow base size)) s = answer { refused := true }) ∧
        (∀ base, (∃ j ∈ s.jobs, j.state.ended = false) → exec (.spdmMessage (.closeWindow base)) s = answer { refused := true }) ∧
        (∀ base, (∀ j ∈ s.jobs, j.state.ended = true) → reply (exec (.spdmMessage (.closeWindow base)) s) fun t =>
          t.reply = ok [] ∧ ∀ w, w ∈ t.windows ↔ w ∈ s.windows ∧ w.1 ≠ base) ∧
        exec (.spdmMessage .readFaultLog) s = answer (ok (s.faultLog.flatMap FaultEntry.bytes)) ∧
        exec (.spdmMessage .ideKeys) s = .next { stays with reply := ok [], ide := true } ∧
        exec (.spdmMessage .ideStop) s = .next { stays with reply := ok [], ide := false }) ∧
      (∀ k, (1 ≤ k ∧ k ≤ 4) → ∃ d : BitVec 256, exec (.spdmMessage (.getMeasurement k)) s =
        answer { bytes := bytesOf 32 d.toNat ++ Config.sm2Sign (bytesOf 32 d.toNat) }) ∧
      (∀ k, (k = 0 ∨ 4 < k) → exec (.spdmMessage (.getMeasurement k)) s = answer { refused := true }) ∧
      (∀ data, exec (.spdmMessage (.keyExchange data)) s = .next { stays with
        reply := { bytes := Config.sm2Share data ++ Config.sm2Sign (data ++ Config.sm2Share data) }
        session := some (Config.sm2Agree data) }) ∧
      exec (.spdmMessage .endSession) s = .next { stays with reply := {}, session := none } ∧
      (∀ slot, exec (.spdmMessage (.getCertificate slot)) s =
        answer (if slot = 0 then { bytes := Config.certificates } else { refused := true })) ∧
      ∀ nonce, exec (.spdmMessage (.challenge nonce)) s = answer { bytes := Config.sm2Sign nonce }) ∧
    -- Losses, power, wear and refresh.
    (∀ bed tiller, tiller < Config.tillers → bed < 4 → s.tmapOf tiller = 1 → pairMode (s.tiller tiller).wmode bed = 1 →
      (lookupD (s.tiller tiller).spares bed 0 < 4 → reply (exec (.laneRetirement tiller bed) s) fun t =>
        (t.tiller tiller).groups = (s.tiller tiller).groups + 1 ∧
        (t.tiller tiller).events.toNat = min ((s.tiller tiller).events.toNat + 1) 0xFFFFFFFF ∧
        lookupD (t.tiller tiller).spares bed 0 = lookupD (s.tiller tiller).spares bed 0 + 1) ∧
      (4 ≤ lookupD (s.tiller tiller).spares bed 0 → reply (exec (.laneRetirement tiller bed) s) fun t =>
        t.mcValid = true ∧ t.hart = Hart.absent ∧ t.others = [] ∧ t.ops = [] ∧ ∀ j ∈ t.jobs, j.state.ended = true)) ∧
    (∀ kind (loss : Loss), 1 ≤ kind → kind ≤ 6 → reply (exec (.machineCheck kind loss) s) fun t =>
      t.mcValid = true ∧ t.mcKind.toNat = kind ∧ t.mcSeq = BitVec.ofNat 48 (s.faultLog.length + 1) ∧ t.messages = s.messages + 1 ∧
      t.hart = Hart.absent ∧ t.others = [] ∧ t.ops = [] ∧ t.saved = [] ∧
      t.faultLog = s.faultLog ++ [⟨s.faultLog.length + 1, kind, 0, 0⟩] ∧ t.mem = s.mem ∧
      (∀ j ∈ t.jobs, j.state.ended = true) ∧ (∀ l ∈ t.launches, l.state.ended = true) ∧
      (∀ l ∈ s.launches, l.state.ended = false → ∃ x ∈ t.launches, x.id = l.id ∧ x.state = .faulted ∧ x.reason = 0x20) ∧
      (∀ k, k ∈ t.poisoned ↔ k ∈ loss.poisoned ∨ k ∈ s.poisoned) ∧ (∀ x, x ∈ t.nextHalf ↔ x ∈ loss.halves ∨ x ∈ s.nextHalf) ∧
      (∀ g, g ∈ t.nextOut ↔ g ∈ loss.parts ∨ g ∈ s.nextOut ∨ ∃ k ∈ loss.poisoned, ownerPc s.rmF.toNat (32 * k) = some g) ∧
      t.err = if kind = 6 then 4 else s.err) ∧
    (∀ kind loss, kind = 0 ∨ 6 < kind → exec (.machineCheck kind loss) s = .fault .notEnabled) ∧
    (∀ cause, ((∃ e, fetchLine s s.hart.handler = .error e) ∨
        ∃ x line, fetchLine s s.hart.handler = .ok (x, line) ∧ headerOk (slotsOf line) = false) →
      (s.enterHandler cause).mcValid = true ∧ (s.enterHandler cause).mcKind = 7 ∧ (s.enterHandler cause).hart = Hart.absent ∧
      (s.enterHandler cause).faultLog = s.faultLog ++ [⟨s.faultLog.length + 1, 7, lineOf s.hart.handler, cause⟩]) ∧
    (∀ draw celsius, reply (exec (.thermalThrottle draw celsius) s) fun t => t.draw.toNat = min draw s.limit.toNat ∧
      t.throt = decide (s.limit.toNat < draw ∨ 105 ≤ celsius) ∧
      (celsius < 125 → t.err = s.err ∧ (t.throt = false ∨ s.evsize = 0 → t.mem = s.mem ∧ t.hart = s.hart)) ∧
      (125 ≤ celsius → t.err = 4 ∧ t.mcValid = true ∧ t.mcKind = 6 ∧ t.hart = Hart.absent ∧ t.others = [] ∧
        ∀ j ∈ t.jobs, j.state.ended = true)) ∧
    (∀ wear days, reply (exec (.wearUpdate wear days) s) fun t => t.eol.toNat = min days 0xFFFFFFFF ∧
      ∀ (k : Nat) v, k < 8 → wear[k]? = some v → (lookupD t.wear k 0).toNat = v.toNat % 2 ^ 48) ∧
    ∀ pc bank, pc < 1024 → bank < 16 → 2 ≤ s.stage.toNat →
      exec (.dramRefresh pc bank) s = .next stays

end
end

