-- ==== Sys2Proof/Laws/Maps.lean ====
section
/-! SUPPORT. Laws of the sparse tables: reading after a change, and the order of the keys. -/

namespace Sys2Proof.Machine

/-- Reading what was put in. -/
theorem lookup_insert_self {α : Type} (m : SMap α) (k : Nat) (v : α) : lookup (insert m k v) k = some v := by
  induction m with
  | nil => simp [insert, lookup]
  | cons x m ih =>
    obtain ⟨j, w⟩ := x
    simp only [insert]
    split
    · simp [lookup]
    · split
      · simp [lookup]
      · next h1 h2 => simp [lookup, ih, Ne.symm h2, h1]

/-- An insertion leaves the other keys alone. -/
theorem lookup_insert_ne {α : Type} (m : SMap α) (k i : Nat) (v : α) (h : i ≠ k) :
    lookup (insert m k v) i = lookup m i := by
  induction m with
  | nil => simp [insert, lookup, Ne.symm h]
  | cons x m ih =>
    obtain ⟨j, w⟩ := x
    simp only [insert]
    split
    · next h1 =>
      simp only [lookup, Ne.symm h, if_false]
      split
      · next h2 => rw [if_neg (by omega), if_pos (by omega)]
      · rfl
    · split
      · next h1 h2 =>
        subst h2
        simp only [lookup, Ne.symm h, if_false]
      · simp only [lookup, ih]

@[simp] theorem lookupD_insert_self {α : Type} (m : SMap α) (k : Nat) (v d : α) :
    lookupD (insert m k v) k d = v := by
  simp [lookupD, lookup_insert_self]

theorem lookupD_insert_ne {α : Type} (m : SMap α) (k i : Nat) (v d : α) (h : i ≠ k) :
    lookupD (insert m k v) i d = lookupD m i d := by
  simp [lookupD, lookup_insert_ne m k i v h]

/-- Every key of the table lies above `n`. -/
def above {α : Type} (n : Nat) (m : SMap α) : Prop := ∀ x ∈ m, n < x.1

theorem rising_cons {α : Type} (j : Nat) (w : α) (m : SMap α) :
    rising ((j, w) :: m) = true ↔ above j m ∧ rising m = true := by
  constructor
  · intro h
    induction m generalizing j w with
    | nil => exact ⟨fun x hx => absurd hx (by simp), rfl⟩
    | cons y m ih =>
      obtain ⟨k, v⟩ := y
      have h' : j < k ∧ rising ((k, v) :: m) = true := by simpa [rising] using h
      refine ⟨fun x hx => ?_, h'.2⟩
      rcases List.mem_cons.mp hx with rfl | hx
      · exact h'.1
      · exact Nat.lt_trans h'.1 ((ih k v h'.2).1 x hx)
  · rintro ⟨ha, hr⟩
    cases m with
    | nil => rfl
    | cons y m =>
      have := ha y (List.mem_cons_self ..)
      simp only [rising, Bool.and_eq_true, decide_eq_true_eq] at hr ⊢
      exact ⟨this, hr⟩

/-- A key below all keys of a table is not listed. -/
theorem lookup_above {α : Type} (n : Nat) (m : SMap α) (h : above n m) : lookup m n = none := by
  cases m with
  | nil => rfl
  | cons x m =>
    have : n < x.1 := h x (List.mem_cons_self ..)
    obtain ⟨j, w⟩ := x
    simp only [lookup]
    rw [if_neg (by simp at this; omega), if_pos (by simpa using this)]

theorem mem_insert {α : Type} (m : SMap α) (k : Nat) (v : α) (x : Nat × α) (h : x ∈ insert m k v) :
    x = (k, v) ∨ x ∈ m := by
  induction m with
  | nil => simp [insert] at h; simp [h]
  | cons y m ih =>
    obtain ⟨j, w⟩ := y
    simp only [insert] at h
    split at h
    · simpa using h
    · split at h
      · rcases List.mem_cons.mp h with h | h
        · exact .inl h
        · exact .inr (List.mem_cons_of_mem _ h)
      · rcases List.mem_cons.mp h with h | h
        · exact .inr (h ▸ List.mem_cons_self ..)
        · exact (ih h).imp id (List.mem_cons_of_mem _)

theorem mem_erase {α : Type} (m : SMap α) (k : Nat) (x : Nat × α) (h : x ∈ erase m k) : x ∈ m := by
  induction m with
  | nil => simp [erase] at h
  | cons y m ih =>
    obtain ⟨j, w⟩ := y
    simp only [erase] at h
    split at h
    · exact List.mem_cons_of_mem _ h
    · split at h
      · exact h
      · rcases List.mem_cons.mp h with h | h
        · exact h ▸ List.mem_cons_self ..
        · exact List.mem_cons_of_mem _ (ih h)

theorem rising_insert {α : Type} (m : SMap α) (k : Nat) (v : α) (h : rising m = true) :
    rising (insert m k v) = true := by
  induction m with
  | nil => rfl
  | cons y m ih =>
    obtain ⟨j, w⟩ := y
    obtain ⟨ha, hr⟩ := (rising_cons j w m).mp h
    simp only [insert]
    split
    · next h1 =>
      refine (rising_cons ..).mpr ⟨fun x hx => ?_, h⟩
      rcases List.mem_cons.mp hx with rfl | hx
      · exact h1
      · exact Nat.lt_trans h1 (ha x hx)
    · split
      · next h1 h2 => subst h2; exact (rising_cons ..).mpr ⟨ha, hr⟩
      · next h1 h2 =>
        refine (rising_cons ..).mpr ⟨fun x hx => ?_, ih hr⟩
        rcases mem_insert m k v x hx with rfl | hx
        · simp; omega
        · exact ha x hx

theorem rising_erase {α : Type} (m : SMap α) (k : Nat) (h : rising m = true) : rising (erase m k) = true := by
  induction m with
  | nil => rfl
  | cons y m ih =>
    obtain ⟨j, w⟩ := y
    obtain ⟨ha, hr⟩ := (rising_cons j w m).mp h
    simp only [erase]
    split
    · exact hr
    · split
      · exact h
      · exact (rising_cons ..).mpr ⟨fun x hx => ha x (mem_erase m k x hx), ih hr⟩

theorem rising_filter {α : Type} (m : SMap α) (p : Nat × α → Bool) (h : rising m = true) :
    rising (m.filter p) = true := by
  induction m with
  | nil => rfl
  | cons y m ih =>
    obtain ⟨j, w⟩ := y
    obtain ⟨ha, hr⟩ := (rising_cons j w m).mp h
    simp only [List.filter]
    split
    · exact (rising_cons ..).mpr ⟨fun x hx => ha x (List.mem_filter.mp hx).1, ih hr⟩
    · exact ih hr

/-- An erased key is not listed. -/
theorem lookup_erase_self {α : Type} (m : SMap α) (k : Nat) (h : rising m = true) : lookup (erase m k) k = none := by
  induction m with
  | nil => rfl
  | cons y m ih =>
    obtain ⟨j, w⟩ := y
    obtain ⟨ha, hr⟩ := (rising_cons j w m).mp h
    simp only [erase]
    split
    · next h1 => subst h1; exact lookup_above _ m ha
    · split
      · next h1 h2 => simp [lookup, h1, h2]
      · next h1 h2 => simp [lookup, h1, h2, ih hr]

/-- An erasure leaves the other keys alone. -/
theorem lookup_erase_ne {α : Type} (m : SMap α) (k i : Nat) (hi : i ≠ k) (h : rising m = true) :
    lookup (erase m k) i = lookup m i := by
  induction m with
  | nil => rfl
  | cons y m ih =>
    obtain ⟨j, w⟩ := y
    obtain ⟨ha, hr⟩ := (rising_cons j w m).mp h
    simp only [erase]
    split
    · next h1 =>
      subst h1
      simp only [lookup, Ne.symm hi, if_false]
      split
      · next h2 => exact lookup_above _ m fun x hx => Nat.lt_trans h2 (ha x hx)
      · rfl
    · split
      · rfl
      · simp only [lookup, ih hr]

theorem numsFrom_length (n k : Nat) : (numsFrom n k).length = k := by
  induction k generalizing n with
  | zero => rfl
  | succ k ih => simp [numsFrom, ih]

theorem mem_numsFrom (n k i : Nat) : i ∈ numsFrom n k ↔ n ≤ i ∧ i < n + k := by
  induction k generalizing n with
  | zero => simp [numsFrom]
  | succ k ih => simp [numsFrom, ih]; omega

theorem bytesOf_length (n x : Nat) : (bytesOf n x).length = n := by
  induction n generalizing x with
  | zero => rfl
  | succ n ih => simp [bytesOf, ih]

/-- Little-endian bytes of a number give it back, modulo 2^(8n). -/
theorem ofBytes_bytesOf (n x : Nat) : ofBytes (bytesOf n x) = x % 256 ^ n := by
  induction n generalizing x with
  | zero => simp [bytesOf, ofBytes, Nat.mod_one]
  | succ n ih =>
    have h : (BitVec.ofNat 8 x).toNat = x % 256 := BitVec.toNat_ofNat x 8
    rw [bytesOf, ofBytes, ih, h, Nat.pow_succ', Nat.mod_mul]

end Sys2Proof.Machine
end

