-- ==== Sys2Proof/Laws/Memory.lean ====
section
/-! SUPPORT. Laws of physical memory: the canonical form is kept, a read after a write of the same byte
gives it, and a write leaves every other byte alone. -/

namespace Sys2Proof.Machine

theorem Memory.wf_iff (m : List Host.Cell) :
    Memory.wf m = true ↔ rising m = true ∧ ∀ x ∈ m, x.2 ≠ Memory.default x.1 := by
  simp [Memory.wf]

theorem Memory.wf_nil : Memory.wf [] = true := rfl

/-- A put keeps the canonical form. -/
theorem Memory.wf_put (m : List Host.Cell) (pa : Nat) (b : Byte) (h : Memory.wf m = true) :
    Memory.wf (Memory.put m pa b) = true := by
  obtain ⟨hr, hd⟩ := (Memory.wf_iff m).mp h
  unfold Memory.put
  split
  · exact (Memory.wf_iff _).mpr ⟨rising_erase m pa hr, fun x hx => hd x (mem_erase m pa x hx)⟩
  · next hb =>
    refine (Memory.wf_iff _).mpr ⟨rising_insert m pa b hr, fun x hx => ?_⟩
    rcases mem_insert m pa b x hx with rfl | hx
    · exact hb
    · exact hd x hx

/-- A write of bytes keeps the canonical form. -/
theorem Memory.wf_write (m : List Host.Cell) (pa : Nat) (bs : List Byte) (h : Memory.wf m = true) :
    Memory.wf (Memory.write m pa bs) = true := by
  induction bs generalizing m pa with
  | nil => exact h
  | cons b bs ih => exact ih _ _ (Memory.wf_put m pa b h)

/-- Dropping cells keeps the canonical form. -/
theorem Memory.wf_filter (m : List Host.Cell) (p : Host.Cell → Bool) (h : Memory.wf m = true) :
    Memory.wf (m.filter p) = true := by
  obtain ⟨hr, hd⟩ := (Memory.wf_iff m).mp h
  exact (Memory.wf_iff _).mpr ⟨rising_filter m p hr, fun x hx => hd x (List.mem_filter.mp hx).1⟩

/-- A fold of puts keeps the canonical form. -/
theorem Memory.wf_foldl_put (l : List (Nat × Byte)) (m : List Host.Cell) (h : Memory.wf m = true) :
    Memory.wf (l.foldl (fun m p => Memory.put m p.1 p.2) m) = true := by
  induction l generalizing m with
  | nil => exact h
  | cons p l ih => exact ih _ (Memory.wf_put m p.1 p.2 h)

/-- A fold of any operation that keeps the canonical form keeps it. -/
theorem Memory.wf_foldl {α : Type} (f : List Host.Cell → α → List Host.Cell)
    (hf : ∀ m x, Memory.wf m = true → Memory.wf (f m x) = true) (l : List α) (m : List Host.Cell)
    (h : Memory.wf m = true) : Memory.wf (l.foldl f m) = true := by
  induction l generalizing m with
  | nil => exact h
  | cons x l ih => exact ih _ (hf m x h)

/-- The marking of a page-table entry keeps the canonical form. -/
theorem Memory.wf_markPte (m : List Host.Cell) (a : Nat) (d : Bool) (h : Memory.wf m = true) :
    Memory.wf (markPte m a d) = true := Memory.wf_put _ _ _ h

/-- The byte that was put is read. -/
theorem Memory.get_put_self (m : List Host.Cell) (pa : Nat) (b : Byte) (h : Memory.wf m = true) :
    Memory.get (Memory.put m pa b) pa = b := by
  unfold Memory.get Memory.put
  split
  · next hb => simp [lookupD, lookup_erase_self m pa ((Memory.wf_iff m).mp h).1, hb]
  · simp

/-- A put leaves the other bytes alone. -/
theorem Memory.get_put_ne (m : List Host.Cell) (pa q : Nat) (b : Byte) (hq : q ≠ pa) (h : Memory.wf m = true) :
    Memory.get (Memory.put m pa b) q = Memory.get m q := by
  unfold Memory.get Memory.put
  split
  · simp [lookupD, lookup_erase_ne m pa q hq ((Memory.wf_iff m).mp h).1]
  · exact lookupD_insert_ne m pa q b _ hq

/-- A write leaves every byte outside its range alone. -/
theorem Memory.get_write_out (m : List Host.Cell) (pa q : Nat) (bs : List Byte)
    (hq : q < pa ∨ pa + bs.length ≤ q) (h : Memory.wf m = true) :
    Memory.get (Memory.write m pa bs) q = Memory.get m q := by
  induction bs generalizing m pa with
  | nil => rfl
  | cons b bs ih =>
    simp only [List.length_cons] at hq
    rw [Memory.write, ih _ _ (by omega) (Memory.wf_put m pa b h), Memory.get_put_ne m pa q b (by omega) h]

/-- Byte `k` of what was written is read at its place. -/
theorem Memory.get_write_in (m : List Host.Cell) (pa k : Nat) (bs : List Byte) (hk : k < bs.length)
    (h : Memory.wf m = true) : Memory.get (Memory.write m pa bs) (pa + k) = bs[k] := by
  induction bs generalizing m pa k with
  | nil => simp at hk
  | cons b bs ih =>
    cases k with
    | zero =>
      rw [Memory.write, Memory.get_write_out _ _ _ _ (by omega) (Memory.wf_put m pa b h)]
      simpa using Memory.get_put_self m pa b h
    | succ k =>
      have := ih (Memory.put m pa b) (pa + 1) k (by simpa using hk) (Memory.wf_put m pa b h)
      simpa [Memory.write, Nat.add_assoc, Nat.add_comm 1 k] using this

theorem Memory.read_length (m : List Host.Cell) (pa n : Nat) : (Memory.read m pa n).length = n := by
  induction n generalizing pa with
  | zero => rfl
  | succ n ih => simp [Memory.read, ih]

theorem State.peekBytes_length (s : State) (pa n : Nat) : (s.peekBytes pa n).length = n := by
  induction n generalizing pa with
  | zero => rfl
  | succ n ih => simp [State.peekBytes, ih]

end Sys2Proof.Machine
end

