-- ==== Sys2Proof/Laws/Canon.lean ====
section
/-! SUPPORT. The shared operations keep memory in its canonical form: one lemma for each. -/

namespace Sys2Proof.Machine

open Sys2Proof.Safety

/-- A state with the same memory. -/
theorem canon_same {s t : State} (hm : t.mem = s.mem) (hu : t.undo = s.undo) (h : MemoryCanonical s) :
    MemoryCanonical t := by
  unfold MemoryCanonical; rw [hm, hu]; exact h

/-- A state with other memory in canonical form. -/
theorem canon_mem {s t : State} (hm : Memory.wf t.mem = true) (hu : t.undo = s.undo) (h : MemoryCanonical s) :
    MemoryCanonical t := by
  refine ⟨hm, ?_⟩; rw [hu]; exact h.2

/-- A fold of an operation that keeps the form. -/
theorem canon_foldl {α : Type} {f : State → α → State}
    (hf : ∀ s x, MemoryCanonical s → MemoryCanonical (f s x)) (l : List α) {s : State}
    (h : MemoryCanonical s) : MemoryCanonical (l.foldl f s) := by
  induction l generalizing s with
  | nil => exact h
  | cons x l ih => exact ih (hf s x h)

/-- A choice between two states. -/
theorem canon_ite {c : Prop} [Decidable c] {s t : State} (hs : MemoryCanonical s) (ht : MemoryCanonical t) :
    MemoryCanonical (if c then s else t) := by split <;> assumption

variable {s : State}

/-! ### Parts of the state -/

theorem canon_modHart (f : Hart → Hart) (h : MemoryCanonical s) : MemoryCanonical (s.modHart f) := h
theorem canon_mapHarts (f : Hart → Hart) (h : MemoryCanonical s) : MemoryCanonical (s.mapHarts f) := h
theorem canon_mapAll (f : Member → Member) (h : MemoryCanonical s) : MemoryCanonical (s.mapAll f) := h
theorem canon_modRoot (g : Nat) (f : RootCore → RootCore) (h : MemoryCanonical s) : MemoryCanonical (s.modRoot g f) := h
theorem canon_modSheaf (n : Nat) (f : Sheaf → Sheaf) (h : MemoryCanonical s) : MemoryCanonical (s.modSheaf n f) := h
theorem canon_modChannel (a b : Nat) (f : Channel → Channel) (h : MemoryCanonical s) :
    MemoryCanonical (s.modChannel a b f) := h
theorem canon_setRegs (r : Reg) (f : Nat → Word) (h : MemoryCanonical s) : MemoryCanonical (s.setRegs r f) := h
theorem canon_asyncRegs (r : Reg) (f : Nat → Word) (h : MemoryCanonical s) : MemoryCanonical (s.asyncRegs r f) := h
theorem canon_modJob (n : Nat) (f : Job → Job) (h : MemoryCanonical s) : MemoryCanonical (s.modJob n f) := h
theorem canon_modPhase (n : Nat) (f : Phase → Phase) (h : MemoryCanonical s) : MemoryCanonical (s.modPhase n f) := h
theorem canon_modGraph (n : Nat) (f : Graph → Graph) (h : MemoryCanonical s) : MemoryCanonical (s.modGraph n f) := h
theorem canon_modLaunch (n : Nat) (f : Launch → Launch) (h : MemoryCanonical s) : MemoryCanonical (s.modLaunch n f) := h
theorem canon_modOp (n : Nat) (f : EngOp → EngOp) (h : MemoryCanonical s) : MemoryCanonical (s.modOp n f) := h
theorem canon_modVop (n : Nat) (f : VOp → VOp) (h : MemoryCanonical s) : MemoryCanonical (s.modVop n f) := h

theorem canon_evseq (x : SMap Nat) (h : MemoryCanonical s) : MemoryCanonical { s with evseq := x } := h
theorem canon_evpos (x : Nat) (h : MemoryCanonical s) : MemoryCanonical { s with evpos := x } := h
theorem canon_rings (x : List Ring) (h : MemoryCanonical s) : MemoryCanonical { s with rings := x } := h
theorem canon_memory (m : List Host.Cell) (hm : Memory.wf m = true) (h : MemoryCanonical s) :
    MemoryCanonical { s with mem := m } := ⟨hm, h.2⟩

/-! ### Caches and translations -/

theorem canon_flushSector (pa : Nat) (inv : Bool) (h : MemoryCanonical s) : MemoryCanonical (s.flushSector pa inv) :=
  canon_ite h h

theorem canon_touch (t : Nat) (p : Policy) (a b : Bool) (pa coh : Nat) (h : MemoryCanonical s) :
    MemoryCanonical (s.touch t p a b pa coh) := canon_mapAll _ (canon_ite h h)

theorem canon_seal (sec : Nat) (h : MemoryCanonical s) : MemoryCanonical (s.seal sec) := by
  unfold State.seal; split <;> exact h

theorem canon_countWrite (sec : Nat) (h : MemoryCanonical s) : MemoryCanonical (s.countWrite sec) := canon_ite h h

theorem canon_unseal (l : List Nat) (h : MemoryCanonical s) : MemoryCanonical (s.unseal l) := h

theorem canon_sealWrite (w : Writer) (sec : Nat) (h : MemoryCanonical s) : MemoryCanonical (s.sealWrite w sec) :=
  canon_ite (canon_unseal _ h) (canon_countWrite _ h)

theorem canon_sealIf (w : Writer) (pa n : Nat) (h : MemoryCanonical s) : MemoryCanonical (s.sealIf w pa n) :=
  canon_ite (canon_seal _ h) h

theorem canon_wrote (w : Writer) (sec : Nat) (h : MemoryCanonical s) : MemoryCanonical (s.wrote w sec) :=
  canon_same (s := if _ then _ else _) rfl rfl
    (canon_ite (canon_sealWrite (s := (s.mapAll _).mapHarts _) w sec h) (canon_mapHarts (s := s.mapAll _) _ h))

/-- ACC and DIRTY are set through `Memory.put` alone. -/
theorem canon_orPte (w : Writer) (a : Nat) (d : Bool) (h : MemoryCanonical s) : MemoryCanonical (s.orPte w a d) :=
  canon_ite h (canon_wrote _ _ (canon_memory _ (Memory.wf_markPte _ _ _ h.1) h))

theorem canon_useXlat (w : Writer) (x : Xlat) (d : Bool) (h : MemoryCanonical s) :
    MemoryCanonical (s.useXlat w x d) := by
  have h1 := canon_foldl (fun t a ht => canon_orPte (s := t) w a false ht) x.marks
    (canon_foldl (fun t a ht => canon_flushSector (s := t) a false ht) x.walked h)
  exact canon_ite (canon_orPte _ _ _ h1) h1

theorem canon_cacheXlat (t : Nat) (x : Xlat) (d : Bool) (h : MemoryCanonical s) : MemoryCanonical (s.cacheXlat t x d) :=
  canon_ite h h

theorem canon_use (i : Nat) (x : Xlat) (d : Bool) (h : MemoryCanonical s) : MemoryCanonical (s.use i x d) :=
  canon_cacheXlat _ _ _ (canon_useXlat _ x d h)

theorem canon_cleanFor (mine : Nat → Bool) (pa n : Nat) (h : MemoryCanonical s) :
    MemoryCanonical (s.cleanFor mine pa n) := canon_ite (canon_mapAll _ h) h

theorem canon_readCoherent (t pa n : Nat) (h : MemoryCanonical s) : MemoryCanonical (s.readCoherent t pa n) :=
  canon_cleanFor _ pa n h

theorem canon_cleanRuns (mine : Nat → Bool) (l : List (Nat × Nat)) (h : MemoryCanonical s) :
    MemoryCanonical (s.cleanRuns mine l) := canon_foldl (fun _ r ht => canon_cleanFor mine r.1 r.2 ht) l h

theorem canon_fetched (x : Xlat) (l : List Byte) (h : MemoryCanonical s) : MemoryCanonical (s.fetched x l) := by
  have h1 := canon_use 0 x false h
  exact canon_ite (canon_modHart _ (canon_ite h1 (canon_readCoherent _ _ _ h1))) h1

/-! ### Writing bytes -/

theorem canon_flushSectorOf (c : Chunk) (tiles : List Nat) (e : Nat × Nat) (h : MemoryCanonical s) :
    MemoryCanonical (s.flushSectorOf c tiles e) := by
  have h1 := canon_foldl (fun t (l : Nat × Nat × Nat) ht => canon_orPte (s := t) (.scalar (tiles.getD e.1 0)) l.2.2 true ht)
    (c.leaves.filter fun l => l.1 == e.1 && l.2.1 == e.2) h
  exact canon_wrote _ _ (canon_memory _ (Memory.wf_foldl_put _ _ h1.1) h1)

theorem canon_flushChunk (c : Chunk) (tiles : List Nat) (h : MemoryCanonical s) :
    MemoryCanonical (s.flushChunk c tiles) :=
  canon_foldl (fun _ e ht => canon_flushSectorOf c tiles e ht) _ h

theorem canon_putBytes (w : Writer) (pa : Nat) (bs : List Byte) (h : MemoryCanonical s) :
    MemoryCanonical (s.putBytes w pa bs) := by
  have h1 := canon_sealIf w pa bs.length h
  exact canon_ite h (canon_wrote w _ (canon_memory _ (Memory.wf_write _ _ _ h1.1) h1))

theorem canon_putRun (w : Writer) (n pa : Nat) (bs : List Byte) (h : MemoryCanonical s) :
    MemoryCanonical (s.putRun w n pa bs) := by
  induction n generalizing s pa bs with
  | zero => exact h
  | succ n ih => exact canon_ite h (ih _ _ (canon_putBytes w pa _ h))

theorem canon_putCoherent (w : Writer) (pa : Nat) (bs : List Byte) (h : MemoryCanonical s) :
    MemoryCanonical (s.putCoherent w pa bs) :=
  canon_putRun w _ _ _ (canon_foldl (fun _ _ h => canon_flushSector _ _ h) _ h)

/-! ### Work tables -/

theorem canon_logEvent (src : Nat) (h : MemoryCanonical s) : MemoryCanonical (s.logEvent src) := by
  unfold State.logEvent
  dsimp only
  split
  · exact h
  · exact canon_evpos _ (canon_putCoherent _ _ _ (canon_evseq _ h))

theorem canon_writeVirt (t : TCtx) (va v : Word) (h : MemoryCanonical s) : MemoryCanonical (writeVirt s t va v).1 := by
  unfold writeVirt
  split
  · exact h
  · split
    · exact h
    · next x _ =>
      split
      · exact h
      · dsimp only; exact canon_putCoherent .other _ _ (canon_useXlat .other x true h)

theorem canon_putFlag (t : TCtx) (va v : Word) (h : MemoryCanonical s) : MemoryCanonical (s.putFlag t va v) := by
  unfold State.putFlag
  split
  · exact h
  · split
    · exact h
    · next x _ =>
      have h1 := canon_useXlat .other x true h
      exact canon_ite h (canon_ite h1 (canon_putCoherent .other _ _ h1))

theorem canon_writeFlag (c : Nat) (j : Job) (f w : Word) (h : MemoryCanonical s) :
    MemoryCanonical (s.writeFlag c j f w) :=
  canon_ite h (canon_putFlag _ _ _ (canon_mapAll _ h))

theorem canon_countDown (l : Option Nat) (h : MemoryCanonical s) : MemoryCanonical (s.countDown l) := by
  cases l <;> exact h

theorem canon_countUp (l : Option Nat) (n : Nat) (h : MemoryCanonical s) : MemoryCanonical (s.countUp l n) := by
  cases l <;> exact h

theorem canon_unitDone (u : UnitRef) (h : MemoryCanonical s) : MemoryCanonical (s.unitDone u) := h

theorem canon_settle (h : MemoryCanonical s) : MemoryCanonical s.settle := h

theorem canon_endLaunch (id : Nat) (st : WState) (r : Nat) (f : Bool) (h : MemoryCanonical s) :
    MemoryCanonical (s.endLaunch id st r f) := by
  unfold State.endLaunch
  split
  · exact h
  · refine canon_settle (canon_rings _ (canon_modLaunch id _ ?_))
    split
    · exact canon_ite (canon_writeFlag _ _ _ _ h) h
    · exact h

theorem canon_endJob (id : Nat) (st : WState) (r : Nat) (f : Bool) (h : MemoryCanonical s) :
    MemoryCanonical (s.endJob id st r f) := by
  unfold State.endJob
  split
  · exact h
  · exact canon_modJob _ _ (canon_ite (canon_writeFlag _ _ _ _ h) h)

theorem canon_dropSaved (l : List Nat) (h : MemoryCanonical s) : MemoryCanonical (s.dropSaved l) := by
  refine canon_same (s := List.foldl _ s _) rfl rfl (canon_foldl (fun t u ht => ?_) _ h)
  split
  · exact canon_unitDone _ ht
  · exact ht

theorem canon_undefineBytes (t : TCtx) (n : Nat) (va : Word) (h : MemoryCanonical s) :
    MemoryCanonical (State.undefineBytes t n va s) := by
  induction n generalizing s va with
  | zero => exact h
  | succ n ih =>
    refine ih _ ?_
    split
    · exact h
    · exact canon_ite h (canon_putCoherent _ _ _ (canon_useXlat _ _ _ h))

theorem canon_undefineMerge (m : Merge) (h : MemoryCanonical s) : MemoryCanonical (s.undefineMerge m) := by
  unfold State.undefineMerge
  split
  · exact h
  · exact canon_undefineBytes _ _ _ h

theorem canon_cancelOps (l : List Nat) (h : MemoryCanonical s) : MemoryCanonical (s.cancelOps l) :=
  canon_same (s := List.foldl _ s _) rfl rfl (canon_foldl (fun _ m ht => canon_undefineMerge m ht) _ h)

theorem canon_cancelWork (w : Work) (r : Nat) (h : MemoryCanonical s) : MemoryCanonical (s.cancelWork w r) :=
  canon_ite h (canon_cancelOps _ (canon_dropSaved _ (canon_mapHarts _ (canon_same rfl rfl h))))

theorem canon_faultJob (u : UnitRef) (c : Nat) (h : MemoryCanonical s) : MemoryCanonical (s.faultJob u c) := by
  unfold State.faultJob
  split
  · exact h
  · exact canon_modJob _ _ (canon_modPhase _ _ (canon_modGraph _ _ (canon_modLaunch _ _ (canon_cancelWork _ _ h))))

theorem canon_freeMembers (x : Hart) (h : MemoryCanonical s) : MemoryCanonical (s.freeMembers x) := by
  unfold State.freeMembers; split <;> exact h

theorem canon_priorDone (p : Prior) (h : MemoryCanonical s) : MemoryCanonical (s.priorDone p) :=
  canon_unitDone p.unit (canon_mapAll _ h)

theorem canon_leave (h : MemoryCanonical s) : MemoryCanonical s.leave :=
  canon_same (s := State.freeMembers _ s.hart) rfl rfl
    (canon_freeMembers s.hart (canon_foldl (fun _ p ht => canon_priorDone p ht) _ h))

theorem canon_machineCheck (k : Nat) (l : Word) (c : Nat) (h : MemoryCanonical s) :
    MemoryCanonical (s.machineCheck k l c) :=
  canon_same (s := List.foldl _ s _) rfl rfl (canon_foldl (fun _ x h => canon_freeMembers { x with
    tcause := 0x20, tval := BitVec.ofNat 64 (s.faultLog.length + 1), run := .idle } h) _ h)

/-! ### Furrows and chunks -/

theorem canon_switchTo (id : Nat) (t : State) (ht : s.switchTo id = some t) (h : MemoryCanonical s) :
    MemoryCanonical t := by
  unfold State.switchTo at ht
  split at ht
  · cases ht; exact h
  · dsimp only at ht
    split at ht
    · cases ht; exact h
    · split at ht
      · cases ht
      · cases ht; exact h

theorem canon_onHart (id : Nat) (f : State → State) (hf : ∀ t, MemoryCanonical t → MemoryCanonical (f t))
    (h : MemoryCanonical s) : MemoryCanonical (s.onHart id f) := by
  unfold State.onHart
  split
  · exact h
  · next t ht =>
    have h2 := hf t (canon_switchTo id t ht h)
    dsimp only
    cases hu : (f t).switchTo s.hart.id with
    | none => exact h2
    | some u => exact canon_switchTo _ u hu h2

theorem canon_commitChunk (h : MemoryCanonical s) : MemoryCanonical s.commitChunk :=
  canon_ite h (canon_modHart _ (canon_flushChunk _ _ (canon_same rfl rfl h)))

theorem canon_squashChunk (h : MemoryCanonical s) : MemoryCanonical s.squashChunk := by
  unfold State.squashChunk
  split
  · exact canon_ite (canon_commitChunk h) h
  · exact h

theorem canon_endChunk (h : MemoryCanonical s) : MemoryCanonical s.endChunk :=
  canon_ite (canon_squashChunk h) (canon_commitChunk h)

theorem canon_endChunkOf (t : Nat) (h : MemoryCanonical s) : MemoryCanonical (s.endChunkOf t) := by
  unfold State.endChunkOf
  split
  · exact canon_onHart _ _ (fun _ ht => canon_endChunk ht) h
  · exact h

/-! ### The thresher -/

theorem canon_gather (t id : Nat) (h : MemoryCanonical s) : MemoryCanonical (s.gather t id) :=
  canon_mapAll _ (canon_cleanRuns _ _ (canon_endChunkOf t h))

theorem canon_gatherEach (l : List (Nat × Nat)) (h : MemoryCanonical s) :
    MemoryCanonical (l.foldl (fun (s : State) g => s.gather g.1 g.2) s) := by
  induction l generalizing s with
  | nil => exact h
  | cons g l ih => exact ih (s := s.gather g.1 g.2) (canon_gather g.1 g.2 h)

theorem canon_gatherAll (t id : Nat) (h : MemoryCanonical s) : MemoryCanonical (s.gatherAll t id) := by
  unfold State.gatherAll
  split
  · exact h
  · exact canon_gatherEach _ h

theorem canon_restThresher (n : Nat) (h : MemoryCanonical s) : MemoryCanonical (s.restThresher n) :=
  canon_ite h (canon_modSheaf n _ h)

theorem canon_completeCmd (t id : Nat) (h : MemoryCanonical s) : MemoryCanonical (s.completeCmd t id) :=
  canon_restThresher _ (canon_modSheaf _ _ (canon_mapAll _ h))

theorem canon_completeLoad (n : Nat) (w : WLoad) (h : MemoryCanonical s) : MemoryCanonical (s.completeLoad n w) :=
  canon_same (s := List.foldl _ _ _) rfl rfl
    (canon_foldl (fun _ _ ht => canon_countDown _ ht) _ (canon_modSheaf n _ (canon_cleanRuns _ w.runs h)))

theorem canon_thresherStep (n : Nat) (h : MemoryCanonical s) : MemoryCanonical (s.thresherStep n) := by
  unfold State.thresherStep
  split
  · exact canon_completeCmd _ _ (canon_endChunkOf _ h)
  · split
    · exact canon_modSheaf n _ h
    · split
      · exact canon_completeLoad n _ h
      · exact canon_gatherAll _ _ h
      · exact h

theorem canon_drainSheaf (n : Nat) (w : Arrival → Bool) (k : Nat) (h : MemoryCanonical s) :
    MemoryCanonical (State.drainSheaf n w k s) := by
  induction k generalizing s with
  | zero => exact h
  | succ k ih => exact canon_ite (ih (canon_thresherStep n h)) h

theorem canon_drainArrivals (t : Nat) (w : Arrival → Bool) (h : MemoryCanonical s) :
    MemoryCanonical (s.drainArrivals t w) := canon_drainSheaf _ w _ h

theorem canon_drainThresher (h : MemoryCanonical s) : MemoryCanonical s.drainThresher :=
  canon_foldl (fun _ _ ht => canon_ite ht (canon_drainArrivals _ _ ht)) _ h

/-! ### Vector memory -/

theorem canon_addVlink (t sec : Nat) (h : MemoryCanonical s) : MemoryCanonical (s.addVlink t sec) := h

theorem canon_vtouch (o : VOp) (t : Nat) (e : VElem) (w : Bool) (h : MemoryCanonical s) :
    MemoryCanonical (s.vtouch o t e w) := by
  unfold State.vtouch
  split
  · exact canon_flushSector _ _ h
  · split
    · exact canon_flushSector _ _ h
    · exact canon_flushSector _ _ h
    · exact canon_touch _ _ _ _ _ _ h

theorem canon_vperform (o : VOp) (e : VElem) (h : MemoryCanonical s) : MemoryCanonical (s.vperform o e) := by
  have hl : MemoryCanonical (s.vtouch o (s.hart.member e.member).tile e false) := canon_vtouch o _ e false h
  unfold State.vperform
  dsimp only
  split
  · split
    · exact hl
    · exact canon_ite hl hl
  · split
    · exact hl
    · exact canon_ite hl hl
  · refine canon_addVlink _ _ ?_
    split
    · exact hl
    · exact canon_ite hl hl
  · exact canon_putBytes _ _ _ (canon_vtouch o _ e true h)
  · refine canon_modVop _ _ (canon_ite (canon_putBytes _ _ _ (canon_vtouch o _ e true ?_)) h)
    split
    · exact canon_orPte _ _ _ h
    · exact h

theorem canon_vfinish (id : Nat) (h : MemoryCanonical s) : MemoryCanonical (s.vfinish id) := by
  unfold State.vfinish
  split
  · exact h
  · exact canon_ite h h

theorem canon_sealElems (l : List VElem) (h : MemoryCanonical s) : MemoryCanonical (s.sealElems l) :=
  canon_foldl (fun _ _ ht => canon_ite (canon_seal _ ht) ht) l h

/-- Sealing what a save wrote changes no byte of memory. -/
theorem canon_sealRuns (l : List (Nat × Xlat)) (runs : List (Nat × List Byte)) (h : MemoryCanonical s) :
    MemoryCanonical (s.sealRuns l runs) := by
  refine canon_ite (canon_foldl (fun t o ht => ?_) _ h) h
  split
  · exact canon_ite (canon_seal _ ht) ht
  · exact ht

theorem canon_vrun (o : VOp) (l : List VElem) (h : MemoryCanonical s) : MemoryCanonical (s.vrun o l) := by
  have h1 := canon_foldl (fun _ e ht => canon_vperform o e ht) (s.landing o l) h
  exact canon_vfinish _ (canon_modVop _ _ (canon_ite (canon_sealElems l h1) h1))

theorem canon_varrive (o : VOp) (h : MemoryCanonical s) : MemoryCanonical (s.varrive o) :=
  canon_modVop _ _ (canon_ite h h)

theorem canon_vretire (id : Nat) (h : MemoryCanonical s) : MemoryCanonical (s.vretire id) := h

theorem canon_vcomplete (id : Nat) (h : MemoryCanonical s) : MemoryCanonical (s.vcomplete id) := by
  unfold State.vcomplete
  split
  · exact h
  · refine canon_vretire id ?_
    split
    · exact canon_varrive _ (canon_vrun _ _ h)
    · exact canon_vrun _ _ h

theorem canon_drainVector (h : MemoryCanonical s) : MemoryCanonical s.drainVector :=
  canon_foldl (fun _ id ht => canon_vcomplete id ht) _ h

theorem canon_quiesce (h : MemoryCanonical s) : MemoryCanonical s.quiesce :=
  canon_modHart _ (canon_drainThresher (canon_drainVector (canon_endChunk h)))

theorem canon_settleVector (h : MemoryCanonical s) : MemoryCanonical s.settleVector :=
  canon_ite h (canon_drainVector (canon_commitChunk h))

theorem canon_settleOps (w : VOp → Bool) (h : MemoryCanonical s) : MemoryCanonical (s.settleOps w) :=
  canon_ite h (canon_foldl (fun _ id ht => canon_vcomplete id ht) _ (canon_commitChunk h))

/-! ### Traps -/

theorem canon_breakLinks (h : MemoryCanonical s) : MemoryCanonical s.breakLinks := h

theorem canon_enterHandler (c : Nat) (h : MemoryCanonical s) : MemoryCanonical (s.enterHandler c) := by
  unfold State.enterHandler
  dsimp only
  split
  · exact canon_machineCheck _ _ _ h
  · exact canon_ite (canon_modHart _ (canon_fetched _ _ h)) (canon_machineCheck _ _ _ h)

theorem canon_stopProg (h : MemoryCanonical s) : MemoryCanonical s.stopProg := by
  unfold State.stopProg; split <;> exact h

theorem canon_signal (x : Signal) (h : MemoryCanonical s) : MemoryCanonical { s with signal := x } := h

/-- The module that is gone back to stands in the form, as the invariant says of it. -/
theorem canon_goBack (l : List (Nat × Word)) (h : MemoryCanonical s) : MemoryCanonical (s.goBack l) := by
  unfold State.goBack
  dsimp only
  split
  · exact canon_signal _ h
  · next m hm => exact ⟨h.2 m hm, fun _ h' => by cases h'⟩

theorem canon_enterTrap (t : TrapInfo) (h : MemoryCanonical s) : MemoryCanonical (s.enterTrap t) := by
  unfold State.enterTrap
  split
  · exact canon_stopProg (canon_modHart _ h)
  · split
    · dsimp only
      split
      · exact canon_faultJob _ _ (canon_modHart _ h)
      · exact canon_modHart _ h
    · exact canon_enterHandler _ (canon_modHart _ h)

theorem canon_squash (h : MemoryCanonical s) : MemoryCanonical s.squash := by
  unfold State.squash
  split
  · exact canon_signal .undone (canon_squashChunk h)
  · exact canon_goBack _ h

/-- Trap entry keeps the form. -/
theorem canon_takeTrap (t : TrapInfo) (h : MemoryCanonical s) : MemoryCanonical (s.takeTrap t) := by
  unfold State.takeTrap
  split
  · exact canon_squash h
  · exact canon_ite (canon_signal _ (canon_enterTrap t (canon_breakLinks (canon_quiesce h)))) (canon_goBack _ h)

theorem canon_moveThread (p : Bool) (h : MemoryCanonical s) : MemoryCanonical (s.moveThread p) := by
  unfold State.moveThread; split <;> exact h

/-! ### Outcomes -/

theorem allowed_ok (h : MemoryCanonical s) : Allowed s.ok := h
theorem allowed_wait (p : Park) (h : MemoryCanonical s) : Allowed (s.wait p) := h
theorem allowed_notEnabled : Allowed notEnabled := trivial

/-- A word that traps leaves memory in canonical form. -/
theorem allowed_trap (t : TrapInfo) (h : MemoryCanonical s) : Allowed (s.trap t) := canon_takeTrap t h

theorem allowed_ship (h : MemoryCanonical s) : Allowed s.ship :=
  canon_same (s := s.quiesce.moveThread false) rfl rfl (canon_moveThread _ (canon_quiesce h))

theorem allowed_onTiller (f : State → Result) (hf : ∀ t, MemoryCanonical t → Allowed (f t)) (h : MemoryCanonical s) :
    Allowed (s.onTiller f) := by
  unfold State.onTiller
  split
  · exact allowed_ship h
  · exact hf s h

/-- A transfer keeps the form when its own effect does. -/
theorem allowed_transfer (a : Word) (c : Bool) (f : State → State)
    (hf : ∀ t, MemoryCanonical t → MemoryCanonical (f t)) (h : MemoryCanonical s) : Allowed (s.transfer a c f) := by
  unfold State.transfer
  split
  · exact allowed_ok (canon_modHart _ (hf s h))
  · dsimp only
    split
    · exact allowed_ok (canon_modHart _ (hf _ (canon_fetched _ _ h)))
    · exact allowed_trap _ h

end Sys2Proof.Machine
end

