-- ==== Sys2Proof/Laws/State.lean ====
section
/-! SUPPORT. What each update of a part of the state leaves unchanged, field by field. -/

namespace Sys2Proof.Machine

/-! ### modHart -/

@[simp] theorem State.modHart_others (s : State) (f : Hart → Hart) : (s.modHart f).others = s.others := rfl
@[simp] theorem State.modHart_idle (s : State) (f : Hart → Hart) : (s.modHart f).idle = s.idle := rfl
@[simp] theorem State.modHart_roots (s : State) (f : Hart → Hart) : (s.modHart f).roots = s.roots := rfl
@[simp] theorem State.modHart_sheaves (s : State) (f : Hart → Hart) : (s.modHart f).sheaves = s.sheaves := rfl
@[simp] theorem State.modHart_chsets (s : State) (f : Hart → Hart) : (s.modHart f).chsets = s.chsets := rfl
@[simp] theorem State.modHart_nextSet (s : State) (f : Hart → Hart) : (s.modHart f).nextSet = s.nextSet := rfl
@[simp] theorem State.modHart_ckpts (s : State) (f : Hart → Hart) : (s.modHart f).ckpts = s.ckpts := rfl
@[simp] theorem State.modHart_mem (s : State) (f : Hart → Hart) : (s.modHart f).mem = s.mem := rfl
@[simp] theorem State.modHart_vlinks (s : State) (f : Hart → Hart) : (s.modHart f).vlinks = s.vlinks := rfl
@[simp] theorem State.modHart_ops (s : State) (f : Hart → Hart) : (s.modHart f).ops = s.ops := rfl
@[simp] theorem State.modHart_etlb (s : State) (f : Hart → Hart) : (s.modHart f).etlb = s.etlb := rfl
@[simp] theorem State.modHart_merges (s : State) (f : Hart → Hart) : (s.modHart f).merges = s.merges := rfl
@[simp] theorem State.modHart_jobs (s : State) (f : Hart → Hart) : (s.modHart f).jobs = s.jobs := rfl
@[simp] theorem State.modHart_phases (s : State) (f : Hart → Hart) : (s.modHart f).phases = s.phases := rfl
@[simp] theorem State.modHart_graphs (s : State) (f : Hart → Hart) : (s.modHart f).graphs = s.graphs := rfl
@[simp] theorem State.modHart_launches (s : State) (f : Hart → Hart) : (s.modHart f).launches = s.launches := rfl
@[simp] theorem State.modHart_saved (s : State) (f : Hart → Hart) : (s.modHart f).saved = s.saved := rfl
@[simp] theorem State.modHart_rings (s : State) (f : Hart → Hart) : (s.modHart f).rings = s.rings := rfl
@[simp] theorem State.modHart_cyc (s : State) (f : Hart → Hart) : (s.modHart f).cyc = s.cyc := rfl
@[simp] theorem State.modHart_stage (s : State) (f : Hart → Hart) : (s.modHart f).stage = s.stage := rfl
@[simp] theorem State.modHart_err (s : State) (f : Hart → Hart) : (s.modHart f).err = s.err := rfl
@[simp] theorem State.modHart_linkup (s : State) (f : Hart → Hart) : (s.modHart f).linkup = s.linkup := rfl
@[simp] theorem State.modHart_rmLock (s : State) (f : Hart → Hart) : (s.modHart f).rmLock = s.rmLock := rfl
@[simp] theorem State.modHart_rmF (s : State) (f : Hart → Hart) : (s.modHart f).rmF = s.rmF := rfl
@[simp] theorem State.modHart_accepted (s : State) (f : Hart → Hart) : (s.modHart f).accepted = s.accepted := rfl
@[simp] theorem State.modHart_rej (s : State) (f : Hart → Hart) : (s.modHart f).rej = s.rej := rfl
@[simp] theorem State.modHart_csbase (s : State) (f : Hart → Hart) : (s.modHart f).csbase = s.csbase := rfl
@[simp] theorem State.modHart_cssize (s : State) (f : Hart → Hart) : (s.modHart f).cssize = s.cssize := rfl
@[simp] theorem State.modHart_throt (s : State) (f : Hart → Hart) : (s.modHart f).throt = s.throt := rfl
@[simp] theorem State.modHart_draw (s : State) (f : Hart → Hart) : (s.modHart f).draw = s.draw := rfl
@[simp] theorem State.modHart_limit (s : State) (f : Hart → Hart) : (s.modHart f).limit = s.limit := rfl
@[simp] theorem State.modHart_mcValid (s : State) (f : Hart → Hart) : (s.modHart f).mcValid = s.mcValid := rfl
@[simp] theorem State.modHart_mcKind (s : State) (f : Hart → Hart) : (s.modHart f).mcKind = s.mcKind := rfl
@[simp] theorem State.modHart_mcSeq (s : State) (f : Hart → Hart) : (s.modHart f).mcSeq = s.mcSeq := rfl
@[simp] theorem State.modHart_evbase (s : State) (f : Hart → Hart) : (s.modHart f).evbase = s.evbase := rfl
@[simp] theorem State.modHart_evsize (s : State) (f : Hart → Hart) : (s.modHart f).evsize = s.evsize := rfl
@[simp] theorem State.modHart_evpos (s : State) (f : Hart → Hart) : (s.modHart f).evpos = s.evpos := rfl
@[simp] theorem State.modHart_evseq (s : State) (f : Hart → Hart) : (s.modHart f).evseq = s.evseq := rfl
@[simp] theorem State.modHart_wear (s : State) (f : Hart → Hart) : (s.modHart f).wear = s.wear := rfl
@[simp] theorem State.modHart_eol (s : State) (f : Hart → Hart) : (s.modHart f).eol = s.eol := rfl
@[simp] theorem State.modHart_kslots (s : State) (f : Hart → Hart) : (s.modHart f).kslots = s.kslots := rfl
@[simp] theorem State.modHart_pcmap (s : State) (f : Hart → Hart) : (s.modHart f).pcmap = s.pcmap := rfl
@[simp] theorem State.modHart_tmapDef (s : State) (f : Hart → Hart) : (s.modHart f).tmapDef = s.tmapDef := rfl
@[simp] theorem State.modHart_tmap (s : State) (f : Hart → Hart) : (s.modHart f).tmap = s.tmap := rfl
@[simp] theorem State.modHart_ide (s : State) (f : Hart → Hart) : (s.modHart f).ide = s.ide := rfl
@[simp] theorem State.modHart_windows (s : State) (f : Hart → Hart) : (s.modHart f).windows = s.windows := rfl
@[simp] theorem State.modHart_keys (s : State) (f : Hart → Hart) : (s.modHart f).keys = s.keys := rfl
@[simp] theorem State.modHart_sealed (s : State) (f : Hart → Hart) : (s.modHart f).sealed = s.sealed := rfl
@[simp] theorem State.modHart_counters (s : State) (f : Hart → Hart) : (s.modHart f).counters = s.counters := rfl
@[simp] theorem State.modHart_cipher (s : State) (f : Hart → Hart) : (s.modHart f).cipher = s.cipher := rfl
@[simp] theorem State.modHart_tags (s : State) (f : Hart → Hart) : (s.modHart f).tags = s.tags := rfl
@[simp] theorem State.modHart_raw (s : State) (f : Hart → Hart) : (s.modHart f).raw = s.raw := rfl
@[simp] theorem State.modHart_session (s : State) (f : Hart → Hart) : (s.modHart f).session = s.session := rfl
@[simp] theorem State.modHart_laneMap (s : State) (f : Hart → Hart) : (s.modHart f).laneMap = s.laneMap := rfl
@[simp] theorem State.modHart_firmware (s : State) (f : Hart → Hart) : (s.modHart f).firmware = s.firmware := rfl
@[simp] theorem State.modHart_reply (s : State) (f : Hart → Hart) : (s.modHart f).reply = s.reply := rfl
@[simp] theorem State.modHart_nextHalf (s : State) (f : Hart → Hart) : (s.modHart f).nextHalf = s.nextHalf := rfl
@[simp] theorem State.modHart_messages (s : State) (f : Hart → Hart) : (s.modHart f).messages = s.messages := rfl
@[simp] theorem State.modHart_holds (s : State) (f : Hart → Hart) : (s.modHart f).holds = s.holds := rfl
@[simp] theorem State.modHart_gifts (s : State) (f : Hart → Hart) : (s.modHart f).gifts = s.gifts := rfl
@[simp] theorem State.modHart_walks (s : State) (f : Hart → Hart) : (s.modHart f).walks = s.walks := rfl
@[simp] theorem State.modHart_faultLog (s : State) (f : Hart → Hart) : (s.modHart f).faultLog = s.faultLog := rfl
@[simp] theorem State.modHart_poisoned (s : State) (f : Hart → Hart) : (s.modHart f).poisoned = s.poisoned := rfl
@[simp] theorem State.modHart_nextOut (s : State) (f : Hart → Hart) : (s.modHart f).nextOut = s.nextOut := rfl
@[simp] theorem State.modHart_nextId (s : State) (f : Hart → Hart) : (s.modHart f).nextId = s.nextId := rfl
@[simp] theorem State.modHart_signal (s : State) (f : Hart → Hart) : (s.modHart f).signal = s.signal := rfl
@[simp] theorem State.modHart_agenda (s : State) (f : Hart → Hart) : (s.modHart f).agenda = s.agenda := rfl
@[simp] theorem State.modHart_tick (s : State) (f : Hart → Hart) : (s.modHart f).tick = s.tick := rfl
@[simp] theorem State.modHart_waiting (s : State) (f : Hart → Hart) : (s.modHart f).waiting = s.waiting := rfl
@[simp] theorem State.modHart_undo (s : State) (f : Hart → Hart) : (s.modHart f).undo = s.undo := rfl

/-! ### mapHarts -/

@[simp] theorem State.mapHarts_idle (s : State) (f : Hart → Hart) : (s.mapHarts f).idle = s.idle := rfl
@[simp] theorem State.mapHarts_roots (s : State) (f : Hart → Hart) : (s.mapHarts f).roots = s.roots := rfl
@[simp] theorem State.mapHarts_sheaves (s : State) (f : Hart → Hart) : (s.mapHarts f).sheaves = s.sheaves := rfl
@[simp] theorem State.mapHarts_chsets (s : State) (f : Hart → Hart) : (s.mapHarts f).chsets = s.chsets := rfl
@[simp] theorem State.mapHarts_nextSet (s : State) (f : Hart → Hart) : (s.mapHarts f).nextSet = s.nextSet := rfl
@[simp] theorem State.mapHarts_ckpts (s : State) (f : Hart → Hart) : (s.mapHarts f).ckpts = s.ckpts := rfl
@[simp] theorem State.mapHarts_mem (s : State) (f : Hart → Hart) : (s.mapHarts f).mem = s.mem := rfl
@[simp] theorem State.mapHarts_vlinks (s : State) (f : Hart → Hart) : (s.mapHarts f).vlinks = s.vlinks := rfl
@[simp] theorem State.mapHarts_ops (s : State) (f : Hart → Hart) : (s.mapHarts f).ops = s.ops := rfl
@[simp] theorem State.mapHarts_etlb (s : State) (f : Hart → Hart) : (s.mapHarts f).etlb = s.etlb := rfl
@[simp] theorem State.mapHarts_merges (s : State) (f : Hart → Hart) : (s.mapHarts f).merges = s.merges := rfl
@[simp] theorem State.mapHarts_jobs (s : State) (f : Hart → Hart) : (s.mapHarts f).jobs = s.jobs := rfl
@[simp] theorem State.mapHarts_phases (s : State) (f : Hart → Hart) : (s.mapHarts f).phases = s.phases := rfl
@[simp] theorem State.mapHarts_graphs (s : State) (f : Hart → Hart) : (s.mapHarts f).graphs = s.graphs := rfl
@[simp] theorem State.mapHarts_launches (s : State) (f : Hart → Hart) : (s.mapHarts f).launches = s.launches := rfl
@[simp] theorem State.mapHarts_saved (s : State) (f : Hart → Hart) : (s.mapHarts f).saved = s.saved := rfl
@[simp] theorem State.mapHarts_rings (s : State) (f : Hart → Hart) : (s.mapHarts f).rings = s.rings := rfl
@[simp] theorem State.mapHarts_cyc (s : State) (f : Hart → Hart) : (s.mapHarts f).cyc = s.cyc := rfl
@[simp] theorem State.mapHarts_stage (s : State) (f : Hart → Hart) : (s.mapHarts f).stage = s.stage := rfl
@[simp] theorem State.mapHarts_err (s : State) (f : Hart → Hart) : (s.mapHarts f).err = s.err := rfl
@[simp] theorem State.mapHarts_linkup (s : State) (f : Hart → Hart) : (s.mapHarts f).linkup = s.linkup := rfl
@[simp] theorem State.mapHarts_rmLock (s : State) (f : Hart → Hart) : (s.mapHarts f).rmLock = s.rmLock := rfl
@[simp] theorem State.mapHarts_rmF (s : State) (f : Hart → Hart) : (s.mapHarts f).rmF = s.rmF := rfl
@[simp] theorem State.mapHarts_accepted (s : State) (f : Hart → Hart) : (s.mapHarts f).accepted = s.accepted := rfl
@[simp] theorem State.mapHarts_rej (s : State) (f : Hart → Hart) : (s.mapHarts f).rej = s.rej := rfl
@[simp] theorem State.mapHarts_csbase (s : State) (f : Hart → Hart) : (s.mapHarts f).csbase = s.csbase := rfl
@[simp] theorem State.mapHarts_cssize (s : State) (f : Hart → Hart) : (s.mapHarts f).cssize = s.cssize := rfl
@[simp] theorem State.mapHarts_throt (s : State) (f : Hart → Hart) : (s.mapHarts f).throt = s.throt := rfl
@[simp] theorem State.mapHarts_draw (s : State) (f : Hart → Hart) : (s.mapHarts f).draw = s.draw := rfl
@[simp] theorem State.mapHarts_limit (s : State) (f : Hart → Hart) : (s.mapHarts f).limit = s.limit := rfl
@[simp] theorem State.mapHarts_mcValid (s : State) (f : Hart → Hart) : (s.mapHarts f).mcValid = s.mcValid := rfl
@[simp] theorem State.mapHarts_mcKind (s : State) (f : Hart → Hart) : (s.mapHarts f).mcKind = s.mcKind := rfl
@[simp] theorem State.mapHarts_mcSeq (s : State) (f : Hart → Hart) : (s.mapHarts f).mcSeq = s.mcSeq := rfl
@[simp] theorem State.mapHarts_evbase (s : State) (f : Hart → Hart) : (s.mapHarts f).evbase = s.evbase := rfl
@[simp] theorem State.mapHarts_evsize (s : State) (f : Hart → Hart) : (s.mapHarts f).evsize = s.evsize := rfl
@[simp] theorem State.mapHarts_evpos (s : State) (f : Hart → Hart) : (s.mapHarts f).evpos = s.evpos := rfl
@[simp] theorem State.mapHarts_evseq (s : State) (f : Hart → Hart) : (s.mapHarts f).evseq = s.evseq := rfl
@[simp] theorem State.mapHarts_wear (s : State) (f : Hart → Hart) : (s.mapHarts f).wear = s.wear := rfl
@[simp] theorem State.mapHarts_eol (s : State) (f : Hart → Hart) : (s.mapHarts f).eol = s.eol := rfl
@[simp] theorem State.mapHarts_kslots (s : State) (f : Hart → Hart) : (s.mapHarts f).kslots = s.kslots := rfl
@[simp] theorem State.mapHarts_pcmap (s : State) (f : Hart → Hart) : (s.mapHarts f).pcmap = s.pcmap := rfl
@[simp] theorem State.mapHarts_tmapDef (s : State) (f : Hart → Hart) : (s.mapHarts f).tmapDef = s.tmapDef := rfl
@[simp] theorem State.mapHarts_tmap (s : State) (f : Hart → Hart) : (s.mapHarts f).tmap = s.tmap := rfl
@[simp] theorem State.mapHarts_ide (s : State) (f : Hart → Hart) : (s.mapHarts f).ide = s.ide := rfl
@[simp] theorem State.mapHarts_windows (s : State) (f : Hart → Hart) : (s.mapHarts f).windows = s.windows := rfl
@[simp] theorem State.mapHarts_keys (s : State) (f : Hart → Hart) : (s.mapHarts f).keys = s.keys := rfl
@[simp] theorem State.mapHarts_sealed (s : State) (f : Hart → Hart) : (s.mapHarts f).sealed = s.sealed := rfl
@[simp] theorem State.mapHarts_counters (s : State) (f : Hart → Hart) : (s.mapHarts f).counters = s.counters := rfl
@[simp] theorem State.mapHarts_cipher (s : State) (f : Hart → Hart) : (s.mapHarts f).cipher = s.cipher := rfl
@[simp] theorem State.mapHarts_tags (s : State) (f : Hart → Hart) : (s.mapHarts f).tags = s.tags := rfl
@[simp] theorem State.mapHarts_raw (s : State) (f : Hart → Hart) : (s.mapHarts f).raw = s.raw := rfl
@[simp] theorem State.mapHarts_session (s : State) (f : Hart → Hart) : (s.mapHarts f).session = s.session := rfl
@[simp] theorem State.mapHarts_laneMap (s : State) (f : Hart → Hart) : (s.mapHarts f).laneMap = s.laneMap := rfl
@[simp] theorem State.mapHarts_firmware (s : State) (f : Hart → Hart) : (s.mapHarts f).firmware = s.firmware := rfl
@[simp] theorem State.mapHarts_reply (s : State) (f : Hart → Hart) : (s.mapHarts f).reply = s.reply := rfl
@[simp] theorem State.mapHarts_nextHalf (s : State) (f : Hart → Hart) : (s.mapHarts f).nextHalf = s.nextHalf := rfl
@[simp] theorem State.mapHarts_messages (s : State) (f : Hart → Hart) : (s.mapHarts f).messages = s.messages := rfl
@[simp] theorem State.mapHarts_holds (s : State) (f : Hart → Hart) : (s.mapHarts f).holds = s.holds := rfl
@[simp] theorem State.mapHarts_gifts (s : State) (f : Hart → Hart) : (s.mapHarts f).gifts = s.gifts := rfl
@[simp] theorem State.mapHarts_walks (s : State) (f : Hart → Hart) : (s.mapHarts f).walks = s.walks := rfl
@[simp] theorem State.mapHarts_faultLog (s : State) (f : Hart → Hart) : (s.mapHarts f).faultLog = s.faultLog := rfl
@[simp] theorem State.mapHarts_poisoned (s : State) (f : Hart → Hart) : (s.mapHarts f).poisoned = s.poisoned := rfl
@[simp] theorem State.mapHarts_nextOut (s : State) (f : Hart → Hart) : (s.mapHarts f).nextOut = s.nextOut := rfl
@[simp] theorem State.mapHarts_nextId (s : State) (f : Hart → Hart) : (s.mapHarts f).nextId = s.nextId := rfl
@[simp] theorem State.mapHarts_signal (s : State) (f : Hart → Hart) : (s.mapHarts f).signal = s.signal := rfl
@[simp] theorem State.mapHarts_agenda (s : State) (f : Hart → Hart) : (s.mapHarts f).agenda = s.agenda := rfl
@[simp] theorem State.mapHarts_tick (s : State) (f : Hart → Hart) : (s.mapHarts f).tick = s.tick := rfl
@[simp] theorem State.mapHarts_waiting (s : State) (f : Hart → Hart) : (s.mapHarts f).waiting = s.waiting := rfl
@[simp] theorem State.mapHarts_undo (s : State) (f : Hart → Hart) : (s.mapHarts f).undo = s.undo := rfl

/-! ### modRoot -/

@[simp] theorem State.modRoot_hart (s : State) (g : Nat) (f : RootCore → RootCore) : (s.modRoot g f).hart = s.hart := rfl
@[simp] theorem State.modRoot_others (s : State) (g : Nat) (f : RootCore → RootCore) : (s.modRoot g f).others = s.others := rfl
@[simp] theorem State.modRoot_idle (s : State) (g : Nat) (f : RootCore → RootCore) : (s.modRoot g f).idle = s.idle := rfl
@[simp] theorem State.modRoot_sheaves (s : State) (g : Nat) (f : RootCore → RootCore) : (s.modRoot g f).sheaves = s.sheaves := rfl
@[simp] theorem State.modRoot_chsets (s : State) (g : Nat) (f : RootCore → RootCore) : (s.modRoot g f).chsets = s.chsets := rfl
@[simp] theorem State.modRoot_nextSet (s : State) (g : Nat) (f : RootCore → RootCore) : (s.modRoot g f).nextSet = s.nextSet := rfl
@[simp] theorem State.modRoot_ckpts (s : State) (g : Nat) (f : RootCore → RootCore) : (s.modRoot g f).ckpts = s.ckpts := rfl
@[simp] theorem State.modRoot_mem (s : State) (g : Nat) (f : RootCore → RootCore) : (s.modRoot g f).mem = s.mem := rfl
@[simp] theorem State.modRoot_vlinks (s : State) (g : Nat) (f : RootCore → RootCore) : (s.modRoot g f).vlinks = s.vlinks := rfl
@[simp] theorem State.modRoot_ops (s : State) (g : Nat) (f : RootCore → RootCore) : (s.modRoot g f).ops = s.ops := rfl
@[simp] theorem State.modRoot_etlb (s : State) (g : Nat) (f : RootCore → RootCore) : (s.modRoot g f).etlb = s.etlb := rfl
@[simp] theorem State.modRoot_merges (s : State) (g : Nat) (f : RootCore → RootCore) : (s.modRoot g f).merges = s.merges := rfl
@[simp] theorem State.modRoot_jobs (s : State) (g : Nat) (f : RootCore → RootCore) : (s.modRoot g f).jobs = s.jobs := rfl
@[simp] theorem State.modRoot_phases (s : State) (g : Nat) (f : RootCore → RootCore) : (s.modRoot g f).phases = s.phases := rfl
@[simp] theorem State.modRoot_graphs (s : State) (g : Nat) (f : RootCore → RootCore) : (s.modRoot g f).graphs = s.graphs := rfl
@[simp] theorem State.modRoot_launches (s : State) (g : Nat) (f : RootCore → RootCore) : (s.modRoot g f).launches = s.launches := rfl
@[simp] theorem State.modRoot_saved (s : State) (g : Nat) (f : RootCore → RootCore) : (s.modRoot g f).saved = s.saved := rfl
@[simp] theorem State.modRoot_rings (s : State) (g : Nat) (f : RootCore → RootCore) : (s.modRoot g f).rings = s.rings := rfl
@[simp] theorem State.modRoot_cyc (s : State) (g : Nat) (f : RootCore → RootCore) : (s.modRoot g f).cyc = s.cyc := rfl
@[simp] theorem State.modRoot_stage (s : State) (g : Nat) (f : RootCore → RootCore) : (s.modRoot g f).stage = s.stage := rfl
@[simp] theorem State.modRoot_err (s : State) (g : Nat) (f : RootCore → RootCore) : (s.modRoot g f).err = s.err := rfl
@[simp] theorem State.modRoot_linkup (s : State) (g : Nat) (f : RootCore → RootCore) : (s.modRoot g f).linkup = s.linkup := rfl
@[simp] theorem State.modRoot_rmLock (s : State) (g : Nat) (f : RootCore → RootCore) : (s.modRoot g f).rmLock = s.rmLock := rfl
@[simp] theorem State.modRoot_rmF (s : State) (g : Nat) (f : RootCore → RootCore) : (s.modRoot g f).rmF = s.rmF := rfl
@[simp] theorem State.modRoot_accepted (s : State) (g : Nat) (f : RootCore → RootCore) : (s.modRoot g f).accepted = s.accepted := rfl
@[simp] theorem State.modRoot_rej (s : State) (g : Nat) (f : RootCore → RootCore) : (s.modRoot g f).rej = s.rej := rfl
@[simp] theorem State.modRoot_csbase (s : State) (g : Nat) (f : RootCore → RootCore) : (s.modRoot g f).csbase = s.csbase := rfl
@[simp] theorem State.modRoot_cssize (s : State) (g : Nat) (f : RootCore → RootCore) : (s.modRoot g f).cssize = s.cssize := rfl
@[simp] theorem State.modRoot_throt (s : State) (g : Nat) (f : RootCore → RootCore) : (s.modRoot g f).throt = s.throt := rfl
@[simp] theorem State.modRoot_draw (s : State) (g : Nat) (f : RootCore → RootCore) : (s.modRoot g f).draw = s.draw := rfl
@[simp] theorem State.modRoot_limit (s : State) (g : Nat) (f : RootCore → RootCore) : (s.modRoot g f).limit = s.limit := rfl
@[simp] theorem State.modRoot_mcValid (s : State) (g : Nat) (f : RootCore → RootCore) : (s.modRoot g f).mcValid = s.mcValid := rfl
@[simp] theorem State.modRoot_mcKind (s : State) (g : Nat) (f : RootCore → RootCore) : (s.modRoot g f).mcKind = s.mcKind := rfl
@[simp] theorem State.modRoot_mcSeq (s : State) (g : Nat) (f : RootCore → RootCore) : (s.modRoot g f).mcSeq = s.mcSeq := rfl
@[simp] theorem State.modRoot_evbase (s : State) (g : Nat) (f : RootCore → RootCore) : (s.modRoot g f).evbase = s.evbase := rfl
@[simp] theorem State.modRoot_evsize (s : State) (g : Nat) (f : RootCore → RootCore) : (s.modRoot g f).evsize = s.evsize := rfl
@[simp] theorem State.modRoot_evpos (s : State) (g : Nat) (f : RootCore → RootCore) : (s.modRoot g f).evpos = s.evpos := rfl
@[simp] theorem State.modRoot_evseq (s : State) (g : Nat) (f : RootCore → RootCore) : (s.modRoot g f).evseq = s.evseq := rfl
@[simp] theorem State.modRoot_wear (s : State) (g : Nat) (f : RootCore → RootCore) : (s.modRoot g f).wear = s.wear := rfl
@[simp] theorem State.modRoot_eol (s : State) (g : Nat) (f : RootCore → RootCore) : (s.modRoot g f).eol = s.eol := rfl
@[simp] theorem State.modRoot_kslots (s : State) (g : Nat) (f : RootCore → RootCore) : (s.modRoot g f).kslots = s.kslots := rfl
@[simp] theorem State.modRoot_pcmap (s : State) (g : Nat) (f : RootCore → RootCore) : (s.modRoot g f).pcmap = s.pcmap := rfl
@[simp] theorem State.modRoot_tmapDef (s : State) (g : Nat) (f : RootCore → RootCore) : (s.modRoot g f).tmapDef = s.tmapDef := rfl
@[simp] theorem State.modRoot_tmap (s : State) (g : Nat) (f : RootCore → RootCore) : (s.modRoot g f).tmap = s.tmap := rfl
@[simp] theorem State.modRoot_ide (s : State) (g : Nat) (f : RootCore → RootCore) : (s.modRoot g f).ide = s.ide := rfl
@[simp] theorem State.modRoot_windows (s : State) (g : Nat) (f : RootCore → RootCore) : (s.modRoot g f).windows = s.windows := rfl
@[simp] theorem State.modRoot_keys (s : State) (g : Nat) (f : RootCore → RootCore) : (s.modRoot g f).keys = s.keys := rfl
@[simp] theorem State.modRoot_sealed (s : State) (g : Nat) (f : RootCore → RootCore) : (s.modRoot g f).sealed = s.sealed := rfl
@[simp] theorem State.modRoot_counters (s : State) (g : Nat) (f : RootCore → RootCore) : (s.modRoot g f).counters = s.counters := rfl
@[simp] theorem State.modRoot_cipher (s : State) (g : Nat) (f : RootCore → RootCore) : (s.modRoot g f).cipher = s.cipher := rfl
@[simp] theorem State.modRoot_tags (s : State) (g : Nat) (f : RootCore → RootCore) : (s.modRoot g f).tags = s.tags := rfl
@[simp] theorem State.modRoot_raw (s : State) (g : Nat) (f : RootCore → RootCore) : (s.modRoot g f).raw = s.raw := rfl
@[simp] theorem State.modRoot_session (s : State) (g : Nat) (f : RootCore → RootCore) : (s.modRoot g f).session = s.session := rfl
@[simp] theorem State.modRoot_laneMap (s : State) (g : Nat) (f : RootCore → RootCore) : (s.modRoot g f).laneMap = s.laneMap := rfl
@[simp] theorem State.modRoot_firmware (s : State) (g : Nat) (f : RootCore → RootCore) : (s.modRoot g f).firmware = s.firmware := rfl
@[simp] theorem State.modRoot_reply (s : State) (g : Nat) (f : RootCore → RootCore) : (s.modRoot g f).reply = s.reply := rfl
@[simp] theorem State.modRoot_nextHalf (s : State) (g : Nat) (f : RootCore → RootCore) : (s.modRoot g f).nextHalf = s.nextHalf := rfl
@[simp] theorem State.modRoot_messages (s : State) (g : Nat) (f : RootCore → RootCore) : (s.modRoot g f).messages = s.messages := rfl
@[simp] theorem State.modRoot_holds (s : State) (g : Nat) (f : RootCore → RootCore) : (s.modRoot g f).holds = s.holds := rfl
@[simp] theorem State.modRoot_gifts (s : State) (g : Nat) (f : RootCore → RootCore) : (s.modRoot g f).gifts = s.gifts := rfl
@[simp] theorem State.modRoot_walks (s : State) (g : Nat) (f : RootCore → RootCore) : (s.modRoot g f).walks = s.walks := rfl
@[simp] theorem State.modRoot_faultLog (s : State) (g : Nat) (f : RootCore → RootCore) : (s.modRoot g f).faultLog = s.faultLog := rfl
@[simp] theorem State.modRoot_poisoned (s : State) (g : Nat) (f : RootCore → RootCore) : (s.modRoot g f).poisoned = s.poisoned := rfl
@[simp] theorem State.modRoot_nextOut (s : State) (g : Nat) (f : RootCore → RootCore) : (s.modRoot g f).nextOut = s.nextOut := rfl
@[simp] theorem State.modRoot_nextId (s : State) (g : Nat) (f : RootCore → RootCore) : (s.modRoot g f).nextId = s.nextId := rfl
@[simp] theorem State.modRoot_signal (s : State) (g : Nat) (f : RootCore → RootCore) : (s.modRoot g f).signal = s.signal := rfl
@[simp] theorem State.modRoot_agenda (s : State) (g : Nat) (f : RootCore → RootCore) : (s.modRoot g f).agenda = s.agenda := rfl
@[simp] theorem State.modRoot_tick (s : State) (g : Nat) (f : RootCore → RootCore) : (s.modRoot g f).tick = s.tick := rfl
@[simp] theorem State.modRoot_waiting (s : State) (g : Nat) (f : RootCore → RootCore) : (s.modRoot g f).waiting = s.waiting := rfl
@[simp] theorem State.modRoot_undo (s : State) (g : Nat) (f : RootCore → RootCore) : (s.modRoot g f).undo = s.undo := rfl

/-! ### modSheaf -/

@[simp] theorem State.modSheaf_hart (s : State) (n : Nat) (f : Sheaf → Sheaf) : (s.modSheaf n f).hart = s.hart := rfl
@[simp] theorem State.modSheaf_others (s : State) (n : Nat) (f : Sheaf → Sheaf) : (s.modSheaf n f).others = s.others := rfl
@[simp] theorem State.modSheaf_idle (s : State) (n : Nat) (f : Sheaf → Sheaf) : (s.modSheaf n f).idle = s.idle := rfl
@[simp] theorem State.modSheaf_roots (s : State) (n : Nat) (f : Sheaf → Sheaf) : (s.modSheaf n f).roots = s.roots := rfl
@[simp] theorem State.modSheaf_chsets (s : State) (n : Nat) (f : Sheaf → Sheaf) : (s.modSheaf n f).chsets = s.chsets := rfl
@[simp] theorem State.modSheaf_nextSet (s : State) (n : Nat) (f : Sheaf → Sheaf) : (s.modSheaf n f).nextSet = s.nextSet := rfl
@[simp] theorem State.modSheaf_ckpts (s : State) (n : Nat) (f : Sheaf → Sheaf) : (s.modSheaf n f).ckpts = s.ckpts := rfl
@[simp] theorem State.modSheaf_mem (s : State) (n : Nat) (f : Sheaf → Sheaf) : (s.modSheaf n f).mem = s.mem := rfl
@[simp] theorem State.modSheaf_vlinks (s : State) (n : Nat) (f : Sheaf → Sheaf) : (s.modSheaf n f).vlinks = s.vlinks := rfl
@[simp] theorem State.modSheaf_ops (s : State) (n : Nat) (f : Sheaf → Sheaf) : (s.modSheaf n f).ops = s.ops := rfl
@[simp] theorem State.modSheaf_etlb (s : State) (n : Nat) (f : Sheaf → Sheaf) : (s.modSheaf n f).etlb = s.etlb := rfl
@[simp] theorem State.modSheaf_merges (s : State) (n : Nat) (f : Sheaf → Sheaf) : (s.modSheaf n f).merges = s.merges := rfl
@[simp] theorem State.modSheaf_jobs (s : State) (n : Nat) (f : Sheaf → Sheaf) : (s.modSheaf n f).jobs = s.jobs := rfl
@[simp] theorem State.modSheaf_phases (s : State) (n : Nat) (f : Sheaf → Sheaf) : (s.modSheaf n f).phases = s.phases := rfl
@[simp] theorem State.modSheaf_graphs (s : State) (n : Nat) (f : Sheaf → Sheaf) : (s.modSheaf n f).graphs = s.graphs := rfl
@[simp] theorem State.modSheaf_launches (s : State) (n : Nat) (f : Sheaf → Sheaf) : (s.modSheaf n f).launches = s.launches := rfl
@[simp] theorem State.modSheaf_saved (s : State) (n : Nat) (f : Sheaf → Sheaf) : (s.modSheaf n f).saved = s.saved := rfl
@[simp] theorem State.modSheaf_rings (s : State) (n : Nat) (f : Sheaf → Sheaf) : (s.modSheaf n f).rings = s.rings := rfl
@[simp] theorem State.modSheaf_cyc (s : State) (n : Nat) (f : Sheaf → Sheaf) : (s.modSheaf n f).cyc = s.cyc := rfl
@[simp] theorem State.modSheaf_stage (s : State) (n : Nat) (f : Sheaf → Sheaf) : (s.modSheaf n f).stage = s.stage := rfl
@[simp] theorem State.modSheaf_err (s : State) (n : Nat) (f : Sheaf → Sheaf) : (s.modSheaf n f).err = s.err := rfl
@[simp] theorem State.modSheaf_linkup (s : State) (n : Nat) (f : Sheaf → Sheaf) : (s.modSheaf n f).linkup = s.linkup := rfl
@[simp] theorem State.modSheaf_rmLock (s : State) (n : Nat) (f : Sheaf → Sheaf) : (s.modSheaf n f).rmLock = s.rmLock := rfl
@[simp] theorem State.modSheaf_rmF (s : State) (n : Nat) (f : Sheaf → Sheaf) : (s.modSheaf n f).rmF = s.rmF := rfl
@[simp] theorem State.modSheaf_accepted (s : State) (n : Nat) (f : Sheaf → Sheaf) : (s.modSheaf n f).accepted = s.accepted := rfl
@[simp] theorem State.modSheaf_rej (s : State) (n : Nat) (f : Sheaf → Sheaf) : (s.modSheaf n f).rej = s.rej := rfl
@[simp] theorem State.modSheaf_csbase (s : State) (n : Nat) (f : Sheaf → Sheaf) : (s.modSheaf n f).csbase = s.csbase := rfl
@[simp] theorem State.modSheaf_cssize (s : State) (n : Nat) (f : Sheaf → Sheaf) : (s.modSheaf n f).cssize = s.cssize := rfl
@[simp] theorem State.modSheaf_throt (s : State) (n : Nat) (f : Sheaf → Sheaf) : (s.modSheaf n f).throt = s.throt := rfl
@[simp] theorem State.modSheaf_draw (s : State) (n : Nat) (f : Sheaf → Sheaf) : (s.modSheaf n f).draw = s.draw := rfl
@[simp] theorem State.modSheaf_limit (s : State) (n : Nat) (f : Sheaf → Sheaf) : (s.modSheaf n f).limit = s.limit := rfl
@[simp] theorem State.modSheaf_mcValid (s : State) (n : Nat) (f : Sheaf → Sheaf) : (s.modSheaf n f).mcValid = s.mcValid := rfl
@[simp] theorem State.modSheaf_mcKind (s : State) (n : Nat) (f : Sheaf → Sheaf) : (s.modSheaf n f).mcKind = s.mcKind := rfl
@[simp] theorem State.modSheaf_mcSeq (s : State) (n : Nat) (f : Sheaf → Sheaf) : (s.modSheaf n f).mcSeq = s.mcSeq := rfl
@[simp] theorem State.modSheaf_evbase (s : State) (n : Nat) (f : Sheaf → Sheaf) : (s.modSheaf n f).evbase = s.evbase := rfl
@[simp] theorem State.modSheaf_evsize (s : State) (n : Nat) (f : Sheaf → Sheaf) : (s.modSheaf n f).evsize = s.evsize := rfl
@[simp] theorem State.modSheaf_evpos (s : State) (n : Nat) (f : Sheaf → Sheaf) : (s.modSheaf n f).evpos = s.evpos := rfl
@[simp] theorem State.modSheaf_evseq (s : State) (n : Nat) (f : Sheaf → Sheaf) : (s.modSheaf n f).evseq = s.evseq := rfl
@[simp] theorem State.modSheaf_wear (s : State) (n : Nat) (f : Sheaf → Sheaf) : (s.modSheaf n f).wear = s.wear := rfl
@[simp] theorem State.modSheaf_eol (s : State) (n : Nat) (f : Sheaf → Sheaf) : (s.modSheaf n f).eol = s.eol := rfl
@[simp] theorem State.modSheaf_kslots (s : State) (n : Nat) (f : Sheaf → Sheaf) : (s.modSheaf n f).kslots = s.kslots := rfl
@[simp] theorem State.modSheaf_pcmap (s : State) (n : Nat) (f : Sheaf → Sheaf) : (s.modSheaf n f).pcmap = s.pcmap := rfl
@[simp] theorem State.modSheaf_tmapDef (s : State) (n : Nat) (f : Sheaf → Sheaf) : (s.modSheaf n f).tmapDef = s.tmapDef := rfl
@[simp] theorem State.modSheaf_tmap (s : State) (n : Nat) (f : Sheaf → Sheaf) : (s.modSheaf n f).tmap = s.tmap := rfl
@[simp] theorem State.modSheaf_ide (s : State) (n : Nat) (f : Sheaf → Sheaf) : (s.modSheaf n f).ide = s.ide := rfl
@[simp] theorem State.modSheaf_windows (s : State) (n : Nat) (f : Sheaf → Sheaf) : (s.modSheaf n f).windows = s.windows := rfl
@[simp] theorem State.modSheaf_keys (s : State) (n : Nat) (f : Sheaf → Sheaf) : (s.modSheaf n f).keys = s.keys := rfl
@[simp] theorem State.modSheaf_sealed (s : State) (n : Nat) (f : Sheaf → Sheaf) : (s.modSheaf n f).sealed = s.sealed := rfl
@[simp] theorem State.modSheaf_counters (s : State) (n : Nat) (f : Sheaf → Sheaf) : (s.modSheaf n f).counters = s.counters := rfl
@[simp] theorem State.modSheaf_cipher (s : State) (n : Nat) (f : Sheaf → Sheaf) : (s.modSheaf n f).cipher = s.cipher := rfl
@[simp] theorem State.modSheaf_tags (s : State) (n : Nat) (f : Sheaf → Sheaf) : (s.modSheaf n f).tags = s.tags := rfl
@[simp] theorem State.modSheaf_raw (s : State) (n : Nat) (f : Sheaf → Sheaf) : (s.modSheaf n f).raw = s.raw := rfl
@[simp] theorem State.modSheaf_session (s : State) (n : Nat) (f : Sheaf → Sheaf) : (s.modSheaf n f).session = s.session := rfl
@[simp] theorem State.modSheaf_laneMap (s : State) (n : Nat) (f : Sheaf → Sheaf) : (s.modSheaf n f).laneMap = s.laneMap := rfl
@[simp] theorem State.modSheaf_firmware (s : State) (n : Nat) (f : Sheaf → Sheaf) : (s.modSheaf n f).firmware = s.firmware := rfl
@[simp] theorem State.modSheaf_reply (s : State) (n : Nat) (f : Sheaf → Sheaf) : (s.modSheaf n f).reply = s.reply := rfl
@[simp] theorem State.modSheaf_nextHalf (s : State) (n : Nat) (f : Sheaf → Sheaf) : (s.modSheaf n f).nextHalf = s.nextHalf := rfl
@[simp] theorem State.modSheaf_messages (s : State) (n : Nat) (f : Sheaf → Sheaf) : (s.modSheaf n f).messages = s.messages := rfl
@[simp] theorem State.modSheaf_holds (s : State) (n : Nat) (f : Sheaf → Sheaf) : (s.modSheaf n f).holds = s.holds := rfl
@[simp] theorem State.modSheaf_gifts (s : State) (n : Nat) (f : Sheaf → Sheaf) : (s.modSheaf n f).gifts = s.gifts := rfl
@[simp] theorem State.modSheaf_walks (s : State) (n : Nat) (f : Sheaf → Sheaf) : (s.modSheaf n f).walks = s.walks := rfl
@[simp] theorem State.modSheaf_faultLog (s : State) (n : Nat) (f : Sheaf → Sheaf) : (s.modSheaf n f).faultLog = s.faultLog := rfl
@[simp] theorem State.modSheaf_poisoned (s : State) (n : Nat) (f : Sheaf → Sheaf) : (s.modSheaf n f).poisoned = s.poisoned := rfl
@[simp] theorem State.modSheaf_nextOut (s : State) (n : Nat) (f : Sheaf → Sheaf) : (s.modSheaf n f).nextOut = s.nextOut := rfl
@[simp] theorem State.modSheaf_nextId (s : State) (n : Nat) (f : Sheaf → Sheaf) : (s.modSheaf n f).nextId = s.nextId := rfl
@[simp] theorem State.modSheaf_signal (s : State) (n : Nat) (f : Sheaf → Sheaf) : (s.modSheaf n f).signal = s.signal := rfl
@[simp] theorem State.modSheaf_agenda (s : State) (n : Nat) (f : Sheaf → Sheaf) : (s.modSheaf n f).agenda = s.agenda := rfl
@[simp] theorem State.modSheaf_tick (s : State) (n : Nat) (f : Sheaf → Sheaf) : (s.modSheaf n f).tick = s.tick := rfl
@[simp] theorem State.modSheaf_waiting (s : State) (n : Nat) (f : Sheaf → Sheaf) : (s.modSheaf n f).waiting = s.waiting := rfl
@[simp] theorem State.modSheaf_undo (s : State) (n : Nat) (f : Sheaf → Sheaf) : (s.modSheaf n f).undo = s.undo := rfl

/-! ### modChannel -/

@[simp] theorem State.modChannel_hart (s : State) (a b : Nat) (f : Channel → Channel) : (s.modChannel a b f).hart = s.hart := rfl
@[simp] theorem State.modChannel_others (s : State) (a b : Nat) (f : Channel → Channel) : (s.modChannel a b f).others = s.others := rfl
@[simp] theorem State.modChannel_idle (s : State) (a b : Nat) (f : Channel → Channel) : (s.modChannel a b f).idle = s.idle := rfl
@[simp] theorem State.modChannel_roots (s : State) (a b : Nat) (f : Channel → Channel) : (s.modChannel a b f).roots = s.roots := rfl
@[simp] theorem State.modChannel_sheaves (s : State) (a b : Nat) (f : Channel → Channel) : (s.modChannel a b f).sheaves = s.sheaves := rfl
@[simp] theorem State.modChannel_nextSet (s : State) (a b : Nat) (f : Channel → Channel) : (s.modChannel a b f).nextSet = s.nextSet := rfl
@[simp] theorem State.modChannel_ckpts (s : State) (a b : Nat) (f : Channel → Channel) : (s.modChannel a b f).ckpts = s.ckpts := rfl
@[simp] theorem State.modChannel_mem (s : State) (a b : Nat) (f : Channel → Channel) : (s.modChannel a b f).mem = s.mem := rfl
@[simp] theorem State.modChannel_vlinks (s : State) (a b : Nat) (f : Channel → Channel) : (s.modChannel a b f).vlinks = s.vlinks := rfl
@[simp] theorem State.modChannel_ops (s : State) (a b : Nat) (f : Channel → Channel) : (s.modChannel a b f).ops = s.ops := rfl
@[simp] theorem State.modChannel_etlb (s : State) (a b : Nat) (f : Channel → Channel) : (s.modChannel a b f).etlb = s.etlb := rfl
@[simp] theorem State.modChannel_merges (s : State) (a b : Nat) (f : Channel → Channel) : (s.modChannel a b f).merges = s.merges := rfl
@[simp] theorem State.modChannel_jobs (s : State) (a b : Nat) (f : Channel → Channel) : (s.modChannel a b f).jobs = s.jobs := rfl
@[simp] theorem State.modChannel_phases (s : State) (a b : Nat) (f : Channel → Channel) : (s.modChannel a b f).phases = s.phases := rfl
@[simp] theorem State.modChannel_graphs (s : State) (a b : Nat) (f : Channel → Channel) : (s.modChannel a b f).graphs = s.graphs := rfl
@[simp] theorem State.modChannel_launches (s : State) (a b : Nat) (f : Channel → Channel) : (s.modChannel a b f).launches = s.launches := rfl
@[simp] theorem State.modChannel_saved (s : State) (a b : Nat) (f : Channel → Channel) : (s.modChannel a b f).saved = s.saved := rfl
@[simp] theorem State.modChannel_rings (s : State) (a b : Nat) (f : Channel → Channel) : (s.modChannel a b f).rings = s.rings := rfl
@[simp] theorem State.modChannel_cyc (s : State) (a b : Nat) (f : Channel → Channel) : (s.modChannel a b f).cyc = s.cyc := rfl
@[simp] theorem State.modChannel_stage (s : State) (a b : Nat) (f : Channel → Channel) : (s.modChannel a b f).stage = s.stage := rfl
@[simp] theorem State.modChannel_err (s : State) (a b : Nat) (f : Channel → Channel) : (s.modChannel a b f).err = s.err := rfl
@[simp] theorem State.modChannel_linkup (s : State) (a b : Nat) (f : Channel → Channel) : (s.modChannel a b f).linkup = s.linkup := rfl
@[simp] theorem State.modChannel_rmLock (s : State) (a b : Nat) (f : Channel → Channel) : (s.modChannel a b f).rmLock = s.rmLock := rfl
@[simp] theorem State.modChannel_rmF (s : State) (a b : Nat) (f : Channel → Channel) : (s.modChannel a b f).rmF = s.rmF := rfl
@[simp] theorem State.modChannel_accepted (s : State) (a b : Nat) (f : Channel → Channel) : (s.modChannel a b f).accepted = s.accepted := rfl
@[simp] theorem State.modChannel_rej (s : State) (a b : Nat) (f : Channel → Channel) : (s.modChannel a b f).rej = s.rej := rfl
@[simp] theorem State.modChannel_csbase (s : State) (a b : Nat) (f : Channel → Channel) : (s.modChannel a b f).csbase = s.csbase := rfl
@[simp] theorem State.modChannel_cssize (s : State) (a b : Nat) (f : Channel → Channel) : (s.modChannel a b f).cssize = s.cssize := rfl
@[simp] theorem State.modChannel_throt (s : State) (a b : Nat) (f : Channel → Channel) : (s.modChannel a b f).throt = s.throt := rfl
@[simp] theorem State.modChannel_draw (s : State) (a b : Nat) (f : Channel → Channel) : (s.modChannel a b f).draw = s.draw := rfl
@[simp] theorem State.modChannel_limit (s : State) (a b : Nat) (f : Channel → Channel) : (s.modChannel a b f).limit = s.limit := rfl
@[simp] theorem State.modChannel_mcValid (s : State) (a b : Nat) (f : Channel → Channel) : (s.modChannel a b f).mcValid = s.mcValid := rfl
@[simp] theorem State.modChannel_mcKind (s : State) (a b : Nat) (f : Channel → Channel) : (s.modChannel a b f).mcKind = s.mcKind := rfl
@[simp] theorem State.modChannel_mcSeq (s : State) (a b : Nat) (f : Channel → Channel) : (s.modChannel a b f).mcSeq = s.mcSeq := rfl
@[simp] theorem State.modChannel_evbase (s : State) (a b : Nat) (f : Channel → Channel) : (s.modChannel a b f).evbase = s.evbase := rfl
@[simp] theorem State.modChannel_evsize (s : State) (a b : Nat) (f : Channel → Channel) : (s.modChannel a b f).evsize = s.evsize := rfl
@[simp] theorem State.modChannel_evpos (s : State) (a b : Nat) (f : Channel → Channel) : (s.modChannel a b f).evpos = s.evpos := rfl
@[simp] theorem State.modChannel_evseq (s : State) (a b : Nat) (f : Channel → Channel) : (s.modChannel a b f).evseq = s.evseq := rfl
@[simp] theorem State.modChannel_wear (s : State) (a b : Nat) (f : Channel → Channel) : (s.modChannel a b f).wear = s.wear := rfl
@[simp] theorem State.modChannel_eol (s : State) (a b : Nat) (f : Channel → Channel) : (s.modChannel a b f).eol = s.eol := rfl
@[simp] theorem State.modChannel_kslots (s : State) (a b : Nat) (f : Channel → Channel) : (s.modChannel a b f).kslots = s.kslots := rfl
@[simp] theorem State.modChannel_pcmap (s : State) (a b : Nat) (f : Channel → Channel) : (s.modChannel a b f).pcmap = s.pcmap := rfl
@[simp] theorem State.modChannel_tmapDef (s : State) (a b : Nat) (f : Channel → Channel) : (s.modChannel a b f).tmapDef = s.tmapDef := rfl
@[simp] theorem State.modChannel_tmap (s : State) (a b : Nat) (f : Channel → Channel) : (s.modChannel a b f).tmap = s.tmap := rfl
@[simp] theorem State.modChannel_ide (s : State) (a b : Nat) (f : Channel → Channel) : (s.modChannel a b f).ide = s.ide := rfl
@[simp] theorem State.modChannel_windows (s : State) (a b : Nat) (f : Channel → Channel) : (s.modChannel a b f).windows = s.windows := rfl
@[simp] theorem State.modChannel_keys (s : State) (a b : Nat) (f : Channel → Channel) : (s.modChannel a b f).keys = s.keys := rfl
@[simp] theorem State.modChannel_sealed (s : State) (a b : Nat) (f : Channel → Channel) : (s.modChannel a b f).sealed = s.sealed := rfl
@[simp] theorem State.modChannel_counters (s : State) (a b : Nat) (f : Channel → Channel) : (s.modChannel a b f).counters = s.counters := rfl
@[simp] theorem State.modChannel_cipher (s : State) (a b : Nat) (f : Channel → Channel) : (s.modChannel a b f).cipher = s.cipher := rfl
@[simp] theorem State.modChannel_tags (s : State) (a b : Nat) (f : Channel → Channel) : (s.modChannel a b f).tags = s.tags := rfl
@[simp] theorem State.modChannel_raw (s : State) (a b : Nat) (f : Channel → Channel) : (s.modChannel a b f).raw = s.raw := rfl
@[simp] theorem State.modChannel_session (s : State) (a b : Nat) (f : Channel → Channel) : (s.modChannel a b f).session = s.session := rfl
@[simp] theorem State.modChannel_laneMap (s : State) (a b : Nat) (f : Channel → Channel) : (s.modChannel a b f).laneMap = s.laneMap := rfl
@[simp] theorem State.modChannel_firmware (s : State) (a b : Nat) (f : Channel → Channel) : (s.modChannel a b f).firmware = s.firmware := rfl
@[simp] theorem State.modChannel_reply (s : State) (a b : Nat) (f : Channel → Channel) : (s.modChannel a b f).reply = s.reply := rfl
@[simp] theorem State.modChannel_nextHalf (s : State) (a b : Nat) (f : Channel → Channel) : (s.modChannel a b f).nextHalf = s.nextHalf := rfl
@[simp] theorem State.modChannel_messages (s : State) (a b : Nat) (f : Channel → Channel) : (s.modChannel a b f).messages = s.messages := rfl
@[simp] theorem State.modChannel_holds (s : State) (a b : Nat) (f : Channel → Channel) : (s.modChannel a b f).holds = s.holds := rfl
@[simp] theorem State.modChannel_gifts (s : State) (a b : Nat) (f : Channel → Channel) : (s.modChannel a b f).gifts = s.gifts := rfl
@[simp] theorem State.modChannel_walks (s : State) (a b : Nat) (f : Channel → Channel) : (s.modChannel a b f).walks = s.walks := rfl
@[simp] theorem State.modChannel_faultLog (s : State) (a b : Nat) (f : Channel → Channel) : (s.modChannel a b f).faultLog = s.faultLog := rfl
@[simp] theorem State.modChannel_poisoned (s : State) (a b : Nat) (f : Channel → Channel) : (s.modChannel a b f).poisoned = s.poisoned := rfl
@[simp] theorem State.modChannel_nextOut (s : State) (a b : Nat) (f : Channel → Channel) : (s.modChannel a b f).nextOut = s.nextOut := rfl
@[simp] theorem State.modChannel_nextId (s : State) (a b : Nat) (f : Channel → Channel) : (s.modChannel a b f).nextId = s.nextId := rfl
@[simp] theorem State.modChannel_signal (s : State) (a b : Nat) (f : Channel → Channel) : (s.modChannel a b f).signal = s.signal := rfl
@[simp] theorem State.modChannel_agenda (s : State) (a b : Nat) (f : Channel → Channel) : (s.modChannel a b f).agenda = s.agenda := rfl
@[simp] theorem State.modChannel_tick (s : State) (a b : Nat) (f : Channel → Channel) : (s.modChannel a b f).tick = s.tick := rfl
@[simp] theorem State.modChannel_waiting (s : State) (a b : Nat) (f : Channel → Channel) : (s.modChannel a b f).waiting = s.waiting := rfl
@[simp] theorem State.modChannel_undo (s : State) (a b : Nat) (f : Channel → Channel) : (s.modChannel a b f).undo = s.undo := rfl

/-! ### modLaunch -/

@[simp] theorem State.modLaunch_hart (s : State) (n : Nat) (f : Launch → Launch) : (s.modLaunch n f).hart = s.hart := rfl
@[simp] theorem State.modLaunch_others (s : State) (n : Nat) (f : Launch → Launch) : (s.modLaunch n f).others = s.others := rfl
@[simp] theorem State.modLaunch_idle (s : State) (n : Nat) (f : Launch → Launch) : (s.modLaunch n f).idle = s.idle := rfl
@[simp] theorem State.modLaunch_roots (s : State) (n : Nat) (f : Launch → Launch) : (s.modLaunch n f).roots = s.roots := rfl
@[simp] theorem State.modLaunch_sheaves (s : State) (n : Nat) (f : Launch → Launch) : (s.modLaunch n f).sheaves = s.sheaves := rfl
@[simp] theorem State.modLaunch_chsets (s : State) (n : Nat) (f : Launch → Launch) : (s.modLaunch n f).chsets = s.chsets := rfl
@[simp] theorem State.modLaunch_nextSet (s : State) (n : Nat) (f : Launch → Launch) : (s.modLaunch n f).nextSet = s.nextSet := rfl
@[simp] theorem State.modLaunch_ckpts (s : State) (n : Nat) (f : Launch → Launch) : (s.modLaunch n f).ckpts = s.ckpts := rfl
@[simp] theorem State.modLaunch_mem (s : State) (n : Nat) (f : Launch → Launch) : (s.modLaunch n f).mem = s.mem := rfl
@[simp] theorem State.modLaunch_vlinks (s : State) (n : Nat) (f : Launch → Launch) : (s.modLaunch n f).vlinks = s.vlinks := rfl
@[simp] theorem State.modLaunch_ops (s : State) (n : Nat) (f : Launch → Launch) : (s.modLaunch n f).ops = s.ops := rfl
@[simp] theorem State.modLaunch_etlb (s : State) (n : Nat) (f : Launch → Launch) : (s.modLaunch n f).etlb = s.etlb := rfl
@[simp] theorem State.modLaunch_merges (s : State) (n : Nat) (f : Launch → Launch) : (s.modLaunch n f).merges = s.merges := rfl
@[simp] theorem State.modLaunch_jobs (s : State) (n : Nat) (f : Launch → Launch) : (s.modLaunch n f).jobs = s.jobs := rfl
@[simp] theorem State.modLaunch_phases (s : State) (n : Nat) (f : Launch → Launch) : (s.modLaunch n f).phases = s.phases := rfl
@[simp] theorem State.modLaunch_graphs (s : State) (n : Nat) (f : Launch → Launch) : (s.modLaunch n f).graphs = s.graphs := rfl
@[simp] theorem State.modLaunch_saved (s : State) (n : Nat) (f : Launch → Launch) : (s.modLaunch n f).saved = s.saved := rfl
@[simp] theorem State.modLaunch_rings (s : State) (n : Nat) (f : Launch → Launch) : (s.modLaunch n f).rings = s.rings := rfl
@[simp] theorem State.modLaunch_cyc (s : State) (n : Nat) (f : Launch → Launch) : (s.modLaunch n f).cyc = s.cyc := rfl
@[simp] theorem State.modLaunch_stage (s : State) (n : Nat) (f : Launch → Launch) : (s.modLaunch n f).stage = s.stage := rfl
@[simp] theorem State.modLaunch_err (s : State) (n : Nat) (f : Launch → Launch) : (s.modLaunch n f).err = s.err := rfl
@[simp] theorem State.modLaunch_linkup (s : State) (n : Nat) (f : Launch → Launch) : (s.modLaunch n f).linkup = s.linkup := rfl
@[simp] theorem State.modLaunch_rmLock (s : State) (n : Nat) (f : Launch → Launch) : (s.modLaunch n f).rmLock = s.rmLock := rfl
@[simp] theorem State.modLaunch_rmF (s : State) (n : Nat) (f : Launch → Launch) : (s.modLaunch n f).rmF = s.rmF := rfl
@[simp] theorem State.modLaunch_accepted (s : State) (n : Nat) (f : Launch → Launch) : (s.modLaunch n f).accepted = s.accepted := rfl
@[simp] theorem State.modLaunch_rej (s : State) (n : Nat) (f : Launch → Launch) : (s.modLaunch n f).rej = s.rej := rfl
@[simp] theorem State.modLaunch_csbase (s : State) (n : Nat) (f : Launch → Launch) : (s.modLaunch n f).csbase = s.csbase := rfl
@[simp] theorem State.modLaunch_cssize (s : State) (n : Nat) (f : Launch → Launch) : (s.modLaunch n f).cssize = s.cssize := rfl
@[simp] theorem State.modLaunch_throt (s : State) (n : Nat) (f : Launch → Launch) : (s.modLaunch n f).throt = s.throt := rfl
@[simp] theorem State.modLaunch_draw (s : State) (n : Nat) (f : Launch → Launch) : (s.modLaunch n f).draw = s.draw := rfl
@[simp] theorem State.modLaunch_limit (s : State) (n : Nat) (f : Launch → Launch) : (s.modLaunch n f).limit = s.limit := rfl
@[simp] theorem State.modLaunch_mcValid (s : State) (n : Nat) (f : Launch → Launch) : (s.modLaunch n f).mcValid = s.mcValid := rfl
@[simp] theorem State.modLaunch_mcKind (s : State) (n : Nat) (f : Launch → Launch) : (s.modLaunch n f).mcKind = s.mcKind := rfl
@[simp] theorem State.modLaunch_mcSeq (s : State) (n : Nat) (f : Launch → Launch) : (s.modLaunch n f).mcSeq = s.mcSeq := rfl
@[simp] theorem State.modLaunch_evbase (s : State) (n : Nat) (f : Launch → Launch) : (s.modLaunch n f).evbase = s.evbase := rfl
@[simp] theorem State.modLaunch_evsize (s : State) (n : Nat) (f : Launch → Launch) : (s.modLaunch n f).evsize = s.evsize := rfl
@[simp] theorem State.modLaunch_evpos (s : State) (n : Nat) (f : Launch → Launch) : (s.modLaunch n f).evpos = s.evpos := rfl
@[simp] theorem State.modLaunch_evseq (s : State) (n : Nat) (f : Launch → Launch) : (s.modLaunch n f).evseq = s.evseq := rfl
@[simp] theorem State.modLaunch_wear (s : State) (n : Nat) (f : Launch → Launch) : (s.modLaunch n f).wear = s.wear := rfl
@[simp] theorem State.modLaunch_eol (s : State) (n : Nat) (f : Launch → Launch) : (s.modLaunch n f).eol = s.eol := rfl
@[simp] theorem State.modLaunch_kslots (s : State) (n : Nat) (f : Launch → Launch) : (s.modLaunch n f).kslots = s.kslots := rfl
@[simp] theorem State.modLaunch_pcmap (s : State) (n : Nat) (f : Launch → Launch) : (s.modLaunch n f).pcmap = s.pcmap := rfl
@[simp] theorem State.modLaunch_tmapDef (s : State) (n : Nat) (f : Launch → Launch) : (s.modLaunch n f).tmapDef = s.tmapDef := rfl
@[simp] theorem State.modLaunch_tmap (s : State) (n : Nat) (f : Launch → Launch) : (s.modLaunch n f).tmap = s.tmap := rfl
@[simp] theorem State.modLaunch_ide (s : State) (n : Nat) (f : Launch → Launch) : (s.modLaunch n f).ide = s.ide := rfl
@[simp] theorem State.modLaunch_windows (s : State) (n : Nat) (f : Launch → Launch) : (s.modLaunch n f).windows = s.windows := rfl
@[simp] theorem State.modLaunch_keys (s : State) (n : Nat) (f : Launch → Launch) : (s.modLaunch n f).keys = s.keys := rfl
@[simp] theorem State.modLaunch_sealed (s : State) (n : Nat) (f : Launch → Launch) : (s.modLaunch n f).sealed = s.sealed := rfl
@[simp] theorem State.modLaunch_counters (s : State) (n : Nat) (f : Launch → Launch) : (s.modLaunch n f).counters = s.counters := rfl
@[simp] theorem State.modLaunch_cipher (s : State) (n : Nat) (f : Launch → Launch) : (s.modLaunch n f).cipher = s.cipher := rfl
@[simp] theorem State.modLaunch_tags (s : State) (n : Nat) (f : Launch → Launch) : (s.modLaunch n f).tags = s.tags := rfl
@[simp] theorem State.modLaunch_raw (s : State) (n : Nat) (f : Launch → Launch) : (s.modLaunch n f).raw = s.raw := rfl
@[simp] theorem State.modLaunch_session (s : State) (n : Nat) (f : Launch → Launch) : (s.modLaunch n f).session = s.session := rfl
@[simp] theorem State.modLaunch_laneMap (s : State) (n : Nat) (f : Launch → Launch) : (s.modLaunch n f).laneMap = s.laneMap := rfl
@[simp] theorem State.modLaunch_firmware (s : State) (n : Nat) (f : Launch → Launch) : (s.modLaunch n f).firmware = s.firmware := rfl
@[simp] theorem State.modLaunch_reply (s : State) (n : Nat) (f : Launch → Launch) : (s.modLaunch n f).reply = s.reply := rfl
@[simp] theorem State.modLaunch_nextHalf (s : State) (n : Nat) (f : Launch → Launch) : (s.modLaunch n f).nextHalf = s.nextHalf := rfl
@[simp] theorem State.modLaunch_messages (s : State) (n : Nat) (f : Launch → Launch) : (s.modLaunch n f).messages = s.messages := rfl
@[simp] theorem State.modLaunch_holds (s : State) (n : Nat) (f : Launch → Launch) : (s.modLaunch n f).holds = s.holds := rfl
@[simp] theorem State.modLaunch_gifts (s : State) (n : Nat) (f : Launch → Launch) : (s.modLaunch n f).gifts = s.gifts := rfl
@[simp] theorem State.modLaunch_walks (s : State) (n : Nat) (f : Launch → Launch) : (s.modLaunch n f).walks = s.walks := rfl
@[simp] theorem State.modLaunch_faultLog (s : State) (n : Nat) (f : Launch → Launch) : (s.modLaunch n f).faultLog = s.faultLog := rfl
@[simp] theorem State.modLaunch_poisoned (s : State) (n : Nat) (f : Launch → Launch) : (s.modLaunch n f).poisoned = s.poisoned := rfl
@[simp] theorem State.modLaunch_nextOut (s : State) (n : Nat) (f : Launch → Launch) : (s.modLaunch n f).nextOut = s.nextOut := rfl
@[simp] theorem State.modLaunch_nextId (s : State) (n : Nat) (f : Launch → Launch) : (s.modLaunch n f).nextId = s.nextId := rfl
@[simp] theorem State.modLaunch_signal (s : State) (n : Nat) (f : Launch → Launch) : (s.modLaunch n f).signal = s.signal := rfl
@[simp] theorem State.modLaunch_agenda (s : State) (n : Nat) (f : Launch → Launch) : (s.modLaunch n f).agenda = s.agenda := rfl
@[simp] theorem State.modLaunch_tick (s : State) (n : Nat) (f : Launch → Launch) : (s.modLaunch n f).tick = s.tick := rfl
@[simp] theorem State.modLaunch_waiting (s : State) (n : Nat) (f : Launch → Launch) : (s.modLaunch n f).waiting = s.waiting := rfl
@[simp] theorem State.modLaunch_undo (s : State) (n : Nat) (f : Launch → Launch) : (s.modLaunch n f).undo = s.undo := rfl

/-! ### modOp -/

@[simp] theorem State.modOp_hart (s : State) (n : Nat) (f : EngOp → EngOp) : (s.modOp n f).hart = s.hart := rfl
@[simp] theorem State.modOp_others (s : State) (n : Nat) (f : EngOp → EngOp) : (s.modOp n f).others = s.others := rfl
@[simp] theorem State.modOp_idle (s : State) (n : Nat) (f : EngOp → EngOp) : (s.modOp n f).idle = s.idle := rfl
@[simp] theorem State.modOp_roots (s : State) (n : Nat) (f : EngOp → EngOp) : (s.modOp n f).roots = s.roots := rfl
@[simp] theorem State.modOp_sheaves (s : State) (n : Nat) (f : EngOp → EngOp) : (s.modOp n f).sheaves = s.sheaves := rfl
@[simp] theorem State.modOp_chsets (s : State) (n : Nat) (f : EngOp → EngOp) : (s.modOp n f).chsets = s.chsets := rfl
@[simp] theorem State.modOp_nextSet (s : State) (n : Nat) (f : EngOp → EngOp) : (s.modOp n f).nextSet = s.nextSet := rfl
@[simp] theorem State.modOp_ckpts (s : State) (n : Nat) (f : EngOp → EngOp) : (s.modOp n f).ckpts = s.ckpts := rfl
@[simp] theorem State.modOp_mem (s : State) (n : Nat) (f : EngOp → EngOp) : (s.modOp n f).mem = s.mem := rfl
@[simp] theorem State.modOp_vlinks (s : State) (n : Nat) (f : EngOp → EngOp) : (s.modOp n f).vlinks = s.vlinks := rfl
@[simp] theorem State.modOp_etlb (s : State) (n : Nat) (f : EngOp → EngOp) : (s.modOp n f).etlb = s.etlb := rfl
@[simp] theorem State.modOp_merges (s : State) (n : Nat) (f : EngOp → EngOp) : (s.modOp n f).merges = s.merges := rfl
@[simp] theorem State.modOp_jobs (s : State) (n : Nat) (f : EngOp → EngOp) : (s.modOp n f).jobs = s.jobs := rfl
@[simp] theorem State.modOp_phases (s : State) (n : Nat) (f : EngOp → EngOp) : (s.modOp n f).phases = s.phases := rfl
@[simp] theorem State.modOp_graphs (s : State) (n : Nat) (f : EngOp → EngOp) : (s.modOp n f).graphs = s.graphs := rfl
@[simp] theorem State.modOp_launches (s : State) (n : Nat) (f : EngOp → EngOp) : (s.modOp n f).launches = s.launches := rfl
@[simp] theorem State.modOp_saved (s : State) (n : Nat) (f : EngOp → EngOp) : (s.modOp n f).saved = s.saved := rfl
@[simp] theorem State.modOp_rings (s : State) (n : Nat) (f : EngOp → EngOp) : (s.modOp n f).rings = s.rings := rfl
@[simp] theorem State.modOp_cyc (s : State) (n : Nat) (f : EngOp → EngOp) : (s.modOp n f).cyc = s.cyc := rfl
@[simp] theorem State.modOp_stage (s : State) (n : Nat) (f : EngOp → EngOp) : (s.modOp n f).stage = s.stage := rfl
@[simp] theorem State.modOp_err (s : State) (n : Nat) (f : EngOp → EngOp) : (s.modOp n f).err = s.err := rfl
@[simp] theorem State.modOp_linkup (s : State) (n : Nat) (f : EngOp → EngOp) : (s.modOp n f).linkup = s.linkup := rfl
@[simp] theorem State.modOp_rmLock (s : State) (n : Nat) (f : EngOp → EngOp) : (s.modOp n f).rmLock = s.rmLock := rfl
@[simp] theorem State.modOp_rmF (s : State) (n : Nat) (f : EngOp → EngOp) : (s.modOp n f).rmF = s.rmF := rfl
@[simp] theorem State.modOp_accepted (s : State) (n : Nat) (f : EngOp → EngOp) : (s.modOp n f).accepted = s.accepted := rfl
@[simp] theorem State.modOp_rej (s : State) (n : Nat) (f : EngOp → EngOp) : (s.modOp n f).rej = s.rej := rfl
@[simp] theorem State.modOp_csbase (s : State) (n : Nat) (f : EngOp → EngOp) : (s.modOp n f).csbase = s.csbase := rfl
@[simp] theorem State.modOp_cssize (s : State) (n : Nat) (f : EngOp → EngOp) : (s.modOp n f).cssize = s.cssize := rfl
@[simp] theorem State.modOp_throt (s : State) (n : Nat) (f : EngOp → EngOp) : (s.modOp n f).throt = s.throt := rfl
@[simp] theorem State.modOp_draw (s : State) (n : Nat) (f : EngOp → EngOp) : (s.modOp n f).draw = s.draw := rfl
@[simp] theorem State.modOp_limit (s : State) (n : Nat) (f : EngOp → EngOp) : (s.modOp n f).limit = s.limit := rfl
@[simp] theorem State.modOp_mcValid (s : State) (n : Nat) (f : EngOp → EngOp) : (s.modOp n f).mcValid = s.mcValid := rfl
@[simp] theorem State.modOp_mcKind (s : State) (n : Nat) (f : EngOp → EngOp) : (s.modOp n f).mcKind = s.mcKind := rfl
@[simp] theorem State.modOp_mcSeq (s : State) (n : Nat) (f : EngOp → EngOp) : (s.modOp n f).mcSeq = s.mcSeq := rfl
@[simp] theorem State.modOp_evbase (s : State) (n : Nat) (f : EngOp → EngOp) : (s.modOp n f).evbase = s.evbase := rfl
@[simp] theorem State.modOp_evsize (s : State) (n : Nat) (f : EngOp → EngOp) : (s.modOp n f).evsize = s.evsize := rfl
@[simp] theorem State.modOp_evpos (s : State) (n : Nat) (f : EngOp → EngOp) : (s.modOp n f).evpos = s.evpos := rfl
@[simp] theorem State.modOp_evseq (s : State) (n : Nat) (f : EngOp → EngOp) : (s.modOp n f).evseq = s.evseq := rfl
@[simp] theorem State.modOp_wear (s : State) (n : Nat) (f : EngOp → EngOp) : (s.modOp n f).wear = s.wear := rfl
@[simp] theorem State.modOp_eol (s : State) (n : Nat) (f : EngOp → EngOp) : (s.modOp n f).eol = s.eol := rfl
@[simp] theorem State.modOp_kslots (s : State) (n : Nat) (f : EngOp → EngOp) : (s.modOp n f).kslots = s.kslots := rfl
@[simp] theorem State.modOp_pcmap (s : State) (n : Nat) (f : EngOp → EngOp) : (s.modOp n f).pcmap = s.pcmap := rfl
@[simp] theorem State.modOp_tmapDef (s : State) (n : Nat) (f : EngOp → EngOp) : (s.modOp n f).tmapDef = s.tmapDef := rfl
@[simp] theorem State.modOp_tmap (s : State) (n : Nat) (f : EngOp → EngOp) : (s.modOp n f).tmap = s.tmap := rfl
@[simp] theorem State.modOp_ide (s : State) (n : Nat) (f : EngOp → EngOp) : (s.modOp n f).ide = s.ide := rfl
@[simp] theorem State.modOp_windows (s : State) (n : Nat) (f : EngOp → EngOp) : (s.modOp n f).windows = s.windows := rfl
@[simp] theorem State.modOp_keys (s : State) (n : Nat) (f : EngOp → EngOp) : (s.modOp n f).keys = s.keys := rfl
@[simp] theorem State.modOp_sealed (s : State) (n : Nat) (f : EngOp → EngOp) : (s.modOp n f).sealed = s.sealed := rfl
@[simp] theorem State.modOp_counters (s : State) (n : Nat) (f : EngOp → EngOp) : (s.modOp n f).counters = s.counters := rfl
@[simp] theorem State.modOp_cipher (s : State) (n : Nat) (f : EngOp → EngOp) : (s.modOp n f).cipher = s.cipher := rfl
@[simp] theorem State.modOp_tags (s : State) (n : Nat) (f : EngOp → EngOp) : (s.modOp n f).tags = s.tags := rfl
@[simp] theorem State.modOp_raw (s : State) (n : Nat) (f : EngOp → EngOp) : (s.modOp n f).raw = s.raw := rfl
@[simp] theorem State.modOp_session (s : State) (n : Nat) (f : EngOp → EngOp) : (s.modOp n f).session = s.session := rfl
@[simp] theorem State.modOp_laneMap (s : State) (n : Nat) (f : EngOp → EngOp) : (s.modOp n f).laneMap = s.laneMap := rfl
@[simp] theorem State.modOp_firmware (s : State) (n : Nat) (f : EngOp → EngOp) : (s.modOp n f).firmware = s.firmware := rfl
@[simp] theorem State.modOp_reply (s : State) (n : Nat) (f : EngOp → EngOp) : (s.modOp n f).reply = s.reply := rfl
@[simp] theorem State.modOp_nextHalf (s : State) (n : Nat) (f : EngOp → EngOp) : (s.modOp n f).nextHalf = s.nextHalf := rfl
@[simp] theorem State.modOp_messages (s : State) (n : Nat) (f : EngOp → EngOp) : (s.modOp n f).messages = s.messages := rfl
@[simp] theorem State.modOp_holds (s : State) (n : Nat) (f : EngOp → EngOp) : (s.modOp n f).holds = s.holds := rfl
@[simp] theorem State.modOp_gifts (s : State) (n : Nat) (f : EngOp → EngOp) : (s.modOp n f).gifts = s.gifts := rfl
@[simp] theorem State.modOp_walks (s : State) (n : Nat) (f : EngOp → EngOp) : (s.modOp n f).walks = s.walks := rfl
@[simp] theorem State.modOp_faultLog (s : State) (n : Nat) (f : EngOp → EngOp) : (s.modOp n f).faultLog = s.faultLog := rfl
@[simp] theorem State.modOp_poisoned (s : State) (n : Nat) (f : EngOp → EngOp) : (s.modOp n f).poisoned = s.poisoned := rfl
@[simp] theorem State.modOp_nextOut (s : State) (n : Nat) (f : EngOp → EngOp) : (s.modOp n f).nextOut = s.nextOut := rfl
@[simp] theorem State.modOp_nextId (s : State) (n : Nat) (f : EngOp → EngOp) : (s.modOp n f).nextId = s.nextId := rfl
@[simp] theorem State.modOp_signal (s : State) (n : Nat) (f : EngOp → EngOp) : (s.modOp n f).signal = s.signal := rfl
@[simp] theorem State.modOp_agenda (s : State) (n : Nat) (f : EngOp → EngOp) : (s.modOp n f).agenda = s.agenda := rfl
@[simp] theorem State.modOp_tick (s : State) (n : Nat) (f : EngOp → EngOp) : (s.modOp n f).tick = s.tick := rfl
@[simp] theorem State.modOp_waiting (s : State) (n : Nat) (f : EngOp → EngOp) : (s.modOp n f).waiting = s.waiting := rfl
@[simp] theorem State.modOp_undo (s : State) (n : Nat) (f : EngOp → EngOp) : (s.modOp n f).undo = s.undo := rfl

/-! ### modJob -/

@[simp] theorem State.modJob_hart (s : State) (n : Nat) (f : Job → Job) : (s.modJob n f).hart = s.hart := rfl
@[simp] theorem State.modJob_others (s : State) (n : Nat) (f : Job → Job) : (s.modJob n f).others = s.others := rfl
@[simp] theorem State.modJob_idle (s : State) (n : Nat) (f : Job → Job) : (s.modJob n f).idle = s.idle := rfl
@[simp] theorem State.modJob_roots (s : State) (n : Nat) (f : Job → Job) : (s.modJob n f).roots = s.roots := rfl
@[simp] theorem State.modJob_sheaves (s : State) (n : Nat) (f : Job → Job) : (s.modJob n f).sheaves = s.sheaves := rfl
@[simp] theorem State.modJob_chsets (s : State) (n : Nat) (f : Job → Job) : (s.modJob n f).chsets = s.chsets := rfl
@[simp] theorem State.modJob_nextSet (s : State) (n : Nat) (f : Job → Job) : (s.modJob n f).nextSet = s.nextSet := rfl
@[simp] theorem State.modJob_ckpts (s : State) (n : Nat) (f : Job → Job) : (s.modJob n f).ckpts = s.ckpts := rfl
@[simp] theorem State.modJob_mem (s : State) (n : Nat) (f : Job → Job) : (s.modJob n f).mem = s.mem := rfl
@[simp] theorem State.modJob_vlinks (s : State) (n : Nat) (f : Job → Job) : (s.modJob n f).vlinks = s.vlinks := rfl
@[simp] theorem State.modJob_ops (s : State) (n : Nat) (f : Job → Job) : (s.modJob n f).ops = s.ops := rfl
@[simp] theorem State.modJob_etlb (s : State) (n : Nat) (f : Job → Job) : (s.modJob n f).etlb = s.etlb := rfl
@[simp] theorem State.modJob_merges (s : State) (n : Nat) (f : Job → Job) : (s.modJob n f).merges = s.merges := rfl
@[simp] theorem State.modJob_phases (s : State) (n : Nat) (f : Job → Job) : (s.modJob n f).phases = s.phases := rfl
@[simp] theorem State.modJob_graphs (s : State) (n : Nat) (f : Job → Job) : (s.modJob n f).graphs = s.graphs := rfl
@[simp] theorem State.modJob_launches (s : State) (n : Nat) (f : Job → Job) : (s.modJob n f).launches = s.launches := rfl
@[simp] theorem State.modJob_saved (s : State) (n : Nat) (f : Job → Job) : (s.modJob n f).saved = s.saved := rfl
@[simp] theorem State.modJob_rings (s : State) (n : Nat) (f : Job → Job) : (s.modJob n f).rings = s.rings := rfl
@[simp] theorem State.modJob_cyc (s : State) (n : Nat) (f : Job → Job) : (s.modJob n f).cyc = s.cyc := rfl
@[simp] theorem State.modJob_stage (s : State) (n : Nat) (f : Job → Job) : (s.modJob n f).stage = s.stage := rfl
@[simp] theorem State.modJob_err (s : State) (n : Nat) (f : Job → Job) : (s.modJob n f).err = s.err := rfl
@[simp] theorem State.modJob_linkup (s : State) (n : Nat) (f : Job → Job) : (s.modJob n f).linkup = s.linkup := rfl
@[simp] theorem State.modJob_rmLock (s : State) (n : Nat) (f : Job → Job) : (s.modJob n f).rmLock = s.rmLock := rfl
@[simp] theorem State.modJob_rmF (s : State) (n : Nat) (f : Job → Job) : (s.modJob n f).rmF = s.rmF := rfl
@[simp] theorem State.modJob_accepted (s : State) (n : Nat) (f : Job → Job) : (s.modJob n f).accepted = s.accepted := rfl
@[simp] theorem State.modJob_rej (s : State) (n : Nat) (f : Job → Job) : (s.modJob n f).rej = s.rej := rfl
@[simp] theorem State.modJob_csbase (s : State) (n : Nat) (f : Job → Job) : (s.modJob n f).csbase = s.csbase := rfl
@[simp] theorem State.modJob_cssize (s : State) (n : Nat) (f : Job → Job) : (s.modJob n f).cssize = s.cssize := rfl
@[simp] theorem State.modJob_throt (s : State) (n : Nat) (f : Job → Job) : (s.modJob n f).throt = s.throt := rfl
@[simp] theorem State.modJob_draw (s : State) (n : Nat) (f : Job → Job) : (s.modJob n f).draw = s.draw := rfl
@[simp] theorem State.modJob_limit (s : State) (n : Nat) (f : Job → Job) : (s.modJob n f).limit = s.limit := rfl
@[simp] theorem State.modJob_mcValid (s : State) (n : Nat) (f : Job → Job) : (s.modJob n f).mcValid = s.mcValid := rfl
@[simp] theorem State.modJob_mcKind (s : State) (n : Nat) (f : Job → Job) : (s.modJob n f).mcKind = s.mcKind := rfl
@[simp] theorem State.modJob_mcSeq (s : State) (n : Nat) (f : Job → Job) : (s.modJob n f).mcSeq = s.mcSeq := rfl
@[simp] theorem State.modJob_evbase (s : State) (n : Nat) (f : Job → Job) : (s.modJob n f).evbase = s.evbase := rfl
@[simp] theorem State.modJob_evsize (s : State) (n : Nat) (f : Job → Job) : (s.modJob n f).evsize = s.evsize := rfl
@[simp] theorem State.modJob_evpos (s : State) (n : Nat) (f : Job → Job) : (s.modJob n f).evpos = s.evpos := rfl
@[simp] theorem State.modJob_evseq (s : State) (n : Nat) (f : Job → Job) : (s.modJob n f).evseq = s.evseq := rfl
@[simp] theorem State.modJob_wear (s : State) (n : Nat) (f : Job → Job) : (s.modJob n f).wear = s.wear := rfl
@[simp] theorem State.modJob_eol (s : State) (n : Nat) (f : Job → Job) : (s.modJob n f).eol = s.eol := rfl
@[simp] theorem State.modJob_kslots (s : State) (n : Nat) (f : Job → Job) : (s.modJob n f).kslots = s.kslots := rfl
@[simp] theorem State.modJob_pcmap (s : State) (n : Nat) (f : Job → Job) : (s.modJob n f).pcmap = s.pcmap := rfl
@[simp] theorem State.modJob_tmapDef (s : State) (n : Nat) (f : Job → Job) : (s.modJob n f).tmapDef = s.tmapDef := rfl
@[simp] theorem State.modJob_tmap (s : State) (n : Nat) (f : Job → Job) : (s.modJob n f).tmap = s.tmap := rfl
@[simp] theorem State.modJob_ide (s : State) (n : Nat) (f : Job → Job) : (s.modJob n f).ide = s.ide := rfl
@[simp] theorem State.modJob_windows (s : State) (n : Nat) (f : Job → Job) : (s.modJob n f).windows = s.windows := rfl
@[simp] theorem State.modJob_keys (s : State) (n : Nat) (f : Job → Job) : (s.modJob n f).keys = s.keys := rfl
@[simp] theorem State.modJob_sealed (s : State) (n : Nat) (f : Job → Job) : (s.modJob n f).sealed = s.sealed := rfl
@[simp] theorem State.modJob_counters (s : State) (n : Nat) (f : Job → Job) : (s.modJob n f).counters = s.counters := rfl
@[simp] theorem State.modJob_cipher (s : State) (n : Nat) (f : Job → Job) : (s.modJob n f).cipher = s.cipher := rfl
@[simp] theorem State.modJob_tags (s : State) (n : Nat) (f : Job → Job) : (s.modJob n f).tags = s.tags := rfl
@[simp] theorem State.modJob_raw (s : State) (n : Nat) (f : Job → Job) : (s.modJob n f).raw = s.raw := rfl
@[simp] theorem State.modJob_session (s : State) (n : Nat) (f : Job → Job) : (s.modJob n f).session = s.session := rfl
@[simp] theorem State.modJob_laneMap (s : State) (n : Nat) (f : Job → Job) : (s.modJob n f).laneMap = s.laneMap := rfl
@[simp] theorem State.modJob_firmware (s : State) (n : Nat) (f : Job → Job) : (s.modJob n f).firmware = s.firmware := rfl
@[simp] theorem State.modJob_reply (s : State) (n : Nat) (f : Job → Job) : (s.modJob n f).reply = s.reply := rfl
@[simp] theorem State.modJob_nextHalf (s : State) (n : Nat) (f : Job → Job) : (s.modJob n f).nextHalf = s.nextHalf := rfl
@[simp] theorem State.modJob_messages (s : State) (n : Nat) (f : Job → Job) : (s.modJob n f).messages = s.messages := rfl
@[simp] theorem State.modJob_holds (s : State) (n : Nat) (f : Job → Job) : (s.modJob n f).holds = s.holds := rfl
@[simp] theorem State.modJob_gifts (s : State) (n : Nat) (f : Job → Job) : (s.modJob n f).gifts = s.gifts := rfl
@[simp] theorem State.modJob_walks (s : State) (n : Nat) (f : Job → Job) : (s.modJob n f).walks = s.walks := rfl
@[simp] theorem State.modJob_faultLog (s : State) (n : Nat) (f : Job → Job) : (s.modJob n f).faultLog = s.faultLog := rfl
@[simp] theorem State.modJob_poisoned (s : State) (n : Nat) (f : Job → Job) : (s.modJob n f).poisoned = s.poisoned := rfl
@[simp] theorem State.modJob_nextOut (s : State) (n : Nat) (f : Job → Job) : (s.modJob n f).nextOut = s.nextOut := rfl
@[simp] theorem State.modJob_nextId (s : State) (n : Nat) (f : Job → Job) : (s.modJob n f).nextId = s.nextId := rfl
@[simp] theorem State.modJob_signal (s : State) (n : Nat) (f : Job → Job) : (s.modJob n f).signal = s.signal := rfl
@[simp] theorem State.modJob_agenda (s : State) (n : Nat) (f : Job → Job) : (s.modJob n f).agenda = s.agenda := rfl
@[simp] theorem State.modJob_tick (s : State) (n : Nat) (f : Job → Job) : (s.modJob n f).tick = s.tick := rfl
@[simp] theorem State.modJob_waiting (s : State) (n : Nat) (f : Job → Job) : (s.modJob n f).waiting = s.waiting := rfl
@[simp] theorem State.modJob_undo (s : State) (n : Nat) (f : Job → Job) : (s.modJob n f).undo = s.undo := rfl

@[simp] theorem State.modHart_hart (s : State) (f : Hart → Hart) : (s.modHart f).hart = f s.hart := rfl

/-! ### Hart.modMember -/

@[simp] theorem Hart.modMember_id (h : Hart) (i : Nat) (f : Member → Member) : (h.modMember i f).id = h.id := rfl
@[simp] theorem Hart.modMember_root (h : Hart) (i : Nat) (f : Member → Member) : (h.modMember i f).root = h.root := rfl
@[simp] theorem Hart.modMember_run (h : Hart) (i : Nat) (f : Member → Member) : (h.modMember i f).run = h.run := rfl
@[simp] theorem Hart.modMember_unit (h : Hart) (i : Nat) (f : Member → Member) : (h.modMember i f).unit = h.unit := rfl
@[simp] theorem Hart.modMember_pc (h : Hart) (i : Nat) (f : Member → Member) : (h.modMember i f).pc = h.pc := rfl
@[simp] theorem Hart.modMember_npc (h : Hart) (i : Nat) (f : Member → Member) : (h.modMember i f).npc = h.npc := rfl
@[simp] theorem Hart.modMember_hdr (h : Hart) (i : Nat) (f : Member → Member) : (h.modMember i f).hdr = h.hdr := rfl
@[simp] theorem Hart.modMember_entry (h : Hart) (i : Nat) (f : Member → Member) : (h.modMember i f).entry = h.entry := rfl
@[simp] theorem Hart.modMember_snap (h : Hart) (i : Nat) (f : Member → Member) : (h.modMember i f).snap = h.snap := rfl
@[simp] theorem Hart.modMember_after (h : Hart) (i : Nat) (f : Member → Member) : (h.modMember i f).after = h.after := rfl
@[simp] theorem Hart.modMember_status (h : Hart) (i : Nat) (f : Member → Member) : (h.modMember i f).status = h.status := rfl
@[simp] theorem Hart.modMember_vec (h : Hart) (i : Nat) (f : Member → Member) : (h.modMember i f).vec = h.vec := rfl
@[simp] theorem Hart.modMember_tcause (h : Hart) (i : Nat) (f : Member → Member) : (h.modMember i f).tcause = h.tcause := rfl
@[simp] theorem Hart.modMember_tpc (h : Hart) (i : Nat) (f : Member → Member) : (h.modMember i f).tpc = h.tpc := rfl
@[simp] theorem Hart.modMember_tval (h : Hart) (i : Nat) (f : Member → Member) : (h.modMember i f).tval = h.tval := rfl
@[simp] theorem Hart.modMember_tmem (h : Hart) (i : Nat) (f : Member → Member) : (h.modMember i f).tmem = h.tmem := rfl
@[simp] theorem Hart.modMember_ctx (h : Hart) (i : Nat) (f : Member → Member) : (h.modMember i f).ctx = h.ctx := rfl
@[simp] theorem Hart.modMember_ptroot0 (h : Hart) (i : Nat) (f : Member → Member) : (h.modMember i f).ptroot0 = h.ptroot0 := rfl
@[simp] theorem Hart.modMember_ptroot1 (h : Hart) (i : Nat) (f : Member → Member) : (h.modMember i f).ptroot1 = h.ptroot1 := rfl
@[simp] theorem Hart.modMember_tmr (h : Hart) (i : Nat) (f : Member → Member) : (h.modMember i f).tmr = h.tmr := rfl
@[simp] theorem Hart.modMember_prio (h : Hart) (i : Nat) (f : Member → Member) : (h.modMember i f).prio = h.prio := rfl
@[simp] theorem Hart.modMember_prioSet (h : Hart) (i : Nat) (f : Member → Member) : (h.modMember i f).prioSet = h.prioSet := rfl
@[simp] theorem Hart.modMember_vl (h : Hart) (i : Nat) (f : Member → Member) : (h.modMember i f).vl = h.vl := rfl
@[simp] theorem Hart.modMember_vw (h : Hart) (i : Nat) (f : Member → Member) : (h.modMember i f).vw = h.vw := rfl
@[simp] theorem Hart.modMember_vmax (h : Hart) (i : Nat) (f : Member → Member) : (h.modMember i f).vmax = h.vmax := rfl
@[simp] theorem Hart.modMember_els (h : Hart) (i : Nat) (f : Member → Member) : (h.modMember i f).els = h.els := rfl
@[simp] theorem Hart.modMember_efr (h : Hart) (i : Nat) (f : Member → Member) : (h.modMember i f).efr = h.efr := rfl
@[simp] theorem Hart.modMember_qst (h : Hart) (i : Nat) (f : Member → Member) : (h.modMember i f).qst = h.qst := rfl
@[simp] theorem Hart.modMember_hwm (h : Hart) (i : Nat) (f : Member → Member) : (h.modMember i f).hwm = h.hwm := rfl
@[simp] theorem Hart.modMember_axo (h : Hart) (i : Nat) (f : Member → Member) : (h.modMember i f).axo = h.axo := rfl
@[simp] theorem Hart.modMember_lhold (h : Hart) (i : Nat) (f : Member → Member) : (h.modMember i f).lhold = h.lhold := rfl
@[simp] theorem Hart.modMember_ringf (h : Hart) (i : Nat) (f : Member → Member) : (h.modMember i f).ringf = h.ringf := rfl
@[simp] theorem Hart.modMember_shares (h : Hart) (i : Nat) (f : Member → Member) : (h.modMember i f).shares = h.shares := rfl
@[simp] theorem Hart.modMember_bal (h : Hart) (i : Nat) (f : Member → Member) : (h.modMember i f).bal = h.bal := rfl
@[simp] theorem Hart.modMember_origin (h : Hart) (i : Nat) (f : Member → Member) : (h.modMember i f).origin = h.origin := rfl
@[simp] theorem Hart.modMember_rlaunch (h : Hart) (i : Nat) (f : Member → Member) : (h.modMember i f).rlaunch = h.rlaunch := rfl
@[simp] theorem Hart.modMember_ownSet (h : Hart) (i : Nat) (f : Member → Member) : (h.modMember i f).ownSet = h.ownSet := rfl
@[simp] theorem Hart.modMember_moving (h : Hart) (i : Nat) (f : Member → Member) : (h.modMember i f).moving = h.moving := rfl
@[simp] theorem Hart.modMember_park (h : Hart) (i : Nat) (f : Member → Member) : (h.modMember i f).park = h.park := rfl
@[simp] theorem Hart.modMember_prior (h : Hart) (i : Nat) (f : Member → Member) : (h.modMember i f).prior = h.prior := rfl
@[simp] theorem Hart.modMember_woken (h : Hart) (i : Nat) (f : Member → Member) : (h.modMember i f).woken = h.woken := rfl
@[simp] theorem Hart.modMember_enabled (h : Hart) (i : Nat) (f : Member → Member) : (h.modMember i f).enabled = h.enabled := rfl
@[simp] theorem Hart.modMember_parts (h : Hart) (i : Nat) (f : Member → Member) : (h.modMember i f).parts = h.parts := rfl
@[simp] theorem Hart.modMember_cancel (h : Hart) (i : Nat) (f : Member → Member) : (h.modMember i f).cancel = h.cancel := rfl
@[simp] theorem Hart.modMember_expired (h : Hart) (i : Nat) (f : Member → Member) : (h.modMember i f).expired = h.expired := rfl
@[simp] theorem Hart.modMember_waits (h : Hart) (i : Nat) (f : Member → Member) : (h.modMember i f).waits = h.waits := rfl
@[simp] theorem Hart.modMember_chunk (h : Hart) (i : Nat) (f : Member → Member) : (h.modMember i f).chunk = h.chunk := rfl
@[simp] theorem Hart.modMember_vops (h : Hart) (i : Nat) (f : Member → Member) : (h.modMember i f).vops = h.vops := rfl
@[simp] theorem Hart.modMember_owed (h : Hart) (i : Nat) (f : Member → Member) : (h.modMember i f).owed = h.owed := rfl
@[simp] theorem Hart.modMember_seen (h : Hart) (i : Nat) (f : Member → Member) : (h.modMember i f).seen = h.seen := rfl
@[simp] theorem Hart.modMember_foreseen (h : Hart) (i : Nat) (f : Member → Member) : (h.modMember i f).foreseen = h.foreseen := rfl

/-! ### Hart.mapMembers -/

@[simp] theorem Hart.mapMembers_id (h : Hart) (f : Nat → Member → Member) : (h.mapMembers f).id = h.id := rfl
@[simp] theorem Hart.mapMembers_root (h : Hart) (f : Nat → Member → Member) : (h.mapMembers f).root = h.root := rfl
@[simp] theorem Hart.mapMembers_run (h : Hart) (f : Nat → Member → Member) : (h.mapMembers f).run = h.run := rfl
@[simp] theorem Hart.mapMembers_unit (h : Hart) (f : Nat → Member → Member) : (h.mapMembers f).unit = h.unit := rfl
@[simp] theorem Hart.mapMembers_pc (h : Hart) (f : Nat → Member → Member) : (h.mapMembers f).pc = h.pc := rfl
@[simp] theorem Hart.mapMembers_npc (h : Hart) (f : Nat → Member → Member) : (h.mapMembers f).npc = h.npc := rfl
@[simp] theorem Hart.mapMembers_hdr (h : Hart) (f : Nat → Member → Member) : (h.mapMembers f).hdr = h.hdr := rfl
@[simp] theorem Hart.mapMembers_entry (h : Hart) (f : Nat → Member → Member) : (h.mapMembers f).entry = h.entry := rfl
@[simp] theorem Hart.mapMembers_snap (h : Hart) (f : Nat → Member → Member) : (h.mapMembers f).snap = h.snap := rfl
@[simp] theorem Hart.mapMembers_after (h : Hart) (f : Nat → Member → Member) : (h.mapMembers f).after = h.after := rfl
@[simp] theorem Hart.mapMembers_status (h : Hart) (f : Nat → Member → Member) : (h.mapMembers f).status = h.status := rfl
@[simp] theorem Hart.mapMembers_vec (h : Hart) (f : Nat → Member → Member) : (h.mapMembers f).vec = h.vec := rfl
@[simp] theorem Hart.mapMembers_tcause (h : Hart) (f : Nat → Member → Member) : (h.mapMembers f).tcause = h.tcause := rfl
@[simp] theorem Hart.mapMembers_tpc (h : Hart) (f : Nat → Member → Member) : (h.mapMembers f).tpc = h.tpc := rfl
@[simp] theorem Hart.mapMembers_tval (h : Hart) (f : Nat → Member → Member) : (h.mapMembers f).tval = h.tval := rfl
@[simp] theorem Hart.mapMembers_tmem (h : Hart) (f : Nat → Member → Member) : (h.mapMembers f).tmem = h.tmem := rfl
@[simp] theorem Hart.mapMembers_ctx (h : Hart) (f : Nat → Member → Member) : (h.mapMembers f).ctx = h.ctx := rfl
@[simp] theorem Hart.mapMembers_ptroot0 (h : Hart) (f : Nat → Member → Member) : (h.mapMembers f).ptroot0 = h.ptroot0 := rfl
@[simp] theorem Hart.mapMembers_ptroot1 (h : Hart) (f : Nat → Member → Member) : (h.mapMembers f).ptroot1 = h.ptroot1 := rfl
@[simp] theorem Hart.mapMembers_tmr (h : Hart) (f : Nat → Member → Member) : (h.mapMembers f).tmr = h.tmr := rfl
@[simp] theorem Hart.mapMembers_prio (h : Hart) (f : Nat → Member → Member) : (h.mapMembers f).prio = h.prio := rfl
@[simp] theorem Hart.mapMembers_prioSet (h : Hart) (f : Nat → Member → Member) : (h.mapMembers f).prioSet = h.prioSet := rfl
@[simp] theorem Hart.mapMembers_vl (h : Hart) (f : Nat → Member → Member) : (h.mapMembers f).vl = h.vl := rfl
@[simp] theorem Hart.mapMembers_vw (h : Hart) (f : Nat → Member → Member) : (h.mapMembers f).vw = h.vw := rfl
@[simp] theorem Hart.mapMembers_vmax (h : Hart) (f : Nat → Member → Member) : (h.mapMembers f).vmax = h.vmax := rfl
@[simp] theorem Hart.mapMembers_els (h : Hart) (f : Nat → Member → Member) : (h.mapMembers f).els = h.els := rfl
@[simp] theorem Hart.mapMembers_efr (h : Hart) (f : Nat → Member → Member) : (h.mapMembers f).efr = h.efr := rfl
@[simp] theorem Hart.mapMembers_qst (h : Hart) (f : Nat → Member → Member) : (h.mapMembers f).qst = h.qst := rfl
@[simp] theorem Hart.mapMembers_hwm (h : Hart) (f : Nat → Member → Member) : (h.mapMembers f).hwm = h.hwm := rfl
@[simp] theorem Hart.mapMembers_axo (h : Hart) (f : Nat → Member → Member) : (h.mapMembers f).axo = h.axo := rfl
@[simp] theorem Hart.mapMembers_lhold (h : Hart) (f : Nat → Member → Member) : (h.mapMembers f).lhold = h.lhold := rfl
@[simp] theorem Hart.mapMembers_ringf (h : Hart) (f : Nat → Member → Member) : (h.mapMembers f).ringf = h.ringf := rfl
@[simp] theorem Hart.mapMembers_shares (h : Hart) (f : Nat → Member → Member) : (h.mapMembers f).shares = h.shares := rfl
@[simp] theorem Hart.mapMembers_bal (h : Hart) (f : Nat → Member → Member) : (h.mapMembers f).bal = h.bal := rfl
@[simp] theorem Hart.mapMembers_origin (h : Hart) (f : Nat → Member → Member) : (h.mapMembers f).origin = h.origin := rfl
@[simp] theorem Hart.mapMembers_rlaunch (h : Hart) (f : Nat → Member → Member) : (h.mapMembers f).rlaunch = h.rlaunch := rfl
@[simp] theorem Hart.mapMembers_ownSet (h : Hart) (f : Nat → Member → Member) : (h.mapMembers f).ownSet = h.ownSet := rfl
@[simp] theorem Hart.mapMembers_moving (h : Hart) (f : Nat → Member → Member) : (h.mapMembers f).moving = h.moving := rfl
@[simp] theorem Hart.mapMembers_park (h : Hart) (f : Nat → Member → Member) : (h.mapMembers f).park = h.park := rfl
@[simp] theorem Hart.mapMembers_prior (h : Hart) (f : Nat → Member → Member) : (h.mapMembers f).prior = h.prior := rfl
@[simp] theorem Hart.mapMembers_woken (h : Hart) (f : Nat → Member → Member) : (h.mapMembers f).woken = h.woken := rfl
@[simp] theorem Hart.mapMembers_enabled (h : Hart) (f : Nat → Member → Member) : (h.mapMembers f).enabled = h.enabled := rfl
@[simp] theorem Hart.mapMembers_parts (h : Hart) (f : Nat → Member → Member) : (h.mapMembers f).parts = h.parts := rfl
@[simp] theorem Hart.mapMembers_cancel (h : Hart) (f : Nat → Member → Member) : (h.mapMembers f).cancel = h.cancel := rfl
@[simp] theorem Hart.mapMembers_expired (h : Hart) (f : Nat → Member → Member) : (h.mapMembers f).expired = h.expired := rfl
@[simp] theorem Hart.mapMembers_waits (h : Hart) (f : Nat → Member → Member) : (h.mapMembers f).waits = h.waits := rfl
@[simp] theorem Hart.mapMembers_chunk (h : Hart) (f : Nat → Member → Member) : (h.mapMembers f).chunk = h.chunk := rfl
@[simp] theorem Hart.mapMembers_vops (h : Hart) (f : Nat → Member → Member) : (h.mapMembers f).vops = h.vops := rfl
@[simp] theorem Hart.mapMembers_owed (h : Hart) (f : Nat → Member → Member) : (h.mapMembers f).owed = h.owed := rfl
@[simp] theorem Hart.mapMembers_seen (h : Hart) (f : Nat → Member → Member) : (h.mapMembers f).seen = h.seen := rfl
@[simp] theorem Hart.mapMembers_foreseen (h : Hart) (f : Nat → Member → Member) : (h.mapMembers f).foreseen = h.foreseen := rfl

end Sys2Proof.Machine
end

