-- ==== Sys2Proof/Laws/Registers.lean ====
section
/-! SUPPORT. Laws of members and scalar registers: what a write of a register changes, member by member. -/

namespace Sys2Proof.Machine

theorem mapIdxFrom_getElem? {α β : Type} (f : Nat → α → β) (n : Nat) (l : List α) (i : Nat) :
    (mapIdxFrom f n l)[i]? = (l[i]?).map (f (n + i)) := by
  induction l generalizing n i with
  | nil => rfl
  | cons x l ih =>
    cases i with
    | zero => rfl
    | succ i => simpa [mapIdxFrom, Nat.add_assoc, Nat.add_comm 1 i] using ih (n + 1) i

theorem mapPos_getElem? {α β : Type} (f : Nat → α → β) (l : List α) (i : Nat) : (mapPos f l)[i]? = (l[i]?).map (f i) := by
  simpa [mapPos] using mapIdxFrom_getElem? f 0 l i

theorem mapIdxFrom_length {α β : Type} (f : Nat → α → β) (n : Nat) (l : List α) : (mapIdxFrom f n l).length = l.length := by
  induction l generalizing n with
  | nil => rfl
  | cons x l ih => simp [mapIdxFrom, ih]

theorem modifyAt_getElem? {α : Type} (l : List α) (n i : Nat) (f : α → α) :
    (modifyAt l n f)[i]? = if i = n then (l[i]?).map f else l[i]? := by
  induction l generalizing n i with
  | nil => cases n <;> simp [modifyAt]
  | cons x l ih =>
    cases n with
    | zero => cases i <;> simp [modifyAt]
    | succ n => cases i <;> simp [modifyAt, ih]

theorem modifyAt_length {α : Type} (l : List α) (n : Nat) (f : α → α) : (modifyAt l n f).length = l.length := by
  induction l generalizing n with
  | nil => cases n <;> rfl
  | cons x l ih => cases n <;> simp [modifyAt, ih]

@[simp] theorem Hart.len_mapMembers (h : Hart) (f : Nat → Member → Member) : (h.mapMembers f).len = h.len :=
  mapIdxFrom_length f 0 h.members

@[simp] theorem Hart.len_modMember (h : Hart) (i : Nat) (f : Member → Member) : (h.modMember i f).len = h.len :=
  modifyAt_length h.members i f

/-- Every member after a change of every member. -/
theorem Hart.member_mapMembers (h : Hart) (f : Nat → Member → Member) (i : Nat) (hi : i < h.len) :
    (h.mapMembers f).member i = f i (h.member i) := by
  have hi' : i < h.members.length := hi
  simp [Hart.member, Hart.mapMembers, mapPos_getElem?, hi']

theorem Hart.member_modMember (h : Hart) (i : Nat) (f : Member → Member) (hi : i < h.len) :
    (h.modMember i f).member i = f (h.member i) := by
  have hi' : i < h.members.length := hi
  simp [Hart.member, Hart.modMember, modifyAt_getElem?, hi']

theorem Hart.member_modMember_ne (h : Hart) (i k : Nat) (f : Member → Member) (hk : k ≠ i) :
    (h.modMember i f).member k = h.member k := by
  simp [Hart.member, Hart.modMember, modifyAt_getElem?, hk]

/-! ### One member's registers -/

theorem Member.setReg_zero (m : Member) (t : Nat) (v : Word) : m.setReg t 0 v = m := rfl

theorem Member.asyncReg_zero (m : Member) (v : Word) : m.asyncReg 0 v = m := rfl

theorem Member.setReg_regs (m : Member) (t : Nat) (r : Reg) (v : Word) (hr : r ≠ 0) :
    (m.setReg t r v).regs = insert m.regs r.toNat v := by
  simp only [Member.setReg, hr, if_false]
  split
  · split <;> rfl
  · rfl

/-- The outstanding results of other registers stay. -/
theorem Member.setReg_pend (m : Member) (t : Nat) (r : Reg) (v : Word) (q : Nat) (hq : q ≠ r.toNat) :
    (m.setReg t r v).pend.filter (fun p => p.1 == q) = m.pend.filter (fun p => p.1 == q) := by
  simp only [Member.setReg]
  split
  · rfl
  · split
    · split
      · simp only [List.filter_filter]
        refine List.filter_congr fun p _ => ?_
        by_cases h : p.1 = q
        · simp [h, hq]
        · simp [h]
      · rfl
    · rfl

/-- What a read of a register depends on: its own value and its own outstanding results. -/
theorem regValue_congr (t tile : Nat) (g g' : SMap Word) (p p' : List (Nat × Word)) (r : Reg)
    (hg : lookupD g r.toNat 0 = lookupD g' r.toNat 0)
    (hp : p.filter (fun x => x.1 == r.toNat) = p'.filter fun x => x.1 == r.toNat) :
    regValue t tile g p r = regValue t tile g' p' r := by
  have key : ∀ (l : List (Nat × Word)) (b : Word),
      l.filter (fun x => x.1 == r.toNat && x.2 != b) = (l.filter fun x => x.1 == r.toNat).filter fun x => x.2 != b := by
    intro l b; rw [List.filter_filter]; exact List.filter_congr fun x _ => Bool.and_comm _ _
  have hk : p.filter (fun x => x.1 == r.toNat && x.2 != lookupD g' r.toNat 0) =
      p'.filter fun x => x.1 == r.toNat && x.2 != lookupD g' r.toNat 0 := by rw [key p, key p', hp]
  unfold regValue
  rw [hg]
  dsimp only
  rw [hk]

theorem Member.setReg_tile (m : Member) (t : Nat) (r : Reg) (v : Word) : (m.setReg t r v).tile = m.tile := by
  unfold Member.setReg; split; · rfl
  · split; · split <;> rfl
    · rfl

/-- A register other than the one written reads as before. -/
theorem Member.reg_setReg_ne (m : Member) (t : Nat) (r q : Reg) (v : Word) (hq : q ≠ r) :
    (m.setReg t r v).reg t q = m.reg t q := by
  by_cases hr : r = 0
  · subst hr; rfl
  · have hn : q.toNat ≠ r.toNat := fun h => hq (BitVec.eq_of_toNat_eq h)
    unfold Member.reg
    rw [Member.setReg_tile]
    refine regValue_congr _ _ _ _ _ _ _ ?_ (Member.setReg_pend m t r v _ hn)
    rw [Member.setReg_regs m t r v hr, lookupD_insert_ne _ _ _ _ _ hn]

/-- The written register reads as written where nothing is outstanding for it. -/
theorem Member.reg_setReg_self (m : Member) (t : Nat) (r : Reg) (v : Word) (hr : r ≠ 0)
    (hp : ∀ p ∈ m.pend, p.1 ≠ r.toNat) : (m.setReg t r v).reg t r = v := by
  have h1 : m.pend.any (fun p => p.1 == r.toNat) = false := by
    simpa using hp
  have h2 : m.pend.filter (fun p => p.1 == r.toNat && p.2 != v) = [] := by
    rw [List.filter_eq_nil_iff]; intro p hm; simp [hp p hm]
  have h3 : (m.setReg t r v).pend = m.pend := by
    unfold Member.setReg
    rw [if_neg hr]
    simp [h1]
  unfold Member.reg regValue
  rw [if_neg hr, Member.setReg_regs m t r v hr, h3]
  simp [h2]

/-! ### The furrow's registers -/

theorem State.member_setRegs (s : State) (r : Reg) (f : Nat → Word) (i : Nat) (hi : i < s.hart.len) :
    (s.setRegs r f).hart.member i = (s.hart.member i).setReg s.tick r (f i) :=
  Hart.member_mapMembers s.hart _ i hi

theorem State.member_asyncRegs (s : State) (r : Reg) (f : Nat → Word) (i : Nat) (hi : i < s.hart.len) :
    (s.asyncRegs r f).hart.member i = (s.hart.member i).asyncReg r (f i) :=
  Hart.member_mapMembers s.hart _ i hi

theorem State.reg_zero (s : State) (i : Nat) : s.reg i 0 = 0 := rfl

/-- A single-cycle result leaves every other register alone. -/
theorem State.reg_setRegs_ne (s : State) (r q : Reg) (f : Nat → Word) (i : Nat) (hi : i < s.hart.len) (hq : q ≠ r) :
    (s.setRegs r f).reg i q = s.reg i q := by
  show ((s.setRegs r f).hart.member i).reg s.tick q = _
  rw [State.member_setRegs s r f i hi]
  exact Member.reg_setReg_ne _ _ _ _ _ hq

/-- A single-cycle result is read where nothing is outstanding for its register. -/
theorem State.reg_setRegs_self (s : State) (r : Reg) (f : Nat → Word) (i : Nat) (hi : i < s.hart.len) (hr : r ≠ 0)
    (hp : ∀ p ∈ (s.hart.member i).pend, p.1 ≠ r.toNat) : (s.setRegs r f).reg i r = f i := by
  show ((s.setRegs r f).hart.member i).reg s.tick r = _
  rw [State.member_setRegs s r f i hi]
  exact Member.reg_setReg_self _ _ _ _ hr hp

end Sys2Proof.Machine
end

