-- ==== Sys2Proof/Laws/Elements.lean ====
section
/-! SUPPORT. Laws of vector elements and mask bits: every element has its own bytes, and what the write of a
list of elements does. -/

namespace Sys2Proof.Machine

open Sys2Proof.Safety

/-! ### Places (R36, R37) -/

/-- An element below the distributed count lies in a member's share, at its distance from the share's start. -/
theorem placeFrom_spec (w m : Nat) (l : List Nat) (i : Nat) (h : i < l.sum * (256 / w)) :
    ∃ k p, placeFrom w m l i = (m + k, p) ∧ k < l.length ∧ p < l.getD k 0 * (256 / w) ∧
      i = (l.take k).sum * (256 / w) + p := by
  induction l generalizing m i with
  | nil => simp at h
  | cons x l ih =>
    unfold placeFrom
    by_cases hx : i < x * (256 / w)
    · exact ⟨0, i, by simp [hx], by simp, by simpa using hx, by simp⟩
    · have h2 : i - x * (256 / w) < l.sum * (256 / w) := by
        rw [List.sum_cons, Nat.add_mul] at h; omega
      obtain ⟨k, p, h1, hk, hp, hi⟩ := ih (m + 1) _ h2
      refine ⟨k + 1, p, by simp [hx, h1, Nat.add_assoc, Nat.add_comm 1 k], by simpa using hk, by simpa using hp, ?_⟩
      rw [List.take_succ_cons, List.sum_cons, Nat.add_mul]; omega

theorem Hart.w_cases (h : Hart) : h.w = 8 ∨ h.w = 16 ∨ h.w = 32 := by
  unfold Hart.w widthBits; split
  · exact .inl rfl
  · split
    · exact .inr (.inl rfl)
    · exact .inr (.inr rfl)

theorem Hart.place_spec (h : Hart) (hp : Placed h) (i : Nat) (hi : i < h.vl.toNat) :
    (h.place i).1 < h.len ∧ (h.place i).2 * h.e + h.e ≤ 2048 ∧
      i = (h.shares.take (h.place i).1).sum * (256 / h.w) + (h.place i).2 := by
  obtain ⟨k, p, h1, hk, hp', hi'⟩ := placeFrom_spec h.w 0 h.shares i (by have := hp.2.2; omega)
  have e1 : h.place i = (k, p) := by simpa [Hart.place] using h1
  rw [e1]
  refine ⟨by simpa [hp.1] using hk, ?_, hi'⟩
  have hs : h.shares.getD k 0 ≤ 64 := by
    have : h.shares.getD k 0 = h.shares[k] := by simp [List.getD, hk]
    rw [this]; exact hp.2.1 _ (List.getElem_mem hk)
  generalize h.shares.getD k 0 = y at *
  unfold Hart.e
  rcases h.w_cases with e | e | e <;> rw [e] at hp' ⊢ <;> simp at hp' ⊢ <;> omega

/-- Two elements have different places. -/
theorem Hart.place_inj (h : Hart) (hp : Placed h) (i j : Nat) (hi : i < h.vl.toNat) (hj : j < h.vl.toNat)
    (he : h.place i = h.place j) : i = j := by
  have h1 := (h.place_spec hp i hi).2.2
  have h2 := (h.place_spec hp j hj).2.2
  rw [← he] at h2; omega

/-! ### Bytes -/

theorem lookup_foldl_insert {α : Type} (bs : List α) (m : SMap α) (k n q : Nat) :
    lookup ((mapIdxFrom (fun j b => (k + j, b)) n bs).foldl (fun r x => insert r x.1 x.2) m) q =
      if k + n ≤ q ∧ q < k + n + bs.length then bs[q - (k + n)]? else lookup m q := by
  induction bs generalizing m n with
  | nil => simp [mapIdxFrom]
  | cons b bs ih =>
    rw [mapIdxFrom, List.foldl_cons, ih]
    by_cases h : q = k + n
    · subst h
      simp [lookup_insert_self]
    · rw [lookup_insert_ne _ _ _ _ h]
      by_cases h2 : k + n ≤ q ∧ q < k + n + (bs.length + 1)
      · have h3 : k + (n + 1) ≤ q ∧ q < k + (n + 1) + bs.length := by omega
        have h4 : q - (k + n) = q - (k + (n + 1)) + 1 := by omega
        rw [if_pos h3, if_pos (by simpa using h2), h4]; rfl
      · have h3 : ¬ (k + (n + 1) ≤ q ∧ q < k + (n + 1) + bs.length) := by omega
        rw [if_neg h3, if_neg (by simpa using h2)]

/-- A byte after bytes were written into a register. -/
theorem Member.vbyte_setVbytes (m : Member) (n p n' q : Nat) (bs : List Byte) (hp : p + bs.length ≤ 2048) (hq : q < 2048) :
    (m.setVbytes n p bs).vbyte n' q =
      if n' = n ∧ p ≤ q ∧ q < p + bs.length then (bs[q - p]?).getD 0 else m.vbyte n' q := by
  have hk := lookup_foldl_insert bs m.vreg (n * 2048 + p) 0 (n' * 2048 + q)
  unfold Member.vbyte
  have e1 : (m.setVbytes n p bs).vreg =
      (mapIdxFrom (fun j b => (n * 2048 + p + j, b)) 0 bs).foldl (fun r x => insert r x.1 x.2) m.vreg := rfl
  rw [e1, hk]
  by_cases h : n' = n ∧ p ≤ q ∧ q < p + bs.length
  · obtain ⟨h1, h2, h3⟩ := h
    subst h1
    have h4 : n' * 2048 + p + 0 ≤ n' * 2048 + q ∧ n' * 2048 + q < n' * 2048 + p + 0 + bs.length := by omega
    have h5 : n' * 2048 + q - (n' * 2048 + p + 0) = q - p := by omega
    have h6 : q - p < bs.length := by omega
    rw [if_pos h4, if_pos ⟨rfl, h2, h3⟩, h5]
    simp [h6]
  · have h4 : ¬ (n * 2048 + p + 0 ≤ n' * 2048 + q ∧ n' * 2048 + q < n * 2048 + p + 0 + bs.length) := by
      intro h5
      apply h
      have : n' = n := by omega
      subst this; omega
    rw [if_neg h4, if_neg h]
    rfl

theorem Member.vbytes_eq (m : Member) (n p k : Nat) (bs : List Byte) (hl : bs.length = k)
    (h : ∀ j, j < k → m.vbyte n (p + j) = (bs[j]?).getD 0) : m.vbytes n p k = bs := by
  induction k generalizing p bs with
  | zero => simp [Member.vbytes, numsFrom, List.length_eq_zero_iff.mp hl]
  | succ k ih =>
    cases bs with
    | nil => simp at hl
    | cons b bs =>
      have h0 := h 0 (by omega)
      have h1 := ih (p + 1) bs (by simpa using hl) (fun j hj => by
        have := h (j + 1) (by omega)
        rw [Nat.add_assoc, Nat.add_comm 1 j]; simpa using this)
      simp only [Member.vbytes, numsFrom, List.map_cons]
      rw [show (numsFrom (p + 1) k).map (fun j => m.vbyte n j) = m.vbytes n (p + 1) k from rfl, h1]
      simpa using h0

theorem Member.vbytes_congr (m m' : Member) (n p k : Nat) (h : ∀ j, j < k → m.vbyte n (p + j) = m'.vbyte n (p + j)) :
    m.vbytes n p k = m'.vbytes n p k := by
  induction k generalizing p with
  | zero => rfl
  | succ k ih =>
    simp only [Member.vbytes, numsFrom, List.map_cons]
    rw [show (numsFrom (p + 1) k).map (fun j => m.vbyte n j) = m.vbytes n (p + 1) k from rfl,
      show (numsFrom (p + 1) k).map (fun j => m'.vbyte n j) = m'.vbytes n (p + 1) k from rfl,
      ih (p + 1) (fun j hj => by have := h (j + 1) (by omega); rwa [Nat.add_assoc, Nat.add_comm 1 j])]
    have := h 0 (by omega)
    simp at this; rw [this]

/-! ### Elements -/

@[simp] theorem Hart.len_setElem (h : Hart) (n i x : Nat) : (h.setElem n i x).len = h.len := by
  unfold Hart.setElem; exact Hart.len_modMember _ _ _

theorem Hart.setElem_frame (h : Hart) (n i x : Nat) :
    h.setElem n i x = { h with members := (h.setElem n i x).members } ∧
      (h.setElem n i x).members.map exceptVectors = h.members.map exceptVectors := by
  refine ⟨rfl, ?_⟩
  unfold Hart.setElem Hart.modMember
  apply List.ext_getElem? ; intro k
  simp only [List.getElem?_map, modifyAt_getElem?]
  split
  · cases h.members[k]? <;> rfl
  · rfl

/-- A byte after an element was written. -/
theorem Hart.setElem_vbyte (h : Hart) (hp : Placed h) (n i x n' k q : Nat) (hi : i < h.vl.toNat) (hq : q < 2048) :
    ((h.setElem n i x).member k).vbyte n' q =
      if n' = n ∧ (h.place i).1 = k ∧ (h.place i).2 * h.e ≤ q ∧ q < (h.place i).2 * h.e + h.e then
        ((bytesOf h.e x)[q - (h.place i).2 * h.e]?).getD 0
      else (h.member k).vbyte n' q := by
  obtain ⟨h1, h2, -⟩ := h.place_spec hp i hi
  have e1 : (h.setElem n i x).member k =
      if k = (h.place i).1 then ((h.member k).setVbytes n ((h.place i).2 * h.e) (bytesOf h.e x)) else h.member k := by
    show (h.modMember (h.place i).1 _).member k = _
    by_cases hk : k = (h.place i).1
    · subst hk; rw [if_pos rfl]; exact Hart.member_modMember _ _ _ h1
    · rw [if_neg hk]; exact Hart.member_modMember_ne _ _ _ _ hk
  rw [e1]
  by_cases hk : k = (h.place i).1
  · subst hk
    rw [if_pos rfl, Member.vbyte_setVbytes _ _ _ _ _ _ (by rw [bytesOf_length]; exact h2) hq, bytesOf_length]
    by_cases hc : n' = n ∧ (h.place i).2 * h.e ≤ q ∧ q < (h.place i).2 * h.e + h.e
    · rw [if_pos hc, if_pos ⟨hc.1, rfl, hc.2⟩]
    · rw [if_neg hc, if_neg (fun h => hc ⟨h.1, h.2.2⟩)]
  · rw [if_neg hk, if_neg (fun h => hk h.2.1.symm)]

/-- The furrow keeps its geometry and everything that is not in a vector register. -/
theorem Hart.setElems_frame (h : Hart) (n : Nat) (xs : List (Nat × Nat)) :
    h.setElems n xs = { h with members := (h.setElems n xs).members } ∧
      (h.setElems n xs).members.map exceptVectors = h.members.map exceptVectors := by
  induction xs generalizing h with
  | nil => exact ⟨rfl, rfl⟩
  | cons x xs ih =>
    obtain ⟨h1, h2⟩ := ih (h.setElem n x.1 x.2)
    obtain ⟨h3, h4⟩ := h.setElem_frame n x.1 x.2
    refine ⟨?_, ?_⟩
    · show Hart.setElems (h.setElem n x.1 x.2) n xs = _
      rw [h1]; rfl
    · show ((Hart.setElems (h.setElem n x.1 x.2) n xs).members.map exceptVectors) = _
      rw [h2, h4]

theorem Hart.setElem_placed (h : Hart) (hp : Placed h) (n i x : Nat) : Placed (h.setElem n i x) :=
  ⟨by rw [Hart.len_setElem]; exact hp.1, hp.2.1, hp.2.2⟩

/-- Bytes of other registers, and of elements that the list does not name, stay. -/
theorem Hart.setElems_vbyte_ne (h : Hart) (hp : Placed h) (n : Nat) (xs : List (Nat × Nat)) (n' k q : Nat)
    (hx : ∀ x ∈ xs, x.1 < h.vl.toNat) (hq : q < 2048)
    (hn : n' = n → ∀ x ∈ xs, ¬ holdsByte h x.1 k q) :
    ((h.setElems n xs).member k).vbyte n' q = (h.member k).vbyte n' q := by
  induction xs generalizing h with
  | nil => rfl
  | cons x xs ih =>
    show ((Hart.setElems (h.setElem n x.1 x.2) n xs).member k).vbyte n' q = _
    rw [ih (h.setElem n x.1 x.2) (h.setElem_placed hp _ _ _) (fun y hy => hx y (List.mem_cons_of_mem _ hy))
      (fun e y hy => hn e y (List.mem_cons_of_mem _ hy)),
      h.setElem_vbyte hp _ _ _ _ _ _ (hx x (List.mem_cons_self)) hq, if_neg]
    intro hc
    exact hn hc.1 x (List.mem_cons_self) ⟨hc.2.1, hc.2.2.1, hc.2.2.2⟩

/-- Different elements share no byte. -/
theorem Hart.holds_inj (h : Hart) (hp : Placed h) (i j k q : Nat) (hi : i < h.vl.toNat) (hj : j < h.vl.toNat)
    (h1 : holdsByte h i k q) (h2 : holdsByte h j k q) : i = j := by
  apply h.place_inj hp i j hi hj
  have he : 0 < h.e := by unfold Hart.e; rcases h.w_cases with e | e | e <;> rw [e] <;> decide
  obtain ⟨a1, a2, a3⟩ := h1
  obtain ⟨b1, b2, b3⟩ := h2
  refine Prod.ext (a1.trans b1.symm) ?_
  generalize (h.place i).2 = x at *
  generalize (h.place j).2 = y at *
  rcases Nat.lt_trichotomy x y with hl | hl | hl
  · have : (x + 1) * h.e ≤ y * h.e := Nat.mul_le_mul_right _ hl
    rw [Nat.add_mul] at this; omega
  · exact hl
  · have : (y + 1) * h.e ≤ x * h.e := Nat.mul_le_mul_right _ hl
    rw [Nat.add_mul] at this; omega

theorem Hart.pow_e (h : Hart) : 256 ^ h.e = 2 ^ h.w := by
  unfold Hart.e; rcases h.w_cases with e | e | e <;> rw [e] <;> decide

/-- An element that the list names holds the low bits of its value. -/
theorem Hart.setElems_elem (h : Hart) (hp : Placed h) (n : Nat) (act : List Nat) (v : Nat → Nat) (i : Nat)
    (hx : ∀ x ∈ act, x < h.vl.toNat) (hi : i ∈ act) :
    (h.setElems n (act.map fun j => (j, v j))).elem n i = v i % 2 ^ h.w := by
  induction act generalizing h with
  | nil => simp at hi
  | cons x act ih =>
    have hp1 := h.setElem_placed hp n x (v x)
    have hx1 : ∀ y ∈ act, y < (h.setElem n x (v x)).vl.toNat := fun y hy => hx y (List.mem_cons_of_mem _ hy)
    show ((Hart.setElems (h.setElem n x (v x)) n (act.map fun j => (j, v j))).elem n i) = _
    by_cases hm : i ∈ act
    · exact ih (h.setElem n x (v x)) hp1 hx1 hm
    · have hix : i = x := by simpa [hm] using hi
      subst hix
      have hiv : i < h.vl.toNat := hx i (List.mem_cons_self)
      obtain ⟨-, hpl, -⟩ := h.place_spec hp i hiv
      have hf := (Hart.setElems_frame (h.setElem n i (v i)) n (act.map fun j => (j, v j))).1
      have hplace : (Hart.setElems (h.setElem n i (v i)) n (act.map fun j => (j, v j))).place i = h.place i := by
        rw [hf]; rfl
      have he : (Hart.setElems (h.setElem n i (v i)) n (act.map fun j => (j, v j))).e = h.e := by
        rw [hf]; rfl
      have hu : ∀ g : Hart, g.elem n i = ofBytes ((g.member (g.place i).1).vbytes n ((g.place i).2 * g.e) g.e) := fun _ => rfl
      rw [hu, hplace, he]
      have hb : ((Hart.setElems (h.setElem n i (v i)) n (act.map fun j => (j, v j))).member (h.place i).1).vbytes n
          ((h.place i).2 * h.e) h.e = bytesOf h.e (v i) := by
        apply Member.vbytes_eq _ _ _ _ _ (bytesOf_length _ _)
        intro j hj
        have hq : (h.place i).2 * h.e + j < 2048 := by omega
        rw [Hart.setElems_vbyte_ne _ hp1 _ _ _ _ _ (by simpa using hx1) hq]
        · rw [h.setElem_vbyte hp _ _ _ _ _ _ hiv hq, if_pos ⟨rfl, rfl, by omega, by omega⟩]
          congr 2; omega
        · intro _ y hy hh
          obtain ⟨z, hz, rfl⟩ := List.mem_map.mp hy
          have hiz : i = z := h.holds_inj hp i z _ _ hiv (hx z (List.mem_cons_of_mem _ hz))
            ⟨rfl, by omega, by omega⟩ hh
          exact hm (hiz ▸ hz)
      exact (congrArg ofBytes hb).trans (by rw [ofBytes_bytesOf, Hart.pow_e])

/-- What the delivery of a vector result does (R32, R33). -/
theorem State.writeElems_fills (s : State) (d : VReg) (act : List Nat) (v : Nat → Nat) (hp : Placed s.hart)
    (hx : ∀ i ∈ act, i < s.hart.vl.toNat) :
    Fills s d.toNat act v (s.writeElems d (act.map fun i => (i, v i))) := by
  obtain ⟨h1, h2⟩ := s.hart.setElems_frame d.toNat (act.map fun i => (i, v i))
  refine ⟨_, rfl, ?_, h2, ?_, ?_⟩
  · exact congrArg (fun g : Hart => ({ s with hart := g.wrote d.toNat, signal := .done } : State)) h1
  · intro i hi
    exact s.hart.setElems_elem hp d.toNat act v i hx hi
  · intro n k p _ _ hq hn
    apply s.hart.setElems_vbyte_ne hp d.toNat _ n k p _ hq
    · intro e y hy
      obtain ⟨z, hz, rfl⟩ := List.mem_map.mp hy
      exact hn e z hz
    · intro y hy
      obtain ⟨z, hz, rfl⟩ := List.mem_map.mp hy
      exact hx z hz

/-! ### Mask bits -/

theorem Hart.place_pos (h : Hart) (hp : Placed h) (i : Nat) (hi : i < h.vl.toNat) : (h.place i).2 < 2048 := by
  obtain ⟨-, h2, -⟩ := h.place_spec hp i hi
  have he : 1 ≤ h.e := by unfold Hart.e; rcases h.w_cases with e | e | e <;> rw [e] <;> decide
  have := Nat.mul_le_mul_left (h.place i).2 he
  omega

theorem Hart.setMelem_frame (h : Hart) (n i : Nat) (b : Bool) :
    h.setMelem n i b = { h with members := (h.setMelem n i b).members } ∧
      (h.setMelem n i b).members.map exceptMasks = h.members.map exceptMasks := by
  refine ⟨rfl, ?_⟩
  unfold Hart.setMelem Hart.modMember
  apply List.ext_getElem? ; intro k
  simp only [List.getElem?_map, modifyAt_getElem?]
  split
  · cases h.members[k]? <;> rfl
  · rfl

theorem Hart.setMelem_placed (h : Hart) (hp : Placed h) (n i : Nat) (b : Bool) : Placed (h.setMelem n i b) := by
  refine ⟨?_, hp.2.1, hp.2.2⟩
  have : (h.setMelem n i b).len = h.len := by unfold Hart.setMelem; exact Hart.len_modMember _ _ _
  rw [this]; exact hp.1

/-- A mask bit after one was written. -/
theorem Hart.setMelem_mbit (h : Hart) (hp : Placed h) (n i n' k q : Nat) (b : Bool) (hn : n ≠ 0) (hi : i < h.vl.toNat)
    (hq : q < 2048) :
    ((h.setMelem n i b).member k).mbit n' q = if n' = n ∧ h.place i = (k, q) then b else (h.member k).mbit n' q := by
  obtain ⟨h1, -, -⟩ := h.place_spec hp i hi
  have h2 := h.place_pos hp i hi
  have e1 : (h.setMelem n i b).member k =
      if k = (h.place i).1 then ((h.member k).setMbit n (h.place i).2 b) else h.member k := by
    show (h.modMember (h.place i).1 _).member k = _
    by_cases hk : k = (h.place i).1
    · subst hk; rw [if_pos rfl]; exact Hart.member_modMember _ _ _ h1
    · rw [if_neg hk]; exact Hart.member_modMember_ne _ _ _ _ hk
  rw [e1]
  by_cases hk : k = (h.place i).1
  · rw [if_pos hk]
    unfold Member.mbit Member.setMbit
    by_cases hc : n' = n ∧ h.place i = (k, q)
    · rw [if_pos hc, if_neg (by rw [hc.1]; exact hn)]
      have : n' * 2048 + q = n * 2048 + (h.place i).2 := by rw [hc.1, hc.2]
      simp only [this, lookup_insert_self]
    · rw [if_neg hc]
      have : n' * 2048 + q ≠ n * 2048 + (h.place i).2 := by
        intro he
        have hnn : n' = n := by omega
        subst hnn
        exact hc ⟨rfl, Prod.ext hk.symm (by show (h.place i).2 = q; omega)⟩
      simp only [lookup_insert_ne _ _ _ _ this]
  · rw [if_neg hk, if_neg]
    intro hc
    exact hk (by rw [hc.2])

theorem Hart.setMelems_frame (h : Hart) (n : Nat) (xs : List (Nat × Bool)) :
    h.setMelems n xs = { h with members := (h.setMelems n xs).members } ∧
      (h.setMelems n xs).members.map exceptMasks = h.members.map exceptMasks := by
  induction xs generalizing h with
  | nil => exact ⟨rfl, rfl⟩
  | cons x xs ih =>
    obtain ⟨h1, h2⟩ := ih (h.setMelem n x.1 x.2)
    obtain ⟨h3, h4⟩ := h.setMelem_frame n x.1 x.2
    refine ⟨?_, ?_⟩
    · show Hart.setMelems (h.setMelem n x.1 x.2) n xs = _
      rw [h1]; rfl
    · show ((Hart.setMelems (h.setMelem n x.1 x.2) n xs).members.map exceptMasks) = _
      rw [h2, h4]

theorem Hart.setMelems_mbit_ne (h : Hart) (hp : Placed h) (n : Nat) (hn0 : n ≠ 0) (xs : List (Nat × Bool)) (n' k q : Nat)
    (hx : ∀ x ∈ xs, x.1 < h.vl.toNat) (hq : q < 2048) (hn : n' = n → ∀ x ∈ xs, h.place x.1 ≠ (k, q)) :
    ((h.setMelems n xs).member k).mbit n' q = (h.member k).mbit n' q := by
  induction xs generalizing h with
  | nil => rfl
  | cons x xs ih =>
    show ((Hart.setMelems (h.setMelem n x.1 x.2) n xs).member k).mbit n' q = _
    rw [ih (h.setMelem n x.1 x.2) (h.setMelem_placed hp _ _ _) (fun y hy => hx y (List.mem_cons_of_mem _ hy))
      (fun e y hy => hn e y (List.mem_cons_of_mem _ hy)),
      h.setMelem_mbit hp _ _ _ _ _ _ hn0 (hx x (List.mem_cons_self)) hq, if_neg]
    intro hc
    exact hn hc.1 x (List.mem_cons_self) hc.2

theorem Hart.setMelems_melem (h : Hart) (hp : Placed h) (n : Nat) (hn0 : n ≠ 0) (act : List Nat) (v : Nat → Bool) (i : Nat)
    (hx : ∀ x ∈ act, x < h.vl.toNat) (hi : i ∈ act) :
    (h.setMelems n (act.map fun j => (j, v j))).melem n i = v i := by
  induction act generalizing h with
  | nil => simp at hi
  | cons x act ih =>
    have hp1 := h.setMelem_placed hp n x (v x)
    have hx1 : ∀ y ∈ act, y < (h.setMelem n x (v x)).vl.toNat := fun y hy => hx y (List.mem_cons_of_mem _ hy)
    show ((Hart.setMelems (h.setMelem n x (v x)) n (act.map fun j => (j, v j))).melem n i) = _
    by_cases hm : i ∈ act
    · exact ih (h.setMelem n x (v x)) hp1 hx1 hm
    · have hix : i = x := by simpa [hm] using hi
      subst hix
      have hiv : i < h.vl.toNat := hx i (List.mem_cons_self)
      have hf := (Hart.setMelems_frame (h.setMelem n i (v i)) n (act.map fun j => (j, v j))).1
      have hplace : (Hart.setMelems (h.setMelem n i (v i)) n (act.map fun j => (j, v j))).place i = h.place i := by
        rw [hf]; rfl
      have hu : ∀ g : Hart, g.melem n i = (g.member (g.place i).1).mbit n (g.place i).2 := fun _ => rfl
      rw [hu, hplace, Hart.setMelems_mbit_ne _ hp1 _ hn0 _ _ _ _ (by simpa using hx1) (h.place_pos hp i hiv),
        h.setMelem_mbit hp _ _ _ _ _ _ hn0 hiv (h.place_pos hp i hiv), if_pos ⟨rfl, rfl⟩]
      intro _ y hy hh
      obtain ⟨z, hz, rfl⟩ := List.mem_map.mp hy
      exact hm (h.place_inj hp z i (hx z (List.mem_cons_of_mem _ hz)) hiv hh ▸ hz)

/-- What the delivery of a mask result does (R21, R32). -/
theorem State.writeMask_fills (s : State) (d : MReg) (hd : d ≠ 0) (act : List Nat) (v : Nat → Bool) (hp : Placed s.hart)
    (hx : ∀ i ∈ act, i < s.hart.vl.toNat) :
    FillsMask s d.toNat act v (s.writeMask d (act.map fun i => (i, v i))) := by
  have hd0 : d.toNat ≠ 0 := fun h => hd (BitVec.eq_of_toNat_eq h)
  obtain ⟨h1, h2⟩ := s.hart.setMelems_frame d.toNat (act.map fun i => (i, v i))
  refine ⟨_, rfl, ?_, h2, ?_, ?_⟩
  · exact congrArg (fun g : Hart => ({ s with hart := { g with els := 0 }, signal := .done } : State)) h1
  · intro i hi
    exact s.hart.setMelems_melem hp d.toNat hd0 act v i hx hi
  · intro n k p _ _ hq hn
    apply s.hart.setMelems_mbit_ne hp d.toNat hd0 _ n k p _ hq
    · intro e y hy
      obtain ⟨z, hz, rfl⟩ := List.mem_map.mp hy
      exact hn e z hz
    · intro y hy
      obtain ⟨z, hz, rfl⟩ := List.mem_map.mp hy
      exact hx z hz

/-! ### Scalar results -/

theorem map_exceptScalars_mapPos (l : List Member) (f : Nat → Member → Member)
    (hf : ∀ i m, exceptScalars (f i m) = exceptScalars m) : (mapPos f l).map exceptScalars = l.map exceptScalars := by
  apply List.ext_getElem?; intro k
  simp only [List.getElem?_map, mapPos_getElem?]
  cases l[k]? with
  | none => rfl
  | some m => simp [hf]

theorem exceptScalars_setReg (m : Member) (t : Nat) (r : Reg) (v : Word) : exceptScalars (m.setReg t r v) = exceptScalars m := by
  unfold Member.setReg; split
  · rfl
  · split
    · split <;> rfl
    · rfl

theorem exceptScalars_asyncReg (m : Member) (r : Reg) (v : Word) : exceptScalars (m.asyncReg r v) = exceptScalars m := by
  unfold Member.asyncReg; split <;> rfl

/-- What the delivery of a single-cycle result does (R19, R73, R74). -/
theorem State.setRegs_writes (s : State) (d : Reg) (v : Nat → Word) : Writes s d v (s.setRegs d v).ok := by
  refine ⟨_, rfl, ⟨rfl, map_exceptScalars_mapPos _ _ fun i m => exceptScalars_setReg m _ _ _⟩, ?_⟩
  intro i hi
  have hm := State.member_setRegs s d v i hi
  refine ⟨?_, ?_, ?_, ?_⟩
  · intro hd
    show (s.setRegs d v).hart.member i = _
    rw [hm, hd]; rfl
  · intro hd
    show lookup ((s.setRegs d v).hart.member i).regs d.toNat = _
    rw [hm, Member.setReg_regs _ _ _ _ hd, lookup_insert_self]
  · intro hd hp
    exact State.reg_setRegs_self s d v i hi hd hp
  · intro q hq
    exact State.reg_setRegs_ne s d q v i hi hq

theorem Member.reg_asyncReg_ne (m : Member) (t : Nat) (r q : Reg) (v : Word) (hq : q ≠ r) :
    (m.asyncReg r v).reg t q = m.reg t q := by
  unfold Member.asyncReg
  split
  · rfl
  · have hn : (r.toNat == q.toNat) = false := by
      simpa using fun h => hq (BitVec.eq_of_toNat_eq h.symm)
    exact regValue_congr _ _ _ _ _ _ _ rfl (by simp [hn])

/-- What the delivery of an asynchronous result does (R73, R74). -/
theorem State.asyncRegs_delivers (s : State) (d : Reg) (v : Nat → Word) : Delivers s d v (s.asyncRegs d v).ok := by
  refine ⟨_, rfl, ⟨rfl, map_exceptScalars_mapPos _ _ fun i m => exceptScalars_asyncReg m _ _⟩, ?_⟩
  intro i hi
  have hm := State.member_asyncRegs s d v i hi
  refine ⟨?_, ?_, ?_⟩
  · show ((s.asyncRegs d v).hart.member i).regs = _
    rw [hm]; unfold Member.asyncReg; split <;> rfl
  · show ((s.asyncRegs d v).hart.member i).pend = _
    rw [hm]; unfold Member.asyncReg; split <;> simp
  · intro q hq
    show ((s.asyncRegs d v).hart.member i).reg s.tick q = _
    rw [hm]
    exact Member.reg_asyncReg_ne _ _ _ _ _ hq

end Sys2Proof.Machine
end

