-- ==== Sys2Proof/Laws/Encoding.lean ====
section
/-! SUPPORT. The fields of the encodings: each field of a packed word reads back, and each code decodes to
what it encodes. -/

namespace Sys2Proof.Decode

/-- An appended pair of fields as a number. -/
theorem append_toNat {m n : Nat} (x : BitVec m) (y : BitVec n) : (x ++ y).toNat = x.toNat * 2 ^ n + y.toNat := by
  rw [BitVec.toNat_append, ← Nat.shiftLeft_add_eq_or_of_lt y.isLt, Nat.shiftLeft_eq]

/-- A field as a number. -/
theorem extract_toNat {m : Nat} (x : BitVec m) (l k : Nat) : (x.extractLsb' l k).toNat = x.toNat / 2 ^ l % 2 ^ k := by
  simp [Nat.shiftRight_eq_div_pow]

/-! ### packCR -/

section
variable (d : BitVec 6) (a : BitVec 6) (b : BitVec 6) (f : BitVec 6)

@[simp] theorem packCR_f23_18 : f23_18 (packCR d a b f) = d := by
  apply BitVec.eq_of_toNat_eq
  simp only [f23_18, packCR, extract_toNat, append_toNat]
  have := d.isLt; have := a.isLt; have := b.isLt; have := f.isLt; omega
@[simp] theorem packCR_f17_12 : f17_12 (packCR d a b f) = a := by
  apply BitVec.eq_of_toNat_eq
  simp only [f17_12, packCR, extract_toNat, append_toNat]
  have := d.isLt; have := a.isLt; have := b.isLt; have := f.isLt; omega
@[simp] theorem packCR_f11_6 : f11_6 (packCR d a b f) = b := by
  apply BitVec.eq_of_toNat_eq
  simp only [f11_6, packCR, extract_toNat, append_toNat]
  have := d.isLt; have := a.isLt; have := b.isLt; have := f.isLt; omega
@[simp] theorem packCR_f5_0 : f5_0 (packCR d a b f) = f := by
  apply BitVec.eq_of_toNat_eq
  simp only [f5_0, packCR, extract_toNat, append_toNat]
  have := d.isLt; have := a.isLt; have := b.isLt; have := f.isLt; omega

end

/-! ### packCI -/

section
variable (d : BitVec 6) (a : BitVec 6) (i : BitVec 12)

@[simp] theorem packCI_f23_18 : f23_18 (packCI d a i) = d := by
  apply BitVec.eq_of_toNat_eq
  simp only [f23_18, packCI, extract_toNat, append_toNat]
  have := d.isLt; have := a.isLt; have := i.isLt; omega
@[simp] theorem packCI_f17_12 : f17_12 (packCI d a i) = a := by
  apply BitVec.eq_of_toNat_eq
  simp only [f17_12, packCI, extract_toNat, append_toNat]
  have := d.isLt; have := a.isLt; have := i.isLt; omega
@[simp] theorem packCI_f11_0 : f11_0 (packCI d a i) = i := by
  apply BitVec.eq_of_toNat_eq
  simp only [f11_0, packCI, extract_toNat, append_toNat]
  have := d.isLt; have := a.isLt; have := i.isLt; omega

end

/-! ### packCL -/

section
variable (d : BitVec 6) (i : BitVec 18)

@[simp] theorem packCL_f23_18 : f23_18 (packCL d i) = d := by
  apply BitVec.eq_of_toNat_eq
  simp only [f23_18, packCL, extract_toNat, append_toNat]
  have := d.isLt; have := i.isLt; omega
@[simp] theorem packCL_f17_0 : f17_0 (packCL d i) = i := by
  apply BitVec.eq_of_toNat_eq
  simp only [f17_0, packCL, extract_toNat, append_toNat]
  have := d.isLt; have := i.isLt; omega

end

/-! ### packCM -/

section
variable (d : BitVec 6) (a : BitVec 6) (p : BitVec 2) (o : BitVec 10)

@[simp] theorem packCM_f23_18 : f23_18 (packCM d a p o) = d := by
  apply BitVec.eq_of_toNat_eq
  simp only [f23_18, packCM, extract_toNat, append_toNat]
  have := d.isLt; have := a.isLt; have := p.isLt; have := o.isLt; omega
@[simp] theorem packCM_f17_12 : f17_12 (packCM d a p o) = a := by
  apply BitVec.eq_of_toNat_eq
  simp only [f17_12, packCM, extract_toNat, append_toNat]
  have := d.isLt; have := a.isLt; have := p.isLt; have := o.isLt; omega
@[simp] theorem packCM_f11_10 : f11_10 (packCM d a p o) = p := by
  apply BitVec.eq_of_toNat_eq
  simp only [f11_10, packCM, extract_toNat, append_toNat]
  have := d.isLt; have := a.isLt; have := p.isLt; have := o.isLt; omega
@[simp] theorem packCM_f9_0 : f9_0 (packCM d a p o) = o := by
  apply BitVec.eq_of_toNat_eq
  simp only [f9_0, packCM, extract_toNat, append_toNat]
  have := d.isLt; have := a.isLt; have := p.isLt; have := o.isLt; omega

end

/-! ### packCB -/

section
variable (a : BitVec 6) (b : BitVec 6) (c : BitVec 2) (disp : BitVec 6) (s : BitVec 4)

@[simp] theorem packCB_f23_18 : f23_18 (packCB a b c disp s) = a := by
  apply BitVec.eq_of_toNat_eq
  simp only [f23_18, packCB, extract_toNat, append_toNat]
  have := a.isLt; have := b.isLt; have := c.isLt; have := disp.isLt; have := s.isLt; omega
@[simp] theorem packCB_f17_12 : f17_12 (packCB a b c disp s) = b := by
  apply BitVec.eq_of_toNat_eq
  simp only [f17_12, packCB, extract_toNat, append_toNat]
  have := a.isLt; have := b.isLt; have := c.isLt; have := disp.isLt; have := s.isLt; omega
@[simp] theorem packCB_f11_10 : f11_10 (packCB a b c disp s) = c := by
  apply BitVec.eq_of_toNat_eq
  simp only [f11_10, packCB, extract_toNat, append_toNat]
  have := a.isLt; have := b.isLt; have := c.isLt; have := disp.isLt; have := s.isLt; omega
@[simp] theorem packCB_f9_4 : f9_4 (packCB a b c disp s) = disp := by
  apply BitVec.eq_of_toNat_eq
  simp only [f9_4, packCB, extract_toNat, append_toNat]
  have := a.isLt; have := b.isLt; have := c.isLt; have := disp.isLt; have := s.isLt; omega
@[simp] theorem packCB_f3_0 : f3_0 (packCB a b c disp s) = s := by
  apply BitVec.eq_of_toNat_eq
  simp only [f3_0, packCB, extract_toNat, append_toNat]
  have := a.isLt; have := b.isLt; have := c.isLt; have := disp.isLt; have := s.isLt; omega

end

/-! ### packCJ -/

section
variable (disp : BitVec 20) (s : BitVec 4)

@[simp] theorem packCJ_f23_4 : f23_4 (packCJ disp s) = disp := by
  apply BitVec.eq_of_toNat_eq
  simp only [f23_4, packCJ, extract_toNat, append_toNat]
  have := disp.isLt; have := s.isLt; omega
@[simp] theorem packCJ_f3_0 : f3_0 (packCJ disp s) = s := by
  apply BitVec.eq_of_toNat_eq
  simp only [f3_0, packCJ, extract_toNat, append_toNat]
  have := disp.isLt; have := s.isLt; omega

end

/-! ### packCV -/

section
variable (v : BitVec 5) (a : BitVec 6) (b : BitVec 6) (m : BitVec 3) (p : BitVec 2) (w : BitVec 2)

@[simp] theorem packCV_f23_19 : f23_19 (packCV v a b m p w) = v := by
  apply BitVec.eq_of_toNat_eq
  simp only [f23_19, packCV, extract_toNat, append_toNat]
  have := v.isLt; have := a.isLt; have := b.isLt; have := m.isLt; have := p.isLt; have := w.isLt; omega
@[simp] theorem packCV_f18_13 : f18_13 (packCV v a b m p w) = a := by
  apply BitVec.eq_of_toNat_eq
  simp only [f18_13, packCV, extract_toNat, append_toNat]
  have := v.isLt; have := a.isLt; have := b.isLt; have := m.isLt; have := p.isLt; have := w.isLt; omega
@[simp] theorem packCV_f12_7 : f12_7 (packCV v a b m p w) = b := by
  apply BitVec.eq_of_toNat_eq
  simp only [f12_7, packCV, extract_toNat, append_toNat]
  have := v.isLt; have := a.isLt; have := b.isLt; have := m.isLt; have := p.isLt; have := w.isLt; omega
@[simp] theorem packCV_f6_4 : f6_4 (packCV v a b m p w) = m := by
  apply BitVec.eq_of_toNat_eq
  simp only [f6_4, packCV, extract_toNat, append_toNat]
  have := v.isLt; have := a.isLt; have := b.isLt; have := m.isLt; have := p.isLt; have := w.isLt; omega
@[simp] theorem packCV_f3_2 : f3_2 (packCV v a b m p w) = p := by
  apply BitVec.eq_of_toNat_eq
  simp only [f3_2, packCV, extract_toNat, append_toNat]
  have := v.isLt; have := a.isLt; have := b.isLt; have := m.isLt; have := p.isLt; have := w.isLt; omega
@[simp] theorem packCV_f1_0 : f1_0 (packCV v a b m p w) = w := by
  apply BitVec.eq_of_toNat_eq
  simp only [f1_0, packCV, extract_toNat, append_toNat]
  have := v.isLt; have := a.isLt; have := b.isLt; have := m.isLt; have := p.isLt; have := w.isLt; omega

end

/-! ### packCS -/

section
variable (a : BitVec 6) (b : BitVec 6) (f : BitVec 12)

@[simp] theorem packCS_f23_18 : f23_18 (packCS a b f) = a := by
  apply BitVec.eq_of_toNat_eq
  simp only [f23_18, packCS, extract_toNat, append_toNat]
  have := a.isLt; have := b.isLt; have := f.isLt; omega
@[simp] theorem packCS_f17_12 : f17_12 (packCS a b f) = b := by
  apply BitVec.eq_of_toNat_eq
  simp only [f17_12, packCS, extract_toNat, append_toNat]
  have := a.isLt; have := b.isLt; have := f.isLt; omega
@[simp] theorem packCS_f11_0 : f11_0 (packCS a b f) = f := by
  apply BitVec.eq_of_toNat_eq
  simp only [f11_0, packCS, extract_toNat, append_toNat]
  have := a.isLt; have := b.isLt; have := f.isLt; omega

end

/-! ### packCE -/

section
variable (d : BitVec 6) (a : BitVec 6) (h : BitVec 3) (f : BitVec 9)

@[simp] theorem packCE_f23_18 : f23_18 (packCE d a h f) = d := by
  apply BitVec.eq_of_toNat_eq
  simp only [f23_18, packCE, extract_toNat, append_toNat]
  have := d.isLt; have := a.isLt; have := h.isLt; have := f.isLt; omega
@[simp] theorem packCE_f17_12 : f17_12 (packCE d a h f) = a := by
  apply BitVec.eq_of_toNat_eq
  simp only [f17_12, packCE, extract_toNat, append_toNat]
  have := d.isLt; have := a.isLt; have := h.isLt; have := f.isLt; omega
@[simp] theorem packCE_f11_9 : f11_9 (packCE d a h f) = h := by
  apply BitVec.eq_of_toNat_eq
  simp only [f11_9, packCE, extract_toNat, append_toNat]
  have := d.isLt; have := a.isLt; have := h.isLt; have := f.isLt; omega
@[simp] theorem packCE_f8_0 : f8_0 (packCE d a h f) = f := by
  apply BitVec.eq_of_toNat_eq
  simp only [f8_0, packCE, extract_toNat, append_toNat]
  have := d.isLt; have := a.isLt; have := h.isLt; have := f.isLt; omega

end

/-! ### packA -/

section
variable (op : BitVec 6) (d : BitVec 5) (a : BitVec 5) (b : BitVec 5) (s : BitVec 6) (m : BitVec 3) (x : BitVec 2)

@[simp] theorem packA_aOp : aOp (packA op d a b s m x) = op := by
  apply BitVec.eq_of_toNat_eq
  simp only [aOp, packA, extract_toNat, append_toNat]
  have := op.isLt; have := d.isLt; have := a.isLt; have := b.isLt; have := s.isLt; have := m.isLt; have := x.isLt; omega
@[simp] theorem packA_aD : aD (packA op d a b s m x) = d := by
  apply BitVec.eq_of_toNat_eq
  simp only [aD, packA, extract_toNat, append_toNat]
  have := op.isLt; have := d.isLt; have := a.isLt; have := b.isLt; have := s.isLt; have := m.isLt; have := x.isLt; omega
@[simp] theorem packA_aA : aA (packA op d a b s m x) = a := by
  apply BitVec.eq_of_toNat_eq
  simp only [aA, packA, extract_toNat, append_toNat]
  have := op.isLt; have := d.isLt; have := a.isLt; have := b.isLt; have := s.isLt; have := m.isLt; have := x.isLt; omega
@[simp] theorem packA_aB : aB (packA op d a b s m x) = b := by
  apply BitVec.eq_of_toNat_eq
  simp only [aB, packA, extract_toNat, append_toNat]
  have := op.isLt; have := d.isLt; have := a.isLt; have := b.isLt; have := s.isLt; have := m.isLt; have := x.isLt; omega
@[simp] theorem packA_aS : aS (packA op d a b s m x) = s := by
  apply BitVec.eq_of_toNat_eq
  simp only [aS, packA, extract_toNat, append_toNat]
  have := op.isLt; have := d.isLt; have := a.isLt; have := b.isLt; have := s.isLt; have := m.isLt; have := x.isLt; omega
@[simp] theorem packA_aM : aM (packA op d a b s m x) = m := by
  apply BitVec.eq_of_toNat_eq
  simp only [aM, packA, extract_toNat, append_toNat]
  have := op.isLt; have := d.isLt; have := a.isLt; have := b.isLt; have := s.isLt; have := m.isLt; have := x.isLt; omega
@[simp] theorem packA_aX : aX (packA op d a b s m x) = x := by
  apply BitVec.eq_of_toNat_eq
  simp only [aX, packA, extract_toNat, append_toNat]
  have := op.isLt; have := d.isLt; have := a.isLt; have := b.isLt; have := s.isLt; have := m.isLt; have := x.isLt; omega

end

/-! ### Codes -/

@[simp] theorem condOf_condCode (c : Cond) : condOf (condCode c) = c := by cases c <;> decide
@[simp] theorem redOf_redCode (c : RedOp) : redOf (redCode c) = c := by cases c <;> decide
@[simp] theorem maskOf_maskCode (c : MaskOp) : maskOf (maskCode c) = c := by cases c <;> decide
@[simp] theorem policyOf_policyCode (c : Policy) : policyOf (policyCode c) = c := by cases c <;> decide
@[simp] theorem scopeOf_scopeCode (c : Scope) : scopeOf (scopeCode c) = some c := by cases c <;> decide
@[simp] theorem widthOf_widthCode (c : Width) : widthOf (widthCode c) = some c := by cases c <;> decide
@[simp] theorem modeOf_modeCode (c : PairMode) : modeOf (modeCode c) = some c := by cases c <;> decide
@[simp] theorem idxOf_idxCode (c : IdxW) : idxOf (idxCode c) = some c := by cases c <;> decide
@[simp] theorem shOf_shCode (c : ShKind) : shOf (shCode c) = some c := by cases c <;> decide
@[simp] theorem cvtOf_cvtCode (c : CvtKind) : cvtOf (cvtCode c) = some c := by cases c <;> decide
@[simp] theorem fenceOf_fenceCode (c : FenceKind) : fenceOf (fenceCode c) = some c := by cases c <;> decide
@[simp] theorem latchOf_latchCode (c : LatchFmt) : latchOf (latchCode c) = some c := by cases c <;> decide

end Sys2Proof.Decode
end

