-- ==== Sys2Proof/Laws/Shares.lean ====
section
/-! SUPPORT. Laws of the distribution of elements (R36, R37): the procedure gives every element a place. -/

namespace Sys2Proof.Machine

open Sys2Proof.Safety

/-- What one round of R37 does: it takes from the need what it gives, within the capacities; and where need is
left, every member with room took one grain. -/
theorem dealRound_spec (n : Nat) (l : List (Nat × Nat)) :
    (dealRound n l).2.map (·.2) = l.map (·.2) ∧
      ((dealRound n l).2.map (·.1)).sum + (dealRound n l).1 = (l.map (·.1)).sum + n ∧
      ((∀ x ∈ l, x.1 ≤ x.2) → ∀ x ∈ (dealRound n l).2, x.1 ≤ x.2) ∧
      (0 < (dealRound n l).1 → ∀ m, (∀ x ∈ l, m ≤ x.1 ∨ x.1 = x.2) →
        ∀ x ∈ (dealRound n l).2, m + 1 ≤ x.1 ∨ x.1 = x.2 ∨ (m ≤ x.1 ∧ x.2 ≤ x.1)) := by
  induction l generalizing n with
  | nil => simp [dealRound]
  | cons y l ih =>
    obtain ⟨s, c⟩ := y
    unfold dealRound
    by_cases h : (decide (0 < n) && decide (s < c)) = true
    · have hh : 0 < n ∧ s < c := by simpa using h
      obtain ⟨h1, h2, h3, h4⟩ := ih (n - 1)
      rw [if_pos h]
      refine ⟨by simp [h1], by simp only [List.map_cons, List.sum_cons]; omega, ?_, ?_⟩
      · intro hx x hm
        rcases List.mem_cons.mp hm with rfl | hm
        · exact hh.2
        · exact h3 (fun z hz => hx z (List.mem_cons_of_mem _ hz)) x hm
      · intro h0 m hx x hm
        rcases List.mem_cons.mp hm with rfl | hm
        · rcases hx (s, c) (List.mem_cons_self) with h | h
          · exact .inl (by simpa using h)
          · simp only at h; omega
        · exact h4 h0 m (fun z hz => hx z (List.mem_cons_of_mem _ hz)) x hm
    · obtain ⟨h1, h2, h3, h4⟩ := ih n
      rw [if_neg h]
      refine ⟨by simp [h1], by simp only [List.map_cons, List.sum_cons]; omega, ?_, ?_⟩
      · intro hx x hm
        rcases List.mem_cons.mp hm with rfl | hm
        · exact hx (s, c) (List.mem_cons_self)
        · exact h3 (fun z hz => hx z (List.mem_cons_of_mem _ hz)) x hm
      · intro h0 m hx x hm
        have hn : 0 < n := by
          have : ((dealRound n l).2.map (·.1)).sum ≥ (l.map (·.1)).sum ∨ 0 < n := by
            by_cases hn : 0 < n
            · exact .inr hn
            · left
              have : n = 0 := by omega
              subst this
              have : ∀ l : List (Nat × Nat), dealRound 0 l = (0, l) := by
                intro l; induction l with
                | nil => rfl
                | cons y l ih => obtain ⟨s, c⟩ := y; simp [dealRound, ih]
              rw [this]
          rcases this with h5 | h5
          · simp only at h0; omega
          · exact h5
        rcases List.mem_cons.mp hm with rfl | hm
        · have hsc : c ≤ s := by simp [hn] at h; exact h
          rcases hx (s, c) (List.mem_cons_self) with h | h
          · exact .inr (.inr ⟨h, hsc⟩)
          · exact .inr (.inl h)
        · exact h4 h0 m (fun z hz => hx z (List.mem_cons_of_mem _ hz)) x hm

/-- The rounds give the whole need, or everything there is. -/
theorem dealRounds_spec (k n m : Nat) (l : List (Nat × Nat)) (hc : ∀ x ∈ l, x.1 ≤ x.2)
    (hm : ∀ x ∈ l, m ≤ x.1 ∨ x.1 = x.2) :
    (dealRounds k n l).map (·.2) = l.map (·.2) ∧ (∀ x ∈ dealRounds k n l, x.1 ≤ x.2) ∧
      (((dealRounds k n l).map (·.1)).sum = (l.map (·.1)).sum + n ∨ ∀ x ∈ dealRounds k n l, m + k ≤ x.1 ∨ x.1 = x.2) := by
  induction k generalizing n m l with
  | zero => exact ⟨rfl, hc, .inr (by simpa [dealRounds] using hm)⟩
  | succ k ih =>
    obtain ⟨h1, h2, h3, h4⟩ := dealRound_spec n l
    unfold dealRounds
    generalize hd : dealRound n l = r at *
    obtain ⟨n', l'⟩ := r
    simp only at h1 h2 h3 h4 ⊢
    split
    · next h0 =>
      refine ⟨h1, h3 hc, .inl ?_⟩
      omega
    · next h0 =>
      have h5 : ∀ x ∈ l', m + 1 ≤ x.1 ∨ x.1 = x.2 := by
        intro x hx
        have hle := h3 hc x hx
        rcases h4 (by omega) m hm x hx with h | h | h
        · exact .inl h
        · exact .inr h
        · exact .inr (by omega)
      obtain ⟨g1, g2, g3⟩ := ih n' (m + 1) l' (h3 hc) h5
      refine ⟨g1.trans h1, g2, ?_⟩
      rcases g3 with g | g
      · left; omega
      · right; intro x hx
        rcases g x hx with h | h
        · exact .inl (by omega)
        · exact .inr h

theorem sharesFor_spec (caps : List Nat) (vl w : Nat) (h64 : ∀ c ∈ caps, c ≤ 64) :
    (sharesFor caps vl w).length = caps.length ∧ (∀ x ∈ sharesFor caps vl w, x ≤ 64) ∧
      ((sharesFor caps vl w).sum = ceilDiv (vl * w) 256 ∨ (sharesFor caps vl w).sum = caps.sum) := by
  have hc : ∀ x ∈ caps.map fun c => (0, c), x.1 ≤ x.2 := by simp
  have hm : ∀ x ∈ caps.map fun c => (0, c), 0 ≤ x.1 ∨ x.1 = x.2 := by simp
  obtain ⟨h1, h2, h3⟩ := dealRounds_spec 64 (ceilDiv (vl * w) 256) 0 _ hc hm
  unfold sharesFor
  generalize dealRounds 64 (ceilDiv (vl * w) 256) (caps.map fun c => (0, c)) = r at *
  have e : r.map (·.2) = caps := by rw [h1, List.map_map]; simp [Function.comp_def]
  have hr : ∀ x ∈ r, x.2 ≤ 64 := fun x hx => h64 _ (e ▸ List.mem_map_of_mem hx)
  refine ⟨by rw [List.length_map, ← e, List.length_map], ?_, ?_⟩
  · intro x hx
    obtain ⟨y, hy, rfl⟩ := List.mem_map.mp hx
    exact (h2 y hy).trans (hr y hy)
  · rcases h3 with h | h
    · left; simpa [Function.comp_def] using h
    · right
      have : r.map (·.1) = r.map (·.2) := by
        apply List.map_congr_left
        intro x hx
        have := h2 x hx; have := hr x hx
        rcases h x hx with h | h <;> omega
      rw [this, e]

/-- A member has at most 64 grains (R36). -/
theorem Member.cap_le (m : Member) : m.cap ≤ 64 := by
  have hb : m.beds ≤ 4 := by
    unfold Member.beds pairsIn
    exact (List.length_filter_le _ _).trans (by simp [numsFrom_length])
  unfold Member.cap
  omega

theorem vmaxWidth (n : Nat) (v : BitVec 2) :
    32 * n / (widthBits v / 8) = n * (256 / widthBits v) := by
  unfold widthBits; split
  · omega
  · split <;> omega

theorem ceilWidth (n : Nat) (v : BitVec 2) : n ≤ ceilDiv (n * widthBits v) 256 * (256 / widthBits v) := by
  unfold widthBits ceilDiv; split
  · omega
  · split <;> omega

/-- A length within VMAX(w), distributed by R37, gives every element a place of its own. -/
theorem sharesFor_places (caps : List Nat) (vl : Nat) (v : BitVec 2) (h64 : ∀ c ∈ caps, c ≤ 64)
    (hv : vl ≤ 32 * caps.sum / (widthBits v / 8)) :
    vl ≤ (sharesFor caps vl (widthBits v)).sum * (256 / widthBits v) := by
  obtain ⟨-, -, h⟩ := sharesFor_spec caps vl (widthBits v) h64
  rcases h with h | h
  · rw [h]; exact ceilWidth vl v
  · rw [h]; rwa [vmaxWidth] at hv

end Sys2Proof.Machine
end

