-- ==== Sys2Proof/Laws/Translate.lean ====
section
/-! SUPPORT. What every translation passed: the leaf permits the access, the address is not reserved, and the key slot takes
it (R263, R266, R375). -/

namespace Sys2Proof.Machine

/-- The translations that an access of kind `k` may use. -/
def Accepted (s : State) (t : TCtx) (k : AKind) (r : Except (Nat × Nat) Xlat) : Prop :=
  ∀ x, r = .ok x → Pte.permits x.pte k t.priv = true ∧ s.reserved x.pa = false ∧
    s.keyAccepts (Pte.key x.pte) x.pa (k != .write) = true

variable {s : State} {t : TCtx} {k : AKind}

theorem accepted_error (e : Nat × Nat) : Accepted s t k (.error e) := fun _ h => nomatch h

theorem accepted_finishXlat (hk : k ≠ .look) (x : Xlat) : Accepted s t k (finishXlat s t k x) := by
  intro y h
  unfold finishXlat at h
  split at h
  · simp_all
  split at h
  · cases h
  split at h
  · cases h
  split at h
  · cases h
  · cases h
    simp_all

theorem accepted_leafResult (hk : k ≠ .look) (va : Word) (w : Nat × Nat × Word × List TlbEntry) :
    Accepted s t k (leafResult s t k va w) := by
  unfold leafResult
  dsimp only
  repeat' split
  all_goals first
    | exact accepted_finishXlat hk _
    | exact accepted_error _
    | skip
  unfold brokenGroup
  dsimp only
  split
  · exact accepted_error _
  · exact accepted_finishXlat hk _

theorem accepted_walk (hk : k ≠ .look) (va : Word) : Accepted s t k (walk s t k va) := by
  unfold walk
  dsimp only
  repeat' split
  all_goals first
    | exact accepted_leafResult hk _ _
    | exact accepted_error _

theorem accepted_cachedResult (hk : k ≠ .look) {va : Word} {e : TlbEntry} {r : Except (Nat × Nat) Xlat}
    (h : cachedResult s t k va e = some r) : Accepted s t k r := by
  unfold cachedResult at h
  split at h
  · cases h
  split at h
  · split at h
    · cases h
    · cases h
      split
      · exact accepted_error _
      · exact accepted_leafResult hk _ _
  · split at h
    · cases h
    · cases h
      exact accepted_finishXlat hk _

/-- Whether by a walk or from a cache, a translation has passed its checks (R263, R266, R270, R375). -/
theorem accepted_translate (hk : k ≠ .look) (va : Word) : Accepted s t k (translate s t k va) := by
  unfold translate
  dsimp only
  split
  · exact accepted_error _
  split
  · exact accepted_walk hk va
  split
  · rename_i r hr
    obtain ⟨e, -, he⟩ := List.mem_filterMap.1 (List.mem_of_mem_filter (List.mem_of_getElem? hr))
    exact accepted_cachedResult hk he
  · exact accepted_walk hk va

/-- A translation for an access that reads has passed the check of its sector of host memory: a write of part of it does not
fail (R374, R375). -/
theorem translate_part {va : Word} {x : Xlat} (h : translate s t k va = .ok x) (hk : k ≠ .look) (hw : k ≠ .write) :
    s.partFails x = false := by
  have key := (accepted_translate hk va x h).2.2
  have reads : (k != .write) = true := by simp [hw]
  unfold State.partFails
  cases hh : inHost x.pa with
  | false => rfl
  | true =>
    have hp : inPeer x.pa = false := by
      simp only [inHost, inPeer, Bool.and_eq_true, Bool.and_eq_false_iff, decide_eq_true_eq, decide_eq_false_iff_not] at hh ⊢
      omega
    cases hl : lookup s.kslots (Pte.key x.pte) with
    | none => simp [State.keyAccepts, hh, hp, hl] at key
    | some w => simp_all [State.keyAccepts]

end Sys2Proof.Machine
end

