-- ==== Sys2Proof/Tests/Slice0.lean ====
section
/-! SUPPORT. Tests: ill-formed terms that the checks refuse, words written out from Tables 03.3 to 03.7 that decode to
the instructions they stand for, the spec's own worked examples, and witnesses that the hypotheses of each
statement can be met together. -/

namespace Sys2Proof.Tests

set_option Elab.async false

open Sys2Proof Sys2Proof.Machine Sys2Proof.Safety

/-! ### Well-formedness -/

theorem test_wf_refuses_words : [Instr.mts 0x063 1, .mts 0x0A0 1, .mts 0x0A1 1, .accfg 3, .vstc .norm .n32 1 2 3 0,
    .copy 1 61 0, .rcpy 1 63 0, .rfil 1 61 0, .rand 1 61 0, .ror 1 61 0, .rxor 1 61 0, .rnot 1 61 0, .rmaj 1 61 0,
    .rdc 1 61 0, .spred 1 61 0, .vcmp .eq 0 1 2 3 0, .vconf 0 1 0, .mlog .and 0 1 2, .mma 0 9 0 1].all (! ·.wf) = true := by
  decide

theorem test_wf_refuses_events : [Instr.savedUnitResume 1 65536, .unitStart 1 65536 0, .laneRetirement 65536 0,
    .laneRetirement 0 4, .thresherArbitration 8192, .thresherCommandComplete 8192, .wldSlotLoad 8192 0, .wldSlotLoad 0 2,
    .mmagGather 65536, .start 1024 0, .own 1024 0 0, .own 0 16 0, .dramRefresh 1024 0, .dramRefresh 0 16,
    .moduleRegisterWrite 0 0, .moduleRegisterWrite 0x800000000000C 0, .peerAccess 16 (.read 0 1), .linkDown 16,
    .machineCheck 0 {}, .machineCheck 8 {}, .wearUpdate [] 0].all (! ·.wf) = true := by decide

theorem test_wf_accepts : [Instr.mts 0x001 1, .accfg 2, .vstc .norm .n32 1 2 3 1, .copy 1 60 0, .mma 0 8 0 1,
    .vcmp .eq 1 1 2 3 0, .unitStart 1 65535 0, .own 1023 15 0, .moduleRegisterWrite 0x8000000000200 0].all (·.wf) = true := by
  decide

/-! ### Decoding: words assembled from Tables 03.3 to 03.7 -/

/-- Every word of the list decodes to its instruction. -/
def decodesAll (nbits : Nat) (l : List (Nat × Instr)) : Bool :=
  l.all fun p =>
    match decodeTableWord nbits (if nbits = 64 then p.1 * 2 ^ 32 else p.1) with
    | some i => i == p.2
    | none => false

theorem test_decode_sys : decodesAll 32 [
    (0x80000000, .nop), (0x80000A51, .trap 0xA5), (0x80000002, .tret), (0x80000003, .yield), (0x80000004, .endUnit),
    (0x800003C5, .dbg 0x3C), (0x80000007, .chend), (0x80149006, .waita 5 9), (0x811400A2, .mfs 5 0x0A2),
    (0x82009071, .mts 0x071 9), (0x82009063, .tlbinv 9), (0x820090A0, .cxsave 9), (0x820090A1, .cxload 9)] = true := by
  decide +kernel

theorem test_decode_alu : decodesAll 32 [
    (0x83149480, .add 5 9 18), (0x83149481, .sub 5 9 18), (0x83149482, .and 5 9 18), (0x83149483, .or 5 9 18),
    (0x83149484, .xor 5 9 18), (0x83149485, .sll 5 9 18), (0x83149486, .srl 5 9 18), (0x83149487, .sra 5 9 18),
    (0x83149488, .slt 5 9 18), (0x83149489, .sltn 5 9 18), (0x8314948A, .min 5 9 18), (0x8314948B, .max 5 9 18),
    (0x8314948C, .minn 5 9 18), (0x8314948D, .maxn 5 9 18), (0x8314900E, .clz 5 9), (0x8314900F, .ctz 5 9),
    (0x83149010, .popc 5 9), (0x83149491, .ext 5 9 18), (0x84149480, .mul 5 9 18), (0x84149481, .mulh 5 9 18),
    (0x84149482, .mulhn 5 9 18), (0x84149483, .div 5 9 18), (0x84149484, .divn 5 9 18), (0x84149485, .rem 5 9 18),
    (0x84149486, .remn 5 9 18)] = true := by
  decide +kernel

theorem test_decode_falu : decodesAll 32 [
    (0x85149480, .fadd 5 9 18), (0x85149481, .fsub 5 9 18), (0x85149482, .fmul 5 9 18), (0x85149483, .fma 5 9 18),
    (0x85149484, .fmin 5 9 18), (0x85149485, .fmax 5 9 18), (0x85149486, .fcmp 5 9 18), (0x8514948A, .fdiv 5 9 18),
    (0x85149008, .fabs 5 9), (0x85149009, .fneg 5 9), (0x8514900B, .fsqrt 5 9), (0x85149007, .fcvt .f2i 5 9),
    (0x85149047, .fcvt .f2n 5 9), (0x85149087, .fcvt .i2f 5 9), (0x851490C7, .fcvt .n2f 5 9),
    (0x85149107, .fcvt .rint 5 9), (0x85149147, .fcvt .f2it 5 9), (0x85149187, .fcvt .f2nt 5 9)] = true := by
  decide +kernel

theorem test_decode_imm : decodesAll 32 [
    (0x86149FFD, .addi 5 9 0xFFD), (0x87149FFD, .andi 5 9 0xFFD), (0x88149FFD, .ori 5 9 0xFFD),
    (0x89149FFD, .xori 5 9 0xFFD), (0x8A149FFD, .slti 5 9 0xFFD), (0x8B149FFD, .sltin 5 9 0xFFD),
    (0x8C149021, .shi .sll 5 9 33), (0x8C149061, .shi .srl 5 9 33), (0x8C1490A1, .shi .sra 5 9 33),
    (0x8D17FFFE, .lis 5 0x3FFFE), (0x8E140000, .li 5 0)] = true := by
  decide +kernel

theorem test_decode_mem : decodesAll 32 [
    (0x901493FF, .ldb .norm 5 9 0x3FF), (0x8F149480, .ldbX 5 9 18), (0x911497FF, .ldbn .strm 5 9 0x3FF),
    (0x8F149481, .ldbnX 5 9 18), (0x92149BFF, .ldh .keep 5 9 0x3FF), (0x8F149482, .ldhX 5 9 18),
    (0x93149FFF, .ldhn .nol1 5 9 0x3FF), (0x8F149483, .ldhnX 5 9 18), (0x941493FF, .ldw .norm 5 9 0x3FF),
    (0x8F149484, .ldwX 5 9 18), (0x951497FF, .ldwn .strm 5 9 0x3FF), (0x8F149485, .ldwnX 5 9 18),
    (0x96149BFF, .ldd .keep 5 9 0x3FF), (0x8F149486, .lddX 5 9 18), (0x97149FFF, .stb .nol1 5 9 0x3FF),
    (0x8F149488, .stbX 5 9 18), (0x981493FF, .sth .norm 5 9 0x3FF), (0x8F149489, .sthX 5 9 18),
    (0x991497FF, .stw .strm 5 9 0x3FF), (0x8F14948A, .stwX 5 9 18), (0x9A149BFF, .std .keep 5 9 0x3FF),
    (0x8F14948B, .stdX 5 9 18), (0x9B149000, .ldl 5 9), (0x9C149480, .stc 5 9 18), (0x9D000015, .fence .acq .host),
    (0x9D000016, .fence .rel .host), (0x9D000017, .fence .full .host)] = true := by
  decide +kernel

theorem test_decode_flow : decodesAll 32 [
    (0x9E1493F3, .br .eq 5 9 0x3F 3), (0x9E1497F3, .br .ne 5 9 0x3F 3), (0x9E149BF3, .br .lt 5 9 0x3F 3),
    (0x9E149FF3, .br .ge 5 9 0x3F 3), (0x9F149814, .brn .lt 5 9 1 4), (0xA0FFFFE5, .jmp 0xFFFFE 5),
    (0xA1000026, .call 2 6), (0xA2149000, .jr 5 9)] = true := by
  decide +kernel

theorem test_decode_furrow : decodesAll 32 [
    (0xA3140000, .fid 5), (0xA3140001, .flen 5), (0xA3009002, .sende 9), (0xA3140003, .recvw 5),
    (0xA3149004, .voteAdd 5 9), (0xA3149005, .voteMin 5 9), (0xA3149006, .voteMax 5 9), (0xA3149007, .voteOr 5 9),
    (0xA3149008, .voteMinn 5 9), (0xA3149009, .voteMaxn 5 9), (0xA314900A, .voteFadd 5 9), (0xA314900B, .voteFmin 5 9),
    (0xA314900C, .voteFmax 5 9), (0xA4009000, .ipost 9), (0xA4009001, .iwait 9), (0xA4149482, .viwait 5 9 18),
    (0xA4000003, .irset)] = true := by
  decide +kernel

theorem test_decode_vcfg : decodesAll 32 [
    (0xA5149000, .setvl .w8 5 9), (0xA5149001, .setvl .w16 5 9), (0xA5149002, .setvl .w32 5 9),
    (0xA6000091, .wcfg .bed .cache .bed .index), (0xA7000002, .accfg 2), (0xB1000E88, .qbind 2 8 7),
    (0xB1000009, .qfree 2), (0xB100000A, .qdrain 2), (0xB124000B, .qstat 2 9)] = true := by
  decide +kernel

theorem test_decode_vmem : decodesAll 32 [
    (0xA8392030, .vld .norm 7 9 3), (0xA9393934, .vlds .strm 7 9 50 3), (0xAA392939, .vldx .keep .n16 7 9 18 3),
    (0xAB11393C, .vldq .nol1 2 9 50 3), (0xAC392030, .vst .norm 7 9 3), (0xAD393934, .vsts .strm 7 9 50 3),
    (0xAE392939, .vstx .keep .n16 7 9 18 3), (0xAF39293E, .vglk .nol1 .n32 7 9 18 3),
    (0xB0392931, .vstc .norm .n16 7 9 18 3)] = true := by
  decide +kernel

theorem test_decode_engine : decodesAll 32 [
    (0xB2252017, .wld 1 .e4m3 9 18), (0xB2252019, .wld 1 .e5m2 9 18), (0xB2252009, .wld 1 .i8 9 18),
    (0xB225200D, .wld 1 .i4 9 18), (0xB3149C00, .copy 5 9 6), (0xB4149C00, .rcpy 5 9 6), (0xB4149C01, .rfil 5 9 6),
    (0xB4149C02, .rand 5 9 6), (0xB4149C03, .ror 5 9 6), (0xB4149C04, .rxor 5 9 6), (0xB4149C05, .rnot 5 9 6),
    (0xB4149C06, .rmaj 5 9 6), (0xB5149C00, .rdc 5 9 6), (0xB6149C00, .spred 5 9 6), (0xB7009030, .txwait 9 6),
    (0xB7140031, .txread 5 6), (0xB7149032, .txstat 5 9 6), (0xB81494B0, .rstart 5 9 18 6), (0xB8009001, .rgo 9),
    (0xB9009008, .bkld 1 9), (0xB9009009, .bkst 1 9), (0xB9009482, .bkseq 9 18), (0xB900948B, .bkset 1 9 18)] = true := by
  decide +kernel

theorem test_decode_work : decodesAll 32 [
    (0xBA149000, .launch 5 9), (0xBA009481, .cancel 9 18), (0xBA149002, .wstat 5 9), (0xBB009480, .cflush 9 18),
    (0xBB009481, .cinv 9 18), (0xBB009482, .cpref 9 18)] = true := by
  decide +kernel

theorem test_decode_arith : decodesAll 64 [
    (0x04E9950C, .vadd 7 9 18 40 3), (0x08E9950C, .vsub 7 9 18 40 3), (0x0CE9950C, .vmul 7 9 18 40 3),
    (0x10E9950C, .vma 7 9 18 40 3), (0x14E9950C, .vmin 7 9 18 40 3), (0x18E9950C, .vmax 7 9 18 40 3),
    (0x1CE9050C, .vabs 7 9 40 3), (0x1CE9050D, .vneg 7 9 40 3), (0x1CE9050E, .vnot 7 9 40 3),
    (0x1CE9050F, .vrcp 7 9 40 3), (0x20E9950C, .vdiv 7 9 18 40 3), (0x24E9050C, .vsqrt 7 9 40 3),
    (0x28E9050C, .vcvt 7 9 40 3), (0x2CE9950C, .vand 7 9 18 40 3), (0x30E9950C, .vor 7 9 18 40 3),
    (0x34E9950C, .vxor 7 9 18 40 3), (0x38E9950C, .vshl 7 9 18 40 3), (0x3CE9950C, .vshr 7 9 18 40 3),
    (0x40A9950C, .vcmp .eq 5 9 18 40 3), (0x40A9950D, .vcmp .ne 5 9 18 40 3), (0x40A9950E, .vcmp .lt 5 9 18 40 3),
    (0x40A9950F, .vcmp .ge 5 9 18 40 3), (0x44E9950C, .vsel 7 9 18 40 3), (0x48E9950C, .vadds 7 9 18 40 3),
    (0x4CE9950C, .vmuls 7 9 18 40 3), (0x50E9950C, .vmas 7 9 18 40 3)] = true := by
  decide +kernel

theorem test_decode_move : decodesAll 64 [
    (0x54E0050C, .vsplat 7 40 3), (0x54E0000D, .viota 7 3), (0x58E9950C, .vslup 7 9 18 40 3),
    (0x5CE9950C, .vsldn 7 9 18 40 3), (0x60E9950C, .vperm 7 9 18 40 3), (0x64E9000C, .vcomp 7 9 3),
    (0x68E9050C, .vred .add 7 9 40 3), (0x6CE9050C, .vscan .add 7 9 40 3), (0x68E9050D, .vred .min 7 9 40 3),
    (0x6CE9050D, .vscan .min 7 9 40 3), (0x68E9050E, .vred .max 7 9 40 3), (0x6CE9050E, .vscan .max 7 9 40 3),
    (0x68E9050F, .vred .or 7 9 40 3), (0x6CE9050F, .vscan .or 7 9 40 3), (0x70E90500, .vget 7 9 40),
    (0x74E09500, .vput 7 18 40), (0x78A9000C, .vconf 5 9 3), (0x7CA63800, .mlog .and 5 6 7),
    (0x7CA63801, .mlog .or 5 6 7), (0x7CA63802, .mlog .xor 5 6 7), (0x7CA63803, .mlog .andn 5 6 7),
    (0x80E60000, .mcntPop 7 6), (0x80E60001, .mcntFirst 7 6)] = true := by
  decide +kernel

theorem test_decode_index : decodesAll 64 [
    (0x8409900E, .ixins 2 9 18 3), (0x88E9000E, .ixfnd 2 7 9 3), (0x8C09950E, .ixadd 2 9 18 40 3),
    (0x90E90502, .ixout 2 7 9 40), (0x94000002, .ixclr 2), (0x986A0D00, .mma 3 10 1 40),
    (0x9C699501, .mmag 3 9 18 1 40), (0xA0E2050C, .aext 7 2 40 3), (0xA4600000, .azero 3), (0xA8020000, .qpop 2)] = true := by
  decide +kernel

/-- Words that the text of the spec writes out (chapters 04 to 08, 12). -/
theorem test_decode_published_c_words : decodesAll 32 [
    (0xA6000044, .wcfg .cache .bed .cache .bed), (0x9D00000D, .fence .acq .die), (0xDC384340, .stc 14 4 13),
    (0x9E380401, .br .ne 14 0 0 1), (0x8203C0A0, .cxsave 60), (0x8203D0A1, .cxload 61), (0xB3414200, .copy 16 20 1),
    (0xB1000684, .qbind 1 8 3), (0xAA188102, .vldx .norm .n32 3 4 2 0), (0xB0288112, .vstc .norm .n32 5 4 2 1),
    (0x813000A2, .mfs 12 0x0A2), (0x8200A0A3, .mts 0x0A3 10), (0xA300D002, .sende 13), (0xB8414540, .rstart 16 20 21 0),
    (0xB8004001, .rgo 4), (0xB9014008, .bkld 1 20), (0xB9004142, .bkseq 4 5), (0xB7014010, .txwait 20 2),
    (0xB5414000, .rdc 16 20 0), (0xB6414400, .spred 16 20 2)] = true := by
  decide +kernel

theorem test_decode_published_a_words : decodesAll 64 [
    (0x04400D04, .vadd 2 0 1 40 1), (0x54000001, .viota 0 0), (0x8C042D41, .ixadd 1 4 5 42 0), (0x98080D00, .mma 0 8 1 40),
    (0x9C034D41, .mmag 0 3 9 1 42), (0xA0C10528, .aext 6 1 41 2), (0xA4400000, .azero 2), (0xA8010000, .qpop 1),
    (0x586161A0, .vslup 3 1 12 13 0), (0x78240000, .vconf 1 4 0), (0x7C400803, .mlog .andn 2 0 1)] = true := by
  decide +kernel

theorem test_decode_literal : decodeTableWord 128 (0x8E140000 + 0x123456789ABCDEF0 * 2 ^ 64) =
    some (.li 5 0x123456789ABCDEF0) := by decide +kernel

/-- R81: reserved majors and function values, nonzero unused fields, m0 as a destination, an odd va, A > 60. -/
theorem test_decode_refuses : ([0xBC000000, 0x80000008, 0x83000012, 0x84000007, 0x8500000C, 0x8C0000C0,
    0x9D000000, 0x9D00001F, 0xA6000003, 0xA7000003, 0xB303D000, 0xB4000007, 0x80000010].map (decodeTableWord 32)).all
      (·.isNone) = true ∧
    ([0xAC000000, 0x40000000, 0x98090000, 0x78000000, 0x7C000000, 0x80000002].map fun a =>
      decodeTableWord 64 (a * 2 ^ 32)).all (·.isNone) = true := by
  decide +kernel

theorem test_decode_vnop : (match Decode.aWord 0 with | .ok i => i == .vnop | .error _ => false) = true := by
  decide +kernel

/-! ### Small states -/

/-- The furrow of tiller 0 in supervisor mode, about to execute a slot; the first 512 MiB map to themselves. -/
def at0 (slot : Word) : State := State.reset.place slot 0

/-- The same, about to execute NOP. -/
def base : State := at0 0x80000000

/-- The furrow with a field changed. -/
def onHart (s : State) (f : Hart → Hart) : State := { s with hart := f s.hart }

/-- Member 0 with a field changed. -/
def onMember (s : State) (f : Member → Member) : State := onHart s fun h => h.modMember 0 f

/-- Member 0 with scalar registers. -/
def regs (s : State) (l : SMap Word) : State := onMember s fun m => { m with regs := l }

/-- The furrow with one more member, on tiller 1. -/
def two (s : State) : State := onHart s fun h => { h with members := h.members ++ [Member.fresh 1], shares := [0, 0] }

/-- 32-bit elements of a vector register as its bytes. -/
def elems (n : Nat) (l : List Nat) : SMap Byte := mapPos (fun p b => (n * 2048 + p, b)) (l.flatMap (bytesOf 4))

/-- A furrow with two beds, VL = 8, VW = 32 and bytes in its registers. -/
def vecOf (s : State) (l : SMap Byte) : State :=
  onMember (onHart { s with tmapDef := 1 } fun h => { h with shares := [1], vl := 8, vw := 2, vmax := 1024 }) fun m =>
    { m with wmode := 0x44, vreg := l }

/-- The same, about to execute NOP. -/
def vec (l : SMap Byte) : State := vecOf base l

/-- No line can be cached: every pair is a bed. -/
def bedsOnly (s : State) : State := onMember s fun m => { m with wmode := 0x55 }

/-- The outcome is a next state that satisfies `p`. -/
def nextWith (r : Result) (p : State → Bool) : Bool := match r with | .next t => p t | _ => false

/-- The value is there and satisfies `p`. -/
def okWith {ε α : Type} (r : Except ε α) (p : α → Bool) : Bool := match r with | .ok x => p x | .error _ => false

/-- The check fails. -/
def fails {ε α : Type} (r : Except ε α) : Bool := match r with | .ok _ => false | .error _ => true

/-- The entry is there and satisfies `p`. -/
def someWith {α : Type} (o : Option α) (p : α → Bool) : Bool := match o with | some x => p x | none => false

/-- The value outstanding for member 0 after an instruction (R73). -/
def delivered (r : Result) : Option Word :=
  match r with
  | .next t => ((t.hart.member 0).pend.getLast?).map (·.2)
  | _ => none

/-! ### The spec's worked examples -/

/-- Chapter 04, integer arithmetic: −7 by 2, and 7 by 0. -/
theorem test_division_examples : [(Instr.div 5 1 2, -3), (.rem 5 1 2, -1), (.divn 5 3 0, 0xFFFFFFFFFFFFFFFF), (.remn 5 3 0, 7)].all
    (fun p => delivered (exec p.1 (regs base [(1, -7), (2, 2), (3, 7)])) == some (p.2 : Word)) = true := by decide +kernel

/-- Table 04.5: 2.5, −2.75, −3.0 and 16,777,217. -/
theorem test_fcvt_examples : [(Instr.fcvt .f2i 5 1, 2), (.fcvt .f2it 5 2, -2), (.fcvt .f2n 5 3, 0), (.fcvt .i2f 5 4, 0x4B800000)].all
    (fun p => delivered (exec p.1 (regs base [(1, 0x40200000), (2, 0xC0300000), (3, 0xC0400000), (4, 16777217)])) ==
      some (p.2 : Word)) = true := by decide +kernel

/-- R178 to R180: the eight elements 3, 5, 3, 3, 7, 5, 2, 3 under VCONF, MLOG.andn and MCNT.pop. -/
theorem test_conflict_example :
    nextWith (exec (.vconf 1 4 0) (vec (elems 4 [3, 5, 3, 3, 7, 5, 2, 3]))) (fun t =>
      (List.range 8).map (t.hart.melem 1) == [false, false, true, true, false, true, false, true] &&
      nextWith (exec (.mlog .andn 2 0 1) t) fun u =>
        (List.range 8).map (u.hart.melem 2) == [true, true, false, false, true, false, true, false] &&
        delivered (exec (.mcntPop 20 2) u) == some 4) = true := by decide +kernel

/-- Table 11.7: the five orders of a 3 × 3 nest. -/
theorem test_enumeration_orders : (numsFrom 0 5).map (fun o => (numsFrom 0 9).map fun u => (indices o 3 3 1 1 u).take 2) =
    [[[0, 0], [0, 1], [0, 2], [1, 0], [1, 1], [1, 2], [2, 0], [2, 1], [2, 2]],
     [[0, 0], [1, 0], [2, 0], [0, 1], [1, 1], [2, 1], [0, 2], [1, 2], [2, 2]],
     [[0, 0], [0, 1], [1, 0], [0, 2], [1, 1], [2, 0], [1, 2], [2, 1], [2, 2]],
     [[0, 0], [0, 1], [0, 2], [1, 2], [1, 1], [1, 0], [2, 0], [2, 1], [2, 2]],
     [[0, 0], [0, 1], [1, 0], [1, 1], [0, 2], [1, 2], [2, 0], [2, 1], [2, 2]]] := by decide +kernel

/-- Chapter 09: WMODE 0x44 leaves pairs 0 and 2 as cache, in ways 0, 2, 4 and 6. -/
theorem test_capacity_example : cacheWays { base with tmapDef := 1 } { Member.fresh 0 with wmode := 0x44 } = [0, 2, 4, 6] ∧
    ({ Member.fresh 0 with wmode := 0x44 } : Member).beds = 2 := by decide +kernel

/-- R95 and R96: SLTI compares signed, SLTIN with the immediate sign-extended; LI takes a whole doubleword. -/
theorem test_immediates : nextWith (exec (.slti 5 1 0xFFF) (regs base [(1, -2)])) (fun t => t.reg 0 5 == 1) &&
    nextWith (exec (.sltin 5 1 0xFFF) (regs base [(1, 7)])) (fun t => t.reg 0 5 == 1) &&
    nextWith (exec (.addi 5 0 0x800) base) (fun t => t.reg 0 5 == -2048) = true := by decide +kernel

/-- R19: s0 discards a write. -/
theorem test_s0_discards : nextWith (exec (.li 0 7) base) (fun t => t.reg 0 0 == 0) = true := by decide +kernel

/-- R6, R100: a word is little-endian, and LDB sign-extends. -/
theorem test_load_bytes :
    let s := bedsOnly { base with mem := putWords base.mem 0x1000 [0xFFEEDDCCBBAA9988] }
    [(Instr.ldw .norm 5 1 1, 0xFFFFFFFFFFEEDDCC), (.ldwn .norm 5 1 0, 0xBBAA9988), (.ldb .norm 5 1 2, 0xFFFFFFFFFFFFFFAA),
      (.ldhn .norm 5 1 3, 0xFFEE)].all (fun p => delivered (exec p.1 (regs s [(1, 0x1000)])) == some (p.2 : Word)) = true := by
  decide +kernel

/-- R38, Table 12.2: a system call in user mode enters the handler with cause 0x14 after its bundle. -/
theorem test_trap_entry :
    let s := onHart (at0 0x80000A51) fun h => { h with status := 2 }
    nextWith (step s) (fun t => nextWith (step { t with agenda := [.bundle] }) fun u =>
      u.hart.pc == 0x40008 && u.hart.tcause == 0x14 && u.hart.tval == 0xA5 && u.hart.tpc == 0x30088 &&
        u.hart.status == 5) = true := by decide +kernel

/-! ### Witnesses: each list holds, clause by clause, the hypotheses of a statement at a concrete state -/

theorem witness_O3_StepKeepsMemoryCanonical : MemoryCanonical State.reset ∧ MemoryCanonical base :=
  ⟨⟨by decide +kernel, fun _ h => nomatch h⟩, by decide +kernel, fun _ h => nomatch h⟩

theorem witness_O4_MemoryWriteThenRead : Memory.wf [(5, 1)] = true ∧ Memory.wf [] = true := by decide +kernel

/-- The current agent is at a bundle, as `AtBundle` says, and `p` holds of it. -/
def atBundle (s : State) (p : Fetch → Bundle → Bool) : Bool :=
  okWith s.fetchBundle fun f => okWith (Decode.slot f.slot f.lit) fun b =>
    decide (s.err = 0 ∧ s.hart.id ≠ 0 ∧ s.hart.run = .running ∧ s.hart.moving = false ∧ s.hart.chunk.conflict = false ∧
      s.hart.parts = none ∧ s.hart.after = none ∧ f.st.hart.chunk.conflict = false) && p f b

/-- The conditions of `Executes`, `CancelDue`, `TimerDue` and `PreemptionDue`. -/
def executes (s : State) (b : Bundle) : Bool :=
  decide ((s.hart.root = none → isBank b.c = false) ∧ (s.hart.root ≠ none → rootBundle b = true))
def settled (s : State) : Bool := decide (s.hart.owed = [] ∧ s.hart.parts = none)
def cancelDue (s : State) : Bool := settled s && decide (s.hart.cancel = true ∧ s.hart.ie = true)
def timerDue (s : State) : Bool := settled s && decide (s.hart.tmr ≠ 0 ∧ s.hart.ie = true ∧ s.hart.tmr.toNat ≤ s.cyc.toNat)
def preemptionDue (s : State) (b : Bundle) : Bool :=
  settled s && decide (s.hart.preemptable = true ∧ ((s.hart.enabled = true ∧ isSetvl b.c = false) ∨ s.hart.waitsParked = true))

/-- The state in which a step acts on the bundle that the agenda names. -/
def stepping1 (s : State) : State := { s.advance with agenda := [] }

/-- No member's access of the bundle can be made apart, whatever the module picks. -/
def together (f : Fetch) (b : Bundle) : Bool :=
  match scalarWord b.c with
  | none => true
  | some w => decide (f.st.hart.len < 2) || (w.start (f.st.begin f.hdr f.slot)).isNone

theorem together_begins (s : State) (f : Fetch) (b : Bundle) (hs : s.hart.len = f.st.hart.len) (h : together f b = true) :
    s.beginApart exec f b = none := by
  unfold together at h
  unfold State.beginApart
  cases hw : scalarWord b.c with
  | none => rfl
  | some w =>
    rw [hw] at h
    dsimp only at h ⊢
    rcases Bool.or_eq_true_iff.1 h with h | h
    · simp [hs, of_decide_eq_true h]
    · rw [Option.isNone_iff_eq_none.1 h]
      split <;> rfl

/-- The words of a bundle may execute: nothing comes before them. -/
def ready (s : State) (p : Fetch → Bundle → Bool) : Bool :=
  atBundle (stepping1 s) fun f b => executes f.st b && !cancelDue f.st && decide (f.st.hart.tmr = 0) && !preemptionDue f.st b &&
    !f.st.mustEnd b && p f b

/-- The words of a bundle are reached, and its C word answers a next state that `p` accepts. -/
def reaches (s : State) (p : Fetch → Bundle → State → Bool) : Bool :=
  ready s fun f b => together f b && (stepping1 s).calm && (bothWrite b).isNone &&
    nextWith (exec b.c ((f.st.openChunk b).begin f.hdr f.slot)) fun t => p f b t

/-- A root core about to execute a slot. -/
def rootAt (slot : Word) : State :=
  let s := State.reset.place 0xB9014008 0
  { s with mem := putWords s.mem 0xE00000000 [placedHeader false, slot, 0] }

/-- The furrow with a value owed to a RECVW (log 8). -/
def owing (s : State) : State := onHart s fun h => { h with owed := [(0, 1)] }

/-- The furrow with one more member, whose s9 holds an address that no page maps. -/
def badSecond (s : State) : State := onHart (regs (two s) [(9, 0x40000)]) fun h =>
  h.modMember 1 fun m => { m with regs := [(9, 0x7000000000)] }

/-- The thread whose last trap was raised on its root core (Table 12.3). -/
def moved (s : State) : State := onHart s fun h => { h with origin := 0xC000000000000000 }

/-- A bundle whose A word is MMAG, while the range scoreboard is full. -/
def fullMmag (c : Word) : State :=
  let s := regs (vecOf (at0 (0x9C034D4100000000 + c)) (elems 3 (List.replicate 16 1))) [(9, 0x40000), (42, 0x8000000044)]
  { s with ops := List.replicate 16 {
    id := 9, kind := .copy, chset := 0, chan := 0, ident := 1, launch := none, tile := 0, die := 0, ctx := 0, pt0 := 0, pt1 := 0
    priv := true, args := [], todo := [], prog := 0, path := 0, pattern := none, ended := none, cancelled := false
    entry := true, rlo := 0, rhi := 0, wlo := 0, whi := 0 } }

/-- The trap that an outcome raised. -/
def trapOf (r : Result) : Option TrapInfo :=
  match r with
  | .next t => match t.signal with | .trapped i => some i | _ => none
  | _ => none

theorem witness_O5_StepRunsDecodedBundle : [
    reaches base (fun f b t => t.signal == .done && t.hart.id == f.st.hart.id && b.a == .vnop),
    reaches (at0 0x5400000100000000) (fun f b t => t.signal == .done && t.hart.id == f.st.hart.id && b.a != .vnop &&
      nextWith (exec b.a t) fun u => u.signal == .done),
    reaches (at0 0xA801000000000000) (fun f b t => t.signal == .done && t.hart.id == f.st.hart.id && b.a != .vnop &&
      someWith (trapOf (exec b.a t)) fun i => !stands b.c i),
    reaches (at0 0xA80100002530C002) (fun f b t => t.signal == .done && t.hart.id == f.st.hart.id && b.a != .vnop &&
      someWith (trapOf (exec b.a t)) fun i => stands b.c i),
    reaches (fullMmag 0) (fun f b t => t.signal == .done && t.hart.id == f.st.hart.id && b.a != .vnop &&
      nextWith (exec b.a t) fun u => u.signal == .stalled)].all id = true := by decide +kernel

theorem witness_O5_moves : [
    reaches (rootAt 0x80000004) (fun f b t => t.signal == .done && t.hart.id != f.st.hart.id && b.a == .vnop),
    reaches (moved (at0 0x5400000100000002)) (fun f b t => t.signal == .done && t.hart.id != f.st.hart.id && b.a != .vnop &&
      nextWith (exec b.a ((f.st.openChunk b).begin f.hdr f.slot)) fun u => u.signal == .done && nextWith (exec b.c u) fun _ => true),
    reaches (moved (at0 0xA801000000000002)) (fun f b t => t.signal == .done && t.hart.id != f.st.hart.id && b.a != .vnop &&
      (trapOf (exec b.a ((f.st.openChunk b).begin f.hdr f.slot))).isSome),
    reaches (moved (fullMmag 2)) (fun f b t => t.signal == .done && t.hart.id != f.st.hart.id && b.a != .vnop &&
      nextWith (exec b.a ((f.st.openChunk b).begin f.hdr f.slot)) fun u => u.signal == .stalled)].all id = true := by
  decide +kernel

theorem witness_O5_traps : [
    reaches (at0 0xA4009000) (fun _ b t => b.a == .vnop && match t.signal with | .trapped i => i.member == 0 | _ => false),
    reaches (badSecond (at0 0xA801000016149000)) (fun f b t => b.a != .vnop &&
      (match t.signal with | .trapped i => decide (0 < i.member) | _ => false) &&
      someWith (trapOf (exec b.a ((f.st.openChunk b).begin f.hdr f.slot))) fun j => j.member == 0),
    reaches (badSecond (at0 0x5400000116149000)) (fun f b t => b.a != .vnop &&
      (match t.signal with | .trapped i => decide (0 < i.member) | _ => false) &&
      nextWith (exec b.a ((f.st.openChunk b).begin f.hdr f.slot)) fun u => u.signal == .done),
    reaches (at0 0xA4009001) (fun _ b t => b.a == .vnop && match t.signal with | .trapped i => i.cause == 1 | _ => false),
    reaches (owing (at0 0x80000004)) (fun _ _ t => t.signal == .undone),
    reaches (owing (at0 0xA801000000000000)) (fun f b t => t.signal == .done && t.hart.id == f.st.hart.id && b.a != .vnop &&
      nextWith (exec b.a t) fun u => u.signal == .undone),
    someWith (({ base with others := [{ id := 5 }] } : State).switchTo 5) fun _ => true].all id = true := by decide +kernel

theorem okWith_elim {ε α : Type} {r : Except ε α} {p : α → Bool} (h : okWith r p = true) : ∃ x, r = .ok x ∧ p x = true := by
  cases r with
  | ok x => exact ⟨x, rfl, h⟩
  | error _ => cases h

theorem someWith_elim {α : Type} {o : Option α} {p : α → Bool} (h : someWith o p = true) : ∃ x, o = some x ∧ p x = true := by
  cases o with
  | some x => exact ⟨x, rfl, h⟩
  | none => cases h

/-- The members' accesses of a bundle can be made apart, where the module picks so. -/
def mayBeApart (s : State) (f : Fetch) (b : Bundle) : Bool :=
  b.a == .vnop && !(s.hart.len < 2 || !s.hart.owed.isEmpty || s.chunkOpen) &&
    someWith (scalarWord b.c) fun w => someWith (w.start (f.st.begin f.hdr f.slot)) fun p => !p.2.chunkOpen

theorem begins_apart (s : State) (f : Fetch) (b : Bundle) (h : mayBeApart s f b = true) (pick : s.pick [281] 2 ≠ 0) :
    ∃ t, s.beginApart exec f b = some t := by
  simp only [mayBeApart, Bool.and_eq_true, beq_iff_eq, Bool.not_eq_true'] at h
  obtain ⟨⟨ha, hs⟩, h⟩ := h
  obtain ⟨w, hw, h⟩ := someWith_elim h
  obtain ⟨⟨as, t⟩, ht, h⟩ := someWith_elim h
  have c : t.chunkOpen = false := by simpa using h
  have e : endsChunk .vnop = false := rfl
  have i : irrevocable .vnop = false := rfl
  have n : exec .vnop t = .next { t with signal := .done } := rfl
  have o : ({ t with signal := .done } : State).chunkOpen = t.chunkOpen := rfl
  unfold State.beginApart
  simpa [hw, ha, ht, e, i, pick, n, o, c] using hs

/-- Where the module picks so, a load of two members begins with both accesses still to be made (log 93). -/
theorem witness_O5_apart (pick : Config.choose 1 [281] % 2 ≠ 0) :
    ∃ f b t, (stepping1 (two (at0 0x96140000))).fetchBundle = .ok f ∧ Decode.slot f.slot f.lit = .ok b ∧
      f.st.beginApart exec f b = some t := by
  have h : ready (two (at0 0x96140000)) (fun f b => f.st.tick == 1 && mayBeApart f.st f b) = true := by decide +kernel
  unfold ready atBundle at h
  obtain ⟨f, hf, h⟩ := okWith_elim h
  obtain ⟨b, hb, h⟩ := okWith_elim h
  simp only [Bool.and_eq_true, beq_iff_eq] at h
  obtain ⟨t, ht⟩ := begins_apart f.st f b h.2.2.2 (by simpa [State.pick, h.2.2.1] using pick)
  exact ⟨f, b, t, hf, hb, ht⟩

theorem witness_O6_BundleCompletionAdvances :
    (slotIx 0x30008 + 1 ≤ hdrLast 0x80000003 ∧ hdrStart 0x80000003 (slotIx 0x30008 + 1) = true) ∧
    (slotIx 0x30070 + 1 ≤ hdrLast 0x3C0006001 ∧ hdrStart 0x3C0006001 (slotIx 0x30070 + 1) = true) ∧
    (slotIx 0x30008 + 2 ≤ hdrLast 0xC0000005 ∧ hdrStart 0xC0000005 (slotIx 0x30008 + 1) = false) ∧
    hdrLast 0x40008001 ≤ slotIx 0x30008 ∧ hdrLast 0x3C0004001 ≤ slotIx 0x30078 ∧
    hdrLast 0x80008001 = slotIx 0x30008 + 1 ∧ hdrStart 0x80008001 (slotIx 0x30008 + 1) = false := by decide +kernel

theorem witness_O7_DecodedIsWellFormed : okWith (Decode.slot 0x04400D0403149480 0) (fun _ => true) = true := by
  decide +kernel

theorem witness_O9_O10_EncodedWordsDecode :
    ((Instr.add 63 0 63).wf = true ∧ (Encode.cWord (.add 63 0 63)).isSome = true ∧ (Encode.cWord (.br .ge 1 2 0x20 15)).isSome = true) ∧
    (Instr.mma 3 30 1 63).wf = true ∧ (Encode.aWord (.mma 3 30 1 63)).isSome = true := by decide +kernel

theorem witness_O11_ReservedSlotsTrap : [
    (let u : State := stepping1 (at0 0xBC000000)
     decide (u.err = 0 ∧ u.hart.id ≠ 0 ∧ u.hart.run = .running ∧ u.hart.moving = false ∧ u.hart.chunk.conflict = false ∧
       u.hart.parts = none ∧ u.hart.after = none) && okWith u.fetchBundle fun f => fails (Decode.slot f.slot f.lit) &&
         !f.st.hart.chunk.conflict),
    decide (0x3C ≤ BitVec.toNat (0x3C : BitVec 6) ∧ 0x3C ≤ BitVec.toNat (0x3F : BitVec 6)),
    decide (0x2B ≤ (0xAC000000 : BitVec 32).toNat / 2 ^ 26 ∧ 0x2B ≤ (0xFFFFFFFF : BitVec 32).toNat / 2 ^ 26),
    decide ((0x180000000 : Word).getLsbD 31 = true ∧ (0x180000000 : Word).toNat / 2 ^ 32 ≠ 0),
    okWith (Decode.slot 0xB8004001 0) (fun b => b.c == .rgo 4),
    decide ((0x40000000 : BitVec 32).toNat / 2 ^ 26 ∈ [0x10, 0x1E, 0x1F] ∧ (0x40000000 : BitVec 32).toNat / 2 ^ 21 % 32 = 0)
    ].all id = true := by decide +kernel

theorem witness_O12_TrapEntrySavesAndEnters : (owing base).hart.owed ≠ [] ∧ [base, moved base].all (fun s =>
    let i : TrapInfo := { cause := 1, val := 7 }
    let q := s.quiesce.breakLinks
    s.hart.owed.isEmpty && q.hart.root.isNone && !stopsJob q.hart i &&
      okWith (fetchLine (q.modHart fun h => h.enters i) (lineOf q.hart.vec + 8)) fun p => headerOk (slotsOf p.2)) = true := by
  decide +kernel

/-- The furrow with a field of its control registers changed. -/
def user (s : State) : State := onHart s fun h => { h with status := 2 }

theorem witness_O13_TrapReturnRestores :
    let back (u : State) : State := u.modHart fun h => { h with status := statusReturn h.status }
    let at' (pc : Word) : State := onHart base fun h => { h with tpc := pc }
    let line (s : State) (p : List Byte → Bool) : Bool := decide (s.hart.priv = true ∧ bit s.hart.origin 62 = false) &&
      okWith (fetchLine (back s.commitChunk) s.hart.tpc) fun x => p x.2
    (user base).hart.priv = false ∧ line (at' 0x30008) (fun l => entryOk (slotsOf l) (slotIx 0x30008) false) = true ∧
    line (at' 0x30010) (fun l => !entryOk (slotsOf l) (slotIx 0x30010) false) = true ∧
    ((at' 0x7000000008).hart.priv = true ∧ fails (fetchLine (back (at' 0x7000000008).commitChunk) 0x7000000008) = true) ∧
    ((moved base).hart.priv = true ∧ bit (moved base).hart.origin 62 = true) := by decide +kernel

theorem witness_O14_TrapWordsFollowTheirBundle :
    let s := onHart base fun h => { h with after := some { cause := 0x14 } }
    s.agenda = [.bundle] ∧ s.err = 0 ∧ s.hart.id ≠ 0 ∧ s.hart.run = .running ∧ s.hart.moving = false ∧
      s.hart.chunk.conflict = false ∧ s.hart.parts = none ∧ s.hart.after = some { cause := 0x14 } := by decide +kernel

/-- A furrow in user mode with traps enabled, whose timer and cancel may be due. -/
def asynchronous (tmr : Word) (c : Bool) (slot : Word) : State :=
  { onHart (user (at0 slot)) fun h => { h with tmr := tmr, cancel := c } with cyc := 9 }

theorem witness_O15_AsynchronousTraps : [
    atBundle (asynchronous 9 true 0x80000000) (fun _ b => executes (asynchronous 9 true 0x80000000) b &&
      cancelDue (asynchronous 9 true 0x80000000)),
    atBundle (asynchronous 9 false 0x80000000) (fun _ b => executes (asynchronous 9 false 0x80000000) b &&
      timerDue (asynchronous 9 false 0x80000000) && !cancelDue (asynchronous 9 false 0x80000000)),
    !cancelDue base && !timerDue base && !timerDue (asynchronous 10 false 0),
    atBundle (stepping1 (asynchronous 9 true 0x80000000)) (fun f b => executes f.st b && cancelDue f.st),
    atBundle (stepping1 { asynchronous 1 false 0x80000000 with agenda := [.bundle] }) (fun f b => executes f.st b &&
      decide (f.st.hart.tmr ≠ 0) && f.st.hart.ie && !cancelDue f.st)].all id = true := by decide +kernel

theorem witness_O15_no_trap_here :
    (onHart base fun h => { h with after := some { cause := 0x14 } }).hart.after ≠ none ∧ State.reset.hart.id = 0 ∧
    (onHart base fun h => { h with run := .ending }).hart.run ≠ .running ∧ (onHart base fun h => { h with moving := true }).hart.moving = true ∧
    fails (onHart base fun h => { h with pc := 0x7000000008 }).fetchBundle = true ∧
    okWith (at0 0xBC000000).fetchBundle (fun f => fails (Decode.slot f.slot f.lit)) = true ∧
    okWith (rootAt 0x5400000100000000).fetchBundle (fun f => okWith (Decode.slot f.slot f.lit) fun b =>
      !executes (rootAt 0x5400000100000000) b) = true := by
  decide +kernel

theorem witness_O16_UserModeIsProtected :
    let s := user base
    s.hart.priv = false ∧ s.hart.root = none ∧ (s.sysExists 0x001 = true ∧ userReads 0x001 = false) ∧
    (s.sysExists 0x000 = true ∧ userWrites 0x000 = false) := by decide +kernel

theorem witness_O17_WordsWithoutEffect : rising ({ base with ckpts := [(1, base.hart)] } : State).ckpts = true := by
  decide +kernel

/-- R50, R51: a value in range, one that overflows, one beyond the largest that does not, and a zero. -/
theorem witness_O23_FloatResults :
    let top (f : Fmt) : ℚ := f.maxFinite
    (Fmt.f32.isInt = false ∧ Fmt.e4m3.isInt = false ∧ Fmt.i8.isInt = true ∧ (3 : Nat) < 4 ∧ (0 : Nat) < 1) ∧
    top .e4m3 + Fmt.e4m3.halfUlp ≤ |(464 : ℚ)| ∧ (-500 : ℚ) < -top .e4m3 ∧ top .e4m3 < (500 : ℚ) ∧
    (¬ top .e4m3 + Fmt.e4m3.halfUlp ≤ |(463 : ℚ)| ∧ top .e4m3 < |(463 : ℚ)|) ∧ |(448 : ℚ)| ≤ top .e4m3 := by
  decide +kernel

theorem witness_O26_AsynchronousResultArrives :
    let s := onMember base fun m => { m with pend := [(5, 7)] }
    (s.hart.member 0).pend[0]? = some (5, 7) ∧ (s.hart.member 0).pend[1]? = none := by decide +kernel

/-- An engine operation on tiller 0. -/
def op (k : EngKind) (id : Nat) (args : List Word) : EngOp := {
  id := id, kind := k, chset := 0, chan := 0, ident := 1, launch := none, tile := 0, die := 0, ctx := 0, pt0 := 0x10001, pt1 := 0
  priv := true, args := args, todo := [], prog := 0, path := 0, pattern := none, ended := none, cancelled := false
  entry := false, rlo := 0, rhi := 0, wlo := 0, whi := 0 }

theorem witness_O27_EndStopsTheUnit :
    (base.hart.root = none ∧ base.hart.owed = []) ∧ ((owing base).hart.root = none ∧ (owing base).hart.owed ≠ []) ∧
    (let s := { rootAt 0x80000004 with roots := [(0, { rstart := some 7 })], ops := [op .rstart 7 []] }
     s.hart.root = some 0 ∧ (s.rootOf 0).flaga = 0 ∧ (s.rootOf 0).rstart = some 7 ∧ ∃ o ∈ s.ops, o.id = 7) := by
  decide +kernel

theorem witness_O28_WaitaReadsAndParks :
    let s := regs base [(1, 0x40000), (2, 0x40008001), (4, 0x7000000000)]
    let held := { s with ops := [{ op .copy 7 [] with entry := true, wlo := 0x40000, whi := 0x40007 }] }
    fails (s.checkWaita (s.reg0 4)) = true ∧
    okWith (held.checkWaita (held.reg0 1)) (fun acc => held.engineHolds [acc] 8 false) = true ∧
    okWith (s.checkWaita (s.reg0 1)) (fun acc =>
      let q := (s.commitChunk.joinScalar [acc] 8 false).use 0 acc.x false
      !s.engineHolds [acc] 8 false && q.peekWord acc.x.pa == s.reg0 2 && q.peekWord acc.x.pa != s.reg0 3 && q.hart.park.isNone)
      = true := by decide +kernel

/-- A line of the page scope `coh`, dirty in its lower sector. -/
def line (pa coh : Nat) : CLine := ⟨pa, 0, coh, true, false, true, false, false, []⟩

theorem witness_O29_FenceOrdersMemory :
    let s := onMember base fun m => { m with lines := [line 0x1000 0, line 0x2000 2] }
    nextWith (exec (.fence .rel .die) s) (fun t => t.allMembers.any fun m => m.lines.any fun l =>
      decide (l.coh < 3) && t.hart.members.any fun u => sameInstance l.coh u.tile m.tile) = true := by decide +kernel

theorem witness_O30_SystemRegisterReads :
    (base.sysExists 0x060 = true ∧ base.hart.priv = true) ∧ ((user base).sysExists 0x0A2 = true ∧ userReads 0x0A2 = true) ∧
    base.sysExists 0xFFF = false ∧ base.sysExists 0x090 = false ∧ base.hart.root = none ∧ (rootAt 0).hart.root = some 0 := by
  decide +kernel

theorem witness_O31_SystemRegisterWrites :
    let s := onMember base fun m => { m with ix := [{ drop := true }] }
    ((Instr.mts 0x001 1).wf = true ∧ base.sysExists 0x001 = true ∧ base.hart.priv = true) ∧
    ((Instr.mts 0x0A3 1).wf = true ∧ (user base).sysExists 0x0A3 = true ∧ userWrites 0x0A3 = true) ∧
    base.sysExists 0xFFF = false ∧ base.hart.root = none ∧ (rootAt 0).hart.root = some 0 ∧ (0x010 : Nat) ≠ 0x017 ∧ (s.hart.member 0).ix[0]? = some { drop := true } ∧
    (Member.fresh 0) ∈ base.hart.members := by decide +kernel

theorem witness_O32_TranslationsInvalidated :
    base.hart.root = none ∧ base.hart.priv = true ∧ base.hart.len = 1 ∧ base.others = [] ∧ base.hart.chunk = {} ∧
    base.hart.vops = [] := by decide +kernel

/-- A frame at 0x100000 of one member in user mode, with channel set 0 and its eight identifiers. -/
def framed : State :=
  { regs base [(1, 0x100000), (2, 0x7000000000)] with
    mem := putWords (putWords base.mem 0x100000 [1]) 0x101200 (List.replicate 8 1)
    tmapDef := 1 }

theorem witness_O33_ContextSaveAndLoad :
    let n := 0x1000 + framed.hart.len * 0x29000
    let q := framed.commitChunk.drainVector.drainThresher
    (framed.hart.root = none ∧ framed.hart.priv = true) ∧
    okWith (framePages q 0 .write (n / 65536 + 2) (framed.reg0 1) 0 n) (fun _ => true) = true ∧
    fails (framePages q 0 .write (n / 65536 + 2) (framed.reg0 2) 0 n) = true ∧
    fails (framePages q 0 .read (n / 65536 + 2) (framed.reg0 2) 0 n) = true ∧
    okWith (framePages q 0 .read (n / 65536 + 2) (framed.reg0 1) 0 n) (fun l =>
      (loadFails q q.hart (l.map fun p => (p.1, p.2.pa))).isNone &&
      (loadFails { q with mem := [] } q.hart (l.map fun p => (p.1, p.2.pa))).isSome) = true := by decide +kernel

/-- A frame with words put in place. -/
def frameWith (l : List (Nat × Word)) : State :=
  { framed with mem := l.foldl (fun m p => putWords m (0x100000 + p.1) [p.2]) framed.mem }

/-- Tables 12.3 to 12.5: the frame has a reserved field. -/
def reservedFrame (w : Nat → Word) : Bool := @decide (FrameReserved w) (by unfold FrameReserved; infer_instance)

theorem reservedFrame_iff (w : Nat → Word) : reservedFrame w = true ↔ FrameReserved w := by simp [reservedFrame]

/-- The frame's pages can be read, and `p` holds of its words, its furrow and its channel sets. -/
def loads (s : State) (p : State → (Nat → Word) → Bool) : Bool :=
  let q := s.commitChunk.drainVector.drainThresher
  let va := s.reg0 1 &&& 0xFFFFFFFFFFFFF000
  okWith (framePages q 0 .read 2 va 0 0x1000) fun hd =>
    let n := 0x1000 + field (q.frameWord (hd.map fun p => (p.1, p.2.pa)) 0) 7 0 * 0x29000
    okWith (framePages q 0 .read (n / 65536 + 2) va 0 n) fun l => p q (q.frameWord (l.map fun p => (p.1, p.2.pa)))

/-- The conditions of R341 on a frame of one member, in their order: a reserved field, another LEN, no working pairs, too small a
capacity, a channel set that cannot be attached. -/
def frameFailures (q : State) (w : Nat → Word) : List Bool :=
  let set := field (w (blockAt 0 + 0x280)) 31 0
  [reservedFrame w, decide (field (w 0) 7 0 ≠ q.hart.len), q.tmapOf 0 != 1 && (q.tmapOf 0 != 2 || field (w 0) 23 16 != 0),
    bit (w 0) 13 && decide ((512 * bedsOf (field (w 0) 23 16) - 4 * (q.hart.member 0).groups.toNat) / 32 <
      field (w (blockAt 0 + 0x298)) 15 0),
    q.setHeld set [0] || (numsFrom 0 8).any fun c => (q.channel set c).txn != w (blockAt 0 + 0x200 + 8 * c)]

theorem witness_O33_reserved : loads (frameWith [(0, 0x101)]) (fun q w => (frameFailures q w).take 1 == [true]) &&
    loads (frameWith [(0, 2)]) (fun q w => (frameFailures q w).take 2 == [false, true]) = true := by decide +kernel

theorem witness_O33_pairs : loads { framed with tmapDef := 0 } (fun q w => (frameFailures q w).take 3 == [false, false, true]) &&
    loads (frameWith [(0, 0x2001), (0x1298, 1)]) (fun q w => (frameFailures q w).take 4 == [false, false, false, true]) = true := by
  decide +kernel

theorem witness_O33_sets : loads (frameWith [(0x1280, 5)]) (fun q w => frameFailures q w == [false, false, false, false, true]) =
    true := by decide +kernel

theorem witness_O33_passes : loads framed (fun q w => frameFailures q w == List.replicate 5 false) = true := by decide +kernel

theorem witness_O33_pages :
    let q := framed.commitChunk.drainVector.drainThresher
    fails (framePages q 0 .read 2 (framed.reg0 2 &&& 0xFFFFFFFFFFFFF000) 0 0x1000) = true ∧
    (let s := { frameWith [(0, 255)] with mem := putWords (frameWith [(0, 255)]).mem 0x20000 [0x70001] }
     let s := { s with mem := putWords (putWords s.mem 0x70000 [0x6F, 0x1006F, 0x2006F, 0x3006F, 0x4006F]) 0x70080 [0x10006F] }
     let q := s.commitChunk.drainVector.drainThresher
     okWith (framePages q 0 .read 2 0x100000 0 0x1000) (fun hd =>
       let n := 0x1000 + field (q.frameWord (hd.map fun p => (p.1, p.2.pa)) 0) 7 0 * 0x29000
       fails (framePages q 0 .read (n / 65536 + 2) 0x100000 0 n)) = true) := by decide +kernel

/-- The first 512 MiB as UC pages. -/
def uncached : State := { base with mem := putWords base.mem 0x20000 [0x216F] }

/-- The second 512 MiB as the module registers, on IO pages. -/
def mapped : State := { base with mem := putWords base.mem 0x20008 [0x800000000226F] }

/-- Memory is canonical. -/
def plainMemory (s : State) : Bool := Memory.wf s.mem

/-- ACC stands where the accesses would set it. -/
def accessed (mem : List Host.Cell) (as : List MAcc) : Bool := as.all fun c => c.x.marks.all fun q => (Memory.get mem q).getLsbD 5

theorem witness_O34_ScalarLoads :
    let f := fun (s : State) => okWith (checkAll (fun k => (s.checkAccess k .read 0x40000 4).map fun x => (⟨k, 0x40000, x⟩ : MAcc)) s.ids)
      fun as => !s.engineHolds as 4 false
    let g := fun (s : State) (ea : Word) (p : Xlat → Bool) => decide (s.hart.len = 1 ∧ s.hart.vops = [] ∧ Memory.wf s.mem = true) &&
      okWith (s.checkAccess 0 .read ea 4) fun x => !s.engineHolds [⟨0, ea, x⟩] 4 false && p x
    let several := fun (s : State) (p : MAcc → Bool) => decide (s.hart.vops = [] ∧ s.hart.len = 2) &&
      okWith (checkAll (fun k => (s.checkAccess k .read 0x40000 4).map fun x => (⟨k, 0x40000, x⟩ : MAcc)) s.ids) fun as =>
        !s.engineHolds as 4 false && decide (as.length = 2) && accessed s.mem as && accessed s.commitChunk.mem as && as.all p
    several (two base) (fun c => c.x.wb && !(two base).hart.chunk.meets c.i (sectorOf c.x.pa) false) &&
      several (two uncached) (fun c => !c.x.wb && !inRegs c.x.pa) &&
      f (two base) && g base 0x40000 (fun x => x.wb && !(base.use 0 x false).hart.chunk.meets 0 (sectorOf x.pa) false) &&
      g uncached 0x40000 (fun x => !x.wb && !inRegs x.pa) && g mapped 0x20000400 (fun x => !x.wb && inRegs x.pa) = true := by
  decide +kernel

theorem witness_O35_ScalarAccessTraps :
    (two base).hart.len = 2 ∧ okWith ((two base).checkAccess 0 .read 0x40000 4) (fun _ => true) = true ∧
    fails ((two base).checkAccess 1 .read 0x40001 4) = true ∧
    okWith ((two base).checkStore 4 (fun j => if j = 0 then 0x40000 else 0x40002) 0) (fun _ => true) = true ∧
    fails ((two base).checkStore 4 (fun j => if j = 0 then 0x40000 else 0x40002) 1) = true ∧
    (0x100000000000000 : Word).toNat / 2 ^ 56 ≠ 0 ∧ (0x40001 : Word).toNat / 2 ^ 56 = 0 ∧ (0x40001 : Word).toNat % 4 ≠ 0 ∧
    (0x7000000000 : Word).toNat % 4 = 0 ∧ fails (base.xlat 0 .read 0x7000000000) = true := by decide +kernel

/-- The words that a walk from the first root reads. -/
def walkWords (s : State) (va : Word) : Word × Word × Word × Nat :=
  let node (e : Word) := field e 51 16 * 65536
  let e2 := s.peekWord (0x10000 + 8 * field va 54 42)
  let e1 := s.peekWord (node e2 + 8 * field va 41 29)
  let a0 := node e1 + 8 * field va 28 16
  (e2, e1, s.peekWord a0, a0)

/-- The page tables with one more entry. -/
def entry (a : Nat) (e : Word) : State := { base with mem := putWords base.mem a [e] }

/-- A valid pointer, and a valid leaf. -/
def pointer (e : Word) : Bool := decide (bit e 0 = true ∧ field e 15 1 = 0 ∧ field e 63 52 = 0)
def leaf (e : Word) : Bool :=
  decide (bit e 0 = true ∧ field e 3 1 ≠ 0 ∧ field e 63 52 = 0 ∧ field e 10 8 ≤ 3 ∧ field e 13 11 ≤ 5)

theorem witness_O35_walks :
    let far : Word := 0xFFFFFFFFF0001
    let node (e : Word) : Nat := field e 51 16 * 65536
    (field (0x100000000000000 : Word) 63 0 / 2 ^ 56 ≠ 0 ∧ bit (0 : Word) 0 = false ∧ (bit far 0 = true ∧ inHbm (node far) = false) ∧
      (bit (0x10001 : Word) 0 = true ∧ inHbm (node 0x10001) = true)) ∧
    (let w := walkWords base 0x40000000000
     bit w.1 0 = false) ∧
    (let w := walkWords (entry 0x10008 0x216F) 0x40000000000
     bit w.1 0 = true ∧ field w.1 3 1 ≠ 0) ∧
    (let w := walkWords (entry 0x10008 far) 0x40000000000
     pointer w.1 = true ∧ inHbm (node w.1) = false) ∧
    (let w := walkWords base 0x7000000000
     pointer w.1 = true ∧ inHbm (node w.1) = true ∧ bit w.2.1 0 = false) ∧
    (let w := walkWords (entry 0x20010 0x1016F) 0x40000000
     leaf w.2.1 = true ∧ field w.2.1 51 16 % 8192 ≠ 0) ∧
    (let w := walkWords base 0x40000
     leaf w.2.1 = true ∧ field w.2.1 51 16 % 8192 = 0) ∧
    (let w := walkWords (entry 0x20010 far) 0x40000000
     pointer w.2.1 = true ∧ inHbm (node w.2.1) = false) := by decide +kernel

theorem witness_O35_small_pages :
    let s := { entry 0x20010 0x70001 with mem := putWords (entry 0x20010 0x70001).mem 0x70008 [0x4006F] }
    let apart (a0 : Nat) : Bool := (List.range 32).all fun j =>
      !bit (s.peekWord (a0 / 256 * 256 + 8 * j)) 0 || !bit (s.peekWord (a0 / 256 * 256 + 8 * j)) 7
    (let w := walkWords s 0x40000000
     pointer w.2.1 && inHbm (field w.2.1 51 16 * 65536) && apart w.2.2.2 && !bit w.2.2.1 0) &&
    (let w := walkWords s 0x40010000
     pointer w.2.1 && inHbm (field w.2.1 51 16 * 65536) && apart w.2.2.2 && leaf w.2.2.1) = true := by decide +kernel

/-- The leaf of the first 512 MiB permits a supervisor's access, not a user's where PRIV stands; host memory is reserved without IDE. -/
theorem witness_O35_leaf_decides : bit (0x216F : Word) 1 = true ∧ bit (0x217F : Word) 4 = true ∧ bit (0x216B : Word) 2 = false ∧
    base.reserved 0x40000 = false ∧ base.reserved Config.hostBase = true ∧ base.keyAccepts 0 0x40000 true = true ∧
    ({ base with ide := true } : State).reserved Config.hostBase = false ∧ base.keyAccepts 0 Config.hostBase true = false := by decide +kernel

/-- A walk through a pseudo-channel that is mapped out. -/
theorem witness_O35_mapped_out :
    let s := { base with pcmap := [(ownerPc 0 0x10000).getD 0] }
    bit s.hart.ptroot0 0 = true ∧ inHbm 0x10000 = true ∧ s.reserved 0x10000 = true := by decide +kernel

theorem witness_O36_ScalarStores :
    let g := fun (s : State) (ea : Word) (p : Xlat → Bool) => decide (s.hart.len = 1 ∧ s.hart.vops = [] ∧ (s.hart.member 0).tq = [] ∧
      Memory.wf s.mem = true) && okWith (s.checkStore 8 (fun _ => ea) 0) fun m => !s.engineHolds [⟨0, ea, m.x⟩] 8 true && p m.x
    let several := fun (s : State) (p : MAcc → Bool) => decide (s.hart.vops = [] ∧ s.hart.len = 2 ∧ ∀ m ∈ s.hart.members, m.tq = []) &&
      plainMemory s && okWith (checkAll (s.checkStore 8 fun j => if j = 0 then 0x40000 else 0x40040) s.ids) fun as =>
        !s.engineHolds as 8 true && decide (as.length = 2 ∧ (as.map fun c => sectorOf c.x.pa).Nodup) &&
          accessed s.mem as && accessed s.commitChunk.mem as && as.all fun c => Pte.dirty c.x.pte && p c &&
            c.x.marks.all fun q => as.all fun e => decide (q < e.x.pa ∨ e.x.pa + 8 ≤ q)
    several (two base) (fun c => c.x.wb && !(two base).hart.chunk.meets c.i (sectorOf c.x.pa) true) &&
      several (two uncached) (fun c => !c.x.wb && !inRegs c.x.pa) &&
    okWith (checkAll ((two base).checkStore 8 fun _ => 0x40000) (two base).ids) (fun as => !(two base).engineHolds as 8 true) &&
      g base 0x40000 (fun x => x.wb && !(base.use 0 x true).hart.chunk.meets 0 (sectorOf x.pa) true) &&
      g { base with mem := putWords base.mem 0x20000 [0x202F] } 0x40000 (fun x => x.wb && !Pte.dirty x.pte) &&
      g uncached 0x40000 (fun x => !x.wb && !inRegs x.pa) && g mapped 0x20000400 (fun x => !x.wb && inRegs x.pa) = true := by
  decide +kernel

/-- The leaf of the first 512 MiB without ACC, and an access of member 1's open chunk to the sector that holds it. -/
def conflicting : State := onHart (two { base with mem := putWords base.mem 0x20000 [0x204F] }) fun h =>
  { h with chunk := { rset := [(1, sectorOf 0x20000)] } }

theorem witness_conflicts :
    ((onHart base fun h => { h with chunk := { conflict := true } }).hart.chunk.conflict = true) ∧
    okWith (checkAll (fun k => (conflicting.checkAccess k .read 0x40000 4).map fun x => (⟨k, 0x40000, x⟩ : MAcc)) conflicting.ids) (fun as =>
      !conflicting.engineHolds as 4 false &&
        ((conflicting.joinScalar as 4 false).useAll (fun _ => false) as).hart.chunk.conflict) = true ∧
    okWith (checkAll (conflicting.checkStore 4 fun _ => 0x40000) conflicting.ids) (fun as => !conflicting.engineHolds as 4 true &&
      ((conflicting.joinScalar as 4 true).useAll (fun c => !c.x.wb) as).hart.chunk.conflict) = true := by decide +kernel

/-- Both members of a furrow whose member 1 waits for a SENDE, or whose member 1's chunk holds other sectors. -/
theorem witness_one_chunk :
    let kept := onHart (two base) fun h => { h with owed := [(0, 0)], chunk := { wset := [(1, sectorOf 0x40000)] } }
    let free := onHart (two base) fun h => { h with chunk := { wset := [(1, sectorOf 0x40040)] } }
    kept.hart.ahead 0 = true ∧ kept.hart.ahead 1 = true ∧ free.hart.dueChunk.meets 0 (sectorOf 0x40000) true = false := by
  decide +kernel

theorem witness_O37_LinkedLoadAndConditionalStore :
    let s := regs base [(1, 0x40000), (2, 5)]
    let u := regs mapped [(1, 0x20000400)]
    let linked := onMember s fun m => { m with link := some 0x2000 }
    let atom := fun (k : AKind) (wr : Bool) (s : State) => okWith (checkAll (fun i => s.checkAtomic k (s.reg i 1) i) s.ids)
      fun as => !s.engineHolds as 8 wr
    let one := fun (k : AKind) (wr : Bool) (s : State) (p : Xlat → Bool) =>
      decide (s.hart.len = 1 ∧ s.hart.vops = [] ∧ (s.hart.member 0).tq = [] ∧ Memory.wf s.mem = true) &&
      okWith (s.checkAtomic k (s.reg 0 1) 0) fun m => !s.engineHolds [m] 8 wr && p m.x
    atom .atomRead false s && atom .atomWrite true s && okWith (u.checkAccess 0 .atomRead (u.reg 0 1) 8) (·.io) &&
      okWith (u.checkAccess 0 .atomWrite (u.reg 0 1) 8) (·.io) && decide (0 < u.hart.len) && one .atomRead false s (fun _ => true) &&
      one .atomWrite true linked (fun x => (linked.commitChunk.hart.member 0).link == some (sectorOf x.pa)) &&
      one .atomWrite true s (fun x => (s.commitChunk.hart.member 0).link != some (sectorOf x.pa)) &&
      decide (0 < linked.hart.len ∧ (linked.hart.member 0).link = some 0x2000) = true := by decide +kernel

theorem witness_O38_ControlTransfers :
    okWith (fetchLine base 0x30008) (fun p => entryOk (slotsOf p.2) (slotIx 0x30008) true) = true ∧
    okWith (fetchLine base 0x30010) (fun p => !entryOk (slotsOf p.2) (slotIx 0x30010) true) = true ∧
    fails (fetchLine base 0x7000000008) = true ∧
    (0x30008 : Word).toNat % 8 = 0 ∧ (0x30008 : Word).toNat / 2 ^ 56 = 0 ∧ (0x30009 : Word).toNat % 8 ≠ 0 ∧
    (0x100000000000000 : Word).toNat / 2 ^ 56 ≠ 0 := by decide +kernel

theorem witness_O39_FurrowIdentity : (two base).hart.root = none ∧ (two base).hart.len ≤ 128 := by decide +kernel

theorem witness_O40_FurrowCommunication :
    let s := onHart (two base) fun h => { h with bal := 1, ringf := true, members := h.members.map fun m => { m with sende := [7, 8] } }
    (s.hart.root = none ∧ s.hart.bal < 8 ∧ s.hart.owed = [] ∧ 0 < s.hart.bal ∧ 0 < s.hart.len) ∧
    (s.hart.member 0).sende = 7 :: [8] ∧ (s.hart.member 1).sende = 7 :: [8] ∧
    8 ≤ (onHart s fun h => { h with bal := 8 }).hart.bal ∧
    (let z := onHart s fun h => { h with bal := 0 }
     z.hart.ringf = true ∧ z.hart.bal ≤ 0) ∧ (two base).hart.ringf = false ∧
    (let z := onHart s fun h => { h with bal := -1 }
     z.hart.bal < 0 ∧ z.hart.owed = []) ∧
    (let due (v : Word) := onHart s fun h => { h with owed := [(0, v)], members := h.members.map fun m => { m with sende := [] } }
     (s.hart.ringf = true ∧ (due 0).reg 1 5 = 0 ∧ ((due 0).hart.owed.find? fun p => p.1 == 0) = some (0, 0)) ∧
       ((due 7).hart.owed.find? fun p => p.1 == 0) = some (0, 7) ∧ ((due 7).hart.member 0).sende = []) := by decide +kernel

/-- The furrow as the unit of launch 3, an iteration ring of ten iterations with LOW = 2 and iteration 4 posted. -/
def ringed : State :=
  { onHart (regs base [(1, 3), (2, 4), (3, 2), (4, 9), (5, 10), (6, 1)]) fun h =>
      { h with status := 0x401, unit := some ⟨3, 0, none⟩ } with
    launches := [{ id := 3, graph := 1, job := 1, addr := 0, preds := [], state := .running, bounds := [10, 1, 1, 1] }]
    rings := [⟨3, 2, [4], []⟩] }

theorem witness_O41_IterationRing :
    let q := ringed.commitChunk.drainVector.writeBackNarrow 3
    let n := fun (r : Reg) => (ringed.reg 0 r).toNat
    let big := { ringed with
      launches := [{ id := 3, graph := 1, job := 1, addr := 0, preds := [], state := .running, bounds := [10000, 1, 1, 1] }] }
    (base.hart.root = none ∧ base.hart.ring = false) ∧ (ringed.hart.root = none ∧ ringed.hart.ring = true ∧ ringed.hart.park = none) ∧
    q.ringOf = some ⟨3, 2, [4], []⟩ ∧ ringed.ringOf = some ⟨3, 2, [4], []⟩ ∧
    n 6 < 2 ∧ q.ringN ≤ n 5 ∧ (2 ≤ n 3 ∧ n 3 < q.ringN ∧ n 3 < 2 + 4096) ∧
    (2 + 4096 ≤ 4098 ∧ 4098 < (big.commitChunk.drainVector.writeBackNarrow 3).ringN) ∧
    ringed.posted (n 2) = true ∧ ringed.posted (n 1) = false ∧ ringed.posted (n 6) = true ∧
    (∀ j < 1, ringed.posted (n 2 + j) = true) ∧ (ringed.prefixOf (n 1) 4).2 ≠ [] ∧
    ringed.hart.unit = some ⟨3, 0, none⟩ ∧
    (let s := { ringed with rings := [⟨3, 2, [4], [3, 2]⟩] }
     s.rings.find? (fun x => x.launch == 3) = some ⟨3, 2, [4], [3, 2]⟩ ∧ 2 ∉ [4] ∧ s.hart.unit = some ⟨3, 0, none⟩) := by
  decide +kernel

/-- An IWAIT of an iteration that is not posted parks. -/
theorem witness_O5_waits : reaches { ringed with mem := (at0 0xA4001001).mem } (fun _ _ t => t.signal == .stalled) = true := by
  decide +kernel

/-- A unit asked to give way, with room for its frame in the context store. -/
def asked : State := { onHart ringed fun h => { h with status := 0x13 } with csbase := 0x200000, cssize := 0x40000 }

theorem witness_O42_VectorLengthGranted :
    (base.hart.root = none ∧ base.hart.preemptable = false ∧ base.hart.unit = none ∧ base.hart.len ≤ 128) ∧
    (asked.hart.root = none ∧ asked.hart.preemptable = true ∧ asked.hart.unit.isSome = true ∧ asked.hart.owed = []) ∧
    (asked.saveUnit 1 0 (asked.reg 0 1) false none true).isSome = true ∧
    ({ asked with cssize := 0 } : State).saveUnit 1 0 (asked.reg 0 1) false none true = none ∧
    ((owing asked).hart.owed ≠ [] ∧ (owing asked).hart.preemptable = true) := by decide +kernel

/-- The same pre-emption, enabled by an MTS of the bundle before. -/
theorem witness_O42_next_bundle :
    let s := onHart asked fun h => { h with enabled := true }
    let due (s : State) (p : State → Bool) : Bool := atBundle (stepping1 s) fun f b =>
      executes f.st b && !cancelDue f.st && decide (f.st.hart.tmr = 0) && preemptionDue f.st b && p f.st
    let saves (st : State) (sub : Nat) : Bool := (st.saveUnit 2 sub 0 true none true).isSome
    due s (fun st => !st.hart.waitsParked && saves st 0) && due { s with cssize := 0 } (fun st => !st.hart.waitsParked && !saves st 0) &&
      due (onHart asked fun h => { h with park := some (.waita 5) }) (fun st => st.hart.waitsParked && saves st 1) = true := by
  decide +kernel

theorem witness_O43_VectorConfiguration :
    let s := { base with tmapDef := 2 }
    base.hart.root = none ∧ (s.ids.find? fun i => s.tmapOf (s.hart.member i).tile == 2 && (0x55 : BitVec 8) != 0) = some 0 ∧
    (∀ i < base.hart.len, base.tmapOf (base.hart.member i).tile = 2 → (0x55 : BitVec 8) = 0) ∧
    (∀ i < s.hart.len, s.tmapOf (s.hart.member i).tile = 2 → (0 : BitVec 8) = 0) ∧
    pairsIn (s.hart.member 0).wmode 1 = pairsIn 0 1 ∧ pairsIn (s.hart.member 0).wmode 1 ≠ pairsIn 0x55 1 ∧
    ((pairsIn 0x48 2)[0]? = some 1 ∧ (pairsIn 0x88 2)[1]? = some 3 ∧ (pairsIn 0x88 2)[0]? = some 1 ∧ 3 ∉ pairsIn 0x48 2) := by
  decide +kernel

/-- Queue 1 bound to v8 to v11, with one entry. -/
def queued (s : State) : State := onHart s fun h => { h with qst := setQueue h.qst 1 0 1 true 4 8 }

theorem witness_O44_QueueWords :
    let w := (queued base).hart.qst
    base.hart.root = none ∧ qBound w 1 = true ∧ qCount w 1 ≠ 0 ∧ qBound w 0 = false ∧ qCount (setQueue w 1 0 0 true 4 8) 1 = 0 ∧
    31 < (28 : VReg).toNat + (4 : BitVec 3).toNat ∧ (queueOf w 11).isSome = true ∧
    (qBound w 2 = false ∧ ¬ 31 < (12 : VReg).toNat + (3 : BitVec 3).toNat ∧ (numsFrom 12 4).all (fun r => (queueOf w r).isNone) = true) := by
  decide +kernel

/-- The vector furrow with addresses in s4 to s6 and indices in v2. -/
def vecmem : State := regs (vec (elems 1 [1, 2, 3, 4, 5, 6, 7, 8] ++ elems 2 [0, 1, 2, 3, 4, 5, 6, 0xFFFFFFFF]))
  [(4, 0x40000), (5, 0x7000000000), (6, 8)]

theorem witness_O45_VectorMemoryIssues :
    let run := fun (s : State) (a : Reg) (p : List Checked × Option (Nat × TrapInfo × List (Nat × Word)) → Bool) =>
      (vectorForms s .norm .n32 1 a 6 2 1).all fun form =>
        let s := onMember s fun m => { m with mask := (numsFrom 0 8).map fun k => (2048 + k, true) }
        let q := s.commitChunk.awaitRegs (form.args.regs s.hart) [form.mask.toNat]
        let act := (q.hart.range.filter fun i => q.hart.melem form.mask.toNat i).filterMap fun i =>
          (form.addr q.hart i).map fun x => (i, x)
        !form.args.bad s.hart && !s.commitChunk.full s.ids && s.hart.root.isNone && p (q.checkElems form.kind.access act act)
    let push := fun (s : State) (a : Reg) (p : List Checked × Option (Nat × TrapInfo × List (Nat × Word)) → Bool) =>
      let s := onMember s fun m => { m with mask := (numsFrom 0 8).map fun k => (2048 + k, true) }
      let w := s.hart.qst
      let u := s.commitChunk.awaitRegs [qBase w 1 + (qHead w 1 + qCount w 1) % qDepth w 1] [1]
      let act := (u.hart.range.filter fun i => u.hart.melem 1 i).map fun i => (i, s.reg 0 a + BitVec.ofNat 64 i * s.reg 0 6)
      qBound w 1 && decide (qCount w 1 < qDepth w 1) && !s.commitChunk.full s.ids && p (u.checkElems .read act act)
    run vecmem 4 (fun r => !r.1.isEmpty && r.2.isNone) && run vecmem 5 (fun r => r.2.isSome) &&
      push (queued vecmem) 4 (fun r => !r.1.isEmpty && r.2.isNone) && push (queued vecmem) 5 (fun r => r.2.isSome) &&
      !qBound vecmem.hart.qst 1 && decide (vecmem.hart.owed = []) &&
      decide (qDepth (setQueue 0 1 0 4 true 4 8) 1 ≤ qCount (setQueue 0 1 0 4 true 4 8) 1) = true := by decide +kernel

theorem witness_O45_bad_operands :
    (vectorForms vecmem .norm .n32 1 4 6 2 1).all (fun form =>
      form.args.bad (onHart vecmem fun h => { h with qst := setQueue 0 1 0 1 true 4 0 }).hart) = true := by decide +kernel

/-- A vector operation on register v1 with one element of four bytes at `pa`. -/
def vop (k : VKind) (got : Bool) (pa : Nat) : VOp :=
  let e : VElem := { i := 0, member := 0, pos := 0, pa := pa, uc := false, coh := 0, leaf := none, data := [1, 2, 3, 4] }
  { id := 9, kind := k, reg := 1, mask := 0, policy := .norm, todo := if pa = 0 then [] else [e]
    got := if got then [e] else [], fails := [], ranges := [], discard := false }

theorem witness_O5_halts_and_waits :
    let early := { onHart (owing base) fun h => { h with vops := [vop .load false 0x40000] } with
      undo := some { base.toModuleState with nextId := 5 } }
    early.tooEarly (.vectorSectorRequest 9 0) = true ∧ base.tooEarly .chunkCommit = false ∧ ({ base with err := 2 } : State).err ≠ 0 ∧
    fromOutside .chunkCommit = false ∧ fromOutside (.jobp 0) = true := by decide +kernel

/-- A row microprogram works in a window of the pseudo-channel of `pa`. -/
def windowed (s : State) (pa : Nat) : State := { s with
  roots := [((ownerPc s.rmF.toNat pa).getD 0, { prog := some ⟨0, 0, 0, 0x20000400, 0x20000C00, 2⟩ })] }

/-- The vector furrow with operations in flight. -/
def inFlight (l : List VOp) : State := onHart vecmem fun h => { h with vops := l }

/-- The operation in flight at the vector furrow, and the first request of it. -/
def request1 (l : List VOp) (id : Nat) (p : State → VOp → List VElem → Bool) : Bool :=
  let q := (inFlight l).endChunk
  someWith (q.vop? id) fun o => p q o (o.request 0)

theorem witness_O46_requests :
    let free (q : State) (o : VOp) (es : List VElem) : Bool :=
      !es.isEmpty && es.all (fun e => !vblocked q.hart.vops o e && decide (e.member < q.hart.len ∧ e.pos + e.data.length ≤ 2048)) &&
        decide (es.length = 1) && (q.windowsAt 9 (es.map (·.pa))).isEmpty
    ([VKind.load, .glk, .ldq 1].all fun k => request1 [vop k false 0x40000] 9 fun q o es => o.kind == k && free q o es && !o.discard) &&
      (request1 [vop .store false 0x40000] 9 fun q o es => free q o es && plainMemory q) &&
      (request1 [{ vop .stc false 0x40000 with mask := 1 }] 9 fun q o es => free q o es && plainMemory q && decide (o.mask ≠ 0) &&
        !o.discard && o.fails.isEmpty && o.todo == es && q.vlinks.isEmpty) &&
      (request1 [vop .load false 0x40000] 9 fun _ o _ => (o.request 5).isEmpty) &&
      (request1 [{ vop .store false 0x40000 with id := 8 }, vop .load false 0x40000] 9 fun q o es =>
        es.any fun e => vblocked q.hart.vops o e) = true := by decide +kernel

theorem witness_O46_windows_and_links :
    (let q := (windowed (inFlight [vop .load false 0x40000]) 0x40000).endChunk
     someWith (q.vop? 9) fun o => !(q.windowsAt 9 ((o.request 0).map (·.pa))).isEmpty) = true ∧
    (let q := { (inFlight [vop .stc false 0x40000]).endChunk with vlinks := [(0, sectorOf 0x40000)] }
     ((q.hart.member 0).tile, sectorOf 0x40000) ∈ q.vlinks ∧ q.endChunk.vlinks = q.vlinks) := by decide +kernel

/-- A store and a VSTC behind a link that is down. -/
theorem witness_O46_lost : ([VKind.store, .stc].all fun k => request1 [vop k false Config.peerBase] 9 fun q o es =>
    !es.isEmpty && es.all (fun e => q.lost e.pa && !vblocked q.hart.vops o e) && (q.windowsAt 9 (es.map (·.pa))).isEmpty) = true := by
  decide +kernel

theorem witness_O46_ends :
    (request1 [vop .load false 0] 9 fun _ o _ => o.todo.isEmpty && o.got.isEmpty) &&
      (request1 [vop (.ldq 1) true 0] 9 fun q o _ => o.todo.isEmpty && !o.got.isEmpty && !o.discard &&
        o.got.all fun e => decide (e.member < q.hart.len ∧ e.pos + e.data.length ≤ 2048)) = true := by decide +kernel

/-- An A word's operands are legal at the vector furrow, its registers have places, and the format words of s10 and s11 are
accepted and refused. -/
def dispatches (o : AOps) (c : FmtClass) (w : Word) : Bool :=
  let s := regs vecmem [(10, w), (11, 7)]
  let q := awaited s o
  s.hart.root.isNone && !o.bad s.hart && (decodeFmt c (q.aScalar 10) q.hart.w).isSome && (decodeFmt c (q.aScalar 11) q.hart.w).isNone &&
    decide (q.hart.shares.length = q.hart.len ∧ (∀ x ∈ q.hart.shares, x ≤ 64) ∧ q.hart.vl.toNat ≤ q.hart.shares.sum * (256 / q.hart.w))

/-- The operands are illegal once queue 1 holds the destination. -/
def refused (o : AOps) : Bool := o.bad (queued vecmem).hart

theorem witness_O47_ElementwiseArithmetic :
    dispatches { srcs := [1, 2], dsts := [3], masks := [0] } (.generic true) 0 &&
      dispatches { srcs := [1], dsts := [3], masks := [0] } (.generic false) 0 &&
      dispatches { srcs := [1], dsts := [3], masks := [0] } .convert 0 &&
      dispatches { srcs := [1], dsts := [3], masks := [0] } .convert 0x4908 &&
      someWith (decodeFmt .convert 0 32) (!·.ef) && someWith (decodeFmt .convert 0x4908 32) (·.ef) &&
      refused { srcs := [1, 2], dsts := [9], masks := [0] } && refused { srcs := [1], dsts := [9], masks := [0] } = true := by
  decide +kernel

theorem witness_O48_BitwiseSelectAndFill :
    dispatches { srcs := [1, 2], dsts := [3], masks := [0] } .bitwise 0 &&
      dispatches { srcs := [1], dsts := [3], masks := [0] } .notClass 0 &&
      dispatches { srcs := [1, 2], dsts := [3], masks := [0] } .select 0 &&
      dispatches { dsts := [3], masks := [0] } .bitwise 0 && refused { dsts := [9], masks := [0] } = true := by decide +kernel

theorem witness_O49_MovesAndReductions :
    dispatches { srcs := [1], dsts := [3], masks := [0] } (.generic false) 0 &&
      dispatches { srcs := [1, 2], dsts := [3], masks := [0] } .bitwise 0 && dispatches { srcs := [1] } .bitwise 0 &&
      dispatches { dsts := [3] } .bitwise 0 && dispatches { srcs := [1], masks := [0] } .reduce 0 &&
      dispatches { srcs := [1], masks := [0] } .reduce 0x808 && dispatches { srcs := [1], dsts := [3], masks := [0] } (.generic false) 0x808 &&
      someWith (decodeFmt .reduce 0 32) (fun f => f.fd.isInt && !(reduceList .add f (awaited vecmem { srcs := [1], masks := [0] }).hart 0
        (fun _ => .nan)).isEmpty && (reduceList .add f base.hart 0 (fun _ => .nan)).isEmpty) &&
      someWith (decodeFmt .reduce 0x808 32) (fun f => !f.fd.isInt) &&
      decide ((awaited vecmem { dsts := [3] }).hart.els.toNat ≤ 7 ∧ 7 < (awaited vecmem { dsts := [3] }).hart.vl.toNat ∧
        ¬ 8 < (awaited vecmem { dsts := [3] }).hart.vl.toNat) = true := by decide +kernel

theorem witness_O50_MaskWords :
    dispatches { srcs := [1, 2], masks := [0, 1] } .compare 0 && dispatches { srcs := [1], masks := [0, 1] } .compare 0 &&
      dispatches { masks := [0, 2, 1] } .compare 0 && dispatches { masks := [0] } .compare 0 &&
      decide ((1 : MReg) ≠ 0) = true := by decide +kernel

/-- The vector furrow with one index pair, VL = 1. -/
def indexed (p : IxPair) : State :=
  onMember (onHart vecmem fun h => { h with vl := 1 }) fun m => { m with wmode := 0x46, ix := [p] }

theorem witness_O51_IndexPairs :
    let s := indexed { entries := [(1, 5)] }
    let o : AOps := { srcs := [1, 2], masks := [0] }
    let q := awaited s o
    let act := q.hart.range.filter fun i => q.hart.melem 0 i
    (s.hart.root = none ∧ s.hart.w = 32 ∧ (0 : BitVec 2).toNat < (s.hart.member 0).ix.length ∧ o.bad s.hart = false) ∧
    ((awaited (onHart s fun h => { h with vl := 2 }) o).hart.range.filter fun i =>
      (awaited (onHart s fun h => { h with vl := 2 }) o).hart.melem 0 i && ((awaited (onHart s fun h => { h with vl := 2 }) o).hart.place i).1 == 0) = [0, 1] ∧
    act = [0] ∧ (q.hart.place 0).1 < q.hart.len ∧ 0 < (q.hart.member (q.hart.place 0).1).ix.length ∧
    (decodeFmt .index (q.aScalar 0) q.hart.w).isSome = true ∧ (base.hart.w ≠ 32 ∧ (base.hart.member 0).ix.length ≤ 0) ∧
    AOps.bad { srcs := [1], dsts := [3], masks := [0] } s.hart = false ∧ AOps.bad { dsts := [3, 1] } s.hart = false ∧
    (3 : VReg) ≠ 1 ∧ (q.hart.elem (q.hart.src 1) 0 ≠ 0xFFFFFFFF ∧ q.hart.elem (q.hart.src 1) 0 = 1) ∧
    ((awaited vecmem o).hart.elem 2 7 = 0xFFFFFFFF) ∧
    ((indexed {}).hart.member 0).ix = [{}] := by decide +kernel

theorem witness_O51_formats :
    let s := regs (indexed {}) [(10, 0), (11, 7)]
    let o : AOps := { srcs := [1, 2], masks := [0] }
    (decodeFmt .index ((awaited s o).aScalar 11) (awaited s o).hart.w).isNone = true ∧
    AOps.bad { srcs := [9, 2], masks := [0] } (queued s).hart = true ∧ AOps.bad { dsts := [9, 1] } (queued s).hart = true := by
  decide +kernel

theorem witness_O51_full_pair :
    let p : IxPair := { entries := List.replicate 2048 (7, 0) }
    2048 ≤ p.entries.length ∧ ∀ e ∈ p.entries, e.1.toNat ≠ 1 :=
  ⟨Nat.le_of_eq List.length_replicate.symm, fun _ h => List.eq_of_mem_replicate h ▸ by decide⟩

/-- A thresher command of tiller 0. -/
def cmd (ready : Bool) : ThCmd := {
  id := 5, tile := 0, geo := 0, slot := 0, fw := 0x44, mt := 0, a := [], scales := [], rows := [], ready := ready, lo := 0, hi := 0 }

theorem witness_O52_thresher_words :
    let s := regs vecmem [(10, 0x44), (11, 0x40000), (12, 0x7000000000)]
    let h := s.hart
    (h.root = none ∧ (∀ m ∈ h.members, m.beds ≠ 0 ∧ (0 : BitVec 2).toNat < 2 ^ m.geo.toNat) ∧ (queueOf h.qst 8).isNone = true ∧
      (queueOf h.qst 9).isNone = true ∧ (queueOf h.qst 2).isNone = true) ∧
    someWith (decodeFmt .thresher (s.aScalar 10) h.w) (fun f => !f.scl &&
      (let q := (s.awaitRegs [f.sv, 8, 9] []).commitChunk
       decide (∀ k < q.hart.len, (q.hart.member k).tq.length < 4)) &&
      (let q := (s.awaitRegs [f.sv, 2] []).commitChunk
       fails (q.allRows 2 (q.aScalar 12) (BitVec.ofNat 64 f.aux) q.ids) && !q.full q.ids)) = true ∧
    ((queueOf (queued s).hart.qst 8).isSome = true ∧ (Member.fresh 0).beds = 0 ∧ Member.fresh 0 ∈ base.hart.members) ∧
    (AOps.bad { dsts := [3], masks := [0] } h = false ∧
      (decodeFmt .extract ((awaited s { dsts := [3], masks := [0] }).aScalar 0) 32).isSome = true ∧
      ∀ m ∈ (awaited s { dsts := [3], masks := [0] }).hart.members, m.tq = []) ∧
    okWith (s.checkWlds (s.reg 0 11) 16384 s.ids) (fun _ => !s.commitChunk.full s.ids) = true ∧
    fails (s.checkWlds (s.reg 0 12) 32768 s.ids) = true := by decide +kernel

theorem witness_O52_refusals :
    let s := queued (regs vecmem [(10, 0x44), (11, 7), (12, 0x1108BB)])
    let h := s.hart
    (∀ m ∈ h.members, m.beds ≠ 0 ∧ (0 : BitVec 2).toNat < 2 ^ m.geo.toNat) ∧ (queueOf h.qst 4).isNone = true ∧
    (queueOf h.qst 5).isNone = true ∧ (decodeFmt .thresher (s.aScalar 11) h.w).isNone = true ∧
    someWith (decodeFmt .thresher (s.aScalar 12) h.w) (fun f => f.scl && (queueOf h.qst f.sv).isSome) = true := by decide +kernel

theorem witness_O52_mmag_rows :
    let s := regs (vec (elems 2 [0, 1, 2, 3, 4, 5, 6, 7, 0, 0, 0, 0, 0, 0, 0, 0])) [(10, 0x8000000044), (11, 0x40000)]
    let q := (s.awaitRegs [0, 2] []).commitChunk
    okWith (q.allRows 2 (q.aScalar 11) 128 q.ids) (fun _ => !q.full q.ids) = true := by decide +kernel

/-- A weight-latch load of slot 1. -/
def wload : WLoad := { id := 6, slot := 1, fmt := .i8, sw0 := 1, sw1 := 2, runs := [(0x40000, 8)], ops := [] }

theorem witness_O52_thresher_steps :
    let s := { onMember base fun m => { m with tq := [cmd true] } with sheaves := [(0, { order := [.cmd 0 5 0, .wld wload] })] }
    let busy (c : ThCmd) : State := { onMember base fun m => { m with tq := [c] } with
      sheaves := [(0, { order := [.cmd 0 5 0], busy := some (0, 5) })] }
    let done (c : ThCmd) : Bool := ((busy c).sheaf 0).busy == some (0, 5) && someWith (((busy c).endChunkOf 0).memberOf 0) fun m =>
      someWith (m.tq.find? fun x => x.id == 5) fun x => x.gone == c.gone && (formatFields x.fw).isSome && decide (x.geo ≤ 2 ∧ x.tile < 2 ^ x.geo)
    ((s.sheaf 0).busy = none ∧ (s.arbitrate 0).isSome = true) ∧ done (cmd true) = true ∧ done { cmd true with gone := true } = true ∧
    ((s.sheaf 0).firstLoad 1 = some wload ∧ (s.runBytes wload.runs)[0]?.isSome = true ∧
      s.windowsAt wload.id (wload.runs.flatMap fun r => blocksOf r.1 r.2) = [] ∧
      (windowed s 0x40000).windowsAt wload.id (wload.runs.flatMap fun r => blocksOf r.1 r.2) ≠ []) := by decide +kernel

theorem witness_O52_gathers :
    let c := { cmd false with rows := [[(0x40000, 32)]] }
    let g := onMember base fun m => { m with tq := [c] }
    let held (s : State) := s.windowsAt c.id (c.rows.flatten.flatMap fun r => blocksOf r.1 r.2)
    someWith (g.memberOf 0) (fun m => m.tq.find? (fun c => !c.ready) == some c) = true ∧ held g = [] ∧
    someWith ((g.endChunkOf 0).memberOf 0) (fun m => m.tq.contains c) = true ∧ held (windowed g 0x40000) ≠ [] := by decide +kernel

theorem witness_O52_extract_feedback : someWith (decodeFmt .extract 0x4908 32) (·.ef) = true := by decide +kernel

theorem witness_O53_EngineCommandsIssue :
    let s := regs (two base) [(1, 0x40000)]
    let full (s : State) (n : Reg) := s.commitChunk.full (s.ids.filter fun i => ([s.reg i n].getD 0 0 != 0))
    (s.hart.root = none ∧ full s 1 = false ∧ full s 4 = false) ∧
    (∀ i < s.hart.len, ∀ j < s.hart.len, (s.hart.member i).chset = (s.hart.member j).chset → i = j) ∧
    (s.reg 0 1 ≠ 0 ∧ s.reg 0 4 = 0 ∧ (s.channel (s.hart.member 0).chset 0).txn ≠ 0 ∧
      (s.channel (s.hart.member 0).chset 0).txn ≠ BitVec.allOnes 64) ∧
    ((rootAt 0x80000004).hart.root ≠ none ∧ (rootAt 0x80000004).hart.len = 1) := by decide +kernel

/-- Channel 0 of channel set 0 has assigned identifiers 1 to 4 and completed 1 and 3. -/
def channels (s : State) : State := { s with
  chsets := [(0, { ch := [(0, { txn := 5, txw := 2, done := [3], stat := [(1, 1), (3, 1)] })] })] }

theorem witness_O54_TransactionCompletion :
    let s := regs (channels base) [(1, 1), (2, 2), (3, 5)]
    let c := s.channel (s.hart.member 0).chset 0
    (s.hart.len = 1 ∧ c.txn.toNat ≤ (s.reg 0 3).toNat) ∧ (s.reg 0 1).toNat < c.txw.toNat ∧
    ((s.reg 0 2).toNat < c.txn.toNat ∧ c.txw.toNat ≤ (s.reg 0 2).toNat ∧ s.hart.park = none) ∧
    (c.txn.toNat ≤ 5 ∧ (0 : Nat) = 0 ∧ 3 + 256 < (259 + 1 : Nat)) ∧
    (0 < 4 ∧ 4 < c.txn.toNat ∧ c.txn.toNat ≤ 4 + 256 ∧ c.txw.toNat ≤ 4 ∧ lookup c.stat 4 = none) := by decide +kernel

theorem witness_O54_operations :
    let s := channels base
    let c := s.channel 0 0
    let o : EngOp := { op .copy 7 [] with ended := some { code := 1 }, ident := 2 }
    let p : EngOp := { op .rstart 8 [] with ended := some { code := 7 }, ident := 4 }
    let u : State := { s with ops := [o, p] }
    (o ∈ u.ops ∧ o.kind ≠ .wld ∧ p.kind = .rstart ∧
      ∀ q ∈ u.ops, q.kind ≠ .wld → q.chset = o.chset → q.chan = o.chan → q.ident = o.ident → q = o) ∧
    (u.ops.find? (fun o => o.id == 7) = some o ∧ o.finalStatus = some { code := 1 }) ∧
    (u.ops.find? (fun o => o.id == 8) = some p ∧ p.finalStatus = some { code := 7 } ∧ u.evsize = 0) ∧
    (0 < o.ident ∧ o.ident < c.txn.toNat ∧ c.txn.toNat ≤ o.ident + 256) ∧
    (c.txw.toNat ∉ c.done ∧ c.txw.toNat ≠ p.ident) ∧ (c.txw.toNat + c.done.length + 2 < 2 ^ 64 ∧ c.txw.toNat = o.ident ∧ 3 ∈ c.done) ∧ ((s.channel 1 0).done = [] ∧ (s.channel 1 0).txw.toNat = (op .copy 7 []).ident) := by
  decide +kernel

/-- The furrow with one engine operation. -/
def with1 (o : EngOp) : State := { base with ops := [o] }

/-- Every bank of the pseudo-channel of `pa` belongs to context 5. -/
def owned (s : State) (pa : Nat) : State := { s with
  roots := [((ownerPc s.rmF.toNat pa).getD 0, { own := (numsFrom 0 16).map fun b => (b, 0x1005) })] }

/-- An operation's step: what row microprograms hold back, and the state in which it takes place. -/
def gated (s : State) (id : Nat) (pas : List Nat) (next : State → Bool) : Bool :=
  !((windowed s (pas.getD 0 0)).windowsAt id pas).isEmpty && (s.windowsAt id pas).isEmpty && 
    next (s.leaveQueues fun q => q.1 == id && pas.contains q.2)

theorem witness_O55_one_sector :
    let o := op .copy 7 [0x50000, 0x40000, 32, 0]
    let s := with1 o
    [AKind.read, .write].all (fun k => okWith (s.opXlat o k 1 0x40000 0) fun x => !s.ownerRefuses x.pa o.ctx &&
      (owned s x.pa).ownerRefuses x.pa o.ctx && decide (0 < 32 ∧ ((0x40000 : Word) + BitVec.ofNat 64 0).toNat % 32 + 32 ≤ 32)) &&
      plainMemory s = true := by decide +kernel

/-- A page of host memory under key slot 0, whose sectors the module has not written. -/
def hosted : State := { base with
  mem := putWords base.mem 0x20010 [BitVec.ofNat 64 Config.hostBase + 0x16F], ide := true, kslots := [(0, (BitVec.ofNat 64 Config.hostBase + 1, 1))] }

theorem witness_O55_part_fails :
    let o := op .copy 7 [0x40000000, 0x40000, 8, 0]
    let s := { hosted with ops := [o] }
    okWith (s.opXlat o .write 0 0x40000000 0) (fun x => !s.ownerRefuses x.pa o.ctx && s.partFails x) && plainMemory s = true := by
  decide +kernel

/-- A COPY of one sector. -/
def copyOf (dst src : Word) : EngOp := { op .copy 7 [dst, src, 32, 0] with todo := [0] }

theorem witness_O55_copies :
    let run (o : EngOp) (p : State → EngOp → Bool) : Bool :=
      decide ((with1 o).activeOp 7 (fun k => k == .copy) = some o ∧ o.todo[0]? = some 0 ∧ (o.arg 3).toNat % 8 = 0) &&
        gated (with1 o) 7 ((with1 o).copyHomes o 0) fun q => p q (q.placed o .read (o.arg 1))
    run (copyOf 0x50000 0x40000) (fun q p => okWith (q.opRead p 1 (p.arg 1) 0 32) fun r =>
        (r.1.opWrite p 0 (p.arg 0) 0 r.2).2.isNone && decide (p.todo.length ≤ 1)) &&
      run (copyOf 0x7000000000 0x40000) (fun q p => okWith (q.opRead p 1 (p.arg 1) 0 32) fun r =>
        (r.1.opWrite p 0 (p.arg 0) 0 r.2).2.isSome) &&
      run (copyOf 0x50000 0x7000000000) (fun q p => fails (q.opRead p 1 (p.arg 1) 0 32)) = true := by decide +kernel

/-- A COPY that adds to the words of its destination: no page maps it, an owner refuses it, or it is accepted. -/
theorem witness_O55_reducing_copies :
    let o (dst n : Word) : EngOp := { op .copy 7 [dst, 0x40000, n, 1] with todo := [0] }
    let run (t : State) (dst n : Word) (p : State → EngOp → List Byte → Except Stop Xlat → Bool) : Bool :=
      let s : State := { t with ops := [o dst n] }
      decide (s.activeOp 7 (fun k => k == .copy) = some (o dst n) ∧ ((o dst n).arg 3).toNat % 8 ≠ 0 ∧ n.toNat % 4 = 0) &&
        (s.windowsAt 7 (s.copyHomes (o dst n) 0)).isEmpty &&
          let p' := s.placed (o dst n) .read 0x40000
          okWith (s.opRead p' 1 (p'.arg 1) 0 n.toNat) fun r => p r.1 p' r.2 (r.1.opXlat p' .atomWrite 0 dst 0)
    run base 0x7000000000 32 (fun _ _ _ x => fails x) && run (owned base 0x50000) 0x50000 32 (fun u o _ x => okWith x fun x => u.ownerRefuses x.pa o.ctx) &&
      run base 0x50000 32 (fun u o _ x => okWith x fun x => !u.ownerRefuses x.pa o.ctx) &&
      plainMemory base = true := by decide +kernel

theorem witness_O55_rows :
    let run (o : EngOp) (p : State → EngOp → Bool) : Bool :=
      decide ((with1 o).activeOp 7 (fun k => k.plowCode.isSome) = some o ∧ o.kind = .plow 2) &&
        gated (with1 o) 7 ((plowRowsAt o 2 0).flatMap fun r => (with1 o).homesOf o (rowAccessKind 2 r.1) (r.2.1 + BitVec.ofNat 64 r.2.2) 1024)
          fun q => p q (q.placed o .write (o.arg 0 + BitVec.ofNat 64 0))
    run (op (.plow 2) 7 [0x50000, 0x40000, 0x40400, 1]) (fun q p => okWith (q.plowReads p 2 0) fun r =>
        (r.1.opWrite p 0 (p.arg 0) 0 (plowResult 2 r.2.1 r.2.2.1 r.2.2.2)).2.isNone && decide (plowRows p.args ≤ 0 + 1)) &&
      run (op (.plow 2) 7 [0x7000000000, 0x40000, 0x40400, 1]) (fun q p => okWith (q.plowReads p 2 0) fun r =>
        (r.1.opWrite p 0 (p.arg 0) 0 (plowResult 2 r.2.1 r.2.2.1 r.2.2.2)).2.isSome) &&
      run (op (.plow 2) 7 [0x50000, 0x7000000000, 0x40400, 1]) (fun q p => fails (q.plowReads p 2 0)) = true := by decide +kernel

/-- An RDC whose block at 0x48000 adds two elements of two sources to 0x50000. -/
def reducing (flag : Word) : State :=
  { with1 (op .rdc 7 [0x48000]) with
    mem := putWords (putWords mapped.mem 0x48000 [0x200, 2, 0x50000, 0x48100, flag, 9]) 0x48100 [0x40000, 0x40020] }

theorem witness_O55_reductions :
    let o := op .rdc 7 [0x48000]
    let run (flag : Word) (p : RdcBlock → Option Stop → Bool) : Bool :=
      decide ((reducing flag).activeOp 7 (fun k => k == .rdc) = some o) &&
        gated (reducing flag) 7 ((reducing flag).rdcHomes o) fun c => okWith (c.rdcChecks o) fun r =>
          let q := r.1
          let p' := q.placed o .write r.2.1.dst
          let (u, bufs) := q.rdcRead p' r.2.1.bytes r.2.2
          let (v, x) := u.opWrite p' 0 r.2.1.dst 0 (r.2.1.reduce 4 r.2.1.len bufs)
          (q.rdcOwner p' r.2.1 r.2.2).isEmpty && x.isNone && p r.2.1 (v.opWrite p' 4 r.2.1.flag 0 (bytesOf 8 r.2.1.fval.toNat)).2
    run 0 (fun b _ => b.flag == 0 && b.fmt.isInt && b.opr == 0) && run 0x50100 (fun b y => b.flag != 0 && y.isNone) &&
      run 0x20000400 (fun b y => b.flag != 0 && y.isSome) &&
      okWith ((owned (reducing 0) 0x50000).rdcChecks o) (fun r => !(r.1.rdcOwner (r.1.placed o .write r.2.1.dst) r.2.1 r.2.2).isEmpty) &&
      fails ((with1 (op .rdc 7 [0x7000000000])).rdcChecks (op .rdc 7 [0x7000000000])) = true := by decide +kernel

theorem witness_O55_starts :
    let o := op .rstart 7 [0x20000000, 0x40000]
    let s := { with1 o with rmF := 1 }
    let b := { s with roots := [(0, { state := 2 })] }
    (s.activeOp 7 (fun k => k == .rstart) = some o ∧ o.prog = 0) ∧
    okWith (s.rstartChecks o) (fun p => (p.1.rootOf p.2.1).state == 0 && gated p.1 7 (p.1.homesOf o .read (o.arg 1) 64) fun _ => true) = true ∧
    okWith (b.rstartChecks o) (fun p => (p.1.rootOf p.2.1).state != 0) = true ∧
    fails (s.rstartChecks (op .rstart 7 [0x20000008, 0x40000])) = true := by decide +kernel

/-- Members of one SPRED merge over the record at `rec`, with DST `dst`; the first sends a pair from `src`. -/
def merging (rec dst src : Word) (members : List (Nat × Nat)) : State :=
  let o := op .spred 7 [rec, src, 1, 0]
  { base with
    mem := putWords (putWords base.mem 0x40000 [2, 0x800000000, dst, 4, 0, 0, 0, 0, 0x100000000]) 0x48000 [0x900000003]
    ops := [o, { op .spred 8 [rec, 0x48000, 0, 0] with tile := 1 }]
    merges := [{ id := 9, record := rec, ctx := 0, pt0 := 0x10001, raw := [], members := members }] }

/-- The merge at its group: `p` receives the state after the record's read, the group and the sources. -/
def mergeWith (s : State) (p : State → Group → List Source → Bool) : Bool :=
  someWith (s.merges.find? fun m => m.id == 9) fun m => someWith (s.ops.find? fun o => o.id == 7) fun o =>
    okWith (s.readGroup o m.raw) fun r => p r.1 r.2.1 (s.mergeSources m r.2.1.g)

theorem witness_O55_merges :
    let both : List (Nat × Nat) := [(0, 7), (1, 8)]
    let written (dst : Word) (p : Option Stop → Bool) : Bool := mergeWith (merging 0x40000 dst 0x48000 both) fun c g src =>
      decide (src.length = g.g ∧ ((src.filterMap Source.op?).map fun z => z.id).Nodup) && gated c 9 (c.mergeHomes g src) fun q =>
        okWith (q.readStreams g src) fun r => someWith (src.filterMap Source.op?).head? fun o =>
          let streams := r.2.map (validStream g.lo g.hi none)
          p (r.1.opWrite o 0 g.dst 0 (g.image (canonSum g.node {} (streams.map fun r => { pairs := r.1 })) (streams.any fun r => r.2))).2
    let moved := { merging 0x40000 0x50000 0x48000 both with
      ops := [op .spred 7 [0x40000, 0x48000, 1, 0], { op .spred 8 [0x40000, 0x48000, 0, 0] with tile := 2 }] }
    (someWith (moved.merges.find? fun m => m.id == 9) fun m => someWith (moved.ops.find? fun o => o.id == 7) fun o =>
      okWith (moved.readGroup o m.raw) fun r => (moved.strays m r.2.1).map (·.id) == [8]) &&
      mergeWith (merging 0x40000 0x50000 0x48000 both) (fun c g _ =>
        someWith (c.merges.find? fun m => m.id == 9) fun m => (c.strays m g).isEmpty) &&
      written 0x50000 (·.isNone) && written 0x7000000000 (·.isSome) &&
      mergeWith (merging 0x40000 0x50000 0x48000 [(0, 7)]) (fun _ g src => decide (src.length ≠ g.g)) &&
      mergeWith (merging 0x40000 0x50000 0x7000000000 both) (fun c g src => (c.windowsAt 9 (c.mergeHomes g src)).isEmpty &&
        fails (c.readStreams g src)) &&
      fails ((merging 0x7000000000 0x50000 0 both).readGroup (op .spred 7 [0x7000000000, 0, 1, 0]) []) = true := by decide +kernel

theorem witness_O55_pure_parts :
    (([(1, 5), (3, 7)] : List (Nat × Nat)).Pairwise fun x y => x.1 < y.1) ∧ Fmt.i32.width = 32 ∧ (8 : Nat) < 2 ^ 32 := by
  decide +kernel

/-- Rows at 0x20000000 and on, a microprogram at 0x48000, and their addresses in scalar registers. -/
def rooted (w0 : Word) : State :=
  let s := rootAt 0x80000000
  { regs s [(1, 0x20000400), (2, 0x30000), (3, 0x48000), (4, 1)] with
    mem := putWords s.mem 0x48000 [w0, 0x20000400, 0x20000800, 0] }

theorem witness_O56_rows :
    let s := rooted 0
    (s.hart.root = some 0 ∧ rising (s.rootOf 0).ba = true ∧ Memory.wf s.mem = true ∧ (s.rootOf 0).prog = none) ∧
    (okWith (s.rowCheck 0 .read (s.reg 0 1)) (fun _ => true) && okWith (s.rowCheck 0 .write (s.reg 0 1)) (fun _ => true) &&
      fails (s.rowCheck 0 .read (s.reg 0 2)) && fails (s.rowCheck 0 .write (s.reg 0 2)) &&
      fails (s.commitChunk.startProg 0 (s.reg 0 3) (s.reg 0 5)) &&
      okWith (s.commitChunk.startProg 0 (s.reg 0 3) (s.reg 0 4)) (fun p => decide ((p.1.rootOf 0).mpc.toNat < p.2.n))) = true := by
  decide +kernel

/-- The root core in a microprogram of two steps. -/
def stepping (f : RootCore → RootCore) : State :=
  { rooted 0 with roots := [(0, f { prog := some ⟨0, 0, 0, 0x20000400, 0x20000C00, 2⟩ })] }

theorem witness_O56_programs :
    let s := stepping id
    let p : BkProg := ⟨0, 0, 0, 0x20000400, 0x20000C00, 2⟩
    (s.hart.root = some 0 ∧ (s.rootOf 0).prog = some p ∧ (s.rootOf 0).mpc.toNat < p.n ∧ (s.rootOf 0).suspended = false ∧
      (s.rootOf 0).steps < (s.rootOf 0).rwin.toNat ∧ s.hart.moving = false) ∧
    (okWith (s.stepRows 0 p p.xb p.yb) (fun _ => true) && fails (s.stepRows 0 { p with xb := 0x30000 } 0x30000 p.yb)) = true ∧
    (p.n ≤ ((stepping fun r => { r with mpc := 2 }).rootOf 0).mpc.toNat ∧ p.opr ≠ 2) ∧
    ((stepping fun r => { r with steps := 4 }).rootOf 0).rwin.toNat ≤ ((stepping fun r => { r with steps := 4 }).rootOf 0).steps ∧
    ((stepping fun r => { r with suspended := true }).rootOf 0).suspended = true := by decide +kernel

theorem witness_O56_program_ends :
    let sumr (yb : Word) : BkProg := ⟨2, 8, 0x3F800000, 0x20000400, yb, 2⟩
    let full := rooted 0
    (plainMemory full = true ∧ okWith (full.rowCheck 0 .write (sumr 0x20000C00).yb) (fun _ => true) = true ∧
      fails (full.rowCheck 0 .write (sumr 0x30000).yb) = true) ∧
    okWith ({ full with roots := [(0, { mpc := 5 })] }.commitChunk.startProg 0 (full.reg 0 3) (full.reg 0 4))
      (fun p => decide (p.2.n ≤ (p.1.rootOf 0).mpc.toNat)) = true ∧
    (let s := stepping fun r => { r with prog := some (sumr 0x20000C00) }
     okWith (s.stepRows 0 (sumr 0x20000C00) 0x20000400 0x20000C00) (fun p => p.2.isNone) = true) ∧
    okWith ((stepping id).stepRows 0 ⟨0, 0, 0, 0x20000400, 0x20000C00, 2⟩ 0x20000400 0x20000C00) (fun p => p.2.isSome) = true ∧
    rising ((stepping id).rootOf 0).ba = true := by decide +kernel

theorem witness_O56_suspensions :
    let s := stepping fun r => { r with suspended := true, serving := [(9, 0x20000400)] }
    let waiting := onHart s fun h => { h with vops := [vop .load false 0x20000400] }
    ((waiting.rootOf 0).suspended = true ∧ (9, 0x20000400) ∈ (waiting.rootOf 0).serving ∧
      waiting.stillWaits (9, 0x20000400) = true) ∧
    ((s.rootOf 0).suspended = true ∧ (s.rootOf 0).serving = [(9, 0x20000400)] ∧ s.stillWaits (9, 0x20000400) = false) := by decide +kernel

theorem witness_O56_rgo :
    let s := onHart (regs base [(1, 0x20000008), (2, 4)]) fun h => { h with origin := 0x8000000000000000 }
    (s.hart.root = none ∧ bit base.hart.origin 63 = false ∧ bit s.hart.origin 63 = true ∧ s.hart.len = 1 ∧ s.hart.vl = 0) ∧
    ((two s).hart.len ≠ 1 ∧ (s.aScalar 2).toNat % 8 ≠ 0) ∧
    (s.aScalar 1).toNat % 8 = 0 ∧ (s.aScalar 1).toNat / 2 ^ 56 = 0 ∧ s.hart.chunk.conflict = false ∧ plainMemory s = true ∧
    s.hart.priv = true ∧ (user s).hart.priv = false := by decide +kernel

/-- A job with its record at 0x60000. -/
def job (st : WState) : Job := {
  id := 1, record := 0x60000, state := st, pt0 := 0x10001, nph := if st = .waiting then 0 else 1, taken := st != .waiting }

/-- A launch of one unit in it. -/
def launch (st : WState) : Launch := {
  id := 3, graph := 2, job := 1, addr := 0x50000, preds := [], state := st, entry := 0x30008, bounds := [1, 1, 1, 1] }

/-- The furrow runs a unit of that launch; records stand at 0x50000 and 0x60000. -/
def working (st : WState) : State :=
  { onHart (regs base [(1, 0x50000), (2, 0x7000000000), (3, 0x1000000000050000)]) fun h =>
      { h with unit := some { launch := 3, ordinal := 0, slot := none } } with
    mem := putWords (putWords base.mem 0x50000 [0x30008]) 0x60000 [0x10000, 0x10001, 0, 0x61000, 0x40000, 0, 0, 0]
    tmapDef := 1, jobs := [job .running], launches := [launch st], nextId := 10 }

theorem witness_O57_WorkAndCacheWords :
    let s := working .running
    (s.hart.root = none ∧ s.hart.len = 1 ∧ s.hart.park = none) ∧ fails (s.checkLaunch (s.reg 0 2)) = true ∧
    okWith (s.checkLaunch (s.reg 0 1)) (fun _ => true) = true ∧ s.ownLaunch = some (launch .running) ∧ s.children 1 < 4096 ∧
    base.ownLaunch = none ∧ (s.handleWork (s.reg 0 3)).isSome = true ∧ s.handleWork (s.reg 0 2) = none ∧
    (let va := s.reg 0 1
     (s.reg 0 5).toNat = 0 ∧ va.toNat % 65536 + 64 ≤ 65536 ∧ okWith (s.commitChunk.xlat 0 .read va) (fun x => x.wb) = true ∧
       okWith (s.commitChunk.xlat 0 .write va) (fun x => x.wb) = true) ∧
    fails (s.commitChunk.xlat 0 .read (s.reg 0 2)) = true ∧ fails (s.commitChunk.xlat 0 .write (s.reg 0 2)) = true := by
  decide +kernel

theorem witness_O57_one_member :
    let s := onHart (two base) fun h => h.modMember 1 fun m => { m with regs := [(1, 0x50000), (2, 64), (3, 0x7000000000)] }
    let q := s.commitChunk
    (1 < s.hart.len ∧ (∀ k < s.hart.len, k ≠ 1 → s.reg k 2 = 0) ∧ 0 < (s.reg 1 2).toNat ∧
      (s.reg 1 1).toNat % 65536 + (s.reg 1 2).toNat ≤ 65536) ∧
    okWith (q.xlat 1 .read (s.reg 1 1)) (fun x => x.wb) = true ∧ okWith (q.xlat 1 .write (s.reg 1 1)) (fun x => x.wb) = true ∧
    fails (q.xlat 1 .read (s.reg 1 3)) = true ∧ fails (q.xlat 1 .write (s.reg 1 3)) = true ∧
    (∀ k < s.hart.len, s.reg k 5 = 0) := by decide +kernel

/-- The same with 4,096 launches of LAUNCH open. -/
def crowded : State := { working .running with
  launches := launch .running :: List.replicate 4096 { launch .running with id := 4, child := true } }

theorem witness_O57_launch_waits : okWith (crowded.checkLaunch (crowded.reg 0 1)) (fun _ => true) = true ∧
    crowded.ownLaunch = some (launch .running) ∧ crowded.hart.park = none ∧ 4096 ≤ crowded.children 1 :=
  ⟨by decide +kernel, rfl, rfl, by
    have h : ∀ n, n ≤ ({ working .running with launches := launch .running :: List.replicate n { launch .running with
        id := 4, child := true } } : State).children 1 := fun n => by
      simp [State.children, launch, WState.ended]
    exact h 4096⟩

/-- The job waits; `pa` is where its record stands, and `l` are other jobs. -/
def queued1 (pa : Nat) (l : List Job) : State :=
  { working .running with jobs := { job .waiting with record := pa } :: l, launches := [] }

/-- The job is in a state, with its phases in the states listed. -/
def phased (j : Job) (l : List WState) : State := { working .running with
  jobs := [j], phases := l.map fun st => { id := 5, job := 1, index := 0, addr := 0, state := st } }

theorem witness_O58_jobs :
    (((queued1 (2 ^ 50) []).job? 1).isSome = true ∧ (queued1 (2 ^ 50) []).recordReadable (2 ^ 50) = false) ∧
    ((queued1 0x70000 []).recordReadable 0x70000 = true ∧ (queued1 0x70000 []).jobRecordOk 0x70000 = false) ∧
    ((queued1 0x60000 []).recordReadable 0x60000 = true ∧ (queued1 0x60000 []).jobRecordOk 0x60000 = true) ∧
    (let j := { job .waiting with taken := true }
     let s := phased j []
     s.job? 1 = some j ∧ j.state = .waiting ∧ j.taken = true ∧ s.mayStart j = true ∧ s.jobAhead j = false ∧
       ({ s with jobs := [j, { job .running with id := 2 }] } : State).mayStart j = false ∧
       ({ s with jobs := [j, { job .waiting with id := 0 }] } : State).jobAhead j = true) ∧
    ((job .running).phase < (job .running).nph ∧ (phased (job .running) [.done]).phasesEnded 1 = true) ∧
    (let j := { job .running with phase := 1 }
     (phased j [.done]).job? 1 = some j ∧ j.phase = j.nph ∧ (phased j [.running]).phasesEnded 1 = false) ∧
    (phased (job .cancelling) []).phasesEnded 1 = true ∧ (phased (job .cancelling) []).job? 1 = some (job .cancelling) := by
  decide +kernel

/-- A flag at 0x50000 translates for a write through the job's roots. -/
theorem witness_O58_flags :
    let j := { job .running with phase := 1, flag := 0x50000 }
    let s := phased j [.done]
    (j.flag ≠ 0 ∧ j.flag.toNat % 8 = 0 ∧ plainMemory s = true) ∧
    okWith (translate (s.writeBackAll 5) j.tctx .write j.flag) (fun x => !x.io && !(s.writeBackAll 5).partFails x) = true ∧
    (let r := { j with flag := 0x20000200 }
     let s := { phased r [.done] with mem := mapped.mem }
     r.flag ≠ 0 ∧ r.flag.toNat % 8 = 0 ∧
       okWith (translate (s.writeBackAll 5) r.tctx .write r.flag) (fun x => inRegs x.pa && !(s.writeBackAll 5).partFails x) = true) ∧
    (let u := working .draining
     okWith (translate (u.writeBackAll 4) (job .running).tctx .write 0x50000) (fun x => !x.io && !(u.writeBackAll 4).partFails x) = true ∧ u.job? 1 = some (job .running) ∧
       plainMemory u = true) := by decide +kernel

/-- A launch that waits for the launch of `working`, with its record at `addr`. -/
def after (st : WState) (addr : Word) : State :=
  { working st with launches := [launch st, { launch .waiting with id := 4, preds := [3], addr := addr }] }

theorem witness_O58_launches :
    let words (addr : Word) (p : Launch → Option (List Word) → Bool) : Bool :=
      someWith ((after .done addr).launch? 4) fun l => ((l.preds.filterMap (after .done addr).launch?).all fun p => p.state == .done) &&
        p l ((after .done addr).launchWords l)
    (someWith ((after .faulted 0x50000).launch? 4) fun l =>
      (l.preds.filterMap (after .faulted 0x50000).launch?).any fun p => p.state.ended && p.state != .done) &&
      words 0x50000 (fun l ws => someWith ws fun ws => decide (l.addr.toNat % 64 = 0) && launchOk ws &&
        (after .done 0x50000).shapeExists (l.fill ws) && !({ after .done 0x50000 with tmapDef := 0 } : State).shapeExists (l.fill ws)) &&
      words 0x58000 (fun _ ws => someWith ws fun ws => !launchOk ws) &&
      words 0x50008 (fun l ws => ws.isSome && decide (l.addr.toNat % 64 ≠ 0)) &&
      words 0x7000000000 (fun l ws => ws.isNone && decide (l.addr.toNat % 64 = 0)) &&
      words 0x7000000008 (fun l ws => ws.isNone && decide (l.addr.toNat % 64 ≠ 0)) &&
      decide ((working .draining).launch? 3 = some (launch .draining) ∧ (launch .draining).out = 0) &&
      decide ((working .cancelling).launch? 3 = some (launch .cancelling) ∧ { launch .running with out := 1 }.out ≠ 0) = true := by
  decide +kernel

/-- A saved unit of one tiller, as a thread that waits for one. -/
def waiting (ready : Bool) : Saved := {
  id := 6, frame := 0, len := 1, thread := some base.hart, target := none, job := none, unit := none, prio := 2
  watch := some 5, ready := ready }

theorem witness_O59_unit_start :
    let s := working .ready
    let l := launch .ready
    let level := s.launchLevel l
    let place (s : State) (old : Bool) (tiller : Nat) : Bool := decide (s.launch? 3 = some l ∧ s.job? l.job = some (job .running) ∧
      l.handsOut = true ∧ l.slotFree 0 = true ∧ s.dieAllows l (dieOf tiller) = true ∧ (s.endingAt l tiller).isSome = old) &&
      (old || s.furrowOk l.len l.pmode s.busyTiles tiller)
    let ending := onHart s fun h => { h with run := .ending }
    let other := { l with id := 5 }
    (place s false 5 && !s.ahead level (some l.rank) l.id (dieOf 5) && !s.held l (dieOf 5) && !s.ringWaits l &&
      place ending true 0 && !ending.ahead level (some l.rank) l.id (dieOf 0) && !ending.held l (dieOf 0) && !ending.ringWaits l) &&
      (let t := { s with launches := [{ l with rank := 2 }, { other with rank := 1 }] }
       t.ahead level (some 2) l.id (dieOf 5)) &&
      (let t := { s with launches := [l, other], holds := [(5, dieOf 5)] }
       t.held l (dieOf 5)) && (let ring := { l with ctl := 0x1000000 }
       { s with launches := [ring], saved := [{ waiting true with unit := some ⟨3, 0, none⟩ }] }.ringWaits ring) && decide (s.nextId ≠ 0 ∧ 0 < l.len) = true := by decide +kernel

/-- A unit that ended before the running one, with one command still to complete. -/
theorem witness_O59_prior_units :
    let p : Prior := ⟨⟨3, 1, none⟩, [5], []⟩
    let s := onHart (working .ready) fun h => { h with prior := [p] }
    s.hart.prior.find? s.hart.finished = some p ∧
      (onMember s fun m => { m with tq := [cmd true] }).hart.finished p = false := by decide +kernel

theorem witness_O59_marks :
    (let s := onHart (working .ready) fun h => { h with run := .ending }
     s.hart.id ≠ 0 ∧ s.hart.prior = [] ∧ s.hart.run = .ending ∧ s.hart.vops = [] ∧ (∀ m ∈ s.hart.members, m.tq = []) ∧ s.hart.root = none ∧
       s.hart.unit.isSome = true) ∧
    (let s := onHart { working .ready with tmapDef := 0, tmap := [(0, 1)] } fun h => { h with prioSet := true, prio := 3 }
     let idle := onHart (working .running) id
     (someWith (s.harts.find? fun h => h.id == 1) fun h => h.unitRuns && !h.preq && s.starvedBy h) &&
       (someWith (idle.harts.find? fun h => h.id == 1) fun h => h.unitRuns && !idle.starvedBy h)) = true ∧
    (let s := onHart (working .ready) fun h => { h with status := 0x11, lhold := 1 }
     someWith (s.harts.find? fun h => h.id == 1) fun h => h.unitRuns && h.preq && h.lhold != 0 && !h.expired) = true ∧
    (let s := { working .running with launches := [], saved := [waiting true] }
     s.saved.find? (fun u => u.id == 6) = some (waiting true) ∧ (waiting true).risen < (waiting true).prio ∧
       s.savedFits s.busyTiles (waiting true) 5 = true ∧ s.ahead (waiting true).level none 6 (dieOf 5) = false ∧
       s.passesOver (waiting true) 5 = false) ∧
    (let u := { waiting true with unit := some ⟨3, 0, none⟩ }
     let x := { launch .ready with ctl := 0x1000000, die := some 7 }
     let s := { working .running with launches := [x], saved := [u] }
     u.unit.bind (fun r => s.launch? r.launch) = some x ∧ x.iring = true ∧ x.die ≠ some (dieOf 5)) ∧
    ((waiting false).watch.isSome = true ∧ (waiting false).ready = false) ∧
    (let s := { working .ready with jobs := [{ job .running with prio := 1 }] }
     s.launch? 3 = some (launch .ready) ∧ (launch .ready).handsOut = true ∧ (launch .ready).risen < s.effPrio (launch .ready)) := by
  decide +kernel

theorem witness_O59_donation :
    let s := { onHart (working .ready) fun h => { h with park := some (.waita 5) } with cssize := 0x100000 }
    (s.hart.park.bind Park.donates).isSome = true ∧ s.hart.unitRuns = true ∧ s.hart.owed = [] ∧ s.fitsWithin s.hart = true ∧
      (s.saveUnit 2 2 0 true (some 5) false).isSome = true ∧ cancelDue s = false ∧ timerDue s = false ∧ s.hart.preemptable = false ∧ s.hart.chunk.conflict = false ∧ plainMemory s = true := by decide +kernel

theorem witness_O59_threads :
    (let s := onHart base fun h => { h with chunk := { bundles := 1, wbuf := [(0, [(160, 7)])], wset := [(0, 5)] } }
     s.chunkOpen = true ∧ s.hart.chunk.conflict = false ∧ s.hart.owed = [] ∧ s.hart.chunk.leaves = [] ∧ plainMemory s = true ∧
       (∀ e ∈ s.hart.chunk.wset, e.1 < s.hart.len) ∧ ∀ i < s.hart.len, rising (lookupD s.hart.chunk.wbuf i []) = true ∧
         ∀ b ∈ lookupD s.hart.chunk.wbuf i [], (i, sectorOf b.1) ∈ s.hart.chunk.wset) ∧
    (let s := onHart (owing base) fun h => { h with chunk := { conflict := true } }
     s.hart.chunk.conflict = true ∧ lookup s.ckpts s.hart.id = none ∧ s.hart.owed ≠ []) ∧ base.chunkOpen = false ∧
    (let s := { onHart base fun h => { h with chunk := { conflict := true } } with ckpts := [(1, base.hart)] }
     s.chunkOpen = true ∧ s.hart.chunk.conflict = true ∧ lookup s.ckpts s.hart.id = some base.hart) ∧
    (onHart base fun h => { h with park := some (.waita 5) }).hart.park = some (.waita 5) ∧
    (let s := onHart (working .running) fun h => { h with status := 0x100 }
     s.hart.id ≠ 0 ∧ s.hart.run = .running ∧ s.hart.moving = false ∧ s.hart.training = true ∧ s.hart.unit.isSome = true) ∧
    (let s := rootAt 0x5400000100000000
     s.hart.id ≠ 0 ∧ s.hart.run = .running ∧ s.hart.moving = false ∧ s.hart.root = some 0 ∧ s.hart.after = none ∧
       s.hart.chunk.conflict = false ∧ someWith s.mustShip (fun t => t.quiesce.hart.root == some 0) = true) ∧
    (onHart (rootAt 0) fun h => { h with moving := true }).hart.root = some 0 ∧
    (onHart (rootAt 0) fun h => { h with moving := true }).hart.moving = true := by decide +kernel

/-- The accesses of a load of two members, still to be made. -/
def apart : State := onHart (two base) fun h => { h with
  parts := (scalarWord (.ldd .norm 5 0 0x40)).bind fun w => (w.start (two base)).map fun p => ⟨.ldd .norm 5 0 0x40, p.1, false, true⟩ }

theorem witness_O59_parts :
    someWith (scalarWord (.ldd .norm 5 0 0x40)) (fun w => !w.atomic && someWith (w.start (two base)) fun p =>
      !p.2.hart.chunk.conflict) = true ∧
    (apart.agenda = [.bundle] ∧ apart.err = 0 ∧ apart.hart.id ≠ 0 ∧ apart.hart.run = .running ∧ apart.hart.moving = false ∧
      apart.hart.chunk.conflict = false ∧ apart.calm = true) ∧
    someWith apart.hart.parts (fun p => decide (p.todo.length = 2 ∧ (p.todo.eraseIdx 1).length = 1 ∧
      ((p.todo.eraseIdx 1).eraseIdx 0).length = 0) && (scalarWord p.word).isSome) = true := by decide +kernel

theorem witness_O60_stages :
    let at' (n : Nat) (err : Nat) : State := { State.reset with stage := BitVec.ofNat 4 n, err := BitVec.ofNat 8 err, tmapDef := 1 }
    (State.reset.stage = 1 ∧ State.reset.err = 0 ∧ stageFigures [3] 0x10000 0x20000 0x1000 4 = true ∧ Memory.wf State.reset.mem = true) ∧
    ((at' 2 0).stage = 2 ∧ (at' 2 0).err = 0 ∧ (∀ p ∈ ([(5, 2)] : List (Nat × Nat)), p.1 < Config.tillers ∧ p.2 ≤ 2) ∧
      (([(5, 2)] : List (Nat × Nat)).map fun p => p.1).Nodup ∧ (5, 2) ∈ ([(5, 2)] : List (Nat × Nat))) ∧
    ((at' 3 0).stage = 3 ∧ (at' 3 0).err = 0) ∧ (at' 3 2).err ≠ 0 := by decide +kernel

theorem witness_O60_registers :
    let j := job .running
    let s := { phased j [.running] with stage := 4 }
    let named (pa : Nat) (j : Job) : Bool := j.record == pa && !j.state.ended
    (3 ≤ s.stage.toNat ∧ s.err = 0 ∧ s.pendingJobs < 1024 ∧ State.reset.stage.toNat < 3) ∧
    (let far := queued1 (2 ^ 50) []
     (∃ j ∈ far.jobs, j.record = 2 ^ 50 ∧ j.state.ended = false) ∧ far.recordReadable (2 ^ 50) = false) ∧
    (∀ j ∈ s.jobs, j.record = 0x70000 → j.state.ended = true) ∧ (∃ j ∈ s.jobs, j.record = 0x60000 ∧ j.state.ended = false) ∧
    (s.jobs.find? (named 0x60000) = some j ∧ s.job? j.id = some j ∧ s.jobOver j = false ∧ j.state ≠ .cancelling) ∧
    s.jobs.find? (named 0x70000) = none ∧ (phased { j with phase := 1 } [.done]).jobOver { j with phase := 1 } = true ∧
    (State.reset.rootOf 3).state = 0 ∧ ((stepping fun r => { r with state := 2 }).rootOf 0).state ≠ 0 ∧
    (let own := Config.regBase + 0x100000 + 0x80
     State.reset.windowsAt (State.reset.outsideId (.own 0 0 5)) [own] = [] ∧ (windowed base 0x40000).windowsAt ((windowed base 0x40000).outsideId
       (.own (((ownerPc 0 0x40000).getD 0)) 0 5)) [own + 0x1000 * (ownerPc 0 0x40000).getD 0] ≠ []) ∧ (State.reset.calm = true ∧ State.reset.waiting = []) ∧
    (Config.regBase ≤ 0x8000000000200 ∧ 0x8000000000200 < Config.regBase + Config.regSize ∧ 0x200 % 8 = 0 ∧ 0x204 % 8 ≠ 0) := by
  decide +kernel

/-- A module in stage LINKS whose links are up, with a window open to the host. -/
def surrounded : State := { base with ide := true, stage := 4, linkup := 3, windows := [(0x1000, 0x1000)], kslots := [(0, (3, 0))], sealed := [(Config.hostBase / 32, 2)] }

theorem witness_O60_host :
    let s := surrounded
    (s.hostReaches 0x1000 2 = true ∧ s.hostCoherent 0x1000 2 = true ∧ s.hostReaches 0x5000 2 = false ∧ s.hostCoherent 0x5000 2 = false ∧
      s.evsize = 0 ∧ s.windowsAt 0 (blocksOf 0x1000 2) = [] ∧ (windowed s 0x1000).windowsAt 0 (blocksOf 0x1000 2) ≠ [] ∧
      plainMemory s = true) ∧
    (∀ m ∈ s.allMembers, ∀ l ∈ m.lines, ∀ p ∈ l.home, p.1 < 0x1000 ∨ 0x1000 + 2 ≤ p.1) ∧
    (let t := onMember s fun m => { m with lines := [{ line 0x1000 0 with home := [(0x1000, 5)] }] }
     t.hostReaches 0x1000 1 = true ∧ t.windowsAt 0 (blocksOf 0x1000 1) = [] ∧
       ∃ m ∈ t.allMembers, ∃ l ∈ m.lines, l.coh ≠ 5 ∧ ∃ p ∈ l.home, p.1 = 0x1000) ∧
    (inRegs 0x8000000000204 = true ∧ 0x8000000000204 % 4 = 0) ∧ (inHost Config.hostBase = true ∧ inHost (Config.hostBase + 2 - 1) = true) ∧
    ∃ p ∈ s.sealed, p.1 / 2 = Config.hostBase / 64 := by decide +kernel

/-- The merge of `merging` with a second member beyond link 0. -/
def linked : State := { merging 0x40000 0x50000 0x48000 [(0, 7)] with
  mem := putWords (merging 0x40000 0x50000 0x48000 []).mem 0x40040 [0x1000000000000], linkup := 1 }

theorem witness_O60_peers :
    let s := surrounded
    (s.linkup.getLsbD 0 = true ∧ s.err = 0 ∧ s.linkup.getLsbD 5 = false ∧ s.peerAccepts 0x1000 2 = true ∧ s.peerAccepts (2 ^ 50) 2 = false) ∧
    (inPeer Config.peerBase = true ∧ linkOf Config.peerBase = 0 ∧ linkOf (Config.peerBase + 2 - 1) = 0) ∧
    (someWith (linked.merges.find? fun m => m.id == 9) fun m => m.far.isEmpty && linked.mergeOver m 0 &&
      someWith (linked.ops.find? fun o => o.id == 7) fun o => okWith (linked.readGroup o m.raw) fun r =>
        (r.2.1.list[1]?.map fun e => e.2) == some (0 + 1)) = true := by decide +kernel

/-- A page of peer memory, under a key slot for peers. -/
def peered : State := { base with mem := putWords base.mem 0x20010 [0xD00000000016F], linkup := 1, kslots := [(0, (3, 0))] }

/-- A translation with no cached one at hand is that of its walk. -/
theorem translate_walk (s : State) (t : TCtx) (k : AKind) (va : Word) (w : Nat × Nat × Word × List TlbEntry) (h : t.cands = [])
    (hi : field va 63 56 = 0) (r : bit (if bit va 55 then t.pt1 else t.pt0) 0 = true)
    (hw : walkFrom s t.ctx.toNat va 2 (Pte.pfn (if bit va 55 then t.pt1 else t.pt0) * 65536) [] = .ok w) (hl : w.1 ≠ 0) :
    Machine.translate s t k va = finishXlat s t k (leafXlat t.ctx.toNat w.1 w.2.1 w.2.2.1 va w.2.2.2 false [w.2.1]) := by
  simp [Machine.translate, h, hi, walk, r, hw, leafResult, hl]

/-- What the walk of 0x40000000 finds there. -/
def peerLeaf : Nat × Nat × Word × List TlbEntry :=
  (1, 0x20010, 0xD00000000016F, [{ ctx := 0, tag := 0, level := 2, ptr := true, pte := 0x20001, addr := 0x10000 }])

/-- An access that its leaf permits, to an address that neither the machine reserves nor the key slot refuses. -/
theorem permitted_xlat (s : State) (t : TCtx) (k : AKind) (x : Xlat) (h : s.keyAccepts (Pte.key x.pte) x.pa (k != .write) = true)
    (p : Pte.permits x.pte k t.priv = true) (r : s.reserved x.pa = false) :
    finishXlat s t k x = .ok { x with mt := applyType s.rmF.toNat x.mt x.pa } := by simp [finishXlat, h, p, r]

/-- A translation of 0x40000000 in a state whose page tables map it to the first peer window (log 27). -/
theorem peer_xlat (s : State) (t : TCtx) (k : AKind) (hk : k = .read ∨ k = .write)
    (ht : t = { ctx := 0, pt0 := 0x10001, pt1 := 0, priv := true, cands := [] })
    (hw : walkFrom s 0 0x40000000 2 0x10000 [] = .ok peerLeaf) (hr : s.reserved Config.peerBase = false)
    (hs : lookup s.kslots 0 = some (3, 0)) (open' : Config.peerRefuses Config.peerBase = false) :
    ∃ x, Machine.translate s t k 0x40000000 = .ok x ∧ x.pa = Config.peerBase := by
  have key : s.keyAccepts 0 Config.peerBase (k != .write) = true := by
    have p : inHost Config.peerBase = false ∧ inPeer Config.peerBase = true := by decide
    simp only [State.keyAccepts, p.1, p.2, hs, open', Bool.false_or, if_true]
    decide
  subst ht
  have pa : (leafXlat 0 peerLeaf.1 peerLeaf.2.1 peerLeaf.2.2.1 0x40000000 peerLeaf.2.2.2 false [peerLeaf.2.1]).pa =
      Config.peerBase := by decide +kernel
  rw [translate_walk _ _ _ _ peerLeaf rfl (by decide) (by decide) hw (by decide)]
  rcases hk with rfl | rfl <;>
    exact ⟨_, permitted_xlat _ _ _ _ key (by decide) ((congrArg s.reserved pa).trans hr), pa⟩

/-- Two members of one merge whose result goes to the first peer window. -/
def mergingFar : State :=
  let s := merging 0x40000 0x40000000 0x48000 [(0, 7), (1, 8)]
  { s with mem := putWords s.mem 0x20010 [0xD00000000016F], linkup := 1, kslots := [(0, (3, 0))] }

/-- A COPY and a SPRED with a write to the peer behind link 0, where that peer does not refuse the address (log 27). -/
theorem witness_O60_far_writes (open' : Config.peerRefuses Config.peerBase = false) :
    (∃ e, peered.overLink (copyOf 0x40000000 0x40000) 0 = some e ∧ e.opnd = 0) ∧
    (∃ e, peered.farWrite (copyOf 0x40000000 0x40000) 0 = some e) ∧
    ∃ e, mergingFar.farWrite (op .spred 7 [0x40000, 0x48000, 1, 0]) 0 = some e := by
  have c : ∀ (s : State) (o : EngOp), s.etlb = [] → o.tlb = [] → o.ctx = 0 → o.pt0 = 0x10001 → o.pt1 = 0 → o.priv = true →
      o.tctx s = { ctx := 0, pt0 := 0x10001, pt1 := 0, priv := true, cands := [] } := by
    intro s o a b c d e f
    simp [EngOp.tctx, a, b, c, d, e, f]
  have at0 : (0x40000000 : Word) + BitVec.ofNat 64 0 = 0x40000000 := by decide
  obtain ⟨x, hx, hp⟩ := peer_xlat peered _ .read (.inl rfl) (c peered (copyOf 0x40000000 0x40000) rfl rfl rfl rfl rfl rfl)
    (by decide +kernel) (by decide +kernel) rfl open'
  obtain ⟨y, hy, hq⟩ := peer_xlat peered _ .write (.inr rfl) (c peered (copyOf 0x40000000 0x40000) rfl rfl rfl rfl rfl rfl)
    (by decide +kernel) (by decide +kernel) rfl open'
  obtain ⟨z, hz, hr⟩ := peer_xlat mergingFar _ .write (.inr rfl) (c mergingFar (op .spred 7 [0x40000, 0x48000, 1, 0]) rfl rfl rfl rfl rfl rfl)
    (by decide +kernel) (by decide +kernel) rfl open'
  have wc : peered.writesOf (copyOf 0x40000000 0x40000) = [(0, 0x40000000, 0)] := by decide
  have ws : mergingFar.writesOf (op .spred 7 [0x40000, 0x48000, 1, 0]) = [(0, 0x40000000, 0)] := by decide +kernel
  have win : inPeer Config.peerBase = true ∧ linkOf Config.peerBase = 0 := by decide
  refine ⟨⟨{ code := 3, sub := 8, opnd := 0, detail := 0 }, ?_, rfl⟩, ⟨{ code := 3, sub := 8, opnd := 0, detail := 0 }, ?_⟩,
    ⟨{ code := 3, sub := 8, opnd := 0, detail := 0 }, ?_⟩⟩
  · have todo : (copyOf 0x40000000 0x40000).todo = [0] := rfl
    have a : (copyOf 0x40000000 0x40000).arg 0 + BitVec.ofNat 64 0 = 0x40000000 := by decide
    simp only [State.overLink, todo, a, hx, hp, List.findSome?_cons]
    decide
  · have e : (copyOf 0x40000000 0x40000).ended.isSome = false := rfl
    simp only [State.farWrite, e, wc, List.findSome?_cons, at0, hy, hq, win.1, win.2]
    rfl
  · have e : (op .spred 7 [0x40000, 0x48000, 1, 0]).ended.isSome = false := rfl
    simp only [State.farWrite, e, ws, List.findSome?_cons, at0, hz, hr, win.1, win.2]
    rfl

theorem witness_O60_no_far_write : let s := { base with ops := [copyOf 0x50000 0x40000] }
    s.ops.find? (fun o => o.id == 7) = some (copyOf 0x50000 0x40000) ∧ s.farWrite (copyOf 0x50000 0x40000) 0 = none ∧
    (mergingFar.openMerge (op .spred 7 [0x40000, 0x48000, 1, 0])).isSome = true := by decide +kernel

theorem witness_O60_messages_and_losses :
    let worn (n : Nat) : State := { State.reset with tmapDef := 1, idle := [(7, { Member.fresh 7 with wmode := 0x44, spares := [(1, n)] })] }
    let jobs (st : WState) : State := { State.reset with session := some 5, jobs := [job st] }
    (State.reset.session = none ∧ (jobs .running).session = some 5 ∧ (∃ j ∈ (jobs .running).jobs, j.state.ended = false) ∧
      ∀ j ∈ (jobs .done).jobs, j.state.ended = true) ∧
    (0x1000 + 0x1000 ≤ Config.hbmSize ∧ Config.hbmSize < Config.hbmSize + 1) ∧
    (7 < Config.tillers ∧ (worn 3).tmapOf 7 = 1 ∧ pairMode ((worn 3).tiller 7).wmode 1 = 1 ∧
      lookupD ((worn 3).tiller 7).spares 1 0 < 4 ∧ 4 ≤ lookupD ((worn 4).tiller 7).spares 1 0) ∧
    ([1, 2] : List Word)[1]? = some 2 ∧ 2 ≤ surrounded.stage.toNat := by decide +kernel

theorem witness_O60_handlers :
    let far := onHart base fun h => { h with vec := 0x7000000000 }
    let bad := { onHart base fun h => { h with vec := 0x50000 } with mem := putWords base.mem 0x50000 [1] }
    fails (fetchLine far far.hart.handler) = true ∧
    okWith (fetchLine bad bad.hart.handler) (fun p => !headerOk (slotsOf p.2)) = true := by decide +kernel

end Sys2Proof.Tests
end

section
/-! SUPPORT. The bits of an extracted field (R93). -/

namespace Sys2Proof.Machine

theorem bit_ofNat (x n : Nat) (hn : n < 64) : bit (BitVec.ofNat 64 x) n = x.testBit n := by
  rw [bit, BitVec.getLsbD_ofNat]
  simp [hn]

/-- A field taken from bit `lsb` on holds the bits of the word, below its width. -/
theorem testBit_extracted (a : Word) (lsb wid n : Nat) :
    (a.toNat / 2 ^ lsb % 2 ^ wid).testBit n = (decide (n < wid) && bit a (lsb + n)) := by
  simp [bit, BitVec.getLsbD, Nat.testBit_mod_two_pow, Nat.testBit_div_two_pow, Nat.add_comm]

/-- `signedOf` is the library's two's complement reading of the low bits. -/
theorem signedOf_eq_toInt (w x : Nat) : signedOf w x = (BitVec.ofNat w x).toInt := by
  simp [signedOf, BitVec.toInt]

/-- The highest bit of a two's complement value is copied upward. -/
theorem bit_ofInt_signedOf (w x n : Nat) (hn : n < 64) :
    bit (BitVec.ofInt 64 (signedOf (w + 1) x)) n = x.testBit (min n w) := by
  have h : BitVec.ofInt 64 (signedOf (w + 1) x) = (BitVec.ofNat (w + 1) x).signExtend 64 := by
    rw [signedOf_eq_toInt]; rfl
  rw [h, bit, BitVec.getLsbD_signExtend, BitVec.msb_eq_getLsbD_last, BitVec.getLsbD_ofNat, BitVec.getLsbD_ofNat]
  by_cases hw : n ≤ w
  · simp [hn, Nat.lt_succ_of_le hw, hw]
  · simp [hn, hw, Nat.le_of_not_le hw]

/-- The bits of an extracted field, with the width and the place that the descriptor `b` gives. -/
theorem bit_extField (a b : Word) (n : Nat) (hn : n < 64) :
    let lsb := b.toNat % 64
    let wid := b.toNat / 256 % 64 + 1
    let top := min wid (64 - lsb) - 1
    bit (extField a b) n =
      if n ≤ top then bit a (lsb + n) else if bit b 15 then bit a (lsb + top) else false := by
  intro lsb wid top
  have hlsb : lsb < 64 := Nat.mod_lt _ (by decide)
  have htop : top < wid := by omega
  have hext : extField a b = if bit b 15 then BitVec.ofInt 64 (signedOf (top + 1) (a.toNat / 2 ^ lsb % 2 ^ wid))
      else BitVec.ofNat 64 (a.toNat / 2 ^ lsb % 2 ^ wid) := by
    simp [extField, field, lsb, wid, top]
  rw [hext]
  by_cases hs : bit b 15 = true
  · rw [if_pos hs, bit_ofInt_signedOf _ _ _ hn, testBit_extracted]
    by_cases hle : n ≤ top
    · simp [hle, Nat.lt_of_le_of_lt hle htop]
    · simp [hle, hs, htop, Nat.min_eq_right (Nat.le_of_not_le hle)]
  · rw [if_neg hs, bit_ofNat _ _ hn, testBit_extracted]
    by_cases hle : n ≤ top
    · simp [hle, Nat.lt_of_le_of_lt hle htop]
    · have hout : n < wid → bit a (lsb + n) = false := fun hw => BitVec.getLsbD_of_ge a _ (by omega)
      simpa [hle, hs] using hout

/-- Settles O20: every member's register gets `extField`, whose bits `bit_extField` gives. -/
theorem fieldExtract : Obligations.FieldExtract := by
  unfold Obligations.FieldExtract
  intro s d a b
  exact ⟨fun i => extField (s.reg i a) (s.reg i b), State.setRegs_writes s d _, fun i n hn => bit_extField _ _ n hn⟩

end Sys2Proof.Machine
end

section
/-! SUPPORT. The comparison of exact values is that of the values they stand for (R53, R98). -/

namespace Sys2Proof.Machine

open Sys2Proof.Safety

theorem Ex.scaled_denominated (g : Bool) (k : Nat) (e : Int) : Denominated (Ex.scaled g k e) := by
  unfold Ex.scaled
  split
  · exact Nat.one_pos
  · exact Nat.two_pow_pos _

/-- Every bit pattern stands for a value whose denominator, if it has one, is not 0. -/
theorem Fmt.decode_denominated (f : Fmt) (bits : Nat) : Denominated (f.decode bits) := by
  unfold Fmt.decode
  split
  · exact Nat.one_pos
  · dsimp only
    split
    · trivial
    · split
      · split <;> trivial
      · split <;> exact Ex.scaled_denominated ..

theorem f32Of_denominated (w : Word) : Denominated (f32Of w) := Fmt.decode_denominated .f32 _

theorem isNan_of_valueOf_eq_none {x : Ex} (h : valueOf x = none) : x.isNan = true := by
  cases x with
  | nan => rfl
  | inf g => cases g <;> simp [valueOf] at h
  | fin g n d => simp [valueOf] at h

theorem isNan_of_valueOf_eq_some {x : Ex} {u : WithBot (WithTop ℚ)} (h : valueOf x = some u) : x.isNan = false := by
  cases x with
  | nan => simp [valueOf] at h
  | inf g => rfl
  | fin g n d => rfl

/-- Fractions compare as their cross products. -/
theorem intCast_div_lt_iff (p q : Int) {d e : Nat} (hd : 0 < d) (he : 0 < e) :
    (p : ℚ) / d < (q : ℚ) / e ↔ p * e < q * d := by
  rw [div_lt_div_iff₀ (by exact_mod_cast hd) (by exact_mod_cast he)]
  norm_cast

theorem intCast_div_eq_iff (p q : Int) {d e : Nat} (hd : 0 < d) (he : 0 < e) :
    (p : ℚ) / d = (q : ℚ) / e ↔ p * e = q * d := by
  rw [div_eq_div_iff (by exact_mod_cast hd.ne') (by exact_mod_cast he.ne')]
  norm_cast

section
variable {x y : Ex} {u v : WithBot (WithTop ℚ)}

/-- `Ex.lt` is the order of the values (R53). -/
theorem Ex.lt_iff_valueOf (hx : Denominated x) (hy : Denominated y) (hu : valueOf x = some u) (hv : valueOf y = some v) :
    x.lt y = true ↔ u < v := by
  cases x with
  | nan => simp [valueOf] at hu
  | inf g =>
    cases y with
    | nan => simp [valueOf] at hv
    | inf h => cases g <;> cases h <;> cases hu <;> cases hv <;> simp [Ex.lt]
    | fin h m e => cases g <;> cases hu <;> cases hv <;> simp [Ex.lt]
  | fin g n d =>
    cases hu
    cases y with
    | nan => simp [valueOf] at hv
    | inf h =>
      have htop : ((Ex.snum g n / d : ℚ) : WithTop ℚ) < ⊤ := WithTop.coe_lt_top _
      cases h <;> cases hv
      · simpa [Ex.lt] using WithBot.coe_lt_coe.mpr htop
      · simp [Ex.lt]
    | fin h m e =>
      cases hv
      simpa [Ex.lt] using (intCast_div_lt_iff (Ex.snum g n) (Ex.snum h m) hx hy).symm

/-- `Ex.eq` is the equality of the values; −0 equals +0 (R53, R98). -/
theorem Ex.eq_iff_valueOf (hx : Denominated x) (hy : Denominated y) (hu : valueOf x = some u) (hv : valueOf y = some v) :
    x.eq y = true ↔ u = v := by
  cases x with
  | nan => simp [valueOf] at hu
  | inf g =>
    cases y with
    | nan => simp [valueOf] at hv
    | inf h => cases g <;> cases h <;> cases hu <;> cases hv <;> simp [Ex.eq]
    | fin h m e => cases g <;> cases hu <;> cases hv <;> simp [Ex.eq]
  | fin g n d =>
    cases hu
    cases y with
    | nan => simp [valueOf] at hv
    | inf h => cases h <;> cases hv <;> simp [Ex.eq]
    | fin h m e =>
      cases hv
      simpa [Ex.eq] using (intCast_div_eq_iff (Ex.snum g n) (Ex.snum h m) hx hy).symm

theorem fcmpCode_of_isNan (h : x.isNan = true ∨ y.isNan = true) : fcmpCode x y = 8 := by
  simp [fcmpCode, h]

/-- The code of two values that are no NaN is that of their order. -/
theorem fcmpCode_of_valueOf (hx : Denominated x) (hy : Denominated y) (hu : valueOf x = some u) (hv : valueOf y = some v) :
    fcmpCode x y = if u < v then 1 else if u = v then 2 else 4 := by
  simp [fcmpCode, isNan_of_valueOf_eq_some hu, isNan_of_valueOf_eq_some hv, Ex.lt_iff_valueOf hx hy hu hv,
    Ex.eq_iff_valueOf hx hy hu hv]

end

/-- Settles O24: every member's register awaits `fcmpCode`, and f32 values have the denominators that
`fcmpCode_of_valueOf` asks for. -/
theorem floatCompare : Obligations.FloatCompare := by
  unfold Obligations.FloatCompare
  intro s d a b
  refine ⟨fun i => fcmpCode (f32Of (s.reg i a)) (f32Of (s.reg i b)), State.asyncRegs_delivers s d _, fun i => ?_⟩
  split
  · next u v hu hv =>
    have hcode := fcmpCode_of_valueOf (f32Of_denominated _) (f32Of_denominated _) hu hv
    refine ⟨fun h => hcode.trans (if_pos h), fun h => hcode.trans ?_, fun h => hcode.trans ?_⟩
    · rw [if_neg h.not_lt, if_pos h]
    · rw [if_neg h.not_gt, if_neg h.ne']
  · next hnone =>
    apply fcmpCode_of_isNan
    cases hu : valueOf (f32Of (s.reg i a)) with
    | none => exact .inl (isNan_of_valueOf_eq_none hu)
    | some u =>
      cases hv : valueOf (f32Of (s.reg i b)) with
      | none => exact .inr (isNan_of_valueOf_eq_none hv)
      | some v => exact (hnone u v hu hv).elim

end Sys2Proof.Machine
end

section
/-! SUPPORT. The fields of FCFG as every member reads them (Table 01.4, R208). -/

namespace Sys2Proof.Machine

open Sys2Proof.Safety

theorem State.onTiller_of_root_eq_none (s : State) (f : State → Result) (h : s.hart.root = none) : s.onTiller f = f s := by
  simp [State.onTiller, h]

theorem State.sysRead_fcfg (s : State) (i : Nat) : s.sysRead i 0x081 = BitVec.ofNat 64 (s.hart.fcfg i) := by
  simp [State.sysRead, vectorReg, isHwm, isTxw, isTxn]

theorem toNat_word_of_lt {n : Nat} (h : n < 2 ^ 64) : (BitVec.ofNat 64 n).toNat = n := by
  rw [BitVec.toNat_ofNat, Nat.mod_eq_of_lt h]

theorem b2n_le_one (b : Bool) : b2n b ≤ 1 := by cases b <;> decide

section
variable {h : Hart} {i : Nat}

theorem Hart.fcfg_lt (hlen : h.len ≤ 128) : h.fcfg i < 2 ^ 64 := by
  have := b2n_le_one h.ringf
  unfold Hart.fcfg
  omega

/-- FCFG.MEMBER; LEN and RINGF do not reach into it. -/
theorem Hart.fcfg_member (hlen : h.len ≤ 128) (hi : i < h.len) : h.fcfg i / 2 ^ 9 % 2 ^ 7 = i := by
  have := b2n_le_one h.ringf
  unfold Hart.fcfg
  omega

/-- FCFG.LEN. -/
theorem Hart.fcfg_len (hlen : h.len ≤ 128) : h.fcfg i % 2 ^ 8 = h.len := by
  unfold Hart.fcfg
  omega

end

section
variable {s : State} {i : Nat}

theorem State.sysRead_fcfg_toNat (hlen : s.hart.len ≤ 128) : (s.sysRead i 0x081).toNat = s.hart.fcfg i := by
  rw [State.sysRead_fcfg, toNat_word_of_lt (Hart.fcfg_lt hlen)]

/-- FID writes every member's position in the furrow. -/
theorem execFid_writes (d : Reg) (hroot : s.hart.root = none) : Writes s d (fun i => BitVec.ofNat 64 i) (exec (.fid d) s) := by
  show Writes s d _ (execFid d s)
  rw [execFid, State.onTiller_of_root_eq_none s _ hroot]
  exact State.setRegs_writes s d _

/-- FLEN writes the number of members. -/
theorem execFlen_writes (d : Reg) (hroot : s.hart.root = none) :
    Writes s d (fun _ => BitVec.ofNat 64 s.hart.len) (exec (.flen d) s) := by
  show Writes s d _ (execFlen d s)
  rw [execFlen, State.onTiller_of_root_eq_none s _ hroot]
  exact State.setRegs_writes s d _

end

/-- Settles O39: `execFid_writes` and `execFlen_writes` give the words, and `Hart.fcfg_member` and `Hart.fcfg_len`
say that FCFG holds them; a position and a length of at most 128 keep their values as 64-bit words. -/
theorem furrowIdentity : Obligations.FurrowIdentity := by
  unfold Obligations.FurrowIdentity
  intro s d hroot hlen
  refine ⟨⟨_, execFid_writes d hroot, fun i hi => ?_⟩, ⟨_, execFlen_writes d hroot, fun i _ => ?_⟩⟩
  · have hword : (BitVec.ofNat 64 i).toNat = i := toNat_word_of_lt (by omega)
    refine ⟨?_, hword⟩
    rw [hword, State.sysRead_fcfg_toNat hlen, Hart.fcfg_member hlen hi]
  · have hword : (BitVec.ofNat 64 s.hart.len).toNat = s.hart.len := toNat_word_of_lt (by omega)
    refine ⟨hword, ?_⟩
    rw [hword, State.sysRead_fcfg_toNat hlen, Hart.fcfg_len hlen]

end Sys2Proof.Machine
end
